-- ==== Sys2Proof/Word.lean ====
section
/-!
DEFINITION. Word types and their plainest arithmetic (00_scope R3 to R7).
-/
namespace Sys2Proof

/-- One byte. -/
abbrev Byte := BitVec 8
/-- The 32-bit word of every register (R102, R130). -/
abbrev Word := BitVec 32
/-- The 64-bit value of a pair or an address (R110, R136). -/
abbrev DWord := BitVec 64
/-- A set of lanes: bit i stands for lane i (R104). -/
abbrev Lanes := BitVec 32

/-- The number of threads of a wave, `WAVEWIDTH` (R37, R107). -/
abbrev waveWidth : Nat := 32

/-- A truth value as the word 1 or 0 (R111, R133). -/
def boolWord (b : Bool) : Word := if b then 1#32 else 0#32

end Sys2Proof
end

