-- ==== Sys2Proof/Machine/Bits.lean ====
section
/-!
DEFINITION. Bit fields, sign extension, saturation, byte order and lane sets (R3, R6, R7).
-/
namespace Sys2Proof

/-- `SatS(x, n)` of R7. -/
def satS (x : Int) (n : Nat) : Int :=
  if x < -(2 ^ (n - 1) : Nat) then -(2 ^ (n - 1) : Nat)
  else if x > (2 ^ (n - 1) : Nat) - 1 then (2 ^ (n - 1) : Nat) - 1 else x

/-- `SatU(x, n)` of R7. -/
def satU (x : Int) (n : Nat) : Int :=
  if x < 0 then 0 else if x > (2 ^ n : Nat) - 1 then (2 ^ n : Nat) - 1 else x

/-- Two words as a 64-bit value, low word first (R110, R136). -/
def joinWords (lo hi : Word) : DWord := hi ++ lo

/-- The low word of a 64-bit value. -/
def lowWord (x : DWord) : Word := x.extractLsb' 0 32

/-- The high word of a 64-bit value. -/
def highWord (x : DWord) : Word := x.extractLsb' 32 32

/-- The lane numbers of a wave in ascending order. -/
def laneList : List Nat := List.range waveWidth

/-- The lanes of a set, ascending. -/
def lanesOf (m : Lanes) : List Nat := laneList.filter fun i => m.getLsbD i

/-- The set of the lanes that a test admits. -/
def lanesWhere (p : Nat → Bool) : Lanes :=
  laneList.foldl (fun acc i => if p i then acc ||| (1#32 <<< i) else acc) 0#32

/-- The lowest lane of a set. -/
def lowestLane (m : Lanes) : Option Nat := laneList.find? fun i => m.getLsbD i

/-- The count of 1 bits below bit `n`. -/
def popBits (x : Nat) : Nat → Nat
  | 0 => 0
  | n + 1 => popBits x n + (if x.testBit n then 1 else 0)

/-- The count of 1 bits of a word (R111, R130). -/
def popcount (x : Word) : Nat := popBits x.toNat 32

/-- The count of leading 0 bits of a word, 32 for 0 (R111, R130). -/
def leadingZeros (x : Word) : Nat := if x = 0#32 then 32 else 31 - x.toNat.log2

/-- The count of trailing 0 bits of a word, 32 for 0 (R111, R130). -/
def trailingZeros (x : Word) : Nat :=
  match laneList.find? (fun i => x.getLsbD i) with
  | some i => i
  | none => 32

/-- The bytes of a value, the lowest first (R3). -/
def bytesOf (x : Nat) : Nat → List Byte
  | 0 => []
  | n + 1 => BitVec.ofNat 8 (x % 256) :: bytesOf (x / 256) n

/-- The value of bytes, the lowest first (R3). -/
def ofBytes : List Byte → Nat
  | [] => 0
  | b :: bs => b.toNat + 256 * ofBytes bs

/-- The words of a value, the lowest first. -/
def wordsOf (x : Nat) : Nat → List Word
  | 0 => []
  | n + 1 => BitVec.ofNat 32 x :: wordsOf (x / 2 ^ 32) n

/-- The value of words, the lowest first. -/
def ofWords : List Word → Nat
  | [] => 0
  | w :: ws => w.toNat + 2 ^ 32 * ofWords ws

/-- Bits `hi` down to `lo` of a number, as a number (R6). -/
def bits (x hi lo : Nat) : Nat := (x >>> lo) % 2 ^ (hi + 1 - lo)

/-- The exact quotient rounded up. -/
def ceilDiv (a b : Nat) : Nat := (a + b - 1) / b

/-- `xs` with element `i` changed by `f`; the same list when there is no element `i`. -/
def updAt {α : Type} (f : α → α) : List α → Nat → List α
  | [], _ => []
  | x :: xs, 0 => f x :: xs
  | x :: xs, i + 1 => x :: updAt f xs i

end Sys2Proof
end

