-- ==== Sys2Proof/Machine/Float.lean ====
section
/-!
DEFINITION. Number formats and rounding (06_number_formats.md): decoding, exact values, exact arithmetic, rounding in
every mode, preparation of sources and finishing of results (R159, R160).
-/
namespace Sys2Proof

/-- The element formats of R140. -/
inductive Fmt where
  | f64 | f32 | f16 | bf16 | e5m2 | e4m3 | e2m1
  deriving DecidableEq, Repr

/-- Exponent field width, mantissa width and bias (R140). -/
def Fmt.exp : Fmt → Nat
  | .f64 => 11 | .f32 => 8 | .f16 => 5 | .bf16 => 8 | .e5m2 => 5 | .e4m3 => 4 | .e2m1 => 2
def Fmt.man : Fmt → Nat
  | .f64 => 52 | .f32 => 23 | .f16 => 10 | .bf16 => 7 | .e5m2 => 2 | .e4m3 => 3 | .e2m1 => 1
def Fmt.bias : Fmt → Nat
  | .f64 => 1023 | .f32 => 127 | .f16 => 15 | .bf16 => 127 | .e5m2 => 15 | .e4m3 => 7 | .e2m1 => 1
def Fmt.width (f : Fmt) : Nat := 1 + f.exp + f.man
/-- The format has infinities (R140). -/
def Fmt.hasInf : Fmt → Bool
  | .e4m3 | .e2m1 => false
  | _ => true
/-- `.ftz` acts on the format (R152). -/
def Fmt.flushes : Fmt → Bool
  | .f64 | .f32 | .f16 | .bf16 => true
  | _ => false
/-- The magnitude bits of the largest finite value (R140). -/
def Fmt.maxFinite : Fmt → Nat
  | .e4m3 => 0x7E
  | .e2m1 => 0x7
  | f => (2 ^ f.exp - 1) * 2 ^ f.man - 1
def Fmt.infBits (f : Fmt) : Nat := (2 ^ f.exp - 1) * 2 ^ f.man
/-- `QNaN(f)` (R142); E2M1 has none, and a NaN becomes 0x0 in it (R149). -/
def Fmt.qnan : Fmt → Nat
  | .e4m3 => 0x7F
  | .e2m1 => 0
  | .e5m2 => 0x7E
  | f => f.infBits + 2 ^ (f.man - 1)
def Fmt.signBit (f : Fmt) : Nat := 2 ^ (f.exp + f.man)

/-- An exact value: NaN, an infinity, or a finite value of magnitude `m` × 2^`e`; zeros keep their sign. -/
inductive XVal where
  | nan
  | inf (neg : Bool)
  | fin (neg : Bool) (m : Nat) (e : Int)
  deriving DecidableEq, Repr

namespace XVal

def zero (neg : Bool) : XVal := fin neg 0 0
def ofInt (x : Int) : XVal := fin (decide (x < 0)) x.natAbs 0
def isNan : XVal → Bool
  | nan => true
  | _ => false
def isZero : XVal → Bool
  | fin _ m _ => m == 0
  | _ => false
def isInf : XVal → Bool
  | inf _ => true
  | _ => false
/-- The sign of a value that is no NaN. -/
def sign : XVal → Bool
  | nan => false
  | inf n => n
  | fin n _ _ => n
def neg : XVal → XVal
  | nan => nan
  | inf n => inf (!n)
  | fin n m e => fin (!n) m e
def abs : XVal → XVal
  | nan => nan
  | inf _ => inf false
  | fin _ m e => fin false m e

/-- The signed integer v × 2^(−e0) of a finite value whose exponent is at least `e0`. -/
def scaled (e0 : Int) (n : Bool) (m : Nat) (e : Int) : Int :=
  let x : Int := m * 2 ^ (e - e0).toNat
  if n then -x else x

/-- A finite value is less than another; zeros are equal. -/
def finLt (n1 : Bool) (m1 : Nat) (e1 : Int) (n2 : Bool) (m2 : Nat) (e2 : Int) : Bool :=
  let e0 := min e1 e2
  decide (scaled e0 n1 m1 e1 < scaled e0 n2 m2 e2)

/-- Numeric order of values that are no NaN. -/
def lt : XVal → XVal → Bool
  | nan, _ => false
  | _, nan => false
  | inf a, inf b => a && !b
  | inf a, fin _ _ _ => a
  | fin _ _ _, inf b => !b
  | fin n1 m1 e1, fin n2 m2 e2 => finLt n1 m1 e1 n2 m2 e2

/-- Numeric equality of values that are no NaN, with +0 == −0. -/
def eq (a b : XVal) : Bool := !a.isNan && !b.isNan && !lt a b && !lt b a

/-- A product; 0 × ∞ is NaN (R162), a zero product has the exclusive-or of the signs (R150). -/
def mul : XVal → XVal → XVal
  | nan, _ => nan
  | _, nan => nan
  | inf a, inf b => inf (a != b)
  | inf a, fin b m _ => if m = 0 then nan else inf (a != b)
  | fin a m _, inf b => if m = 0 then nan else inf (a != b)
  | fin a m e, fin b m' e' => fin (a != b) (m * m') (e + e')

/-- A sum; ∞ − ∞ is NaN (R162); `down` is mode `rm`, in which an exact cancellation gives −0 (R150). -/
def add (down : Bool) : XVal → XVal → XVal
  | nan, _ => nan
  | _, nan => nan
  | inf a, inf b => if a = b then inf a else nan
  | inf a, fin _ _ _ => inf a
  | fin _ _ _, inf b => inf b
  | fin a m e, fin b m' e' =>
    let e0 := min e e'
    let x := scaled e0 a m e + scaled e0 b m' e'
    if x = 0 then fin (if a = b then a else down) 0 0 else fin (decide (x < 0)) x.natAbs e0

/-- The value times 2^k. -/
def scale (k : Int) : XVal → XVal
  | fin n m e => fin n m (e + k)
  | v => v

/-- The magnitude of a finite value as a quotient. -/
def ratio (m : Nat) (e : Int) : Nat × Nat := if 0 ≤ e then (m * 2 ^ e.toNat, 1) else (m, 2 ^ (-e).toNat)

/-- The smaller value, −0 before +0 (R163); neither is a NaN. -/
def minOf (a b : XVal) : XVal := if lt b a || (eq a b && b.sign) then b else a
def maxOf (a b : XVal) : XVal := if lt a b || (eq a b && a.sign) then b else a

end XVal

/-- `Decode(e, f)` (R141). -/
def decodeF (f : Fmt) (bits_ : Nat) : XVal :=
  let s := bits_.testBit (f.exp + f.man)
  let x := (bits_ >>> f.man) % 2 ^ f.exp
  let m := bits_ % 2 ^ f.man
  let low : Int := 1 - (f.bias : Int) - f.man
  if x = 0 then .fin s m low
  else if x = 2 ^ f.exp - 1 && f.hasInf then (if m = 0 then .inf s else .nan)
  else if f = .e4m3 && x = 15 && m = 7 then .nan
  else .fin s (2 ^ f.man + m) (x - f.bias - f.man)

/-- The rounding modes (R148); `sr` carries its draw (R151). -/
inductive RMode where
  | rn | rz | rp | rm
  | sr (rnd : Nat)
  deriving DecidableEq, Repr

def RMode.isDown : RMode → Bool
  | .rm => true
  | _ => false

/-- The grid value chosen between `k` and `k + 1` for a remainder `r` of `d` (R148, R151). -/
def roundUp (mode : RMode) (neg : Bool) (k r d : Nat) : Bool :=
  if r = 0 then false
  else match mode with
    | .rn => d < 2 * r || (d = 2 * r && k % 2 = 1)
    | .rz => false
    | .rp => !neg
    | .rm => neg
    | .sr rnd => rnd * d < r * 65536

/-- floor(log2(num/den)) of a positive quotient. -/
def log2Ratio (num den : Nat) : Int :=
  let g : Int := (num.log2 : Int) - den.log2
  -- 2^g ≤ num/den, or it is one less
  if g < 0 then (if den ≤ num * 2 ^ (-g).toNat then g else g - 1)
  else (if den * 2 ^ g.toNat ≤ num then g else g - 1)

/-- The magnitude encoding of a result beyond the largest finite value (R149). -/
def overflowBits (f : Fmt) (mode : RMode) (neg : Bool) : Nat :=
  if !f.hasInf then f.maxFinite
  else match mode with
    | .rn => f.infBits
    | .rz => f.maxFinite
    | .rp => if neg then f.maxFinite else f.infBits
    | .rm => if neg then f.infBits else f.maxFinite
    | .sr _ => f.maxFinite

/-- `Round` of the exact magnitude num/den with a sign (R147 to R149), as an encoding. -/
def roundRatio (f : Fmt) (mode : RMode) (neg : Bool) (num den : Nat) : Nat :=
  let sgn := if neg then f.signBit else 0
  if num = 0 then sgn
  else
    let emin : Int := 1 - (f.bias : Int)
    let g := max (log2Ratio num den) emin
    let q := g - f.man
    let n := if q < 0 then num * 2 ^ (-q).toNat else num
    let d := if q < 0 then den else den * 2 ^ q.toNat
    let k := n / d
    let k := if roundUp mode neg k (n % d) d then k + 1 else k
    let mag := (g - emin).toNat * 2 ^ f.man + k
    sgn + (if f.maxFinite < mag then overflowBits f mode neg else mag)

/-- `Round` of a value, with the results of R149 for infinities and NaN. -/
def roundX (f : Fmt) (mode : RMode) : XVal → Nat
  | .nan => f.qnan
  | .inf neg =>
    if f.hasInf then (if neg then f.signBit else 0) + f.infBits
    else if f = .e4m3 then f.qnan else (if neg then f.signBit else 0) + f.maxFinite
  | .fin neg m e => let p := XVal.ratio m e; roundRatio f mode neg p.1 p.2

/-- An encoding is subnormal. -/
def isSubnormal (f : Fmt) (b : Nat) : Bool := (b >>> f.man) % 2 ^ f.exp = 0 && b % 2 ^ f.man != 0

/-- `Prep` (R159). -/
def prepF (f : Fmt) (ftz absf negf : Bool) (b : Nat) : XVal :=
  let v := decodeF f b
  let v := if ftz && f.flushes && isSubnormal f b then XVal.zero v.sign else v
  let v := if absf then v.abs else v
  if negf then v.neg else v

/-- `Finish` of an encoding already rounded: `.ftz`, then `.clamp` (R160). -/
def finishBits (f : Fmt) (ftz clamp : Bool) (r : Nat) : Nat :=
  let r := if ftz && f.flushes && isSubnormal f r then (if r.testBit (f.exp + f.man) then f.signBit else 0) else r
  if clamp then
    match decodeF f r with
    | .nan => 0
    | .inf neg => if neg then 0 else f.bias * 2 ^ f.man
    | .fin neg m _ =>
      if neg || m = 0 then 0
      else if f.bias * 2 ^ f.man < r then f.bias * 2 ^ f.man else r
  else r

/-- `Finish(x, f, m)` (R160). -/
def finishF (f : Fmt) (mode : RMode) (ftz clamp : Bool) (x : XVal) : Nat := finishBits f ftz clamp (roundX f mode x)

/-- `SrBits` (R151). -/
def srBits (seed : Word) (lane k : Nat) : Nat :=
  let h := seed ^^^ (BitVec.ofNat 32 lane <<< 24) ^^^ (BitVec.ofNat 32 k <<< 16)
  let h := (h ^^^ (h >>> 16)) * 0x7FEB352D#32
  let h := (h ^^^ (h >>> 15)) * 0x846CA68B#32
  let h := h ^^^ (h >>> 16)
  (h.extractLsb' 0 16).toNat

/-- Rounds an exact value to an integer (R166, R173). -/
def roundInt (mode : RMode) (neg : Bool) (num den : Nat) : Nat :=
  let k := num / den
  if roundUp mode neg k (num % den) den then k + 1 else k

/-- The f32 word of a value rounded to nearest even. -/
def f32Bits (x : XVal) : Word := BitVec.ofNat 32 (roundX .f32 .rn x)

end Sys2Proof
end

