-- ==== Sys2Proof/Syntax.lean ====
section
/-!
DEFINITION. The syntax of the machine's steps: one constructor of `Instr` per row of the opcode table. The table has
two sorts of rows: instructions that an issue group executes, and events of the device, each an indivisible step.
-/
namespace Sys2Proof

/-- The slice of an instruction stream (R41). -/
inductive Slice where
  | a | x
  deriving DecidableEq, Repr

/-- Cause codes of R405. -/
inductive Cause where
  | unassignedOp | reservedBits | sliceRole | regRange | sregOwner
  | ofileOutsideRun | queueInRun | runForm | loopDiverged | loopStep | loopRange | loopInactive
  | queueUnbound | queueDir | queueBind | queueDeadlock
  | misaligned | scratchRange | constRange | addrNoncanon | pageAbsent | pageRead | pageWrite | pageExec
  | pageEntry | pageWalk | atomTarget | ringForm | hostAtomic | hostRead
  | barState | barTimeout | mmaLatch | mmaPartial | islandFn | islandLink | islandDesc
  | graphState | graphImage | jobForm | fabricShare | jobSlot
  | copyForm | layoutBad | copyTarget
  | trap | brk | pmaskState | pmaskLong | ctxError | killed | shutdown
  | launchDesc | launchFit | launchImage
  deriving DecidableEq, Repr

/-- The fields of a lane instruction (R70, R71): the base word's D, A and B, the modifier word's fields, and the
literal word when one follows. With `x = false` no modifier word is present and its fields hold the values of R72. -/
structure LaneFields where
  x : Bool
  d : BitVec 8
  a : BitVec 8
  b : BitVec 8
  c : BitVec 8
  s : BitVec 7
  mode : BitVec 4
  flags : BitVec 8
  lit : Option Word
  deriving DecidableEq, Repr

/-- The fields of a group instruction (R82): the literal word is present exactly when X = 1. -/
structure GroupFields where
  sd : BitVec 7
  sa : BitVec 7
  sb : BitVec 7
  lit : Option Word
  deriving DecidableEq, Repr

/-- Conditions of `icmp` and `scmp` (R111, R133). -/
inductive IntCond where
  | eq | ne | lt | le | ltu | leu
  deriving DecidableEq, Repr

/-- Conditions of `fcmp` (R164). -/
inductive FloatCond where
  | eq | ne | lt | le | un | ord
  deriving DecidableEq, Repr

/-- Directions of `fround` (R166). -/
inductive RoundDir where
  | rn | rz | rp | rm
  deriving DecidableEq, Repr

/-- The conversions of opcode 0x22, in the order of their function values (R172). -/
inductive CvtOp where
  | f32F64 | f64F32 | f16F32 | bf16F32 | f32F16Lo | f32F16Hi | f32Bf16Lo | f32Bf16Hi
  | i32F32 | ui32F32 | f32I32 | f32Ui32 | i32F64 | ui32F64 | f64I32 | f64Ui32
  | i64F64 | ui64F64 | f64I64 | f64Ui64
  deriving DecidableEq, Repr

/-- The conversions of opcode 0x23, in the order of their function values (R174). -/
inductive CvtSmallOp where
  | e4m3F32 | e5m2F32 | e2m1F32 | e4m3F16 | e5m2F16 | f32E4m3 | f32E5m2 | f32E2m1 | f16E4m3 | f16E5m2
  | scaleE4m3 | scaleE2m1 | bs4e4m3K0 | bs4e4m3K1 | bs4e2m1K0 | bs4e2m1K1 | bs4e2m1K2 | bs4e2m1K3
  | f32Bs4e4m3 | f32Bs4e2m1
  deriving DecidableEq, Repr

/-- The shuffles (R216). -/
inductive ShflOp where
  | idx | up | dn | xor
  deriving DecidableEq, Repr

/-- The quad swaps (R218). -/
inductive QswpOp where
  | h | v | d
  deriving DecidableEq, Repr

/-- The operations of reductions and scans (R219). -/
inductive RedOp where
  | add | min | max | and | or | xor | fadd | fmin | fmax
  deriving DecidableEq, Repr

/-- Data sizes (R5). -/
inductive Size where
  | b | h | w | d | x
  deriving DecidableEq, Repr

/-- Operations of `aatom` and `ared` (R260). -/
inductive AtomOp where
  | add | sub | min | max | minu | maxu | and | or | xor | xchg | inc | dec | fadd | fmin | fmax
  deriving DecidableEq, Repr

/-- Sizes of `acas` (R252). -/
inductive CasSize where
  | w | d | x
  deriving DecidableEq, Repr

/-- Formats of `mma` and `mmasp` (R316). -/
inductive MmaFmt where
  | f16 | bf16 | e4m3 | e5m2 | i8 | bs4e2m1 | bs4e4m3
  deriving DecidableEq, Repr

/-- Formats of `fdot16` (R322). -/
inductive Fp8Fmt where
  | e4m3 | e5m2
  deriving DecidableEq, Repr

/-- Kinds of fences (R285). -/
inductive FenceKind where
  | acq | rel | ar | sc
  deriving DecidableEq, Repr

/-- Conditions of `sbr` (R187). -/
inductive SbrCond where
  | always | z | nz | lt | ge
  deriving DecidableEq, Repr

/-- Directions of `cpy.tile` (R388). -/
inductive TileDir where
  | gs | sg | gq
  deriving DecidableEq, Repr

/-- Directions of `cpy.lin` (R388). -/
inductive LinDir where
  | gg | gs | sg
  deriving DecidableEq, Repr

/-- Island kinds (R330). -/
inductive IslandKind where
  | intersection | filter | raster | blend
  deriving DecidableEq, Repr

/-- A wave of a workgroup: the model's name of the workgroup and the `WAVEID`. -/
structure WaveRef where
  wg : Nat
  wave : Nat
  deriving DecidableEq, Repr

/-- An object on which a thread is parked and that the beacon timer watches (R299). -/
inductive WatchObj where
  | named (wg bar : Nat)
  | clusterBar (launch cg bar : Nat)
  | ring (wg : Nat) (empty : Bool) (ring slot : Nat)
  | grid (launch : Nat)
  | mwait (w : WaveRef) (sl : Slice) (k : Nat) (pc : Word)
  | loopEnd (w : WaveRef) (sl : Slice) (k : Nat)
  deriving DecidableEq, Repr

/-- A host access to device memory (R460), or, with `own`, to host memory (R303). An access to device memory may stay in the
host's caches where the bias lets it. -/
structure HostAccess where
  addr : Nat
  size : Nat
  write : Option (List Byte)
  cached : Bool
  own : Bool
  deriving DecidableEq, Repr

/-- The AtomicOps of PCI Express (R258, R466). -/
inductive AtomicOpKind where
  | fetchAdd | swap | cas
  deriving DecidableEq, Repr

/-- A host AtomicOp to device memory (R466), or, with `own`, an atomic of the host on host memory: operand size in bytes,
operand, and the compare operand of CAS. -/
structure HostAtomic where
  op : AtomicOpKind
  addr : Nat
  size : Nat
  operand : Nat
  compare : Nat
  own : Bool
  deriving DecidableEq, Repr

/-- A unit that can be gated (R479). -/
inductive UnitRef where
  | matrix (cluster core quarter : Nat)
  | island (cluster k : Nat)
  | copy (cluster : Nat)
  | cluster (cluster : Nat)
  deriving DecidableEq, Repr

/-- Where an uncorrectable error struck (R35, R33). The scratchpad has no place here: R33 protects it but no row of R35 says
what an error there does (DESIGN CHOICE, log entry 138). `freeSlots` is the free-slot counter of a request channel. -/
inductive ErrPlace where
  | cleanLine (pa : Nat)
  | dirtyLine (pa : Nat)
  | dram (pa : Nat)
  | vReg (w : WaveRef) (reg lane : Nat)
  | oReg (w : WaveRef) (reg lane : Nat)
  | sReg (w : WaveRef) (reg : Nat)
  | mReg (w : WaveRef) (sl : Slice) (reg : Nat)
  | queueSlot (w : WaveRef) (q lane pos : Nat)
  | accumulator (w : WaveRef) (index : Nat)
  | control (slot : Nat)
  | configStore (cluster ctx : Nat)
  | freeSlots (cluster chan : Nat)
  deriving DecidableEq, Repr

/-- Through which view a register write comes (R426): the physical function's or one interface's. -/
inductive RegView where
  | physical
  | interface (vi : Nat)
  deriving DecidableEq, Repr

/-- The register fields that REGISTER_WRITE writes: those without a behaviour of their own. -/
inductive RegName where
  | slotRingbase (slot : Nat) | slotPriority (slot : Nat) | slotGang (slot : Nat) | slotRinglog (slot : Nat)
  | slotFaultbase (slot : Nat) | slotFaultcount (slot : Nat) | slotFaultread (slot : Nat) | slotOverflow (slot : Nat)
  | slotSlice (slot : Nat) | slotShare (slot cluster : Nat) | slotAssign (slot : Nat)
  | viOn (vi : Nat) | viInvaddr (vi : Nat) | viInvpages (vi : Nat) | viWays (vi : Nat) | viCtimeout (vi : Nat)
  | viBeacon (vi : Nat)
  | devMode | devAgeing | devWarn | devEvents | devShutaddr | counter (k : Fin 12)
  | savebase | savepages | pinBase (k : Nat) | pinPages (k : Nat)
  | attestNonce (word : Nat) | attestInterface
  | vectorMask (fn vec : Nat)
  deriving DecidableEq, Repr

/-- One constructor per row of spec/opcode_table.json, in the table's order. -/
inductive Instr where
  /-- IADD (R130): Adds two 32-bit sources per lane, with optional saturation and a carry-out mask. -/
  | iadd (f : LaneFields)
  /-- ISUB (R130): Subtracts two 32-bit sources per lane, with optional saturation and a no-borrow mask. -/
  | isub (f : LaneFields)
  /-- IMUL (R130): Writes the low 32 bits of the signed product per lane. -/
  | imul (f : LaneFields)
  /-- IMULHI (R130): Writes the high 32 bits of the signed product per lane. -/
  | imulhi (f : LaneFields)
  /-- IMULHU (R130): Writes the high 32 bits of the unsigned product per lane. -/
  | imulhu (f : LaneFields)
  /-- IMAD (R130): Computes a signed multiply-add per lane, with optional saturation. -/
  | imad (f : LaneFields)
  /-- AND (R130): Bitwise AND per lane. -/
  | and (f : LaneFields)
  /-- OR (R130): Bitwise OR per lane. -/
  | or (f : LaneFields)
  /-- XOR (R130): Bitwise exclusive OR per lane. -/
  | xor (f : LaneFields)
  /-- ANDN (R130): Computes a AND NOT b per lane. -/
  | andn (f : LaneFields)
  /-- NOT (R130): Bitwise complement per lane. -/
  | not (f : LaneFields)
  /-- SHL (R130): Logical left shift per lane, giving 0 for shifts of 32 or more. -/
  | shl (f : LaneFields)
  /-- SHR (R130): Logical right shift per lane. -/
  | shr (f : LaneFields)
  /-- SAR (R130): Arithmetic right shift per lane by at most 31. -/
  | sar (f : LaneFields)
  /-- ROTL (R130): Rotates each lane's word left by b[4:0]. -/
  | rotl (f : LaneFields)
  /-- BFE (R132): Extracts a sign-extended bit field per lane. -/
  | bfe (f : LaneFields)
  /-- BFEU (R132): Extracts a zero-extended bit field per lane. -/
  | bfeu (f : LaneFields)
  /-- BFI (R132): Inserts a bit field of a into c per lane. -/
  | bfi (f : LaneFields)
  /-- BFREV (R130): Reverses the bits of each lane's word. -/
  | bfrev (f : LaneFields)
  /-- POPC (R130): Counts set bits per lane. -/
  | popc (f : LaneFields)
  /-- CLZ (R130): Counts leading zero bits per lane. -/
  | clz (f : LaneFields)
  /-- CTZ (R130): Counts trailing zero bits per lane. -/
  | ctz (f : LaneFields)
  /-- IMIN (R130): Signed minimum per lane. -/
  | imin (f : LaneFields)
  /-- IMAX (R130): Signed maximum per lane. -/
  | imax (f : LaneFields)
  /-- UIMIN (R130): Unsigned minimum per lane. -/
  | uimin (f : LaneFields)
  /-- UIMAX (R130): Unsigned maximum per lane. -/
  | uimax (f : LaneFields)
  /-- IABS (R130): Signed absolute value per lane, optionally saturated. -/
  | iabs (f : LaneFields)
  /-- INEG (R130): Signed negation per lane, optionally saturated. -/
  | ineg (f : LaneFields)
  /-- ICMP (R133): Compares integers per lane under a condition selected by the function, writing 1 or 0 or a mask bit. -/
  | icmp (cc : IntCond) (f : LaneFields)
  /-- MOV (R133): Copies source A to the destination per lane. -/
  | mov (f : LaneFields)
  /-- MOVS (R134): Reads a special register into each lane. -/
  | movs (f : LaneFields)
  /-- SEL (R133): Selects a or b per lane by a mask bit. -/
  | sel (f : LaneFields)
  /-- PRMT (R135): Builds each result byte by pick, fill, invert and zero from a byte selector. -/
  | prmt (f : LaneFields)
  /-- LEA (R135): Computes a + (b << sh) per lane. -/
  | lea (f : LaneFields)
  /-- SAD8 (R135): Adds the sum of absolute byte differences to c per lane. -/
  | sad8 (f : LaneFields)
  /-- IDOT4 (R135): Adds a signed 4-byte dot product to c per lane. -/
  | idot4 (f : LaneFields)
  /-- IDOT2 (R135): Adds a signed 2-half dot product to c per lane. -/
  | idot2 (f : LaneFields)
  /-- IADD64 (R137): Adds 64-bit register pairs per lane. -/
  | iadd64 (f : LaneFields)
  /-- ISUB64 (R137): Subtracts 64-bit register pairs per lane. -/
  | isub64 (f : LaneFields)
  /-- IMUL64 (R137): Writes the low 64 bits of a 64-bit product per lane in two passes. -/
  | imul64 (f : LaneFields)
  /-- SHL64 (R137): Shifts a 64-bit pair left per lane. -/
  | shl64 (f : LaneFields)
  /-- SHR64 (R137): Shifts a 64-bit pair right per lane. -/
  | shr64 (f : LaneFields)
  /-- SEXT (R137): Sign-extends a field of width b into a 64-bit pair per lane. -/
  | sext (f : LaneFields)
  /-- ZEXT (R137): Zero-extends a field of width b into a 64-bit pair per lane. -/
  | zext (f : LaneFields)
  /-- FADD (R161): FP32 addition per lane with one rounding. -/
  | fadd (f : LaneFields)
  /-- FSUB (R161): FP32 subtraction per lane. -/
  | fsub (f : LaneFields)
  /-- FMUL (R161): FP32 multiplication per lane. -/
  | fmul (f : LaneFields)
  /-- FFMA (R161): FP32 fused multiply-add per lane with one rounding. -/
  | ffma (f : LaneFields)
  /-- FMIN (R163): FP32 minimum per lane, NaN-propagating. -/
  | fmin (f : LaneFields)
  /-- FMAX (R163): FP32 maximum per lane, NaN-propagating. -/
  | fmax (f : LaneFields)
  /-- FMINNUM (R163): FP32 minimum per lane that returns the non-NaN operand. -/
  | fminnum (f : LaneFields)
  /-- FMAXNUM (R163): FP32 maximum per lane that returns the non-NaN operand. -/
  | fmaxnum (f : LaneFields)
  /-- FCMP (R164): Compares FP32 values per lane under a selected condition, writing 1 or 0 or a mask bit. -/
  | fcmp (cc : FloatCond) (f : LaneFields)
  /-- FCLASS (R165): Writes a one-hot class word for each lane's FP32 value. -/
  | fclass (f : LaneFields)
  /-- FFRACT (R166): Writes the fractional part of each lane's FP32 value. -/
  | ffract (f : LaneFields)
  /-- FLDEXP (R166): Scales each lane's FP32 value by a power of two. -/
  | fldexp (f : LaneFields)
  /-- FFREXP (R166): Splits each lane's FP32 value into mantissa and exponent in a register pair. -/
  | ffrexp (f : LaneFields)
  /-- FROUND (R166): Rounds each lane's FP32 value to an integer value in the direction the function selects. -/
  | fround (dir : RoundDir) (f : LaneFields)
  /-- FRCP (R167): Computes a reciprocal on the transcendental unit. -/
  | frcp (f : LaneFields)
  /-- FRSQ (R167): Computes a reciprocal square root on the transcendental unit. -/
  | frsq (f : LaneFields)
  /-- FSQRT (R167): Computes a correctly rounded square root. -/
  | fsqrt (f : LaneFields)
  /-- FEXP2 (R167): Computes 2^x on the transcendental unit. -/
  | fexp2 (f : LaneFields)
  /-- FLOG2 (R167): Computes log2 x on the transcendental unit. -/
  | flog2 (f : LaneFields)
  /-- FSINPI (R167): Computes sin(pi x) on the transcendental unit. -/
  | fsinpi (f : LaneFields)
  /-- FCOSPI (R167): Computes cos(pi x) on the transcendental unit. -/
  | fcospi (f : LaneFields)
  /-- FTANH (R167): Computes tanh x on the transcendental unit. -/
  | ftanh (f : LaneFields)
  /-- HADD2 (R170): Packed FP16 addition of both halves. -/
  | hadd2 (f : LaneFields)
  /-- HSUB2 (R170): Packed FP16 subtraction of both halves. -/
  | hsub2 (f : LaneFields)
  /-- HMUL2 (R170): Packed FP16 multiplication of both halves. -/
  | hmul2 (f : LaneFields)
  /-- HFMA2 (R170): Packed FP16 fused multiply-add of both halves. -/
  | hfma2 (f : LaneFields)
  /-- HMIN2 (R170): Packed FP16 minimum of both halves. -/
  | hmin2 (f : LaneFields)
  /-- HMAX2 (R170): Packed FP16 maximum of both halves. -/
  | hmax2 (f : LaneFields)
  /-- BFMA2 (R170): Packed BF16 fused multiply-add of both halves. -/
  | bfma2 (f : LaneFields)
  /-- DADD (R171): FP64 addition on the FP64 unit in two passes. -/
  | dadd (f : LaneFields)
  /-- DMUL (R171): FP64 multiplication on the FP64 unit. -/
  | dmul (f : LaneFields)
  /-- DFMA (R171): FP64 fused multiply-add on the FP64 unit. -/
  | dfma (f : LaneFields)
  /-- CVT (R172): Converts among FP64, FP32, FP16, BF16 and integers as the function selects. -/
  | cvt (op : CvtOp) (f : LaneFields)
  /-- CVT_FP8_FP4 (R174): Converts to and from FP8, FP4, E8M0 scales and block-scaled forms as the function selects. -/
  | cvtFp8Fp4 (op : CvtSmallOp) (f : LaneFields)
  /-- SHFL (R216): Copies values between lanes within segments by index, up, down or xor. -/
  | shfl (op : ShflOp) (f : LaneFields)
  /-- QSWP (R218): Swaps values between lanes of each quad horizontally, vertically or diagonally. -/
  | qswp (op : QswpOp) (f : LaneFields)
  /-- QBC (R218): Broadcasts one lane's value to its whole quad. -/
  | qbc (f : LaneFields)
  /-- LRED (R219): Reduces a value over a lane set into a group register and sets GF. -/
  | lred (op : RedOp) (f : LaneFields)
  /-- LSCAN (R221): Computes an inclusive or exclusive scan over a lane set, with an optional total. -/
  | lscan (excl : Bool) (op : RedOp) (f : LaneFields)
  /-- LVOTE_ANY (R223): Writes 1 if any lane of the set holds a nonzero value. -/
  | lvoteAny (f : LaneFields)
  /-- LVOTE_ALL (R223): Writes 1 if every lane of the set holds a nonzero value. -/
  | lvoteAll (f : LaneFields)
  /-- LVOTE_BAL (R223): Writes a ballot mask of lanes holding nonzero values. -/
  | lvoteBal (f : LaneFields)
  /-- LBC (R217): Broadcasts the value of lane b to every lane of EM. -/
  | lbc (f : LaneFields)
  /-- LFIRST (R223): Writes the value of the lowest lane of the set to a group register. -/
  | lfirst (f : LaneFields)
  /-- JMP (R184): Branches every lane of the group by a 24-bit word offset. -/
  | jmp (off : BitVec 24)
  /-- CALL (R184): Writes the return offset to a v register and branches. -/
  | call (d : BitVec 8) (off : BitVec 16)
  /-- BZ (R184): Branches each lane whose condition is zero. -/
  | bz (c : BitVec 8) (off : BitVec 16)
  /-- BNZ (R184): Branches each lane whose condition is nonzero. -/
  | bnz (c : BitVec 8) (off : BitVec 16)
  /-- BLT (R184): Branches each lane whose condition is negative. -/
  | blt (c : BitVec 8) (off : BitVec 16)
  /-- BGE (R184): Branches each lane whose condition is not negative. -/
  | bge (c : BitVec 8) (off : BitVec 16)
  /-- BRX (R184): Branches each lane to the offset held in its register. -/
  | brx (a : BitVec 8)
  /-- CALLX (R184): Writes the return offset and branches to a register target per lane. -/
  | callx (d a : BitVec 8)
  /-- RET (R184): Returns each lane to the offset held in its register. -/
  | ret (a : BitVec 8)
  /-- NOP (R186): Advances the counter with no other effect. -/
  | nop
  /-- EXIT (R186): Ends the group's threads in the issuing slice, clears their mask bits and loop membership, and re-evaluates releases. -/
  | exit
  /-- ALD (R239): Allocates pending slots in a load queue and sends a global load per lane. -/
  | ald (sz : Size) (f : LaneFields)
  /-- AST (R240): Checks addresses and forms one store record for the wave in a staddr queue. -/
  | ast (sz : Size) (f : LaneFields)
  /-- APF (R243): Prefetches a line to the home L1 slice or the Lantern cache. -/
  | apf (f : LaneFields)
  /-- AFLUSH (R243): Writes dirty bytes of a line toward the coherence point of its scope. -/
  | aflush (f : LaneFields)
  /-- AINV (R243): Drops non-home copies of a line in the core's access path. -/
  | ainv (f : LaneFields)
  /-- QPUSH (R233): Pushes one or more values into each lane's queue column. -/
  | qpush (f : LaneFields)
  /-- QPOP (R233): Pops one or more slots into registers per lane, faulting on a chosen token. -/
  | qpop (f : LaneFields)
  /-- QPEEK (R233): Reads slot k of each lane's column without removing it. -/
  | qpeek (f : LaneFields)
  /-- QDROP (R233): Removes n slots of each column, discarding data and tokens. -/
  | qdrop (f : LaneFields)
  /-- QWAIT (R233): Waits until n head slots of each column are ready or token. -/
  | qwait (f : LaneFields)
  /-- QSTAT (R234): Writes each lane's queue status word. -/
  | qstat (f : LaneFields)
  /-- QBIND (R231): Binds a queue of a given kind and depth for the whole wave. -/
  | qbind (f : LaneFields)
  /-- QUNBIND (R231): Unbinds an empty, unattached queue of the wave. -/
  | qunbind (f : LaneFields)
  /-- LDS (R247): Loads from the workgroup's scratch per lane. -/
  | lds (sz : Size) (f : LaneFields)
  /-- STS (R247): Stores to the workgroup's scratch per lane. -/
  | sts (sz : Size) (f : LaneFields)
  /-- AATOM (R260): Sends fetch-and-operate requests, combined per operand, and allocates result slots. -/
  | aatom (op : AtomOp) (f : LaneFields)
  /-- ACAS (R261): Sends per-lane 32, 64 or 128-bit compare-and-swap requests returning the old value. -/
  | acas (sz : CasSize) (f : LaneFields)
  /-- ARED (R262): Sends atomic reductions that return nothing. -/
  | ared (op : AtomOp) (f : LaneFields)
  /-- AENQ (R264): Enqueues a word onto a ring control block in memory, returning success. -/
  | aenq (f : LaneFields)
  /-- ADEQ (R264): Dequeues a word from a ring control block, returning a flag and the element. -/
  | adeq (f : LaneFields)
  /-- MMA (R318): Multiplies a dense A block by a 32-column B and accumulates into a tile. -/
  | mma (fmt : MmaFmt) (f : LaneFields)
  /-- MMASP (R318): Multiplies a 2:4 sparse A block by B with index registers and accumulates into a tile. -/
  | mmasp (fmt : MmaFmt) (f : LaneFields)
  /-- FDOT16 (R323): Adds a 16-element FP8 dot product to C through the chunk adder per lane. -/
  | fdot16 (fmt : Fp8Fmt) (f : LaneFields)
  /-- ACLR (R324): Clears a tile row per lane. -/
  | aclr (f : LaneFields)
  /-- AMOV_VA (R324): Copies eight tile columns into registers per lane. -/
  | amovVa (f : LaneFields)
  /-- AMOV_AV (R324): Copies eight registers into tile columns per lane. -/
  | amovAv (f : LaneFields)
  /-- IBOX (R338): Sends a ray-box test to the intersection island. -/
  | ibox (f : LaneFields)
  /-- ITRI (R339): Sends a ray-triangle test to the intersection island. -/
  | itri (f : LaneFields)
  /-- IPRIM (R340): Sends a primitive test of type k to the image's intersection function. -/
  | iprim (f : LaneFields)
  /-- TSMP (R342): Sends a texture sample request to the filter island. -/
  | tsmp (f : LaneFields)
  /-- TGTH (R342): Sends a four-texel gather of one channel to the filter island. -/
  | tgth (f : LaneFields)
  /-- TFCH (R342): Sends a texel fetch by integer coordinates to the filter island. -/
  | tfch (f : LaneFields)
  /-- RTRI (R344): Submits one triangle per lane to the workgroup's raster stream. -/
  | rtri (f : LaneFields)
  /-- BPX (R350): Sends blended pixel writes for tagged covered lanes to the blend island. -/
  | bpx (f : LaneFields)
  /-- ILINK (R337): Links or detaches a result queue to an island kind. -/
  | ilink (f : LaneFields)
  /-- IST (R350): Sends unordered replace stores of pixels to a target through the blend island. -/
  | ist (f : LaneFields)
  /-- CPY_GTH (R396): Forms a copy command gathering per-lane global elements into scratch. -/
  | cpyGth (f : LaneFields)
  /-- CPY_SCT (R396): Forms a copy command scattering scratch elements to per-lane global addresses. -/
  | cpySct (f : LaneFields)
  /-- JPOST_R (R373): Posts a job card of one token per lane whose results return to registers. -/
  | jpostR (f : LaneFields)
  /-- JPOST_Q (R373): Posts a job card whose results are pushed into an attached result queue. -/
  | jpostQ (f : LaneFields)
  /-- JWAIT (R374): Parks lanes until their tokens of card slot k leave, then writes results or faults. -/
  | jwait (f : LaneFields)
  /-- TRAP (R408): Raises TRAP precisely and records the trap number. -/
  | trap (n : BitVec 8)
  /-- BRK (R408): Raises BREAK, holding the workgroup when the launch's hold bit is set. -/
  | brk
  /-- SADD (R111): Adds two group values, setting Z, N, C and V. -/
  | sadd (g : GroupFields)
  /-- SSUB (R111): Subtracts two group values, setting flags. -/
  | ssub (g : GroupFields)
  /-- SMUL (R111): Low 32 bits of a group product. -/
  | smul (g : GroupFields)
  /-- SMULHI (R111): High 32 bits of a signed group product. -/
  | smulhi (g : GroupFields)
  /-- SMULHU (R111): High 32 bits of an unsigned group product. -/
  | smulhu (g : GroupFields)
  /-- SAND (R111): Group bitwise AND. -/
  | sand (g : GroupFields)
  /-- SOR (R111): Group bitwise OR. -/
  | sor (g : GroupFields)
  /-- SXOR (R111): Group bitwise exclusive OR. -/
  | sxor (g : GroupFields)
  /-- SANDN (R111): Group a AND NOT b. -/
  | sandn (g : GroupFields)
  /-- SNOT (R111): Group bitwise complement. -/
  | snot (g : GroupFields)
  /-- SSHL (R111): Group logical left shift. -/
  | sshl (g : GroupFields)
  /-- SSHR (R111): Group logical right shift. -/
  | sshr (g : GroupFields)
  /-- SSAR (R111): Group arithmetic right shift. -/
  | ssar (g : GroupFields)
  /-- SMIN (R111): Group signed minimum. -/
  | smin (g : GroupFields)
  /-- SMAX (R111): Group signed maximum. -/
  | smax (g : GroupFields)
  /-- SMINU (R111): Group unsigned minimum. -/
  | sminu (g : GroupFields)
  /-- SMAXU (R111): Group unsigned maximum. -/
  | smaxu (g : GroupFields)
  /-- SABS (R111): Group absolute value, setting V on the most negative value. -/
  | sabs (g : GroupFields)
  /-- SNEG (R111): Group negation, setting V on the most negative value. -/
  | sneg (g : GroupFields)
  /-- SCMP (R111): Group comparison under the condition the function selects, writing 1 or 0. -/
  | scmp (cc : IntCond) (g : GroupFields)
  /-- SSEL (R111): Selects a or b by GF.Z. -/
  | ssel (g : GroupFields)
  /-- SMOV (R111): Copies a group value. -/
  | smov (g : GroupFields)
  /-- SLI (R112): Loads a sign-extended 14-bit immediate into a group register. -/
  | sli (sd : BitVec 7) (imm : BitVec 14)
  /-- SBFE (R112): Extracts a group bit field. -/
  | sbfe (g : GroupFields)
  /-- SBFI (R112): Inserts a group bit field. -/
  | sbfi (g : GroupFields)
  /-- SPOPC (R111): Counts set bits of a group value. -/
  | spopc (g : GroupFields)
  /-- SCLZ (R111): Counts leading zeros of a group value. -/
  | sclz (g : GroupFields)
  /-- SCTZ (R111): Counts trailing zeros of a group value. -/
  | sctz (g : GroupFields)
  /-- SADD64 (R111): Adds 64-bit group register pairs. -/
  | sadd64 (g : GroupFields)
  /-- SSUB64 (R111): Subtracts 64-bit group register pairs. -/
  | ssub64 (g : GroupFields)
  /-- SMUL64 (R111): Low 64 bits of a 64-bit group product. -/
  | smul64 (g : GroupFields)
  /-- SLDK (R117): Reads a word of the kernel constant bank into a group register. -/
  | sldk (g : GroupFields)
  /-- SGET (R118): Reads a special register into a group register. -/
  | sget (g : GroupFields)
  /-- SSET (R119): Writes GF or clears ERRSTICKY bits. -/
  | sset (g : GroupFields)
  /-- MAND (R114): Mask AND. -/
  | mand (g : GroupFields)
  /-- MOR (R114): Mask OR. -/
  | mor (g : GroupFields)
  /-- MXOR (R114): Mask exclusive OR. -/
  | mxor (g : GroupFields)
  /-- MANDN (R114): Mask A AND NOT B. -/
  | mandn (g : GroupFields)
  /-- MNOT (R114): Mask complement. -/
  | mnot (g : GroupFields)
  /-- MMOV (R114): Mask copy. -/
  | mmov (g : GroupFields)
  /-- MPOPC (R114): Counts set bits of a mask, setting E. -/
  | mpopc (g : GroupFields)
  /-- MFFS (R114): Finds the lowest set bit of a mask, setting E. -/
  | mffs (g : GroupFields)
  /-- MTOS (R114): Copies a mask into a group register. -/
  | mtos (g : GroupFields)
  /-- STOM (R114): Copies a group value into a mask. -/
  | stom (g : GroupFields)
  /-- MCLR (R114): Clears a mask. -/
  | mclr (g : GroupFields)
  /-- MSET (R114): Sets every bit of a mask. -/
  | mset (g : GroupFields)
  /-- MLANE (R114): Sets a run of b mask bits starting at a. -/
  | mlane (g : GroupFields)
  /-- SBR (R187): Branches the whole issue group on one group value by a literal offset. -/
  | sbr (cond : SbrCond) (g : GroupFields)
  /-- JOIN (R190): Adds the group's lanes to a mask. -/
  | join (g : GroupFields)
  /-- LEAVE (R190): Removes the group's lanes from a mask. -/
  | leave (g : GroupFields)
  /-- MWAIT (R191): Parks masked threads until every live masked thread is parked here. -/
  | mwait (g : GroupFields)
  /-- LOOP (R195): Opens a counted hardware loop on a loop counter of the slice. -/
  | loop (g : GroupFields)
  /-- LBRK (R198): Removes the group from a loop and its inner loops and sends it to the loop's end. -/
  | lbrk (g : GroupFields)
  /-- RUN (R201): Opens a run of n instructions with the operand file. -/
  | run (g : GroupFields)
  /-- ENDRUN (R201): Closes the open run, without hints. -/
  | endrun
  /-- ENDRUN_HINTED (R205): Closes the open run and names up to three registers whose pending writes make the slice wait. -/
  | endrunHinted (hints : Word)
  /-- YIELD (R188): Exchanges the wave with an unblocked pending wave if one exists. -/
  | yield
  /-- FENCE (R286): Releases and/or acquires the slice's accesses at a scope, as the function selects. -/
  | fence (kind : FenceKind) (g : GroupFields)
  /-- BAR_SYNC (R291): Arrives at a barrier and parks until its phase completes. -/
  | barSync (g : GroupFields)
  /-- BAR_ARR (R291): Arrives at a barrier without waiting. -/
  | barArr (g : GroupFields)
  /-- BAR_WAIT (R291): Parks until the phase of the wave's latest arrival completes. -/
  | barWait (g : GroupFields)
  /-- BAR_INIT (R291): Sets a barrier's expected count and counted slices. -/
  | barInit (g : GroupFields)
  /-- RING_ARR (R296): Counts an arrival on one side of a ring slot, flipping its phase at the expected count. -/
  | ringArr (g : GroupFields)
  /-- RING_WAIT (R296): Completes or parks until a ring slot side's phase differs from the parity. -/
  | ringWait (g : GroupFields)
  /-- GBAR (R298): Arrives at the grid phase and parks. -/
  | gbar
  /-- TFENCE (R302): Waits for the wave's store records at .dev and invalidates the cluster's layout cache. -/
  | tfence
  /-- ICINV (R305): Drops a code line from every instruction cache of the interface after the wave's stores are acknowledged. -/
  | icinv (g : GroupFields)
  /-- IFENCE (R305): Waits for earlier icinv and empties the wave's fetch buffers. -/
  | ifence
  /-- ALDU (R244): Loads a uniform value from global memory into group registers. -/
  | aldu (sz : Size) (g : GroupFields)
  /-- CPY_TILE (R393): Issues a tile copy command between global memory, scratch or a queue, as the function selects. -/
  | cpyTile (dir : TileDir) (g : GroupFields)
  /-- CPY_LIN (R395): Issues a linear copy command between global memory and scratch, as the function selects. -/
  | cpyLin (dir : LinDir) (g : GroupFields)
  /-- LREC (R401): Checks a layout record and writes 0 or a cause code. -/
  | lrec (g : GroupFields)
  /-- CPY_STAT (R400): Reads the status of a copy command tag. -/
  | cpyStat (g : GroupFields)
  /-- JSTAT (R376): Reads the status of a card slot. -/
  | jstat (g : GroupFields)
  /-- JCANCEL (R377): Stops admission of a card and drops its tokens not yet admitted. -/
  | jcancel (g : GroupFields)
  /-- GLOAD (R369): Checks a graph image and binds a graph table entry to a shared or new graph context. -/
  | gload (g : GroupFields)
  /-- GUNLOAD (R370): Empties a graph table entry and drops its context reference. -/
  | gunload (g : GroupFields)
  /-- PMASK (R409): Opens the wave's masked window against pre-emption. -/
  | pmask
  /-- PUNMASK (R409): Closes the wave's masked window. -/
  | punmask
  /-- SCLK (R410): Parks the group until CLOCK reaches a target, at most 2^24 cycles ahead. -/
  | sclk (g : GroupFields)
  /-- PMC (R411): Reads half of a wave event counter. -/
  | pmc (g : GroupFields)
  /-- RFE (R412): Ends the keeper agent's current event handler. -/
  | rfe
  /-- KTK (R443): Claims up to n workgroup tickets indivisibly at the Lantern bank. -/
  | ktk (g : GroupFields)
  /-- HALT (R412): Starts a save, a discard or a termination of a workgroup in a slot of the keeper's core. -/
  | halt (g : GroupFields)
  /-- WAVE_EXCHANGE (R52): Exchanges a blocked active wave with the earliest-unblocked pending wave in 2 cycles. -/
  | waveExchange (outW inW : WaveRef)
  /-- ACTIVE_SET_ENTRY (R52): Moves an unblocked pending wave into a free active slot. -/
  | activeSetEntry (w : WaveRef)
  /-- MWAIT_RELEASE (R191): Releases every thread parked at an mwait once its release condition holds. -/
  | mwaitRelease (w : WaveRef) (sl : Slice) (k : Nat) (pc : Word)
  /-- LOOP_END_REACHED (R196): Decrements the loop counter when all members are parked at the end, looping back or finishing. -/
  | loopEndReached (w : WaveRef) (sl : Slice) (k : Nat)
  /-- BARRIER_ARRIVAL_EFFECT (R291): An arrival takes effect after its release completes, completing the phase at the expected count and releasing parked threads. -/
  | barrierArrivalEffect (w : WaveRef) (bar : Nat)
  /-- RING_ARRIVAL_EFFECT (R297): A ring arrival takes effect after its release, and waiters of a completed phase leave 12 cycles later. -/
  | ringArrivalEffect (wg : Nat) (empty : Bool) (ring slot : Nat)
  /-- GRID_PHASE_COMPLETE (R298): The last grid arrival takes effect and resident parked waves leave within 400 cycles. -/
  | gridPhaseComplete (launch : Nat)
  /-- SCLK_WAKE (R410): CLOCK reaches a parked group's end value and the group continues. -/
  | sclkWake (w : WaveRef) (sl : Slice)
  /-- BAR_TIMEOUT (R299): A watched object's count reaches the beacon limit and halts the owning workgroup, cluster group or grid. -/
  | barTimeout (obj : WatchObj)
  /-- QUEUE_DEADLOCK (R250): After 2^20 consecutive queue-bound cycles the device raises QUEUE_DEADLOCK at the waiting instruction. -/
  | queueDeadlock (w : WaveRef)
  /-- PMASK_LONG (R409): A masked window reaches 2^16 resident cycles and the device raises PMASK_LONG. -/
  | pmaskLong (w : WaveRef)
  /-- LOAD_COMPLETION (R239): The data or a translation failure of an access arrives and its pending slots become ready or token together. -/
  | loadCompletion (id : Nat)
  /-- STORE_RECORD_PERFORM (R240): A store record whose lanes all have data is performed in order, in ascending lane order. -/
  | storeRecordPerform (w : WaveRef)
  /-- STORE_ACKNOWLEDGE (R243): A performed store is acknowledged at the coherence point of its scope. -/
  | storeAcknowledge (id : Nat)
  /-- ATOMIC_PERFORM (R258): An atomic request is performed at its unit and its result slots become ready. -/
  | atomicPerform (id : Nat)
  /-- HOST_ATOMIC_COMPLETION (R258): A host AtomicOp completion arrives; a non-success status gives HOST_ATOMIC tokens or status. -/
  | hostAtomicCompletion (id : Nat) (success : Bool)
  /-- HOST_COMPLETION_TIMEOUT (R465): A host read or atomic reaches ctimeout without completion and fails. -/
  | hostCompletionTimeout (id : Nat)
  /-- TABLE_WALK (R450): A walker completes a translation miss with a translation or a cause. -/
  | tableWalk (cluster core vi : Nat) (va : DWord)
  /-- DIRECTORY_RECALL (R300): An access to an engine-owned line is delayed until the engine writes it and ownership ends. -/
  | directoryRecall (cluster : Nat) (line : Nat)
  /-- HOST_ACCESS (R460): A host access to device memory is served according to the region's bias. -/
  | hostAccess (acc : HostAccess)
  /-- HOST_ATOMICOP (R466): A host AtomicOp to device memory is performed at the Lantern bank unit. -/
  | hostAtomicop (op : HostAtomic)
  /-- LINK_DOWN (R467): The host link goes down, failing outstanding host reads and atomics and dropping unaccepted stores. -/
  | linkDown
  /-- ISLAND_REQUEST_COMPLETE (R336): An island request's results become ready together in the slots each lane allocated. -/
  | islandRequestComplete (id : Nat)
  /-- CHANNEL_SLOT_RETURN (R355): An island returns a request slot when it has accepted all lanes of an entry. -/
  | channelSlotReturn (id : Nat)
  /-- SLOT_AUDIT (R356): Every 4,096 cycles an island audits each channel's free-slot counter. The audit holds its free count, and
  `sentSince` is the n of R356. -/
  | slotAudit (cluster chan free sentSince : Nat)
  /-- RASTER_QUAD_EMIT (R345): The raster island tests a triangle and emits covered quads into batches. -/
  | rasterQuadEmit (wg : Nat)
  /-- RASTER_BATCH_PLACE (R347): A closed batch is placed in the earliest linked raster queue, or waits for one. -/
  | rasterBatchPlace (wg : Nat)
  /-- BLEND_APPLY (R351): A bpx is applied once earlier tags at its position have retired, with the depth test at the first one. -/
  | blendApply (id : Nat)
  /-- BLEND_WRITEBACK (R352): The blend island writes a target line back on recall, eviction or workgroup end. -/
  | blendWriteback (cluster : Nat) (line : Nat)
  /-- ISLAND_IMAGE_LOAD (R332): An island loads its image when its cluster holds no workgroup, within 3,072 cycles. -/
  | islandImageLoad (cluster : Nat) (kind : IslandKind) (slot : Nat)
  /-- GLOAD_COMPLETE (R369): A gload completes, writing its destination and flags. -/
  | gloadComplete (id : Nat)
  /-- CARD_BIND (R371): The cluster arbiter binds an arriving card to its placed context, places it, or makes it wait. -/
  | cardBind (card : Nat)
  /-- GRAPH_PLACEMENT (R371): A graph context's configuration is written into fabric cores over 2,048 cycles. -/
  | graphPlacement (cluster ctx : Nat)
  /-- TOKEN_ADMIT (R378): A placed context admits the next token of its bound cards every ii cycles. -/
  | tokenAdmit (card : Nat)
  /-- TOKEN_LEAVE (R379): A complete token leaves, performing its stores and delivering or pushing its results. -/
  | tokenLeave (card lane : Nat)
  /-- FABRIC_MODE_ENTRY (R359): A core of a new share range enters fabric mode when it holds no wave. -/
  | fabricModeEntry (core : Nat)
  /-- COPY_ENGINE_SERVE (R403): The copy engine starts the next command in arrival order. -/
  | copyEngineServe (cluster : Nat)
  /-- COPY_QUEUE_WORD_PLACE (R394): A .gq stream places its next word in every row's column once all have room. -/
  | copyQueueWordPlace (cmd : Nat)
  /-- COPY_COMMAND_COMPLETE (R397): A copy command completes and makes its ring arrival. -/
  | copyCommandComplete (cmd : Nat)
  /-- COPY_DATA_FAILURE (R399): A copy command meets a data translation failure and halts the workgroup or records status. -/
  | copyDataFailure (cmd : Nat)
  /-- HALT_COMPLETE (R413): A halted workgroup's issued work completes, its record is written and the context is terminated. -/
  | haltComplete (wg : Nat)
  /-- PREEMPTION_REQUEST (R418): A request to pre-empt a workgroup arrives and its class is chosen. -/
  | preemptionRequest (wg : Nat) (discard : Bool)
  /-- SAVE_AND_RESTORE (R419): A workgroup is stopped, drained and saved to the save area, and its resources released. -/
  | saveAndRestore (wg : Nat)
  /-- DISCARD (R421): A workgroup is stopped, its state dropped and it is requeued with the same WGID. -/
  | discard (wg : Nat)
  /-- RESUME (R422): A saved workgroup is restored on a core meeting R48, possibly migrating. -/
  | resume (wg core : Nat)
  /-- WORKGROUP_PLACE (R443): A keeper agent places a claimed ticket's workgroups and releases them. -/
  | workgroupPlace (launch core : Nat)
  /-- PRIORITY_PREEMPT (R440): The command processor pre-empts lower-level workgroups until higher-level work fits. -/
  | priorityPreempt (slot : Nat)
  /-- AGEING_PERIOD (R441): A continuously starved slot's effective level rises by one each ageing period. -/
  | ageingPeriod (slot : Nat)
  /-- EXCHANGE_PERIOD (R444): An exchangeable workgroup is cut and replaced after one exchange period. -/
  | exchangePeriod (wg : Nat)
  /-- DOORBELL (R429): A write to tail is checked and starts copying the submitted ring bytes. -/
  | doorbell (slot : Nat) (value : Word)
  /-- RING_BYTE_COPY (R429): The command processor copies further ring bytes into the slot buffer as it drains, advancing head. -/
  | ringByteCopy (slot : Nat)
  /-- SLOT_ENABLE (R428): Setting enable starts a fresh context or resumes a saved one, gated by the slot's gang. -/
  | slotEnable (slot : Nat)
  /-- SLOT_DISABLE (R428): Clearing enable cuts the slot's and gang's workgroups by save and stops fetching. -/
  | slotDisable (slot : Nat)
  /-- NOP_PACKET (R431): A NOP packet is consumed with no effect. -/
  | nopPacket (slot : Nat)
  /-- LAUNCH (R433): A LAUNCH packet is checked, rejected or started with its constant bank and ticket block. -/
  | launch (slot : Nat)
  /-- LAUNCH_START (R435): A launch begins releasing workgroups once every conflicting earlier launch has completed. -/
  | launchStart (launch : Nat)
  /-- WAIT (R437): A WAIT packet holds later packets until a word in memory passes its test. -/
  | wait (slot : Nat)
  /-- WAIT_POLL (R437): The tested word of a WAIT is read again at least every 4,096 cycles. -/
  | waitPoll (slot : Nat)
  /-- SIGNAL (R437): A SIGNAL packet performs a release store after earlier completion stores. -/
  | signal (slot : Nat)
  /-- IMAGES (R476): An IMAGES packet verifies and names the context's island images after earlier launches complete. -/
  | images (slot : Nat)
  /-- MOOR (R446): A MOOR packet waits for earlier launches and passes a mooring point, applying its hint list. -/
  | moor (slot : Nat)
  /-- LAUNCH_COMPLETION (R438): A completed launch's release store of its sequence value is performed and done updated. -/
  | launchCompletion (launch : Nat)
  /-- MOORING_POINT (R446): A slot with nothing in flight reaches a mooring point and its pending shares take effect. -/
  | mooringPoint (slot : Nat)
  /-- CLOCK_MODE_CHANGE (R24): At a device-wide mooring point the device stops issue and changes clock mode. -/
  | clockModeChange
  /-- CLOCK_MODE_RESUME (R24): Issue resumes 40 microseconds after a mode change and moded is set. -/
  | clockModeResume
  /-- INVALIDATE_START (R454): A write to offset 0x14 starts a translation invalidation of a page range. -/
  | invalidateStart (vi : Nat)
  /-- INVALIDATE_COMPLETE (R454): An invalidation ends and busy returns to 0 once all caches and accesses are clear. -/
  | invalidateComplete (vi : Nat)
  /-- ROOT_WRITE (R305): A write to the root field sets the table root and drops the interface's instruction-cache lines. -/
  | rootWrite (vi : Nat) (value : DWord)
  /-- PIN_WRITE (R457): A pin register write with on pins a range by filling it, or unpins it. -/
  | pinWrite (k : Nat) (base : DWord) (pages : Word)
  /-- PIN_FILL_COMPLETE (R457): A pinned range's fill ends and status becomes active. -/
  | pinFillComplete (k : Nat)
  /-- ATTESTATION_REQUEST (R478): Writing 1 to +0x24 of the attestation window starts a signed report. -/
  | attestationRequest
  /-- ATTESTATION_REPORT_READY (R478): The security block writes the report and clears +0x24. -/
  | attestationReportReady
  /-- POWER_ON (R484): At power-on the security block runs from ROM, trains the link and derives identity keys. -/
  | powerOn
  /-- FIRMWARE_BUNDLE (R484): Writing the bundle address verifies three envelopes and starts the command processor and keepers. -/
  | firmwareBundle (value : DWord)
  /-- MATRIX_GATE (R480): An mgate bit requests gating of a quarter-core's matrix engine. -/
  | matrixGate (cluster : Nat) (value : Word)
  /-- ISLAND_GATE (R480): An igate bit requests gating of an island. -/
  | islandGate (cluster : Nat) (value : BitVec 6)
  /-- COPY_GATE (R480): The kgate bit requests gating of the copy engine. -/
  | copyGate (cluster : Nat) (value : Bool)
  /-- CLUSTER_GATE (R480): Setting cgate waits for an empty cluster, writes back L1 and gates the cluster; clearing it wakes it. -/
  | clusterGate (cluster : Nat) (value : Bool)
  /-- GATE_TAKE_EFFECT (R480): A gate bit takes effect when its unit becomes idle. -/
  | gateTakeEffect (u : UnitRef)
  /-- UNIT_WAKE (R481): A request reaching a gated unit wakes it within the stated time. -/
  | unitWake (u : UnitRef)
  /-- IDLE_REGATE (R480): A woken unit with its bit set gates again after 2^16 idle cycles. -/
  | idleRegate (u : UnitRef)
  /-- THERMAL_WARNING (R28): A die reaching warn sets the thermal bit and signals the device vector. -/
  | thermalWarning (die : Nat) (temp : Byte)
  /-- SHUTDOWN (R28): A die reaching 110 C stops issue, abandons every context and writes the shutdown record. -/
  | shutdown (die : Nat) (temp : Byte)
  /-- CORRECTED_ERROR (R34): A correctable storage error is corrected and counted. -/
  | correctedError (counter : Fin 8)
  /-- UNCORRECTABLE_ERROR (R35): An uncorrectable error drops, zeroes or terminates according to where the data is. -/
  | uncorrectableError (place : ErrPlace)
  /-- DEVICE_ERROR_STOP (R36): An error in the command processor or security block stops issue and signals the host. -/
  | deviceErrorStop (securityBlock : Bool) (location : DWord)
  /-- DEVICE_RESET (R477): A host reset restarts the device and rederives its identity keys. -/
  | deviceReset
  /-- REGISTER_WRITE (R426): A write to a register field without behaviour of its own, ignored when out of range. -/
  | registerWrite (view : RegView) (reg : RegName) (value : DWord)
  /-- UNASSIGNED_ENCODING (R88): An issue group reaches an encoding that no instruction assigns and raises UNASSIGNED_OP precisely. -/
  | unassignedEncoding (cause : Cause)
  /-- INSTRUCTION_FETCH_FAULT (R180): An issue group reaches an address whose fetch failed translation or execute permission, and the cause is raised precisely there. -/
  | instructionFetchFault (cause : Cause) (address : DWord)
  /-- ICINV_COMPLETE (R305): An icinv completes once every instruction cache has dropped the line, at most 1,200 cycles after it starts. -/
  | icinvComplete (id : Nat)
  /-- VECTOR_UNMASK (R483): Unmasking an MSI-X vector that holds a pending bit signals it. -/
  | vectorUnmask (fn vec : Nat)
  /-- TEMPERATURE_FALL_BELOW_WARN (R482): A die's temperature falls at least 5 C below warn and re-arms the setting of the thermal bit. -/
  | temperatureFallBelowWarn (die : Nat) (temp : Byte)
  deriving DecidableEq, Repr

end Sys2Proof
end

