-- ==== Sys2Proof/Machine/Forms.lean ====
section
/-!
DEFINITION. The form of every instruction: which operand codes and field values its entry permits, with the cause that
any other value raises (R67, R72 to R76, R83 to R85, R108), and which registers and queues its fields name.
-/
namespace Sys2Proof

/-- How a field that names a queue without popping or pushing acts on it (R228): it looks at slots as a pop does,
allocates slots of a load queue, forms store records, has results sent to it, or only needs it bound. -/
inductive QueueAct where
  | look | loads | records | results | bound
  deriving DecidableEq, Repr

/-- What one field of an instruction names: `n` consecutive registers or queue slots read from a lane operand code, the
same written, `n` consecutive group registers written, or a queue of which `n` slots are needed. The list order of a
form's uses is its pop order (R77). -/
inductive Use where
  | rd (code : BitVec 8) (n : Nat)
  | wr (code : BitVec 8) (n : Nat)
  | gwr (code : BitVec 7) (n : Nat)
  | names (code : BitVec 8) (act : QueueAct) (n : Nat)
  deriving DecidableEq, Repr

/-- The form of a lane instruction: the fields that it reads as operand codes of R76 (R65), the decode causes that its
field values raise, and what its fields name. -/
structure LaneForm where
  opD : Bool
  opA : Bool
  opB : Bool
  opC : Bool
  checks : LaneFields → List Cause
  uses : LaneFields → List Use

/-- A field that the form reads as an operand code asks for the literal word; C only when X = 1 (R65). -/
def LaneForm.readsLiteral (form : LaneForm) (f : LaneFields) : Bool :=
  (form.opD && f.d == 0xFF#8) || (form.opA && f.a == 0xFF#8) || (form.opB && f.b == 0xFF#8) ||
    (form.opC && f.x && f.c == 0xFF#8)

/-- The form of a group instruction: its checks, what it writes and names, and its source operands, each a code with a
count of registers (R83, R84). -/
structure GroupForm where
  checks : GroupFields → List Cause
  uses : GroupFields → List Use
  reads : GroupFields → List (BitVec 7 × Nat)

namespace Form

/-- `c` unless `ok`. -/
def need (ok : Bool) (c : Cause) : List Cause := if ok then [] else [c]
/-- UNASSIGNED_OP unless `ok` (R67, R76). -/
def legal (ok : Bool) : List Cause := need ok .unassignedOp
/-- RESERVED_BITS unless `ok` (R67, R75, R108). -/
def zero (ok : Bool) : List Cause := need ok .reservedBits

/-- Codes of R76. -/
def isV (c : BitVec 8) : Bool := c.toNat < 0xC0
def isO (c : BitVec 8) : Bool := 0xC0 ≤ c.toNat && c.toNat < 0xC8
def isQ (c : BitVec 8) : Bool := 0xC8 ≤ c.toNat && c.toNat < 0xD8
def isConst (c : BitVec 8) : Bool := 0xD8 ≤ c.toNat && c.toNat < 0xFF
def isLit (c : BitVec 8) : Bool := c.toNat == 0xFF
def isVO (c : BitVec 8) : Bool := isV c || isO c
def isVOQ (c : BitVec 8) : Bool := isV c || isO c || isQ c
def isEven (n : Nat) : Bool := n % 2 == 0

/-- The number within its file of a `v`, `o` or `q` code. -/
def vIndex (c : BitVec 8) : Nat := c.toNat
def oIndex (c : BitVec 8) : Nat := c.toNat - 0xC0
def qIndex (c : BitVec 8) : Nat := c.toNat - 0xC8

/-- A block of `n` registers starting at a `v` or `o` code stays in its file (a `v` block that reaches past `v191`
leaves it, R232, R254, R334). -/
def blockInFile (c : BitVec 8) (n : Nat) : Bool :=
  if isV c then c.toNat + n ≤ 0xC0 else if isO c then oIndex c + n ≤ 8 else false

/-- S holds its null value (R75). -/
def noS (f : LaneFields) : Bool := f.s == 0x7F#7
/-- S names a group register. -/
def sReg (f : LaneFields) : Bool := f.s.toNat < 0x60

/-- Destination of `v`, `o` or `q` code (R76, R127). -/
def dDst (f : LaneFields) : List Cause := legal (isVOQ f.d)
def dVO (f : LaneFields) : List Cause := legal (isVO f.d)
def dV (f : LaneFields) : List Cause := legal (isV f.d)
/-- A pair code: an even `v` or `o` (R136). -/
def pairCode (c : BitVec 8) : Bool := isVO c && isEven c.toNat
/-- A pair source: an even `v` or `o`, a constant or the literal (R136). -/
def pairSrc (c : BitVec 8) : Bool := pairCode c || isConst c || isLit c
def dPair (f : LaneFields) : List Cause := legal (pairCode f.d)
def dNull (f : LaneFields) : List Cause := zero (f.d == 0#8)
def aNull (f : LaneFields) : List Cause := zero (f.a == 0#8)
def bNull (f : LaneFields) : List Cause := zero (f.b == 0#8)
def cNull (f : LaneFields) : List Cause := zero (f.c == 0#8)
def sNull (f : LaneFields) : List Cause := zero (noS f)
/-- Source B with the broadcast of R75: S replaces B, and B then holds 0x00. -/
def bOrS (f : LaneFields) : List Cause :=
  if noS f then [] else legal (sReg f) ++ bNull f
/-- A pair source B with a broadcast pair (R136). -/
def bPairOrS (f : LaneFields) : List Cause :=
  if noS f then legal (pairSrc f.b) else legal (sReg f && isEven f.s.toNat) ++ bNull f
/-- C is a mask selector (R129); `opt` allows 0x00. -/
def cMask (opt : Bool) (f : LaneFields) : List Cause :=
  legal ((opt && f.c == 0#8) || (0x80 ≤ f.c.toNat && f.c.toNat ≤ 0x8B))
/-- C is an immediate of at most `n`. -/
def cImm (n : Nat) (f : LaneFields) : List Cause := legal (f.c.toNat ≤ n)
/-- Mode of the integer classes (R73, R128, R211). -/
def modeInt (sat : Bool) (f : LaneFields) : List Cause :=
  zero (f.mode.extractLsb' 0 3 == 0#3) ++ legal (sat || !f.mode.getLsbD 3)
/-- Rounding mode of the float classes (R73): modes 0 to `n`; `.ftz` is always listed (R160). -/
def modeFloat (n : Nat) (f : LaneFields) : List Cause := legal ((f.mode.extractLsb' 0 3).toNat ≤ n)
def modeZero (f : LaneFields) : List Cause := zero (f.mode == 0#4)
/-- Only the flag bits of `allowed` may be set (R74, R159). -/
def flagsIn (allowed : BitVec 8) (f : LaneFields) : List Cause := zero (f.flags &&& ~~~allowed == 0#8)

/-- What source B names: nothing when S replaces it. -/
def useB (f : LaneFields) (n : Nat) : List Use := if noS f then [.rd f.b n] else []

def classInt (sat : Bool) (f : LaneFields) : List Cause := modeInt sat f ++ flagsIn 0#8 f

/-- D, A, B of 32 bits (R130). -/
def bin (sat : Bool) : LaneForm :=
  ⟨true, true, true, false, fun f => dDst f ++ bOrS f ++ cNull f ++ classInt sat f,
    fun f => [.rd f.a 1] ++ useB f 1 ++ [.wr f.d 1]⟩
/-- `iadd`, `isub` with the mask selector of `.c` (R131). -/
def binCarry : LaneForm :=
  ⟨true, true, true, false, fun f => dDst f ++ bOrS f ++ cMask true f ++ classInt true f,
    fun f => [.rd f.a 1] ++ useB f 1 ++ [.wr f.d 1]⟩
/-- D, A, B, C of 32 bits. -/
def tri (sat : Bool) : LaneForm :=
  ⟨true, true, true, true, fun f => dDst f ++ bOrS f ++ classInt sat f,
    fun f => [.rd f.a 1] ++ useB f 1 ++ [.rd f.c 1, .wr f.d 1]⟩
/-- D, A of 32 bits (R130). -/
def un (sat : Bool) : LaneForm :=
  ⟨true, true, false, false, fun f => dDst f ++ bNull f ++ sNull f ++ cNull f ++ classInt sat f,
    fun f => [.rd f.a 1, .wr f.d 1]⟩
/-- The compare forms (R133, R164): C = 0x00 writes D, a mask selector writes the mask and D is 0x00. -/
def compare (mode : LaneFields → List Cause) : LaneForm :=
  ⟨true, true, true, false,
    fun f => (if f.c == 0#8 then dDst f else cMask false f ++ dNull f) ++ bOrS f ++ mode f,
    fun f => [.rd f.a 1] ++ useB f 1 ++ (if f.c == 0#8 then [.wr f.d 1] else [])⟩
def sel : LaneForm :=
  ⟨true, true, true, false, fun f => dDst f ++ bOrS f ++ cMask false f ++ classInt false f,
    fun f => [.rd f.a 1] ++ useB f 1 ++ [.wr f.d 1]⟩
def movs : LaneForm :=
  ⟨true, false, false, false,
    fun f => dDst f ++ legal (f.a.toNat ≤ 0x1C) ++ bNull f ++ sNull f ++ cNull f ++ classInt false f,
    fun f => [.wr f.d 1]⟩
def lea : LaneForm :=
  ⟨true, true, true, false, fun f => dDst f ++ bOrS f ++ cImm 4 f ++ classInt false f,
    fun f => [.rd f.a 1] ++ useB f 1 ++ [.wr f.d 1]⟩
/-- Pair forms of R137 with D, A and B pairs. -/
def pair3 (sat : Bool) (c : LaneFields → List Cause) : LaneForm :=
  ⟨true, true, true, false, fun f => dPair f ++ legal (pairSrc f.a) ++ bPairOrS f ++ c f ++ classInt sat f,
    fun f => [.rd f.a 2] ++ useB f 2 ++ [.wr f.d 2]⟩
/-- `shl64`, `shr64`: D and A pairs, B of 32 bits. -/
def pairShift : LaneForm :=
  ⟨true, true, true, false, fun f => dPair f ++ legal (pairSrc f.a) ++ bOrS f ++ cNull f ++ classInt false f,
    fun f => [.rd f.a 2] ++ useB f 1 ++ [.wr f.d 2]⟩
/-- `sext`, `zext`: D a pair, A and B of 32 bits. -/
def pairExt : LaneForm :=
  ⟨true, true, true, false, fun f => dPair f ++ bOrS f ++ cNull f ++ classInt false f,
    fun f => [.rd f.a 1] ++ useB f 1 ++ [.wr f.d 2]⟩

/-- Float forms: `maxMode` the largest listed rounding mode, `fl` the listed flags (R161 to R171). -/
def fbin (maxMode : Nat) (fl : BitVec 8) : LaneForm :=
  ⟨true, true, true, false, fun f => dDst f ++ bOrS f ++ cNull f ++ modeFloat maxMode f ++ flagsIn fl f,
    fun f => [.rd f.a 1] ++ useB f 1 ++ [.wr f.d 1]⟩
def ftri (maxMode : Nat) (fl : BitVec 8) : LaneForm :=
  ⟨true, true, true, true, fun f => dDst f ++ bOrS f ++ modeFloat maxMode f ++ flagsIn fl f,
    fun f => [.rd f.a 1] ++ useB f 1 ++ [.rd f.c 1, .wr f.d 1]⟩
def fun1 (maxMode : Nat) (fl : BitVec 8) : LaneForm :=
  ⟨true, true, false, false,
    fun f => dDst f ++ bNull f ++ sNull f ++ cNull f ++ modeFloat maxMode f ++ flagsIn fl f,
    fun f => [.rd f.a 1, .wr f.d 1]⟩
/-- One source to a pair destination (`ffrexp`, `cvt.f64.f32` and the like). -/
def fun1PairD (maxMode : Nat) (fl : BitVec 8) : LaneForm :=
  ⟨true, true, false, false,
    fun f => dPair f ++ bNull f ++ sNull f ++ cNull f ++ modeFloat maxMode f ++ flagsIn fl f,
    fun f => [.rd f.a 1, .wr f.d 2]⟩
def fun1PairA (maxMode : Nat) (fl : BitVec 8) : LaneForm :=
  ⟨true, true, false, false,
    fun f => dDst f ++ legal (pairSrc f.a) ++ bNull f ++ sNull f ++ cNull f ++ modeFloat maxMode f ++ flagsIn fl f,
    fun f => [.rd f.a 2, .wr f.d 1]⟩
def fun1PairDA (maxMode : Nat) (fl : BitVec 8) : LaneForm :=
  ⟨true, true, false, false,
    fun f => dPair f ++ legal (pairSrc f.a) ++ bNull f ++ sNull f ++ cNull f ++ modeFloat maxMode f ++ flagsIn fl f,
    fun f => [.rd f.a 2, .wr f.d 2]⟩
/-- FP64 arithmetic on pairs (R171). -/
def dbin (fl : BitVec 8) : LaneForm :=
  ⟨true, true, true, false,
    fun f => dPair f ++ legal (pairSrc f.a) ++ bPairOrS f ++ cNull f ++ modeFloat 3 f ++ flagsIn fl f,
    fun f => [.rd f.a 2] ++ useB f 2 ++ [.wr f.d 2]⟩
def dtri (fl : BitVec 8) : LaneForm :=
  ⟨true, true, true, true,
    fun f => dPair f ++ legal (pairSrc f.a) ++ bPairOrS f ++ legal (pairSrc f.c) ++ modeFloat 3 f ++ flagsIn fl f,
    fun f => [.rd f.a 2] ++ useB f 2 ++ [.rd f.c 2, .wr f.d 2]⟩

/-- The forms of opcode 0x22 (R172). -/
def cvt : CvtOp → LaneForm
  | .f32F64 => fun1PairA 3 0x03#8
  | .f64F32 => fun1PairD 0 0x03#8
  | .f16F32 | .bf16F32 => fbin 3 0x0F#8
  | .f32F16Lo | .f32F16Hi | .f32Bf16Lo | .f32Bf16Hi => fun1 0 0x03#8
  | .i32F32 | .ui32F32 => fun1 3 0x03#8
  | .f32I32 | .f32Ui32 => fun1 3 0#8
  | .i32F64 | .ui32F64 => fun1PairA 3 0x03#8
  | .f64I32 | .f64Ui32 => fun1PairD 0 0#8
  | .i64F64 | .ui64F64 => fun1PairDA 3 0x03#8
  | .f64I64 | .f64Ui64 => fun1PairDA 3 0#8

/-- The rounding code is `sr` (R73). -/
def isSr (f : LaneFields) : Bool := f.mode.extractLsb' 0 3 == 4#3

/-- B or the seed register of `sr` (R175): under `sr` S names the seed and does not replace B. -/
def bOrSeed (f : LaneFields) : List Cause := if isSr f then legal (sReg f) else bOrS f
def useBSeed (f : LaneFields) : List Use := if isSr f || noS f then [.rd f.b 1] else []
/-- S in a one-source form: the seed under `sr`, null otherwise. -/
def seedOrNull (f : LaneFields) : List Cause := if isSr f then legal (sReg f) else sNull f

/-- Packs of two FP32 values into elements of D, which the form also reads (R174). -/
def pack2 (k : Nat) : LaneForm :=
  ⟨true, true, true, false, fun f => dVO f ++ bOrSeed f ++ cImm k f ++ modeFloat 4 f ++ flagsIn 0x0F#8 f,
    fun f => [.rd f.a 1] ++ useBSeed f ++ [.rd f.d 1, .wr f.d 1]⟩
def packHalf : LaneForm :=
  ⟨true, true, false, false,
    fun f => dVO f ++ bNull f ++ seedOrNull f ++ cImm 1 f ++ modeFloat 4 f ++ flagsIn 0x03#8 f,
    fun f => [.rd f.a 1, .rd f.d 1, .wr f.d 1]⟩
/-- Unpacks read A as a floating-point value, whose flags are allowed (R159). -/
def unpack1 (n : Nat) : LaneForm :=
  ⟨true, true, false, false,
    fun f => dDst f ++ bNull f ++ sNull f ++ cImm n f ++ modeFloat 0 f ++ flagsIn 0x03#8 f,
    fun f => [.rd f.a 1, .wr f.d 1]⟩
/-- The scale of a block: C is an immediate whose stated range is 0 (R174). -/
def blockScaleForm : LaneForm :=
  ⟨true, true, false, false,
    fun f => dDst f ++ bNull f ++ sNull f ++ cImm 0 f ++ modeFloat 0 f ++ flagsIn 0x03#8 f,
    fun f => [.rd f.a 1, .wr f.d 1]⟩
/-- Block-scaled packs: C names the scale register (R174, R177). -/
def packBs : LaneForm :=
  ⟨true, true, true, true, fun f => dVO f ++ bOrSeed f ++ modeFloat 4 f ++ flagsIn 0x0F#8 f,
    fun f => [.rd f.a 1] ++ useBSeed f ++ [.rd f.c 1, .rd f.d 1, .wr f.d 1]⟩
def unpackBs (n : Nat) : LaneForm :=
  ⟨true, true, true, false, fun f => dDst f ++ bOrS f ++ cImm n f ++ modeFloat 3 f ++ flagsIn 0x03#8 f,
    fun f => [.rd f.a 1] ++ useB f 1 ++ [.wr f.d 1]⟩

/-- The forms of opcode 0x23 (R174). -/
def cvtSmall : CvtSmallOp → LaneForm
  | .e4m3F32 | .e5m2F32 => pack2 1
  | .e2m1F32 => pack2 3
  | .e4m3F16 | .e5m2F16 => packHalf
  | .f32E4m3 | .f32E5m2 => unpack1 3
  | .f32E2m1 => unpack1 7
  | .f16E4m3 | .f16E5m2 => unpack1 1
  | .scaleE4m3 | .scaleE2m1 => blockScaleForm
  | .bs4e4m3K0 | .bs4e4m3K1 | .bs4e2m1K0 | .bs4e2m1K1 | .bs4e2m1K2 | .bs4e2m1K3 => packBs
  | .f32Bs4e4m3 => unpackBs 3
  | .f32Bs4e2m1 => unpackBs 7

/-- Shuffles: C holds the segment code (R216). -/
def shfl : LaneForm :=
  ⟨true, true, true, false, fun f => dDst f ++ bOrS f ++ cImm 5 f ++ classInt false f,
    fun f => [.rd f.a 1] ++ useB f 1 ++ [.wr f.d 1]⟩
def quad (k : Nat) : LaneForm :=
  ⟨true, true, false, false,
    fun f => dDst f ++ bNull f ++ sNull f ++ (if k == 0 then cNull f else cImm k f) ++ classInt false f,
    fun f => [.rd f.a 1, .wr f.d 1]⟩
/-- A group destination in D[6:0] (R213). -/
def groupDst (allowM : Bool) (f : LaneFields) : List Cause :=
  let c := (f.d.extractLsb' 0 7).toNat
  zero (!f.d.getLsbD 7) ++ legal (c < 0x60 || (allowM && c ≤ 0x6B))
def useGroupDst (f : LaneFields) : List Use := [.gwr (f.d.extractLsb' 0 7) 1]
/-- Reductions, votes and `lfirst` (R219, R223). -/
def reduce (sat allowM : Bool) : LaneForm :=
  ⟨false, true, false, false,
    fun f => groupDst allowM f ++ bNull f ++ sNull f ++ cMask true f ++ classInt sat f,
    fun f => [.rd f.a 1] ++ useGroupDst f⟩
/-- Scans: S names the total register or holds 0x7F (R221). -/
def scan (sat : Bool) : LaneForm :=
  ⟨true, true, false, false,
    fun f => dDst f ++ bNull f ++ legal (noS f || sReg f) ++ cMask true f ++ classInt sat f,
    fun f => [.rd f.a 1, .wr f.d 1] ++ (if noS f then [] else [.gwr f.s 1])⟩

/-- Offset codes of R237. -/
def offsetCode (c : BitVec 8) : Bool := c == 0#8 || (0xD8 ≤ c.toNat && c.toNat ≤ 0xEF) || isLit c
/-- Per-lane address fields of R237: base pair in S or an address pair in A. -/
def addrFields (f : LaneFields) : List Cause :=
  legal (offsetCode f.b) ++
  (if noS f then legal (pairCode f.a) else legal (sReg f && isEven f.s.toNat && isVO f.a))
def useAddr (f : LaneFields) : List Use := [.rd f.a (if noS f then 2 else 1)]
/-- Scope in flags [2:0] between `lo` and 4, other flag bits of `extra` permitted (R74, R238). -/
def scopeFlags (lo : Nat) (extra : BitVec 8) (f : LaneFields) : List Cause :=
  let sc := (f.flags.extractLsb' 0 3).toNat
  legal (lo ≤ sc && sc ≤ 4) ++ flagsIn (0x07#8 ||| extra) f

def dQ (f : LaneFields) : List Cause := legal (isQ f.d)
/-- Words moved by a size (R239, R247). -/
def sizeWords : Size → Nat
  | .b | .h | .w => 1
  | .d => 2
  | .x => 4
/-- Bytes of a size (R5). -/
def sizeBytes : Size → Nat
  | .b => 1
  | .h => 2
  | .w => 4
  | .d => 8
  | .x => 16
/-- `ald`, `ast` (R238). -/
def access (act : QueueAct) (sz : Size) : LaneForm :=
  ⟨true, true, true, false, fun f => dQ f ++ addrFields f ++ cNull f ++ modeZero f ++ scopeFlags 0 0#8 f,
    fun f => useAddr f ++ [.names f.d act (if act = .loads then sizeWords sz else 0)]⟩
def prefetch : LaneForm :=
  ⟨false, true, true, false,
    fun f => dNull f ++ addrFields f ++ cImm 1 f ++ modeZero f ++
      legal (f.flags.extractLsb' 0 3 == 0#3) ++ flagsIn 0x07#8 f, useAddr⟩
def lineOp (lo : Nat) : LaneForm :=
  ⟨false, true, true, false, fun f => dNull f ++ addrFields f ++ cNull f ++ modeZero f ++ scopeFlags lo 0#8 f, useAddr⟩

/-- `lds`, `sts` (R247). The data field comes first in the pop order of a store (R77). -/
def scratch (store : Bool) (sz : Size) : LaneForm :=
  let n := sizeWords sz
  ⟨true, true, true, false,
    fun f => legal (isQ f.d || (isVO f.d && f.d.toNat % n == 0 && blockInFile f.d n)) ++ legal (isVO f.a) ++
      legal (noS f || sReg f) ++ legal (offsetCode f.b) ++ cNull f ++ modeZero f ++ flagsIn 0#8 f,
    fun f => if store then [.rd f.d n, .rd f.a 1] else [.rd f.a 1, .wr f.d n]⟩

/-- The data operand of the atomics (R254): words, alignment and which codes. -/
def atomData (words align : Nat) (constants : Bool) (c : BitVec 8) : List Cause :=
  legal (isQ c || (constants && (isConst c || isLit c)) || (isVO c && c.toNat % align == 0 && blockInFile c words))
def isFloatAtom : AtomOp → Bool
  | .fadd | .fmin | .fmax => true
  | _ => false
/-- Mode of `aatom` and `ared`: [8] is `.d` (R255). -/
def atomMode (op : AtomOp) (f : LaneFields) : List Cause :=
  zero (f.mode.extractLsb' 1 3 == 0#3) ++ legal (!(f.mode.getLsbD 0 && isFloatAtom op))
/-- `.nf` adds a status slot (R267). -/
def isNf (f : LaneFields) : Bool := f.flags.getLsbD 4
def statusSlot (f : LaneFields) : Nat := if isNf f then 1 else 0
def atomWords (f : LaneFields) : Nat := if f.mode.getLsbD 0 then 2 else 1
def aatom (op : AtomOp) : LaneForm :=
  ⟨true, true, true, true,
    fun f => dQ f ++ addrFields f ++ atomMode op f ++ atomData (atomWords f) (atomWords f) true f.c ++ scopeFlags 0 0x10#8 f,
    fun f => useAddr f ++ [.rd f.c (atomWords f), .names f.d .loads (statusSlot f + atomWords f)]⟩
def ared (op : AtomOp) : LaneForm :=
  ⟨false, true, true, true,
    fun f => legal (op != .xchg) ++ dNull f ++ addrFields f ++ atomMode op f ++
      atomData (atomWords f) (atomWords f) true f.c ++ scopeFlags 0 0#8 f,
    fun f => useAddr f ++ [.rd f.c (atomWords f)]⟩
def casWords : CasSize → Nat
  | .w => 1
  | .d => 2
  | .x => 4
def acas (sz : CasSize) : LaneForm :=
  let n := casWords sz
  ⟨true, true, true, true,
    fun f => dQ f ++ addrFields f ++ modeZero f ++ atomData (2 * n) n false f.c ++ scopeFlags 0 0x10#8 f,
    fun f => useAddr f ++ [.rd f.c (2 * n), .names f.d .loads (statusSlot f + n)]⟩
/-- Ring forms: mode holds k, 1 to 15; scope 4 is not listed (R255, R258). -/
def ringScope (f : LaneFields) : List Cause :=
  legal ((f.flags.extractLsb' 0 3).toNat ≤ 3) ++ flagsIn 0x17#8 f
def aenq : LaneForm :=
  ⟨true, true, true, true,
    fun f => dQ f ++ addrFields f ++ legal (f.mode != 0#4) ++ atomData 1 1 true f.c ++ ringScope f,
    fun f => useAddr f ++ [.rd f.c 1, .names f.d .loads (statusSlot f + 1)]⟩
def adeq : LaneForm :=
  ⟨true, true, true, false, fun f => dQ f ++ addrFields f ++ legal (f.mode != 0#4) ++ cNull f ++ ringScope f,
    fun f => useAddr f ++ [.names f.d .loads (statusSlot f + 2)]⟩

/-- Queue forms (R232): mode, flags and S null. -/
def queueClass (f : LaneFields) : List Cause := modeZero f ++ flagsIn 0#8 f ++ sNull f
def countC (f : LaneFields) : Nat := f.c.toNat + 1
def qpush : LaneForm :=
  ⟨true, true, false, false,
    fun f => dQ f ++ cImm 3 f ++ legal (f.c == 0#8 || (isVO f.a && (isV f.a || blockInFile f.a (countC f)))) ++
      bNull f ++ queueClass f,
    fun f => [.rd f.a (countC f), .wr f.d (countC f)]⟩
def qpop : LaneForm :=
  ⟨true, true, false, false,
    fun f => dVO f ++ legal (isQ f.a) ++ cImm 3 f ++ legal (isV f.d || blockInFile f.d (countC f)) ++ bNull f ++ queueClass f,
    fun f => [.rd f.a (countC f), .wr f.d (countC f)]⟩
def qpeek : LaneForm :=
  ⟨true, true, false, false, fun f => dVO f ++ legal (isQ f.a) ++ cImm 15 f ++ bNull f ++ queueClass f,
    fun f => [.names f.a .look (countC f), .wr f.d 1]⟩
def qdrop : LaneForm :=
  ⟨false, true, false, false, fun f => dNull f ++ legal (isQ f.a) ++ cImm 15 f ++ bNull f ++ queueClass f,
    fun f => [.names f.a .look (countC f)]⟩
def qstat : LaneForm :=
  ⟨true, true, false, false, fun f => dVO f ++ legal (isQ f.a) ++ cNull f ++ bNull f ++ queueClass f,
    fun f => [.wr f.d 1]⟩
def qbind : LaneForm :=
  ⟨true, false, false, false,
    fun f => dQ f ++ legal (1 ≤ f.a.toNat && f.a.toNat ≤ 5) ++ legal (2 ≤ f.b.toNat && f.b.toNat ≤ 16) ++ cNull f ++ queueClass f,
    fun _ => []⟩
def qunbind : LaneForm :=
  ⟨true, false, false, false, fun f => dQ f ++ aNull f ++ bNull f ++ cNull f ++ queueClass f,
    fun f => [.names f.d .bound 0]⟩

/-- Scale registers of an A block (R316). -/
def mmaScaleRegs (sparse : Bool) : MmaFmt → Nat
  | .bs4e2m1 => if sparse then 8 else 4
  | .bs4e4m3 => if sparse then 4 else 2
  | _ => 0
/-- K of R316. -/
def mmaK (sparse : Bool) (fmt : MmaFmt) : Nat :=
  let k := match fmt with
    | .f16 | .bf16 => 16
    | .bs4e2m1 => 64
    | _ => 32
  if sparse then 2 * k else k
/-- Index registers of a sparse form (R313). -/
def mmaW (fmt : MmaFmt) : Nat := mmaK true fmt / 32
def mmaRegs (sparse : Bool) (fmt : MmaFmt) : Nat := 8 + mmaScaleRegs sparse fmt
/-- Scale bytes of the B plane (R316). -/
def mmaScaleB (sparse : Bool) (fmt : MmaFmt) : Nat := if mmaScaleRegs sparse fmt = 0 then 0 else 8 * mmaK sparse fmt
/-- Bytes of B in scratch (R316). -/
def mmaBytes (sparse : Bool) (fmt : MmaFmt) : Nat := (if sparse then 2048 else 1024) + mmaScaleB sparse fmt
/-- Queue slots of B per lane (R312, R316). -/
def mmaSlots (sparse : Bool) (fmt : MmaFmt) : Nat := mmaBytes sparse fmt / 128

def hasRb (f : LaneFields) : Bool := f.flags.getLsbD 5
def hasRa (f : LaneFields) : Bool := f.flags.getLsbD 6
/-- The A block of R317: a `v` code that is a multiple of 8, or `o0` when the block has 8 registers. A `v` block that
reaches the allotment is REG_RANGE (R329). -/
def blockA (regs : Nat) (c : BitVec 8) : Bool :=
  (isV c && c.toNat % 8 == 0) || (c.toNat == 0xC0 && regs == 8)
/-- B and S select the source: `.rb` alone, a group register, or a `q` code (R317). A code that neither field lists is
UNASSIGNED_OP in each of the three. -/
def mmaB (queueOk : Bool) (f : LaneFields) : List Cause :=
  legal (f.b == 0#8 || (isQ f.b && queueOk)) ++ legal (noS f || sReg f) ++
  if hasRb f then zero (f.b == 0#8 && noS f)
  else if f.b == 0#8 then legal (sReg f)
  else zero (noS f)
/-- The A block, and the slots of a queue B (R312, R321). -/
def mmaUses (regs slots : Nat) (f : LaneFields) : List Use :=
  [.rd f.a regs] ++ (if isQ f.b then [.rd f.b slots] else [])
def mma (fmt : MmaFmt) : LaneForm :=
  ⟨false, true, true, false,
    fun f => legal f.x ++ legal (f.d.toNat ≤ 3) ++ legal (blockA (mmaRegs false fmt) f.a) ++ mmaB true f ++ cNull f ++
      modeZero f ++ flagsIn 0x60#8 f,
    mmaUses (mmaRegs false fmt) (mmaSlots false fmt)⟩
def mmasp (fmt : MmaFmt) : LaneForm :=
  ⟨false, true, true, true,
    fun f => legal f.x ++ legal (f.d.toNat ≤ 3) ++ legal (blockA (mmaRegs true fmt) f.a) ++
      mmaB (mmaScaleRegs true fmt == 0) f ++
      legal (isVO f.c && f.c.toNat % mmaW fmt == 0 && blockInFile f.c (mmaW fmt)) ++
      zero (!f.mode.getLsbD 3) ++ legal ((f.mode.extractLsb' 0 3).toNat ≤ 5) ++ flagsIn 0x60#8 f,
    fun f => mmaUses (mmaRegs true fmt) (mmaSlots true fmt) f ++ [.rd f.c (mmaW fmt)]⟩
def block4 (c : BitVec 8) : Bool := (isV c && c.toNat % 4 == 0) || c.toNat == 0xC0 || c.toNat == 0xC4
def fdot16 : LaneForm :=
  ⟨true, true, true, true,
    fun f => legal f.x ++ dDst f ++ legal (block4 f.a) ++ legal (block4 f.b) ++ sNull f ++ modeZero f ++ flagsIn 0#8 f,
    fun f => [.rd f.a 4, .rd f.b 4, .rd f.c 1, .wr f.d 1]⟩
/-- An 8-register block of `amov` (R324). -/
def block8 (c : BitVec 8) : Bool := isV c || c.toNat == 0xC0
def tileTail (f : LaneFields) : List Cause := bNull f ++ sNull f ++ modeZero f ++ flagsIn 0#8 f
def aclr : LaneForm :=
  ⟨false, false, false, false, fun f => legal f.x ++ legal (f.d.toNat ≤ 3) ++ aNull f ++ cNull f ++ tileTail f, fun _ => []⟩
def amovVa : LaneForm :=
  ⟨true, false, false, false, fun f => legal f.x ++ legal (block8 f.d) ++ legal (f.a.toNat ≤ 3) ++ cImm 3 f ++ tileTail f,
    fun f => [.wr f.d 8]⟩
def amovAv : LaneForm :=
  ⟨false, true, false, false, fun f => legal f.x ++ legal (f.d.toNat ≤ 3) ++ legal (block8 f.a) ++ cImm 3 f ++ tileTail f,
    fun f => [.rd f.a 8]⟩

/-- Island forms (R334, R335). -/
def islandClass (f : LaneFields) : List Cause := legal f.x ++ modeZero f ++ flagsIn 0#8 f
def blockV (n : Nat) (c : BitVec 8) : Bool := isV c && blockInFile c n
def sPair (f : LaneFields) : List Cause := legal (sReg f && isEven f.s.toNat)
def ray (bRegs : Nat) (c : LaneFields → List Cause) : LaneForm :=
  ⟨true, true, true, false,
    fun f => islandClass f ++ dQ f ++ legal (blockV 8 f.a && (bRegs != 6 || f.a.toNat % 8 == 0)) ++ legal (blockV bRegs f.b) ++ c f ++ sNull f,
    fun f => [.rd f.a 8, .rd f.b bRegs, .names f.d .bound (if bRegs == 6 then 1 else 3)]⟩
def texture (c : LaneFields → List Cause) : LaneForm :=
  ⟨true, true, false, false,
    fun f => islandClass f ++ dQ f ++ legal (blockV 3 f.a) ++ bNull f ++ c f ++ sPair f,
    fun f => [.rd f.a 3, .names f.d .bound 4]⟩
def rtri : LaneForm :=
  ⟨false, true, false, false,
    fun f => islandClass f ++ dNull f ++ legal (blockV 10 f.a) ++ bNull f ++ zero (f.c.toNat < 8) ++
      legal (f.c.extractLsb' 0 2 != 3#2) ++ legal (sReg f), fun f => [.rd f.a 10]⟩
def pixel (n : Nat) (cBits : Nat) : LaneForm :=
  ⟨false, true, false, false,
    fun f => islandClass f ++ dNull f ++ legal (blockV n f.a) ++ bNull f ++ zero (f.c.toNat < cBits) ++ sPair f,
    fun f => [.rd f.a n]⟩
def ilink : LaneForm :=
  ⟨true, false, false, false,
    fun f => islandClass f ++ dQ f ++ aNull f ++ bNull f ++ cImm 3 f ++ sNull f, fun f => [.names f.d .bound 0]⟩

/-- `cpy.gth`, `cpy.sct` (R388): mode [10:8] the size, scope 2 to 4, `.nf`. -/
def copyLane : LaneForm :=
  ⟨false, true, true, false,
    fun f => zero (!f.d.getLsbD 7) ++ legal ((f.d.extractLsb' 0 7).toNat < 0x60 && isEven f.d.toNat) ++ addrFields f ++
      legal (f.c == 0#8 || (0x80 ≤ f.c.toNat && f.c.toNat < 0xE0)) ++
      zero (!f.mode.getLsbD 3) ++ legal ((f.mode.extractLsb' 0 3).toNat ≤ 4) ++ scopeFlags 2 0x10#8 f,
    fun f => useAddr f ++ (if f.c == 0#8 then [] else [.gwr (f.c.extractLsb' 0 7) 1])⟩

/-- The counts of a card form (R372). -/
def jobIn (f : LaneFields) : Nat := (f.c.extractLsb' 0 4).toNat
def jobOut (f : LaneFields) : Nat := (f.c.extractLsb' 4 4).toNat
def jobCommon (f : LaneFields) : List Cause :=
  legal f.x ++ legal (isV f.a) ++ legal (f.b.toNat ≤ 0x0F) ++
  legal (1 ≤ jobIn f && jobIn f ≤ 8 && jobOut f ≤ 8) ++ legal (noS f || sReg f) ++ flagsIn 0#8 f
def jpostR : LaneForm :=
  ⟨true, true, false, false,
    fun f => jobCommon f ++ legal (f.mode.extractLsb' 0 2 == 0#2) ++ legal (isV f.d) ++
      zero (jobOut f != 0 || f.d == 0#8),
    fun f => [.rd f.a (jobIn f)] ++ (if jobOut f == 0 then [] else [.wr f.d (jobOut f)])⟩
def jpostQ : LaneForm :=
  ⟨true, true, false, false,
    fun f => jobCommon f ++ legal (f.mode.extractLsb' 0 2 == 1#2) ++ dQ f,
    fun f => [.rd f.a (jobIn f), .names f.d .results (jobOut f)]⟩
/-- Mode [9:8] of `jwait` is reserved, and its values 2 and 3 are unassigned (R372, R387). -/
def jwait : LaneForm :=
  ⟨false, false, false, false,
    fun f => legal f.x ++ dNull f ++ aNull f ++ bNull f ++ cNull f ++ sNull f ++ flagsIn 0#8 f ++
      zero (f.mode.extractLsb' 0 2 == 0#2) ++ legal (!f.mode.getLsbD 1), fun _ => []⟩

/-! Group forms. -/

def gS (c : BitVec 7) : Bool := c.toNat < 0x60
def gM (c : BitVec 7) : Bool := 0x60 ≤ c.toNat && c.toNat ≤ 0x6B
def gLit (c : BitVec 7) : Bool := c.toNat == 0x7F
/-- A source code of R83; the literal needs X = 1 (R85). -/
def gSrc (g : GroupFields) (c : BitVec 7) : List Cause := legal (!gLit c || g.lit.isSome)
def gSrcNoM (g : GroupFields) (c : BitVec 7) : List Cause := legal (!gM c) ++ gSrc g c
/-- A 64-bit source (R110). -/
def gSrc64 (g : GroupFields) (c : BitVec 7) : List Cause := legal (!gS c || isEven c.toNat) ++ gSrcNoM g c
/-- A mask source (R114). -/
def gMask (c : BitVec 7) : List Cause := legal (gM c || c.toNat == 0x78 || c.toNat == 0x6C || c.toNat == 0x74)
def gPair (c : BitVec 7) : List Cause := legal (gS c && isEven c.toNat)
def gNull (c : BitVec 7) : List Cause := zero (c == 0#7)
/-- A literal that no listed field reads (R85). -/
def litUse (g : GroupFields) (fields : List (BitVec 7)) : List Cause := zero (g.lit.isNone || fields.any gLit)
def noLit (g : GroupFields) : List Cause := zero g.lit.isNone
def gImm (lo hi : Nat) (c : BitVec 7) : List Cause := legal (lo ≤ c.toNat && c.toNat ≤ hi)

def gWrites (n : Nat) (g : GroupFields) : List Use := [.gwr g.sd n]
/-- No source operand, SA alone, and both. -/
def noSrc (_ : GroupFields) : List (BitVec 7 × Nat) := []
def srcA (g : GroupFields) : List (BitVec 7 × Nat) := [(g.sa, 1)]
def srcAB (g : GroupFields) : List (BitVec 7 × Nat) := [(g.sa, 1), (g.sb, 1)]
/-- Two sources, an `s` destination (R109). -/
def gBin : GroupForm :=
  ⟨fun g => legal (gS g.sd) ++ gSrc g g.sa ++ gSrc g g.sb ++ litUse g [g.sa, g.sb], gWrites 1, srcAB⟩
def gUn : GroupForm :=
  ⟨fun g => legal (gS g.sd) ++ gSrc g g.sa ++ gNull g.sb ++ litUse g [g.sa], gWrites 1, srcA⟩
def gBin64 : GroupForm :=
  ⟨fun g => gPair g.sd ++ gSrc64 g g.sa ++ gSrc64 g g.sb ++ litUse g [g.sa, g.sb], gWrites 2,
    fun g => [(g.sa, 2), (g.sb, 2)]⟩
def gSldk : GroupForm :=
  ⟨fun g => legal (gS g.sd) ++ gSrcNoM g g.sa ++ gSrc g g.sb ++ litUse g [g.sa, g.sb], gWrites 1, srcA⟩
def gSget : GroupForm :=
  ⟨fun g => legal (gS g.sd) ++ gImm 2 0x1C g.sa ++ legal (g.sa.toNat != 0x1B || isEven g.sd.toNat) ++ gNull g.sb ++ noLit g,
    fun g => [.gwr g.sd (if g.sa.toNat == 0x1B then 2 else 1)], noSrc⟩
def gSset : GroupForm :=
  ⟨fun g => legal (g.sd.toNat == 0x14 || g.sd.toNat == 0x1C) ++ gSrcNoM g g.sa ++ gNull g.sb ++ litUse g [g.sa], fun _ => [],
    srcA⟩
def gMaskBin : GroupForm := ⟨fun g => legal (gM g.sd) ++ gMask g.sa ++ gMask g.sb ++ noLit g, gWrites 1, srcAB⟩
def gMaskUn : GroupForm := ⟨fun g => legal (gM g.sd) ++ gMask g.sa ++ gNull g.sb ++ noLit g, gWrites 1, srcA⟩
def gMaskToS : GroupForm := ⟨fun g => legal (gS g.sd) ++ gMask g.sa ++ gNull g.sb ++ noLit g, gWrites 1, srcA⟩
def gStom : GroupForm := ⟨fun g => legal (gM g.sd) ++ gSrcNoM g g.sa ++ gNull g.sb ++ litUse g [g.sa], gWrites 1,
    srcA⟩
def gMaskSet : GroupForm := ⟨fun g => legal (gM g.sd) ++ gNull g.sa ++ gNull g.sb ++ noLit g, gWrites 1, noSrc⟩
def gMlane : GroupForm :=
  ⟨fun g => legal (gM g.sd) ++ gSrcNoM g g.sa ++ gSrcNoM g g.sb ++ litUse g [g.sa, g.sb], gWrites 1, srcAB⟩
def gSbr (c : SbrCond) : GroupForm :=
  ⟨fun g => legal g.lit.isSome ++ gNull g.sd ++ gNull g.sb ++
    (if c = .always then gNull g.sa else legal (!gLit g.sa)), fun _ => [], if c = .always then noSrc else srcA⟩
def gJoin : GroupForm := ⟨fun g => legal (gM g.sd) ++ gNull g.sa ++ gNull g.sb ++ noLit g, fun _ => [], noSrc⟩
def gMwait : GroupForm := ⟨fun g => gNull g.sd ++ legal (gM g.sa) ++ gNull g.sb ++ noLit g, fun _ => [], srcA⟩
/-- The offset field of the `loop` literal (R194). -/
def loopOffset (l : Word) : Nat := (l.extractLsb' 0 16).toNat
def gLoopSrc (c : BitVec 7) : List Cause := legal (!gLit c && !gM c && (!gS c || isEven c.toNat))
def gLoop : GroupForm :=
  ⟨fun g => gImm 0 3 g.sd ++ gLoopSrc g.sa ++ gLoopSrc g.sb ++
    legal (match g.lit with | some l => 3 ≤ loopOffset l | none => false), fun _ => [],
    fun g => [(g.sa, 2), (g.sb, 2)]⟩
def gLbrk : GroupForm := ⟨fun g => gImm 0 3 g.sd ++ gNull g.sa ++ gNull g.sb ++ noLit g, fun _ => [], noSrc⟩
def gRun : GroupForm := ⟨fun g => gNull g.sd ++ gImm 1 24 g.sa ++ gNull g.sb ++ noLit g, fun _ => [], noSrc⟩
def gFence : GroupForm := ⟨fun g => gNull g.sd ++ gImm 0 4 g.sa ++ gNull g.sb ++ noLit g, fun _ => [], noSrc⟩
def gBar : GroupForm := ⟨fun g => gImm 0 0x47 g.sd ++ gNull g.sa ++ gNull g.sb ++ noLit g, fun _ => [], noSrc⟩
def gBarInit : GroupForm :=
  ⟨fun g => gImm 0 0x47 g.sd ++ gSrcNoM g g.sa ++ gImm 0 2 g.sb ++ litUse g [g.sa], fun _ => [], srcA⟩
/-- Bits [5:4] of the ring field (R295). -/
def ringReserved (c : BitVec 7) : List Cause := zero (c.extractLsb' 4 2 == 0#2)
def gRingArr : GroupForm :=
  ⟨fun g => ringReserved g.sd ++ gSrcNoM g g.sa ++ gNull g.sb ++ litUse g [g.sa], fun _ => [], srcA⟩
def gRingWait : GroupForm :=
  ⟨fun g => ringReserved g.sd ++ gSrcNoM g g.sa ++ gSrcNoM g g.sb ++ litUse g [g.sa, g.sb], fun _ => [], srcAB⟩
def gIcinv : GroupForm := ⟨fun g => gNull g.sd ++ gPair g.sa ++ gNull g.sb ++ noLit g, fun _ => [],
    fun g => [(g.sa, 2)]⟩
def gAldu (sz : Size) : GroupForm :=
  ⟨fun g => legal (gS g.sd && (48 ≤ g.sd.toNat || g.sd.toNat % sizeWords sz == 0)) ++ gPair g.sa ++ gSrc g g.sb ++ litUse g [g.sb],
    gWrites (sizeWords sz), fun g => [(g.sa, 2)]⟩
def gCopy : GroupForm :=
  ⟨fun g => legal (gS g.sd) ++ legal (g.sa.toNat ≤ 0x58 && g.sa.toNat % 8 == 0) ++ gNull g.sb ++ noLit g, gWrites 1,
    fun g => [(g.sa, 8)]⟩
def gLrec : GroupForm := ⟨fun g => legal (gS g.sd) ++ gPair g.sa ++ gNull g.sb ++ noLit g, gWrites 1,
    fun g => [(g.sa, 2)]⟩
/-- `cpy.stat` has X = 0, so a literal is a set reserved bit (R388). -/
def gCpyStat : GroupForm := ⟨fun g => legal (gS g.sd) ++ gSrcNoM g g.sa ++ gNull g.sb ++ noLit g, gWrites 1,
    srcA⟩
def gJstat : GroupForm := ⟨fun g => legal (gS g.sd) ++ gImm 0 3 g.sa ++ gNull g.sb ++ noLit g, gWrites 1, noSrc⟩
def gJcancel : GroupForm := ⟨fun g => gNull g.sd ++ gImm 0 3 g.sa ++ gNull g.sb ++ noLit g, fun _ => [], noSrc⟩
def gGload : GroupForm := ⟨fun g => legal (gS g.sd) ++ gPair g.sa ++ gImm 0 15 g.sb ++ noLit g, gWrites 1,
    fun g => [(g.sa, 2)]⟩
def gGunload : GroupForm := ⟨fun g => gNull g.sd ++ gNull g.sa ++ gImm 0 15 g.sb ++ noLit g, fun _ => [], noSrc⟩
def gSclk : GroupForm := ⟨fun g => gNull g.sd ++ gPair g.sa ++ gNull g.sb ++ noLit g, fun _ => [],
    fun g => [(g.sa, 2)]⟩
def gPmc : GroupForm := ⟨fun g => legal (gS g.sd) ++ gImm 0 15 g.sa ++ gNull g.sb ++ noLit g, gWrites 1, noSrc⟩
def gKtk : GroupForm := ⟨fun g => legal (gS g.sd) ++ gPair g.sa ++ gImm 1 32 g.sb ++ noLit g, gWrites 1,
    fun g => [(g.sa, 2)]⟩
def gHalt : GroupForm := ⟨fun g => gNull g.sd ++ gSrcNoM g g.sa ++ gNull g.sb ++ litUse g [g.sa], fun _ => [],
    srcA⟩

end Form
end Sys2Proof
end

