-- ==== Sys2Proof/Machine/Layout.lean ====
section
/-!
DEFINITION. The opcode maps (R80, R81, R86, R87): the layout of every instruction, with its opcode, its function and its
form; the slices and roles it may issue from (R43, R46, R87, R212); which may stand in a run (R202) and pair (R54).
-/
namespace Sys2Proof

/-- The code of a cause (R405). -/
def Cause.code : Cause → Nat
  | .unassignedOp => 0x01
  | .reservedBits => 0x02
  | .sliceRole => 0x03
  | .regRange => 0x04
  | .sregOwner => 0x05
  | .ofileOutsideRun => 0x08
  | .queueInRun => 0x09
  | .runForm => 0x0A
  | .loopDiverged => 0x0B
  | .loopStep => 0x0C
  | .loopRange => 0x0D
  | .loopInactive => 0x0E
  | .queueUnbound => 0x10
  | .queueDir => 0x11
  | .queueBind => 0x12
  | .queueDeadlock => 0x13
  | .misaligned => 0x18
  | .scratchRange => 0x19
  | .constRange => 0x1A
  | .addrNoncanon => 0x1B
  | .pageAbsent => 0x1C
  | .pageRead => 0x1D
  | .pageWrite => 0x1E
  | .pageExec => 0x1F
  | .pageEntry => 0x20
  | .pageWalk => 0x21
  | .atomTarget => 0x22
  | .ringForm => 0x23
  | .hostAtomic => 0x24
  | .hostRead => 0x25
  | .barState => 0x28
  | .barTimeout => 0x29
  | .mmaLatch => 0x30
  | .mmaPartial => 0x31
  | .islandFn => 0x34
  | .islandLink => 0x35
  | .islandDesc => 0x36
  | .graphState => 0x38
  | .graphImage => 0x39
  | .jobForm => 0x3A
  | .fabricShare => 0x3B
  | .jobSlot => 0x3C
  | .copyForm => 0x40
  | .layoutBad => 0x41
  | .copyTarget => 0x42
  | .trap => 0x48
  | .brk => 0x49
  | .pmaskState => 0x4A
  | .pmaskLong => 0x4B
  | .ctxError => 0x50
  | .killed => 0x51
  | .shutdown => 0x52
  | .launchDesc => 0x58
  | .launchFit => 0x59
  | .launchImage => 0x5A

/-- The cause with the lowest code (R8). -/
def lowestCause : List Cause → Option Cause
  | [] => none
  | c :: cs => match lowestCause cs with
    | none => some c
    | some d => some (if c.code ≤ d.code then c else d)

/-- The function value of a suffix (R86, R87). -/
def IntCond.fn : IntCond → Nat
  | .eq => 0
  | .ne => 1
  | .lt => 2
  | .le => 3
  | .ltu => 4
  | .leu => 5
def IntCond.ofFn : Nat → Option IntCond
  | 0 => some .eq
  | 1 => some .ne
  | 2 => some .lt
  | 3 => some .le
  | 4 => some .ltu
  | 5 => some .leu
  | _ => none

/-- The function value of a suffix (R86, R87). -/
def FloatCond.fn : FloatCond → Nat
  | .eq => 0
  | .ne => 1
  | .lt => 2
  | .le => 3
  | .un => 4
  | .ord => 5
def FloatCond.ofFn : Nat → Option FloatCond
  | 0 => some .eq
  | 1 => some .ne
  | 2 => some .lt
  | 3 => some .le
  | 4 => some .un
  | 5 => some .ord
  | _ => none

/-- The function value of a suffix (R86, R87). -/
def RoundDir.fn : RoundDir → Nat
  | .rn => 0
  | .rz => 1
  | .rp => 2
  | .rm => 3
def RoundDir.ofFn : Nat → Option RoundDir
  | 0 => some .rn
  | 1 => some .rz
  | 2 => some .rp
  | 3 => some .rm
  | _ => none

/-- The function value of a suffix (R86, R87). -/
def CvtOp.fn : CvtOp → Nat
  | .f32F64 => 0
  | .f64F32 => 1
  | .f16F32 => 2
  | .bf16F32 => 3
  | .f32F16Lo => 4
  | .f32F16Hi => 5
  | .f32Bf16Lo => 6
  | .f32Bf16Hi => 7
  | .i32F32 => 8
  | .ui32F32 => 9
  | .f32I32 => 10
  | .f32Ui32 => 11
  | .i32F64 => 12
  | .ui32F64 => 13
  | .f64I32 => 14
  | .f64Ui32 => 15
  | .i64F64 => 16
  | .ui64F64 => 17
  | .f64I64 => 18
  | .f64Ui64 => 19
def CvtOp.ofFn : Nat → Option CvtOp
  | 0 => some .f32F64
  | 1 => some .f64F32
  | 2 => some .f16F32
  | 3 => some .bf16F32
  | 4 => some .f32F16Lo
  | 5 => some .f32F16Hi
  | 6 => some .f32Bf16Lo
  | 7 => some .f32Bf16Hi
  | 8 => some .i32F32
  | 9 => some .ui32F32
  | 10 => some .f32I32
  | 11 => some .f32Ui32
  | 12 => some .i32F64
  | 13 => some .ui32F64
  | 14 => some .f64I32
  | 15 => some .f64Ui32
  | 16 => some .i64F64
  | 17 => some .ui64F64
  | 18 => some .f64I64
  | 19 => some .f64Ui64
  | _ => none

/-- The function value of a suffix (R86, R87). -/
def CvtSmallOp.fn : CvtSmallOp → Nat
  | .e4m3F32 => 0
  | .e5m2F32 => 1
  | .e2m1F32 => 2
  | .e4m3F16 => 3
  | .e5m2F16 => 4
  | .f32E4m3 => 5
  | .f32E5m2 => 6
  | .f32E2m1 => 7
  | .f16E4m3 => 8
  | .f16E5m2 => 9
  | .scaleE4m3 => 10
  | .scaleE2m1 => 11
  | .bs4e4m3K0 => 12
  | .bs4e4m3K1 => 13
  | .bs4e2m1K0 => 14
  | .bs4e2m1K1 => 15
  | .bs4e2m1K2 => 16
  | .bs4e2m1K3 => 17
  | .f32Bs4e4m3 => 18
  | .f32Bs4e2m1 => 19
def CvtSmallOp.ofFn : Nat → Option CvtSmallOp
  | 0 => some .e4m3F32
  | 1 => some .e5m2F32
  | 2 => some .e2m1F32
  | 3 => some .e4m3F16
  | 4 => some .e5m2F16
  | 5 => some .f32E4m3
  | 6 => some .f32E5m2
  | 7 => some .f32E2m1
  | 8 => some .f16E4m3
  | 9 => some .f16E5m2
  | 10 => some .scaleE4m3
  | 11 => some .scaleE2m1
  | 12 => some .bs4e4m3K0
  | 13 => some .bs4e4m3K1
  | 14 => some .bs4e2m1K0
  | 15 => some .bs4e2m1K1
  | 16 => some .bs4e2m1K2
  | 17 => some .bs4e2m1K3
  | 18 => some .f32Bs4e4m3
  | 19 => some .f32Bs4e2m1
  | _ => none

/-- The function value of a suffix (R86, R87). -/
def ShflOp.fn : ShflOp → Nat
  | .idx => 0
  | .up => 1
  | .dn => 2
  | .xor => 3
def ShflOp.ofFn : Nat → Option ShflOp
  | 0 => some .idx
  | 1 => some .up
  | 2 => some .dn
  | 3 => some .xor
  | _ => none

/-- The function value of a suffix (R86, R87). -/
def QswpOp.fn : QswpOp → Nat
  | .h => 0
  | .v => 1
  | .d => 2
def QswpOp.ofFn : Nat → Option QswpOp
  | 0 => some .h
  | 1 => some .v
  | 2 => some .d
  | _ => none

/-- The function value of a suffix (R86, R87). -/
def RedOp.fn : RedOp → Nat
  | .add => 0
  | .min => 1
  | .max => 2
  | .and => 3
  | .or => 4
  | .xor => 5
  | .fadd => 6
  | .fmin => 7
  | .fmax => 8
def RedOp.ofFn : Nat → Option RedOp
  | 0 => some .add
  | 1 => some .min
  | 2 => some .max
  | 3 => some .and
  | 4 => some .or
  | 5 => some .xor
  | 6 => some .fadd
  | 7 => some .fmin
  | 8 => some .fmax
  | _ => none

/-- The function value of a suffix (R86, R87). -/
def Size.fn : Size → Nat
  | .b => 0
  | .h => 1
  | .w => 2
  | .d => 3
  | .x => 4
def Size.ofFn : Nat → Option Size
  | 0 => some .b
  | 1 => some .h
  | 2 => some .w
  | 3 => some .d
  | 4 => some .x
  | _ => none

/-- The function value of a suffix (R86, R87). -/
def AtomOp.fn : AtomOp → Nat
  | .add => 0
  | .sub => 1
  | .min => 2
  | .max => 3
  | .minu => 4
  | .maxu => 5
  | .and => 6
  | .or => 7
  | .xor => 8
  | .xchg => 9
  | .inc => 10
  | .dec => 11
  | .fadd => 12
  | .fmin => 13
  | .fmax => 14
def AtomOp.ofFn : Nat → Option AtomOp
  | 0 => some .add
  | 1 => some .sub
  | 2 => some .min
  | 3 => some .max
  | 4 => some .minu
  | 5 => some .maxu
  | 6 => some .and
  | 7 => some .or
  | 8 => some .xor
  | 9 => some .xchg
  | 10 => some .inc
  | 11 => some .dec
  | 12 => some .fadd
  | 13 => some .fmin
  | 14 => some .fmax
  | _ => none

/-- The function value of a suffix (R86, R87). -/
def CasSize.fn : CasSize → Nat
  | .w => 0
  | .d => 1
  | .x => 2
def CasSize.ofFn : Nat → Option CasSize
  | 0 => some .w
  | 1 => some .d
  | 2 => some .x
  | _ => none

/-- The function value of a suffix (R86, R87). -/
def MmaFmt.fn : MmaFmt → Nat
  | .f16 => 0
  | .bf16 => 1
  | .e4m3 => 2
  | .e5m2 => 3
  | .i8 => 4
  | .bs4e2m1 => 5
  | .bs4e4m3 => 6
def MmaFmt.ofFn : Nat → Option MmaFmt
  | 0 => some .f16
  | 1 => some .bf16
  | 2 => some .e4m3
  | 3 => some .e5m2
  | 4 => some .i8
  | 5 => some .bs4e2m1
  | 6 => some .bs4e4m3
  | _ => none

/-- The function value of a suffix (R86, R87). -/
def Fp8Fmt.fn : Fp8Fmt → Nat
  | .e4m3 => 0
  | .e5m2 => 1
def Fp8Fmt.ofFn : Nat → Option Fp8Fmt
  | 0 => some .e4m3
  | 1 => some .e5m2
  | _ => none

/-- The function value of a suffix (R86, R87). -/
def SbrCond.fn : SbrCond → Nat
  | .always => 0
  | .z => 1
  | .nz => 2
  | .lt => 3
  | .ge => 4
def SbrCond.ofFn : Nat → Option SbrCond
  | 0 => some .always
  | 1 => some .z
  | 2 => some .nz
  | 3 => some .lt
  | 4 => some .ge
  | _ => none

/-- The function value of a suffix (R86, R87). -/
def FenceKind.fn : FenceKind → Nat
  | .acq => 0
  | .rel => 1
  | .ar => 2
  | .sc => 3
def FenceKind.ofFn : Nat → Option FenceKind
  | 0 => some .acq
  | 1 => some .rel
  | 2 => some .ar
  | 3 => some .sc
  | _ => none

/-- The function value of a suffix (R86, R87). -/
def TileDir.fn : TileDir → Nat
  | .gs => 0
  | .sg => 1
  | .gq => 2
def TileDir.ofFn : Nat → Option TileDir
  | 0 => some .gs
  | 1 => some .sg
  | 2 => some .gq
  | _ => none

/-- The function value of a suffix (R86, R87). -/
def LinDir.fn : LinDir → Nat
  | .gg => 0
  | .gs => 1
  | .sg => 2
def LinDir.ofFn : Nat → Option LinDir
  | 0 => some .gg
  | 1 => some .gs
  | 2 => some .sg
  | _ => none

/-- How an instruction is laid out in words. A `lane` layout has the base word and modifier word of R70 and R71, a
`group` layout the word of R82; the words of a `fixed` layout have no such fields, or none that vary. -/
inductive Layout where
  | lane (op fn : Nat) (f : LaneFields) (form : LaneForm)
  | group (op fn : Nat) (g : GroupFields) (form : GroupForm)
  | fixed (words : List Word) (checks : List Cause)
  | event

/-- `.sat` is listed for the `add` operation only (R211). -/
def redSat (op : RedOp) : Bool := op == .add

namespace Form
/-- A condition operand of R80. -/
def condCode (c : BitVec 8) : List Cause := legal (isVOQ c)
end Form

open Form

/-- The branch words of R80 and R81. -/
def branchWord (op : Nat) (d : BitVec 8) (off : BitVec 16) : Word := BitVec.ofNat 8 op ++ d ++ off
def shortWord (op : Nat) (d a b : BitVec 8) : Word := BitVec.ofNat 8 op ++ d ++ a ++ b
/-- A group word with X clear (R82). -/
def groupWord (x : Bool) (op : Nat) (sd sa sb : BitVec 7) (fn : Nat) : Word :=
  BitVec.ofNat 2 (if x then 3 else 2) ++ BitVec.ofNat 6 op ++ sd ++ sa ++ sb ++ BitVec.ofNat 3 fn

/-- One hint byte of R200. -/
def hintByte (h : Word) (k : Nat) : BitVec 8 := h.extractLsb' (8 * k) 8

/-- The hint word of R200: bits [31:24] are 0; each of the three bytes is a `v` code, or 0xFF for none. -/
def hintChecks (h : Word) : List Cause :=
  zero (hintByte h 3 == 0#8) ++ (List.range 3).flatMap (fun k => legal (isV (hintByte h k) || hintByte h k == 0xFF#8))

/-- The layout of every constructor. -/
def Instr.layout : Instr → Layout
  | .iadd f => .lane 0x00 0 f Form.binCarry
  | .isub f => .lane 0x01 0 f Form.binCarry
  | .imul f => .lane 0x02 0 f (Form.bin false)
  | .imulhi f => .lane 0x02 1 f (Form.bin false)
  | .imulhu f => .lane 0x02 2 f (Form.bin false)
  | .imad f => .lane 0x03 0 f (Form.tri true)
  | .and f => .lane 0x04 0 f (Form.bin false)
  | .or f => .lane 0x05 0 f (Form.bin false)
  | .xor f => .lane 0x06 0 f (Form.bin false)
  | .andn f => .lane 0x07 0 f (Form.bin false)
  | .not f => .lane 0x07 1 f (Form.un false)
  | .shl f => .lane 0x08 0 f (Form.bin false)
  | .shr f => .lane 0x08 1 f (Form.bin false)
  | .sar f => .lane 0x08 2 f (Form.bin false)
  | .rotl f => .lane 0x08 3 f (Form.bin false)
  | .bfe f => .lane 0x09 0 f (Form.bin false)
  | .bfeu f => .lane 0x09 1 f (Form.bin false)
  | .bfi f => .lane 0x09 2 f (Form.tri false)
  | .bfrev f => .lane 0x09 3 f (Form.un false)
  | .popc f => .lane 0x09 4 f (Form.un false)
  | .clz f => .lane 0x09 5 f (Form.un false)
  | .ctz f => .lane 0x09 6 f (Form.un false)
  | .imin f => .lane 0x0A 0 f (Form.bin false)
  | .imax f => .lane 0x0A 1 f (Form.bin false)
  | .uimin f => .lane 0x0A 2 f (Form.bin false)
  | .uimax f => .lane 0x0A 3 f (Form.bin false)
  | .iabs f => .lane 0x0A 4 f (Form.un true)
  | .ineg f => .lane 0x0A 5 f (Form.un true)
  | .icmp cc f => .lane 0x0B cc.fn f (Form.compare (classInt false))
  | .mov f => .lane 0x0C 0 f (Form.un false)
  | .movs f => .lane 0x0C 1 f Form.movs
  | .sel f => .lane 0x0C 2 f Form.sel
  | .prmt f => .lane 0x0C 3 f (Form.tri false)
  | .lea f => .lane 0x0C 4 f Form.lea
  | .sad8 f => .lane 0x0D 0 f (Form.tri true)
  | .idot4 f => .lane 0x0D 1 f (Form.tri true)
  | .idot2 f => .lane 0x0D 2 f (Form.tri true)
  | .iadd64 f => .lane 0x0E 0 f (Form.pair3 true (cMask true))
  | .isub64 f => .lane 0x0E 1 f (Form.pair3 true (cMask true))
  | .imul64 f => .lane 0x0E 2 f (Form.pair3 false cNull)
  | .shl64 f => .lane 0x0E 3 f Form.pairShift
  | .shr64 f => .lane 0x0E 4 f Form.pairShift
  | .sext f => .lane 0x0F 0 f Form.pairExt
  | .zext f => .lane 0x0F 1 f Form.pairExt
  | .fadd f => .lane 0x10 0 f (Form.fbin 3 0x8F#8)
  | .fsub f => .lane 0x11 0 f (Form.fbin 3 0x8F#8)
  | .fmul f => .lane 0x12 0 f (Form.fbin 3 0x8F#8)
  | .ffma f => .lane 0x13 0 f (Form.ftri 3 0xBF#8)
  | .fmin f => .lane 0x14 0 f (Form.fbin 0 0x8F#8)
  | .fmax f => .lane 0x14 1 f (Form.fbin 0 0x8F#8)
  | .fminnum f => .lane 0x14 2 f (Form.fbin 0 0x8F#8)
  | .fmaxnum f => .lane 0x14 3 f (Form.fbin 0 0x8F#8)
  | .fcmp cc f => .lane 0x15 cc.fn f (Form.compare (fun f => modeFloat 0 f ++ flagsIn 0x0F#8 f))
  | .fclass f => .lane 0x16 0 f (Form.fun1 0 0x03#8)
  | .ffract f => .lane 0x16 1 f (Form.fun1 0 0x03#8)
  | .fldexp f => .lane 0x16 2 f (Form.fbin 3 0x83#8)
  | .ffrexp f => .lane 0x16 3 f (Form.fun1PairD 0 0x03#8)
  | .fround dir f => .lane 0x17 dir.fn f (Form.fun1 0 0x83#8)
  | .frcp f => .lane 0x18 0 f (Form.fun1 0 0x83#8)
  | .frsq f => .lane 0x18 1 f (Form.fun1 0 0x83#8)
  | .fsqrt f => .lane 0x18 2 f (Form.fun1 0 0x83#8)
  | .fexp2 f => .lane 0x18 3 f (Form.fun1 0 0x83#8)
  | .flog2 f => .lane 0x18 4 f (Form.fun1 0 0x83#8)
  | .fsinpi f => .lane 0x18 5 f (Form.fun1 0 0x83#8)
  | .fcospi f => .lane 0x18 6 f (Form.fun1 0 0x83#8)
  | .ftanh f => .lane 0x18 7 f (Form.fun1 0 0x83#8)
  | .hadd2 f => .lane 0x19 0 f (Form.fbin 3 0x8F#8)
  | .hsub2 f => .lane 0x1A 0 f (Form.fbin 3 0x8F#8)
  | .hmul2 f => .lane 0x1B 0 f (Form.fbin 3 0x8F#8)
  | .hfma2 f => .lane 0x1C 0 f (Form.ftri 3 0xBF#8)
  | .hmin2 f => .lane 0x1D 0 f (Form.fbin 0 0x8F#8)
  | .hmax2 f => .lane 0x1D 1 f (Form.fbin 0 0x8F#8)
  | .bfma2 f => .lane 0x1E 0 f (Form.ftri 3 0xBF#8)
  | .dadd f => .lane 0x1F 0 f (Form.dbin 0x8F#8)
  | .dmul f => .lane 0x20 0 f (Form.dbin 0x8F#8)
  | .dfma f => .lane 0x21 0 f (Form.dtri 0xBF#8)
  | .cvt op f => .lane 0x22 op.fn f (Form.cvt op)
  | .cvtFp8Fp4 op f => .lane 0x23 op.fn f (Form.cvtSmall op)
  | .shfl op f => .lane 0x24 op.fn f Form.shfl
  | .qswp op f => .lane 0x25 op.fn f (Form.quad 0)
  | .qbc f => .lane 0x25 3 f (Form.quad 3)
  | .lred op f => .lane 0x26 op.fn f (Form.reduce (redSat op) false)
  | .lscan excl op f => .lane 0x27 (op.fn + (if excl then 9 else 0)) f (Form.scan (redSat op))
  | .lvoteAny f => .lane 0x27 18 f (Form.reduce false false)
  | .lvoteAll f => .lane 0x27 19 f (Form.reduce false false)
  | .lvoteBal f => .lane 0x27 20 f (Form.reduce false true)
  | .lbc f => .lane 0x27 21 f (Form.bin false)
  | .lfirst f => .lane 0x27 22 f (Form.reduce false false)
  | .ald sz f => .lane 0x30 sz.fn f (Form.access .loads sz)
  | .ast sz f => .lane 0x31 sz.fn f (Form.access .records sz)
  | .apf f => .lane 0x32 0 f Form.prefetch
  | .aflush f => .lane 0x32 1 f (Form.lineOp 2)
  | .ainv f => .lane 0x32 2 f (Form.lineOp 3)
  | .qpush f => .lane 0x33 0 f Form.qpush
  | .qpop f => .lane 0x33 1 f Form.qpop
  | .qpeek f => .lane 0x33 2 f Form.qpeek
  | .qdrop f => .lane 0x33 3 f Form.qdrop
  | .qwait f => .lane 0x34 0 f Form.qdrop
  | .qstat f => .lane 0x34 1 f Form.qstat
  | .qbind f => .lane 0x34 2 f Form.qbind
  | .qunbind f => .lane 0x34 3 f Form.qunbind
  | .lds sz f => .lane 0x35 sz.fn f (Form.scratch false sz)
  | .sts sz f => .lane 0x36 sz.fn f (Form.scratch true sz)
  | .aatom op f => .lane 0x38 op.fn f (Form.aatom op)
  | .acas sz f => .lane 0x39 sz.fn f (Form.acas sz)
  | .ared op f => .lane 0x3A op.fn f (Form.ared op)
  | .aenq f => .lane 0x3B 0 f Form.aenq
  | .adeq f => .lane 0x3B 1 f Form.adeq
  | .mma fmt f => .lane 0x3C fmt.fn f (Form.mma fmt)
  | .mmasp fmt f => .lane 0x3C (fmt.fn + 8) f (Form.mmasp fmt)
  | .fdot16 fmt f => .lane 0x3C (fmt.fn + 16) f Form.fdot16
  | .aclr f => .lane 0x3C 24 f Form.aclr
  | .amovVa f => .lane 0x3C 25 f Form.amovVa
  | .amovAv f => .lane 0x3C 26 f Form.amovAv
  | .ibox f => .lane 0x3D 0 f (Form.ray 6 cNull)
  | .itri f => .lane 0x3D 1 f (Form.ray 9 cNull)
  | .iprim f => .lane 0x3D 2 f (Form.ray 8 (cImm 15))
  | .tsmp f => .lane 0x3D 3 f (Form.texture cNull)
  | .tgth f => .lane 0x3D 4 f (Form.texture (cImm 3))
  | .tfch f => .lane 0x3D 5 f (Form.texture cNull)
  | .rtri f => .lane 0x3D 6 f Form.rtri
  | .bpx f => .lane 0x3D 7 f (Form.pixel 4 16)
  | .ilink f => .lane 0x3D 8 f Form.ilink
  | .ist f => .lane 0x3D 9 f (Form.pixel 5 8)
  | .cpyGth f => .lane 0x3E 0 f Form.copyLane
  | .cpySct f => .lane 0x3E 1 f Form.copyLane
  | .jpostR f => .lane 0x3E 8 f Form.jpostR
  | .jpostQ f => .lane 0x3E 8 f Form.jpostQ
  | .jwait f => .lane 0x3E 9 f Form.jwait

  | .sadd g => .group 0x00 0 g Form.gBin
  | .ssub g => .group 0x01 0 g Form.gBin
  | .smul g => .group 0x02 0 g Form.gBin
  | .smulhi g => .group 0x02 1 g Form.gBin
  | .smulhu g => .group 0x02 2 g Form.gBin
  | .sand g => .group 0x03 0 g Form.gBin
  | .sor g => .group 0x04 0 g Form.gBin
  | .sxor g => .group 0x05 0 g Form.gBin
  | .sandn g => .group 0x06 0 g Form.gBin
  | .snot g => .group 0x06 1 g Form.gUn
  | .sshl g => .group 0x07 0 g Form.gBin
  | .sshr g => .group 0x07 1 g Form.gBin
  | .ssar g => .group 0x07 2 g Form.gBin
  | .smin g => .group 0x08 0 g Form.gBin
  | .smax g => .group 0x08 1 g Form.gBin
  | .sminu g => .group 0x08 2 g Form.gBin
  | .smaxu g => .group 0x08 3 g Form.gBin
  | .sabs g => .group 0x08 4 g Form.gUn
  | .sneg g => .group 0x08 5 g Form.gUn
  | .scmp cc g => .group 0x09 cc.fn g Form.gBin
  | .ssel g => .group 0x0A 0 g Form.gBin
  | .smov g => .group 0x0B 0 g Form.gUn
  | .sbfe g => .group 0x0D 0 g Form.gBin
  | .sbfi g => .group 0x0E 0 g Form.gBin
  | .spopc g => .group 0x0F 0 g Form.gUn
  | .sclz g => .group 0x0F 1 g Form.gUn
  | .sctz g => .group 0x0F 2 g Form.gUn
  | .sadd64 g => .group 0x10 0 g Form.gBin64
  | .ssub64 g => .group 0x10 1 g Form.gBin64
  | .smul64 g => .group 0x10 2 g Form.gBin64
  | .sldk g => .group 0x11 0 g Form.gSldk
  | .sget g => .group 0x12 0 g Form.gSget
  | .sset g => .group 0x13 0 g Form.gSset
  | .mand g => .group 0x18 0 g Form.gMaskBin
  | .mor g => .group 0x18 1 g Form.gMaskBin
  | .mxor g => .group 0x18 2 g Form.gMaskBin
  | .mandn g => .group 0x18 3 g Form.gMaskBin
  | .mnot g => .group 0x19 0 g Form.gMaskUn
  | .mmov g => .group 0x19 1 g Form.gMaskUn
  | .mpopc g => .group 0x1A 0 g Form.gMaskToS
  | .mffs g => .group 0x1A 1 g Form.gMaskToS
  | .mtos g => .group 0x1B 0 g Form.gMaskToS
  | .stom g => .group 0x1B 1 g Form.gStom
  | .mclr g => .group 0x1C 0 g Form.gMaskSet
  | .mset g => .group 0x1C 1 g Form.gMaskSet
  | .mlane g => .group 0x1C 2 g Form.gMlane
  | .sbr cond g => .group 0x20 cond.fn g (Form.gSbr cond)
  | .join g => .group 0x21 0 g Form.gJoin
  | .leave g => .group 0x21 1 g Form.gJoin
  | .mwait g => .group 0x21 2 g Form.gMwait
  | .loop g => .group 0x22 0 g Form.gLoop
  | .lbrk g => .group 0x22 1 g Form.gLbrk
  | .run g => .group 0x23 0 g Form.gRun
  | .fence kind g => .group 0x28 kind.fn g Form.gFence
  | .barSync g => .group 0x29 0 g Form.gBar
  | .barArr g => .group 0x29 1 g Form.gBar
  | .barWait g => .group 0x29 2 g Form.gBar
  | .barInit g => .group 0x29 3 g Form.gBarInit
  | .ringArr g => .group 0x2A 0 g Form.gRingArr
  | .ringWait g => .group 0x2A 1 g Form.gRingWait
  | .icinv g => .group 0x2C 0 g Form.gIcinv
  | .aldu sz g => .group 0x30 sz.fn g (Form.gAldu sz)
  | .cpyTile dir g => .group 0x38 dir.fn g Form.gCopy
  | .cpyLin dir g => .group 0x39 dir.fn g Form.gCopy
  | .lrec g => .group 0x3A 0 g Form.gLrec
  | .cpyStat g => .group 0x3A 1 g Form.gCpyStat
  | .jstat g => .group 0x3C 0 g Form.gJstat
  | .jcancel g => .group 0x3C 1 g Form.gJcancel
  | .gload g => .group 0x3D 0 g Form.gGload
  | .gunload g => .group 0x3D 1 g Form.gGunload
  | .sclk g => .group 0x3E 2 g Form.gSclk
  | .pmc g => .group 0x3E 3 g Form.gPmc
  | .ktk g => .group 0x3E 5 g Form.gKtk
  | .halt g => .group 0x3E 6 g Form.gHalt
  | .yield => .fixed [groupWord false 0x24 0 0 0 0] []
  | .endrun => .fixed [groupWord false 0x23 0 0 0 1] []
  | .gbar => .fixed [groupWord false 0x2B 0 0 0 0] []
  | .tfence => .fixed [groupWord false 0x2B 0 0 0 1] []
  | .ifence => .fixed [groupWord false 0x2C 0 0 0 1] []
  | .pmask => .fixed [groupWord false 0x3E 0 0 0 0] []
  | .punmask => .fixed [groupWord false 0x3E 0 0 0 1] []
  | .rfe => .fixed [groupWord false 0x3E 0 0 0 4] []
  | .jmp off => .fixed [(0x28#8 ++ off : Word)] []
  | .call d off => .fixed [branchWord 0x29 d off] (legal (isV d))
  | .bz c off => .fixed [branchWord 0x2A c off] (condCode c)
  | .bnz c off => .fixed [branchWord 0x2B c off] (condCode c)
  | .blt c off => .fixed [branchWord 0x2C c off] (condCode c)
  | .bge c off => .fixed [branchWord 0x2D c off] (condCode c)
  | .brx a => .fixed [shortWord 0x2E 0 a 0] (legal (isVO a))
  | .callx d a => .fixed [shortWord 0x2E d a 1] (legal (isV d) ++ legal (isVO a))
  | .ret a => .fixed [shortWord 0x2E 0 a 2] (legal (isVO a))
  | .nop => .fixed [shortWord 0x2F 0 0 0] []
  | .exit => .fixed [shortWord 0x2F 0 0 1] []
  | .trap n => .fixed [shortWord 0x3F 0 n 0] []
  | .brk => .fixed [shortWord 0x3F 0 0 1] []
  | .sli sd imm => .fixed [(0x8C#8 ++ sd ++ imm ++ 0#3 : Word)] (legal (gS sd))
  | .endrunHinted h => .fixed [groupWord true 0x23 0 0 0 1, h] (hintChecks h)
  | _ => .event

/-- The lane instruction of an opcode and function (R86); `mode` tells `jpost.r` from `jpost.q` (R372). -/
def laneInstr (op fn : Nat) (f : LaneFields) : Option Instr :=
  match op with
  | 0x00 => match fn with
    | 0 => some (.iadd f)
    | _ => none
  | 0x01 => match fn with
    | 0 => some (.isub f)
    | _ => none
  | 0x02 => match fn with
    | 0 => some (.imul f)
    | 1 => some (.imulhi f)
    | 2 => some (.imulhu f)
    | _ => none
  | 0x03 => match fn with
    | 0 => some (.imad f)
    | _ => none
  | 0x04 => match fn with
    | 0 => some (.and f)
    | _ => none
  | 0x05 => match fn with
    | 0 => some (.or f)
    | _ => none
  | 0x06 => match fn with
    | 0 => some (.xor f)
    | _ => none
  | 0x07 => match fn with
    | 0 => some (.andn f)
    | 1 => some (.not f)
    | _ => none
  | 0x08 => match fn with
    | 0 => some (.shl f)
    | 1 => some (.shr f)
    | 2 => some (.sar f)
    | 3 => some (.rotl f)
    | _ => none
  | 0x09 => match fn with
    | 0 => some (.bfe f)
    | 1 => some (.bfeu f)
    | 2 => some (.bfi f)
    | 3 => some (.bfrev f)
    | 4 => some (.popc f)
    | 5 => some (.clz f)
    | 6 => some (.ctz f)
    | _ => none
  | 0x0A => match fn with
    | 0 => some (.imin f)
    | 1 => some (.imax f)
    | 2 => some (.uimin f)
    | 3 => some (.uimax f)
    | 4 => some (.iabs f)
    | 5 => some (.ineg f)
    | _ => none
  | 0x0B => (IntCond.ofFn fn).map fun cc => .icmp cc f
  | 0x0C => match fn with
    | 0 => some (.mov f)
    | 1 => some (.movs f)
    | 2 => some (.sel f)
    | 3 => some (.prmt f)
    | 4 => some (.lea f)
    | _ => none
  | 0x0D => match fn with
    | 0 => some (.sad8 f)
    | 1 => some (.idot4 f)
    | 2 => some (.idot2 f)
    | _ => none
  | 0x0E => match fn with
    | 0 => some (.iadd64 f)
    | 1 => some (.isub64 f)
    | 2 => some (.imul64 f)
    | 3 => some (.shl64 f)
    | 4 => some (.shr64 f)
    | _ => none
  | 0x0F => match fn with
    | 0 => some (.sext f)
    | 1 => some (.zext f)
    | _ => none
  | 0x10 => match fn with
    | 0 => some (.fadd f)
    | _ => none
  | 0x11 => match fn with
    | 0 => some (.fsub f)
    | _ => none
  | 0x12 => match fn with
    | 0 => some (.fmul f)
    | _ => none
  | 0x13 => match fn with
    | 0 => some (.ffma f)
    | _ => none
  | 0x14 => match fn with
    | 0 => some (.fmin f)
    | 1 => some (.fmax f)
    | 2 => some (.fminnum f)
    | 3 => some (.fmaxnum f)
    | _ => none
  | 0x15 => (FloatCond.ofFn fn).map fun cc => .fcmp cc f
  | 0x16 => match fn with
    | 0 => some (.fclass f)
    | 1 => some (.ffract f)
    | 2 => some (.fldexp f)
    | 3 => some (.ffrexp f)
    | _ => none
  | 0x17 => (RoundDir.ofFn fn).map fun dir => .fround dir f
  | 0x18 => match fn with
    | 0 => some (.frcp f)
    | 1 => some (.frsq f)
    | 2 => some (.fsqrt f)
    | 3 => some (.fexp2 f)
    | 4 => some (.flog2 f)
    | 5 => some (.fsinpi f)
    | 6 => some (.fcospi f)
    | 7 => some (.ftanh f)
    | _ => none
  | 0x19 => match fn with
    | 0 => some (.hadd2 f)
    | _ => none
  | 0x1A => match fn with
    | 0 => some (.hsub2 f)
    | _ => none
  | 0x1B => match fn with
    | 0 => some (.hmul2 f)
    | _ => none
  | 0x1C => match fn with
    | 0 => some (.hfma2 f)
    | _ => none
  | 0x1D => match fn with
    | 0 => some (.hmin2 f)
    | 1 => some (.hmax2 f)
    | _ => none
  | 0x1E => match fn with
    | 0 => some (.bfma2 f)
    | _ => none
  | 0x1F => match fn with
    | 0 => some (.dadd f)
    | _ => none
  | 0x20 => match fn with
    | 0 => some (.dmul f)
    | _ => none
  | 0x21 => match fn with
    | 0 => some (.dfma f)
    | _ => none
  | 0x22 => (CvtOp.ofFn fn).map fun op => .cvt op f
  | 0x23 => (CvtSmallOp.ofFn fn).map fun op => .cvtFp8Fp4 op f
  | 0x24 => (ShflOp.ofFn fn).map fun op => .shfl op f
  | 0x25 => match fn with
    | 3 => some (.qbc f)
    | n => (QswpOp.ofFn n).map fun op => .qswp op f
  | 0x26 => (RedOp.ofFn fn).map fun op => .lred op f
  | 0x27 => match fn with
    | 18 => some (.lvoteAny f)
    | 19 => some (.lvoteAll f)
    | 20 => some (.lvoteBal f)
    | 21 => some (.lbc f)
    | 22 => some (.lfirst f)
    | n => if n < 9 then (RedOp.ofFn n).map fun op => .lscan false op f
      else (RedOp.ofFn (n - 9)).map fun op => .lscan true op f
  | 0x30 => (Size.ofFn fn).map fun sz => .ald sz f
  | 0x31 => (Size.ofFn fn).map fun sz => .ast sz f
  | 0x32 => match fn with
    | 0 => some (.apf f)
    | 1 => some (.aflush f)
    | 2 => some (.ainv f)
    | _ => none
  | 0x33 => match fn with
    | 0 => some (.qpush f)
    | 1 => some (.qpop f)
    | 2 => some (.qpeek f)
    | 3 => some (.qdrop f)
    | _ => none
  | 0x34 => match fn with
    | 0 => some (.qwait f)
    | 1 => some (.qstat f)
    | 2 => some (.qbind f)
    | 3 => some (.qunbind f)
    | _ => none
  | 0x35 => (Size.ofFn fn).map fun sz => .lds sz f
  | 0x36 => (Size.ofFn fn).map fun sz => .sts sz f
  | 0x38 => (AtomOp.ofFn fn).map fun op => .aatom op f
  | 0x39 => (CasSize.ofFn fn).map fun sz => .acas sz f
  | 0x3A => match fn with
    | 9 => none
    | n => (AtomOp.ofFn n).map fun op => .ared op f
  | 0x3B => match fn with
    | 0 => some (.aenq f)
    | 1 => some (.adeq f)
    | _ => none
  | 0x3C => match fn with
    | 24 => some (.aclr f)
    | 25 => some (.amovVa f)
    | 26 => some (.amovAv f)
    | n => if n < 8 then (MmaFmt.ofFn n).map fun fmt => .mma fmt f
      else if n < 16 then (MmaFmt.ofFn (n - 8)).map fun fmt => .mmasp fmt f
      else (Fp8Fmt.ofFn (n - 16)).map fun fmt => .fdot16 fmt f
  | 0x3D => match fn with
    | 0 => some (.ibox f)
    | 1 => some (.itri f)
    | 2 => some (.iprim f)
    | 3 => some (.tsmp f)
    | 4 => some (.tgth f)
    | 5 => some (.tfch f)
    | 6 => some (.rtri f)
    | 7 => some (.bpx f)
    | 8 => some (.ilink f)
    | 9 => some (.ist f)
    | _ => none
  | 0x3E => match fn with
    | 0 => some (.cpyGth f)
    | 1 => some (.cpySct f)
    | 8 => if f.mode.extractLsb' 0 2 == 0#2 then some (.jpostR f)
      else if f.mode.extractLsb' 0 2 == 1#2 then some (.jpostQ f) else none
    | 9 => some (.jwait f)
    | _ => none
  | _ => none

/-- An instruction whose group fields are all null, without a literal (R85, R108). -/
def nullGroup (g : GroupFields) (i : Instr) : Except Cause Instr :=
  if g.sd == 0#7 && g.sa == 0#7 && g.sb == 0#7 && g.lit.isNone then .ok i else .error .reservedBits

/-- The group instruction of an opcode and function (R87). `sli` is decoded apart (R112). -/
def groupInstr (op fn : Nat) (g : GroupFields) : Except Cause Instr :=
  let found (i : Option Instr) : Except Cause Instr := match i with
    | some i => .ok i
    | none => .error .unassignedOp
  match op with
  | 0x00 => match fn with
    | 0 => .ok (.sadd g)
    | _ => .error .unassignedOp
  | 0x01 => match fn with
    | 0 => .ok (.ssub g)
    | _ => .error .unassignedOp
  | 0x02 => match fn with
    | 0 => .ok (.smul g)
    | 1 => .ok (.smulhi g)
    | 2 => .ok (.smulhu g)
    | _ => .error .unassignedOp
  | 0x03 => match fn with
    | 0 => .ok (.sand g)
    | _ => .error .unassignedOp
  | 0x04 => match fn with
    | 0 => .ok (.sor g)
    | _ => .error .unassignedOp
  | 0x05 => match fn with
    | 0 => .ok (.sxor g)
    | _ => .error .unassignedOp
  | 0x06 => match fn with
    | 0 => .ok (.sandn g)
    | 1 => .ok (.snot g)
    | _ => .error .unassignedOp
  | 0x07 => match fn with
    | 0 => .ok (.sshl g)
    | 1 => .ok (.sshr g)
    | 2 => .ok (.ssar g)
    | _ => .error .unassignedOp
  | 0x08 => match fn with
    | 0 => .ok (.smin g)
    | 1 => .ok (.smax g)
    | 2 => .ok (.sminu g)
    | 3 => .ok (.smaxu g)
    | 4 => .ok (.sabs g)
    | 5 => .ok (.sneg g)
    | _ => .error .unassignedOp
  | 0x09 => found ((IntCond.ofFn fn).map fun cc => .scmp cc g)
  | 0x0A => match fn with
    | 0 => .ok (.ssel g)
    | _ => .error .unassignedOp
  | 0x0B => match fn with
    | 0 => .ok (.smov g)
    | _ => .error .unassignedOp
  | 0x0D => match fn with
    | 0 => .ok (.sbfe g)
    | _ => .error .unassignedOp
  | 0x0E => match fn with
    | 0 => .ok (.sbfi g)
    | _ => .error .unassignedOp
  | 0x0F => match fn with
    | 0 => .ok (.spopc g)
    | 1 => .ok (.sclz g)
    | 2 => .ok (.sctz g)
    | _ => .error .unassignedOp
  | 0x10 => match fn with
    | 0 => .ok (.sadd64 g)
    | 1 => .ok (.ssub64 g)
    | 2 => .ok (.smul64 g)
    | _ => .error .unassignedOp
  | 0x11 => match fn with
    | 0 => .ok (.sldk g)
    | _ => .error .unassignedOp
  | 0x12 => match fn with
    | 0 => .ok (.sget g)
    | _ => .error .unassignedOp
  | 0x13 => match fn with
    | 0 => .ok (.sset g)
    | _ => .error .unassignedOp
  | 0x18 => match fn with
    | 0 => .ok (.mand g)
    | 1 => .ok (.mor g)
    | 2 => .ok (.mxor g)
    | 3 => .ok (.mandn g)
    | _ => .error .unassignedOp
  | 0x19 => match fn with
    | 0 => .ok (.mnot g)
    | 1 => .ok (.mmov g)
    | _ => .error .unassignedOp
  | 0x1A => match fn with
    | 0 => .ok (.mpopc g)
    | 1 => .ok (.mffs g)
    | _ => .error .unassignedOp
  | 0x1B => match fn with
    | 0 => .ok (.mtos g)
    | 1 => .ok (.stom g)
    | _ => .error .unassignedOp
  | 0x1C => match fn with
    | 0 => .ok (.mclr g)
    | 1 => .ok (.mset g)
    | 2 => .ok (.mlane g)
    | _ => .error .unassignedOp
  | 0x20 => found ((SbrCond.ofFn fn).map fun cond => .sbr cond g)
  | 0x21 => match fn with
    | 0 => .ok (.join g)
    | 1 => .ok (.leave g)
    | 2 => .ok (.mwait g)
    | _ => .error .unassignedOp
  | 0x22 => match fn with
    | 0 => .ok (.loop g)
    | 1 => .ok (.lbrk g)
    | _ => .error .unassignedOp
  | 0x23 => match fn with
    | 0 => .ok (.run g)
    | 1 => if g.sd == 0#7 && g.sa == 0#7 && g.sb == 0#7 then
        (match g.lit with
          | some h => .ok (.endrunHinted h)
          | none => .ok .endrun)
      else .error (if (g.lit.map hintChecks).any (·.contains .unassignedOp) then .unassignedOp else .reservedBits)
    | _ => .error .unassignedOp
  | 0x24 => match fn with
    | 0 => nullGroup g .yield
    | _ => .error .unassignedOp
  | 0x28 => found ((FenceKind.ofFn fn).map fun kind => .fence kind g)
  | 0x29 => match fn with
    | 0 => .ok (.barSync g)
    | 1 => .ok (.barArr g)
    | 2 => .ok (.barWait g)
    | 3 => .ok (.barInit g)
    | _ => .error .unassignedOp
  | 0x2A => match fn with
    | 0 => .ok (.ringArr g)
    | 1 => .ok (.ringWait g)
    | _ => .error .unassignedOp
  | 0x2B => match fn with
    | 0 => nullGroup g .gbar
    | 1 => nullGroup g .tfence
    | _ => .error .unassignedOp
  | 0x2C => match fn with
    | 0 => .ok (.icinv g)
    | 1 => nullGroup g .ifence
    | _ => .error .unassignedOp
  | 0x30 => found ((Size.ofFn fn).map fun sz => .aldu sz g)
  | 0x38 => found ((TileDir.ofFn fn).map fun dir => .cpyTile dir g)
  | 0x39 => found ((LinDir.ofFn fn).map fun dir => .cpyLin dir g)
  | 0x3A => match fn with
    | 0 => .ok (.lrec g)
    | 1 => .ok (.cpyStat g)
    | _ => .error .unassignedOp
  | 0x3C => match fn with
    | 0 => .ok (.jstat g)
    | 1 => .ok (.jcancel g)
    | _ => .error .unassignedOp
  | 0x3D => match fn with
    | 0 => .ok (.gload g)
    | 1 => .ok (.gunload g)
    | _ => .error .unassignedOp
  | 0x3E => match fn with
    | 0 => nullGroup g .pmask
    | 1 => nullGroup g .punmask
    | 2 => .ok (.sclk g)
    | 3 => .ok (.pmc g)
    | 4 => nullGroup g .rfe
    | 5 => .ok (.ktk g)
    | 6 => .ok (.halt g)
    | _ => .error .unassignedOp
  | _ => .error .unassignedOp

/-- The slices that may issue an opcode of the lane set (R43, R212). -/
def laneSlices (op fn : Nat) : Bool × Bool :=
  if op < 0x10 then (true, true)
  else if op < 0x24 then (false, true)
  else if op = 0x26 then (fn < 6, true)
  else if op = 0x27 then (fn < 6 || (9 ≤ fn && fn < 15) || 18 ≤ fn, true)
  else if op < 0x30 then (true, true)
  else if op < 0x33 then (true, false)
  else if op < 0x38 then (true, true)
  else if op < 0x3C then (true, false)
  else if op < 0x3E then (false, true)
  else if op = 0x3E then (fn < 8, 8 ≤ fn)
  else (true, true)

/-- The slices that may issue an opcode of the group set (R43). -/
def groupSlices (op : Nat) : Bool × Bool :=
  if op < 0x30 then (true, true)
  else if op < 0x3C then (true, false)
  else if op < 0x3E then (false, true)
  else (true, true)

/-- Opcode and function of the words of a layout: set, major opcode, function. -/
def Layout.key : Layout → Option (Bool × Nat × Nat)
  | .lane op fn _ _ => some (false, op, fn)
  | .group op fn _ _ => some (true, op, fn)
  | .fixed (w :: _) _ => some (w.getLsbD 31, (w.extractLsb' 24 6).toNat, (w.extractLsb' 0 3).toNat)
  | _ => none

/-- The instruction may issue from the slice (R43, R212). -/
def Layout.sliceOk (l : Layout) (sl : Slice) : Bool :=
  match l.key with
  | none => true
  | some (grp, op, fn) =>
    let p := if grp then groupSlices op else laneSlices op fn
    match sl with
    | .a => p.1
    | .x => p.2

/-- Matrix instructions (R46): the lane opcode 0x3C. -/
def Layout.needsMatrix (l : Layout) : Bool :=
  match l.key with
  | some (false, op, _) => op == 0x3C
  | _ => false

/-- Copy-engine instructions of either set (R46). -/
def Layout.needsFeeder (l : Layout) : Bool :=
  match l.key with
  | some (false, op, fn) => op == 0x3E && fn < 8
  | some (true, op, _) => 0x38 ≤ op && op < 0x3C
  | none => false

/-- `rfe`, `ktk` and `halt` (R87). -/
def Layout.needsKeeper (l : Layout) : Bool :=
  match l.key with
  | some (true, op, fn) => op == 0x3E && 4 ≤ fn
  | _ => false

/-- The instruction may stand in the body of a run (R202). -/
def Layout.runBody (l : Layout) : Bool :=
  match l.key with
  | some (false, op, fn) => op < 0x28 || op == 0x35 || op == 0x36 || op == 0x3C || (op == 0x2F && fn == 0)
  | some (true, op, _) => op < 0x20
  | none => false

/-- The instruction's class pairs in one pass (R54): the lane classes of integer and logic, float and conversion other
than transcendentals and FP64, control, and queue, access and scratch. -/
def Layout.pairable (l : Layout) : Bool :=
  match l.key with
  | some (false, op, fn) =>
    op < 0x18 || (0x18 < op && op < 0x1F) || (op == 0x22 && !(fn ≤ 1 || 12 ≤ fn)) || op == 0x23 ||
      (0x28 ≤ op && op < 0x38)
  | _ => false

end Sys2Proof
end

