-- ==== Sys2Proof/WellFormed.lean ====
section
/-!
DEFINITION. Which terms of `Instr` an encoding can give: every field value permitted by its entry, and the literal
present exactly when a field asks for it (R65, R67, R72, R85). Device events have no encoding and no check.
-/
namespace Sys2Proof

/-- Without a modifier word the modifier's fields hold the values of R72, and the function is 0. -/
def LaneFields.defaulted (f : LaneFields) (fn : Nat) : Bool :=
  f.x || (fn == 0 && f.c == 0#8 && f.s == 0x7F#7 && f.mode == 0#4 && f.flags == 0#8)

/-- The decode causes that a layout's field values raise. -/
def Layout.checks : Layout → List Cause
  | .lane _ _ f form => form.checks f
  | .group _ _ g form => form.checks g
  | .fixed _ cs => cs
  | .event => []

/-- The layout is one that decoding gives: no check fails, and its modifier and literal are as R65 and R72 say. -/
def Layout.wellFormed (l : Layout) : Bool :=
  l.checks.isEmpty &&
  match l with
  | .lane _ fn f form => f.defaulted fn && f.lit.isSome == form.readsLiteral f
  | _ => true

/-- A well-formed instruction. -/
def Instr.wellFormed (i : Instr) : Bool := i.layout.wellFormed

/-- A row of the table that is an event of the device and not an encoded instruction. -/
def Instr.isEvent (i : Instr) : Bool :=
  match i.layout with
  | .event => true
  | _ => false

end Sys2Proof
end

