-- ==== Sys2Proof/Decode.lean ====
section
/-!
DEFINITION. Decoding (R65 to R67, R70 to R72, R80 to R82, R88), total on any words, and the encoder.
-/
namespace Sys2Proof

open Form

/-- What the words at a counter decode to: more words are needed, a decode cause, or an instruction. -/
inductive Decoded where
  | more
  | illegal (c : Cause)
  | instr (i : Instr)
  deriving DecidableEq, Repr

/-- The instruction, unless one of its field values raises a cause; the lowest code is raised (R8, R67). -/
def accept (i : Instr) (others : List Cause) : Decoded :=
  match lowestCause (i.layout.checks ++ others) with
  | some c => .illegal c
  | none => .instr i

/-- The modifier word of R72, which an absent modifier stands for. -/
def defaultModifier : Word := 0x00FE0000#32

/-- The fields of a lane base word and a modifier word (R70, R71), without a literal. -/
def laneFields (w m : Word) : LaneFields where
  x := w.getLsbD 30
  d := w.extractLsb' 16 8
  a := w.extractLsb' 8 8
  b := w.extractLsb' 0 8
  c := m.extractLsb' 24 8
  s := m.extractLsb' 17 7
  mode := m.extractLsb' 8 4
  flags := m.extractLsb' 0 8
  lit := none

/-- A lane instruction with the base and modifier words `w` and `m`, and the words that follow them. -/
def decodeFields (w m : Word) (rest : List Word) : Decoded :=
  let op := (w.extractLsb' 24 6).toNat
  let fn := (m.extractLsb' 12 5).toNat
  let f := laneFields w m
  match laneInstr op fn f with
  | none => .illegal .unassignedOp
  | some i =>
    match i.layout with
    | .lane _ _ _ form =>
      if form.readsLiteral f then
        match rest with
        | [] => .more
        | l :: _ =>
          match laneInstr op fn { f with lit := some l } with
          | none => .illegal .unassignedOp
          | some j => accept j []
      else accept i []
    | _ => .illegal .unassignedOp

/-- The branch format (R80): a set bit 30 raises RESERVED_BITS (R183). -/
def decodeBranch (op : Nat) (w : Word) : Decoded :=
  let d := w.extractLsb' 16 8
  let off := w.extractLsb' 0 16
  let i : Instr := match op with
    | 0x28 => .jmp (w.extractLsb' 0 24)
    | 0x29 => .call d off
    | 0x2A => .bz d off
    | 0x2B => .bnz d off
    | 0x2C => .blt d off
    | _ => .bge d off
  accept i (zero (!w.getLsbD 30))

/-- Opcodes 0x2E, 0x2F and 0x3F: field B selects the form (R81, R86). A set bit 30 adds the modifier word and a target or
link field that holds 0xFF the literal word (R65); the forms list function 0 only (R86, R88), and another one is
UNASSIGNED_OP (DEDUCED, log entry 144). -/
def decodeShort (op : Nat) (w : Word) (rest : List Word) : Decoded :=
  let x := w.getLsbD 30
  let d := w.extractLsb' 16 8
  let a := w.extractLsb' 8 8
  let b := (w.extractLsb' 0 8).toNat
  let tail := if x then rest.take 1 else []
  let fnZero := tail.all fun m => m.extractLsb' 12 5 == 0#5
  let finish (i : Instr) (literal : Bool) (nulls : List Cause) : Decoded :=
    if !fnZero then .illegal .unassignedOp
    else if rest.length < (if x then 1 else 0) + (if literal then 1 else 0) then .more
    else accept i (zero (!x) ++ nulls)
  let noD := zero (d == 0#8)
  let noA := zero (a == 0#8)
  if x && rest.isEmpty then .more
  else match op, b with
  | 0x2E, 0 => finish (.brx a) (a == 0xFF#8) noD
  | 0x2E, 1 => finish (.callx d a) (d == 0xFF#8 || a == 0xFF#8) []
  | 0x2E, 2 => finish (.ret a) (a == 0xFF#8) noD
  | 0x2F, 0 => finish .nop false (noD ++ noA)
  | 0x2F, 1 => finish .exit false (noD ++ noA)
  | 0x3F, 0 => finish (.trap a) false noD
  | 0x3F, 1 => finish .brk false (noD ++ noA)
  | _, _ => .illegal .unassignedOp

/-- A group word (R82, R85); `sli` keeps SA and SB together as one immediate (R112). -/
def decodeGroup (w : Word) (rest : List Word) : Decoded :=
  let op := (w.extractLsb' 24 6).toNat
  let fn := (w.extractLsb' 0 3).toNat
  let g (lit : Option Word) : GroupFields :=
    ⟨w.extractLsb' 17 7, w.extractLsb' 10 7, w.extractLsb' 3 7, lit⟩
  let finish (lit : Option Word) : Decoded :=
    if op = 0x0C then
      if fn = 0 then accept (.sli (w.extractLsb' 17 7) (w.extractLsb' 3 14)) (zero lit.isNone)
      else .illegal .unassignedOp
    else
      match groupInstr op fn (g lit) with
      | .error c => .illegal c
      | .ok i => accept i []
  if w.getLsbD 30 then
    match rest with
    | [] => .more
    | l :: _ => finish (some l)
  else finish none

/-- The instruction that starts with the given words. -/
def decode : List Word → Decoded
  | [] => .more
  | w :: rest =>
    if w.getLsbD 31 then decodeGroup w rest
    else
      let op := (w.extractLsb' 24 6).toNat
      if 0x28 ≤ op && op < 0x2E then decodeBranch op w
      else if op == 0x2E || op == 0x2F || op == 0x3F then decodeShort op w rest
      else if w.getLsbD 30 then
        match rest with
        | [] => .more
        | m :: rest => decodeFields w m rest
      else decodeFields w defaultModifier rest

/-- The base word of R70. -/
def laneWord (op : Nat) (f : LaneFields) : Word :=
  0#1 ++ BitVec.ofBool f.x ++ BitVec.ofNat 6 op ++ f.d ++ f.a ++ f.b

/-- The modifier word of R71. -/
def modifierWord (fn : Nat) (f : LaneFields) : Word :=
  f.c ++ f.s ++ BitVec.ofNat 5 fn ++ f.mode ++ f.flags

/-- The words of a layout, in the order of R65. -/
def Layout.words : Layout → List Word
  | .lane op fn f _ => [laneWord op f] ++ (if f.x then [modifierWord fn f] else []) ++ f.lit.toList
  | .group op fn g _ => [groupWord g.lit.isSome op g.sd g.sa g.sb fn] ++ g.lit.toList
  | .fixed ws _ => ws
  | .event => []

/-- The words of an instruction; a device event has none. -/
def encode (i : Instr) : List Word := i.layout.words

/-- The length of an instruction in bytes (R65). -/
def Instr.bytes (i : Instr) : Nat := 4 * (encode i).length

/-- The instruction that the decoder reads from `nbits` bits numbered as the opcode table numbers them: each word of
four bytes little-endian, the first at the lowest address (R3, R65), zeros above. -/
def decodeTableWord (nbits w : Nat) : Option Instr :=
  match decode (wordsOf (w % 2 ^ nbits) 3) with
  | .instr i => some i
  | _ => none

end Sys2Proof
end

