-- ==== Sys2Proof/Config.lean ====
section
/-!
DEFINITION. What the specification leaves to the device: free values that no definition fixes, and what one
implementation fixes (fuses, keys). Each free value is an opaque constant, so that a statement about it holds for
every value. The log's entries 9 and 11 to 16 name them.
-/
namespace Sys2Proof.Config

open Sys2Proof

/-- FREE VALUE (R2): the 32-bit value at place `k` of an unpredictable register file drawn as number `n`. -/
opaque freeWord : Nat → Nat → Word

/-- FREE VALUE (R2, R246): the byte at place `k` of unpredictable scratch drawn as number `n`. -/
opaque freeByte : Nat → Nat → Byte

/-- FREE CHOICE: draw `n` of the device, a number that its user reduces to the choices there are (R64, R504). -/
opaque freeNat : Nat → Nat

/-- FREE VALUE (R103, R125, R248): whether a read at draw `n` sees the old contents of late write `k`. -/
opaque staleRead : (n k : Nat) → Bool

/-- FREE VALUE (R464, R465): the host answers the request of an instruction's request, named by `key`, for a 64-byte line of its
memory with an error status. -/
opaque hostFails : (key line : Nat) → Bool

/-- Uninterpreted: the set of a line in its L1 slice of 256 sets (R17, R246). -/
opaque l1Set : (line : Nat) → Fin 256

/-- Uninterpreted: the set of a line in the Lantern cache, of 2,048 sets in each of 64 slices (R19). -/
opaque lanternSet : (line : Nat) → Fin 131072

/-- FREE VALUE (R119): which bits of a pending clear of `ERRSTICKY` a read at draw `n` already sees. -/
opaque stickyRead : (n : Nat) → BitVec 2

/-- FREE VALUE (R167, R169): the bits a transcendental returns for its input bits and its flags. -/
opaque transcendental : (fn : Nat) → Word → (ftz clamp : Bool) → Word

/-- FREE VALUE (R331, R333, R340): the result slots of function `fn` of an image other than the base one, drawn as
number `draw`, for the request's words. -/
opaque imageFunction : (draw fn : Nat) → List Word → List Word

/-- FREE VALUE (R331, R333): the quads, of four lanes of five slots, that a raster image other than the base one emits
for a viewport, a cull value and a triangle, drawn as number `draw`. -/
opaque imageQuads : (draw : Nat) → List Word → List (List (List Word))

/-- FREE VALUE (R331, R333): the pixel, as bytes, that a blend image other than the base one stores for its request words
and the stored pixel, drawn as number `draw`. -/
opaque imagePixel : (draw : Nat) → List Word → List Byte → List Byte

/-- FREE VALUE (R333): the function map of an island image, by its payload digest. -/
opaque imageFunctions : (digest : List Byte) → Nat

/-- Uninterpreted: SHA-384 of a message, 48 bytes (R474). -/
opaque sha384 : List Byte → List Byte

/-- Uninterpreted: an Ed25519 signature verifies under the fused key of a slot (R475). -/
opaque ed25519Verifies : (slot : Nat) → (message signature : List Byte) → Bool

/-- Uninterpreted: an ML-DSA-65 signature verifies under the fused key of a slot (R475). -/
opaque mlDsaVerifies : (slot : Nat) → (message signature : List Byte) → Bool

/-- Uninterpreted: both public keys of a slot match the digests in the fuses (R475). -/
opaque keysMatchFuses : (slot : Nat) → Bool

/-- Fuses: the key slot is revoked for the envelope kind (R475). -/
opaque keyRevoked : (slot kind : Nat) → Bool

/-- Fuses: the minimum security version of an envelope kind (R475). -/
opaque svnMinimum : (kind : Nat) → Nat

/-- The silicon revision of the part (R474). -/
opaque siliconRevision : Nat

/-- The identity certificate of the part: an envelope of kind 5 with the public halves of its identity keys (R477). -/
opaque identityCertificate : List Byte

/-- Uninterpreted: the report signatures of the device's identity keys (R478). -/
opaque deviceSignature : (scheme : Nat) → List Byte → List Byte

end Sys2Proof.Config
end

