-- ==== Sys2Proof/Machine/State.lean ====
section
/-!
DEFINITION. The state of the machine as plain data, and the state right after reset. Each structure's docstring cites
the rules that give it. Fields that are the model's own and not the specification's are named at `State`.
-/
namespace Sys2Proof.Machine

open Sys2Proof

/-- Why the machine stops without a next state. Every cause of the specification is taken and is no fault. -/
inductive Fault where
  /-- A host access or AtomicOp names a physical address at or above the 64 GiB of device memory (R19, R460). Raised by
  the events HOST_ACCESS and HOST_ATOMICOP; or `ktk` names such an address, which R451 leaves untranslated; safe. -/
  | noDeviceMemory (addr : Nat)
  deriving DecidableEq, Repr

/-- Why a meaning is refused. -/
inductive Refusal where
  /-- The instruction has no meaning yet; raised by `exec`; safe. -/
  | notModelled (mnemonic : String)
  deriving DecidableEq, Repr

/-- The roles of R44. -/
inductive Role where
  | feeder | matrix | vector
  deriving DecidableEq, Repr

/-- A file of registers of 32 bits held sparsely: `rows` lists the written rows by rising number. An unlisted row of
`n` words reads the unpredictable contents (R2) of draw `base`, or 0 when there is no draw. -/
structure RegFile where
  rows : List (Nat × List Word)
  base : Option Nat
  deriving DecidableEq, Repr

/-- A byte memory held sparsely over unpredictable contents (R246), like `RegFile`. -/
structure ByteFile where
  cells : List Host.Cell
  base : Option Nat
  deriving DecidableEq, Repr

/-- Where a thread of a slice is parked (R42): at its counter, on this object. -/
inductive Park where
  /-- `mwait` on mask k (R191). -/
  | mwait (k : Nat)
  /-- The end address of loop k (R196). -/
  | loopEnd (k : Nat)
  /-- A named barrier, numbered from 0, or a cluster barrier, numbered from 64 (R290, R291). -/
  | barrier (bar : Nat)
  /-- A side of a ring slot, until its phase differs from the parity (R296); `long` marks a `ring.wait` of two words. -/
  | ring (empty : Bool) (ring slot : Nat) (parity long : Bool)
  /-- `gbar` (R298). -/
  | grid
  /-- `jwait` on a card slot, by a group of lanes that go on together; `pc` is that of the `jwait` (R374). -/
  | card (slot : Nat) (group : Lanes)
  /-- `sclk` until this value of `CLOCK` (R410). -/
  | clock (until_ : Nat)
  deriving DecidableEq, Repr

/-- The state of a thread in one slice (R40, R42). -/
inductive ThreadState where
  | live
  | parked (p : Park)
  | exited
  | absent
  deriving DecidableEq, Repr

/-- One thread in one slice: its counter (R41, R180), its state and its skip count (R56). -/
structure Thread where
  pc : Word
  st : ThreadState
  skip : Nat
  deriving DecidableEq, Repr

/-- Loop counter k of a slice (R195, R199): `order` is the position in the nesting order, the greatest innermost;
`left` holds the lanes that `lbrk` removed while the loop is active. -/
structure Loop where
  count : Word
  active : Bool
  start : Word
  stop : Word
  lanes : Lanes
  left : Lanes
  order : Nat
  deriving DecidableEq, Repr

/-- One slice of a wave: its masks and flags (R104, R105), loops (R199), threads (R41), its fetch buffer of words by
code address (R304). `mgen` counts the writes to each
mask, which restart a watch (R299). -/
structure SliceSt where
  m : List Word
  mgen : List Nat
  gf : BitVec 5
  loops : List Loop
  threads : List Thread
  fbuf : List (Nat × Word)
  deriving DecidableEq, Repr

/-- The open run of a wave (R201): `pos` counts the body instructions already issued. -/
structure Run where
  sl : Slice
  lanes : Lanes
  pos : Nat
  n : Nat
  deriving DecidableEq, Repr

/-- A fault token (R226, R503): `node` and `unit` are the record's detail and unit of a card or island token. -/
structure Token where
  cause : Cause
  addr : DWord
  pc : Word
  node : BitVec 16
  unit : BitVec 8
  deriving DecidableEq, Repr

/-- A slot of a queue column (R226); a pending slot waits for a word of a request. A ready slot 0 of a raster batch
also carries what a lane takes with it (R348): its pixel's place in the stream, `helper` and `covered`. -/
inductive QEntry where
  | pending (req : Nat) (word : Nat)
  | ready (w : Word)
  | token (t : Token)
  | pixel (w : Word) (place : Nat) (helper covered : Bool)
  deriving DecidableEq, Repr

/-- Kinds of queues (R228). -/
inductive QKind where
  | load | back | staddr | stdata | result
  deriving DecidableEq, Repr

/-- What a result queue is attached to (R228, R337, R394, R373): an island kind, the copy streams of a feeder wave, or
a card. -/
inductive Attach where
  | none
  | island (kind : IslandKind)
  | copy (wave : Nat)
  | card (card : Nat)
  deriving DecidableEq, Repr

/-- A bound queue (R225): a column of at most `depth` slots for each lane. A staddr queue's columns are its store
records. -/
structure Queue where
  kind : QKind
  depth : Nat
  cols : List (List QEntry)
  attach : Attach
  deriving DecidableEq, Repr

/-- A translated location: memory kind of R449 and physical address. -/
structure Place where
  mem : Nat
  pa : Nat
  deriving DecidableEq, Repr

/-- One lane of a store record. -/
structure LaneStore where
  lane : Nat
  va : DWord
  place : Place
  deriving DecidableEq, Repr

/-- A store record (R240), of the staddr queue `q`; `id` orders it among the accesses of its slice. `flush` marks an
`aflush`, which is ordered as a store and takes no data (R243). `slots` are the entries that the A-slice has placed since, by
queue and lane, as the slots up to each; once the X-slice has popped one, its accesses from name `seen` on are ordered after the
record (R275). -/
structure StoreRec where
  id : Nat
  flush : Bool
  q : Nat
  size : Size
  scope : Nat
  lanes : List LaneStore
  slots : List (Nat × Nat × Nat)
  seen : Option Nat
  deriving DecidableEq, Repr

/-- A latch of the collector (R320): the block it holds, as words, and its tag. -/
structure Latch where
  tag : List Nat
  words : List (List Word)
  deriving DecidableEq, Repr

/-- An open masked window (R409): its slice and the cycle of its `pmask`. -/
structure Window where
  sl : Slice
  since : Nat
  deriving DecidableEq, Repr

/-- A wave's record at a barrier (R289, R291): the threads of each slice that have contributed to its next arrival,
the pending arrival with the access that its release covers up to, and the phase of its latest arrival. -/
structure Contrib where
  bar : Nat
  a : Lanes
  x : Lanes
  pending : Option Nat
  phase : Option Nat
  deriving DecidableEq, Repr

/-- An arrival of `ring.arr` that its release still holds (R297); the release covers the slice's accesses up to `upto`. -/
structure RingArrival where
  empty : Bool
  ring : Nat
  slot : Nat
  sl : Slice
  upto : Nat
  deriving DecidableEq, Repr

/-- A wave (R37): identity, wave slot and place (R44, R45, R49); since which cycle it has not been blocked, if it is not
(R52), since which it has been queue-bound (R250), and whether its slices wait on queues (R411); registers (R41, R102, R126), slices, run, queues (R225), store
records, matrix state (R308), card slots (R372), copy tags (R389, R400), counters (R411), window, barrier records,
helper lanes (R61) and the place of each lane's pixel tag (R348); `yielding` is the cycle of a `yield` of one slice that waits
for the other slice's run to close (R188, R204). -/
structure Wave where
  id : Nat
  wslot : Nat
  role : Role
  allot : Nat
  budget : Nat
  active : Bool
  unblocked : Option Nat
  v : RegFile
  o : RegFile
  s : RegFile
  a : SliceSt
  x : SliceSt
  run : Option Run
  yielding : Option Nat
  queues : List (Option Queue)
  recs : List StoreRec
  tiles : RegFile
  latchA : Option Latch
  latchB : Option Latch
  cards : List (Option Nat)
  copyTag : Nat
  copyStatus : List (Nat × Nat)
  pmc : List Nat
  window : Option Window
  contribs : List Contrib
  ringArrivals : List RingArrival
  gridA : Lanes
  gridX : Lanes
  gridPending : Option Nat
  gridArrived : Bool
  helper : Lanes
  tags : List (Nat × Nat)
  qbound : Option Nat
  qwaits : Bool
  ended : Bool
  deriving DecidableEq, Repr

/-- A barrier (R289). -/
structure Barrier where
  expected : Nat
  sliceA : Bool
  sliceX : Bool
  arrivals : Nat
  arrived : List (Nat × Nat)
  phase : Nat
  deriving DecidableEq, Repr

/-- A side of a ring slot (R294, R296); `waves` holds the waves whose arrival in the current phase has taken effect
(R415). -/
structure RingSide where
  phase : Bool
  count : Nat
  waves : Lanes
  deriving DecidableEq, Repr

/-- A stage ring (R294). -/
structure Ring where
  index : Nat
  slots : Nat
  bytes : Nat
  offset : Nat
  expectFull : Nat
  expectEmpty : Nat
  full : List RingSide
  empty : List RingSide
  deriving DecidableEq, Repr

/-- What the halt of a workgroup will record (R413, R415): `t` is the cycle of the fault. -/
structure Halt where
  cause : Cause
  origin : Nat
  sl : Option Slice
  wave : Option Nat
  pc : Word
  apc : Word
  addr : DWord
  lanes : Lanes
  detail : BitVec 16
  unit : BitVec 8
  lane : Nat
  number : BitVec 8
  held : Bool
  watch : Option WatchObj
  /-- The halt writes no record: a grid's first workgroup writes the one there is (R415). -/
  silent : Bool
  t : Nat
  /-- The halt has reached the other slices (R413 step 2). -/
  reached : Bool
  /-- Waves with an open run when the halt reached them, its slice, and the body instructions issued since. -/
  skid : List (Nat × Slice × Nat)
  /-- Slices that issue nothing more: the faulting one, and those that met a cause during the skid (R414). -/
  stopped : List (Nat × Slice)
  /-- The causes that waves met during their skid (R414). -/
  own : List (Nat × Cause)
  deriving DecidableEq, Repr

/-- Where a workgroup stands (R413, R418 to R422, R444). -/
inductive RunStatus where
  | resident
  | halting (h : Halt)
  | saving
  | discarding
  | saved
  | held
  | ended
  deriving DecidableEq, Repr

/-- A triangle of a raster stream (R344): the `rtri` request, its 10 words, cull and viewport. `stop` marks the end
flag of an `rtri` and holds no triangle; `again` says that the `rtri` started a stream after one that had ended. -/
structure RasterItem where
  req : Nat
  words : List Word
  cull : Nat
  viewport : Word
  stop : Bool
  again : Bool
  deriving DecidableEq, Repr

/-- A quad in a batch: the place in the stream of its lane 0, and the five slots of each of its four lanes (R346). -/
structure RasterQuad where
  place : Nat
  slots : List (List Word)
  deriving DecidableEq, Repr

/-- A pixel tag (R348, R351): its place in the stream, position and z; whether its first `bpx` has been applied, whether
it failed the depth test there, and whether its final `bpx` has been applied. -/
structure PixelTag where
  place : Nat
  x : Nat
  y : Nat
  z : Word
  tested : Bool
  failed : Bool
  final : Bool
  deriving DecidableEq, Repr

/-- The raster stream of a workgroup (R344 to R348): triangles not yet tested, whether the stream has ended, the open
batch, the closed batches that wait for a queue, the linked queues (wave and queue, earliest first), the next place and
the tags. -/
structure Raster where
  items : List RasterItem
  ended : Bool
  batch : List RasterQuad
  closed : List (List RasterQuad)
  links : List (Nat × Nat)
  nextPlace : Nat
  tags : List PixelTag
  deriving DecidableEq, Repr

/-- A cluster group: its barriers (R289), and how often it has been resumed, which restarts their watch (R299). -/
structure ClusterGroup where
  launch : Nat
  cg : Nat
  barriers : List Barrier
  resumes : Nat
  deriving DecidableEq, Repr

/-- A role entry of a descriptor (R96). -/
structure RoleDecl where
  role : Role
  waves : Nat
  vregs : Nat
  budget : Nat
  aEntry : Option Word
  xEntry : Word
  deriving DecidableEq, Repr

/-- A queue declaration (R230). -/
structure QueueDecl where
  role : Option Nat
  queue : Nat
  kind : QKind
  depth : Nat
  deriving DecidableEq, Repr

/-- A graph declaration (R367). -/
structure GraphDecl where
  entry : Nat
  addr : DWord
  deriving DecidableEq, Repr

/-- The kernel descriptor with its declarations (R95 to R97). -/
structure Kernel where
  codeBase : DWord
  roles : List RoleDecl
  implicit : Bool
  idem : Bool
  regroup : Bool
  scratch : Nat
  args : Nat
  constants : Nat
  barriers : Nat
  queues : List QueueDecl
  rings : List Ring
  graphs : List GraphDecl
  deriving DecidableEq, Repr

/-- A declared range of a launch (R432). -/
structure Range where
  base : Nat
  size : Nat
  write : Bool
  deriving DecidableEq, Repr

/-- Where a launch stands (R433 to R439). -/
inductive LaunchState where
  | waiting
  | released
  | complete
  deriving DecidableEq, Repr

/-- A launch (R432): its packet, kernel, constant bank (R434) and tickets (R442); `requeued` holds the flat indices of
discarded workgroups (R421), `claimed` the tickets that a `ktk` has claimed and its keeper has not placed yet, with the
keeper's core (R443); `resumes` counts the resumes of its workgroups, which restart the watch of the grid (R299). -/
structure Launch where
  id : Nat
  slot : Nat
  vi : Nat
  kernel : Kernel
  descriptor : DWord
  bankAddr : DWord
  bank : List Byte
  grid : List Word
  wgdim : List Word
  group : Nat
  hold : Bool
  scope : Nat
  sequence : DWord
  completion : DWord
  args : List Word
  ranges : List Range
  state : LaunchState
  ticketAddr : Nat
  requeued : List Nat
  claimed : List (Nat × Nat)
  gridPhase : Nat
  resumes : Nat
  deriving DecidableEq, Repr

/-- What an atomic request does (R260, R261, R264). -/
inductive AtomWork where
  | rmw (op : AtomOp)
  | cas
  | enq (k : Nat)
  | deq (k : Nat)
  deriving DecidableEq, Repr

/-- What an outstanding request is (R239, R243, R244, R258, R336, R369). -/
inductive ReqKind where
  /-- `ald` of one lane: `lead` marks the lane that counts its line (R411). -/
  | load (q lane : Nat) (va : DWord) (size : Size) (scope : Nat) (helper lead : Bool)
  /-- `aldu` to the registers from `sd`. -/
  | group (sd : Nat) (place : Place) (size : Size)
  /-- A performed store that the point of its scope has not acknowledged. -/
  | ack (scope : Nat) (place : Place)
  /-- One request of an atomic: its operand's place and bytes, and each lane's operand words in ascending lane order. -/
  | atomic (work : AtomWork) (place : Place) (va : DWord) (scope size : Nat) (ops : List (Nat × List Word))
      (q : Option Nat) (nf : Bool)
  /-- An island request on a channel: each lane's words, the places of its pixel tags, the address that S names or the
  viewport, its result queue and slots per lane, and whether the island has accepted it (R355). -/
  | island (fn imm chan : Nat) (lanes : List (Nat × List Word)) (places : List (Nat × Nat)) (obj : DWord)
      (q : Option Nat) (slots : Nat) (accepted : Bool)
  /-- A `gload` whose result is still to be written (R369). -/
  | gload (sd : Nat) (value : Word)
  /-- An `icinv` of a line. -/
  | icinv (line : DWord)
  deriving DecidableEq, Repr

/-- An outstanding request of a slice: program order is the order of `id`; `sent` is the cycle in which one to host memory
went to the host, from which its completion is timed (R465). -/
structure Req where
  id : Nat
  sent : Option Nat
  w : WaveRef
  sl : Slice
  core : Nat
  vi : Nat
  pc : Word
  kind : ReqKind
  deriving DecidableEq, Repr

/-- A line copy of the interleaved L1 (R277), in a way of its home slice (R246): 128 bytes with a valid and a dirty bit each,
and the cores of the cluster whose release at `.dev` must write the dirty bytes back: those that stored them (R286), and,
once a release at `.cl` has covered them (`out`), those that have acquired there since (R284); `lost` marks the bytes of the
copy that zeros replaced (R35). -/
structure L1Line where
  line : Nat
  data : List Byte
  valid : BitVec 128
  dirty : BitVec 128
  writers : BitVec 8
  out : Bool
  way : Nat
  lost : BitVec 128
  deriving DecidableEq, Repr

/-- A cached translation (R452). -/
structure Tlb where
  vi : Nat
  va : Nat
  size : Nat
  place : Place
  r : Bool
  w : Bool
  x : Bool
  deriving DecidableEq, Repr

/-- A line of an instruction cache (R305), by interface and 52-bit address; `lost` marks the bytes that zeros replaced (R35). -/
structure ILine where
  vi : Nat
  line : Nat
  words : List Word
  lost : BitVec 128
  deriving DecidableEq, Repr

/-- A line that the Lantern cache holds (R19, R456): its way, and whether it is newer than the memory behind it. Its bytes are
those of `State.dmem`. -/
structure LanternLine where
  line : Nat
  way : Nat
  dirty : Bool
  deriving DecidableEq, Repr

/-- A copy of a line in a core's read buffer (R277); `lost` marks the bytes that zeros replaced (R35). -/
structure RLine where
  line : Nat
  data : List Byte
  lost : BitVec 128
  deriving DecidableEq, Repr

/-- A core (R17): its read buffer (R277), instruction cache, translations, the constant banks held (R116), whether its
quarter-cores are in fabric mode (R359), the event that its keeper agent handles (R412), and how many ways of its SRAM are
scratch (R246). -/
structure CoreSt where
  rbuf : List RLine
  icache : List ILine
  tlb : List Tlb
  banks : List Nat
  fabric : Bool
  handler : Option Nat
  ways : Nat
  deriving DecidableEq, Repr

/-- An engine that owns a line: a copy command, or the blend island of a cluster. -/
inductive Owner where
  | command (id : Nat)
  | blend (cluster : Nat)
  deriving DecidableEq, Repr

/-- The Lantern cache's record of a line that an engine owns (R300, R459). -/
structure Owned where
  line : Nat
  by_ : Owner
  deriving DecidableEq, Repr

/-- An island image (R332, R333): its identity and the digest of its payload, which is empty for a base image. -/
structure IslandImage where
  identity : Nat
  digest : List Byte
  deriving DecidableEq, Repr

/-- A request channel (R355, R356): the quarter-core's count of free slots, and whether its last audit mismatched. -/
structure Channel where
  free : Nat
  bad : Bool
  deriving DecidableEq, Repr

/-- A target line in the blend island's buffer (R352), with the workgroups whose requests touched it and the places of its
bytes that zeros replaced (R35). -/
structure BlendLine where
  line : Nat
  data : List Byte
  wgs : List Nat
  lost : List Nat
  deriving DecidableEq, Repr

/-- A record of the layout cache (R391), by interface and address. -/
structure LayoutEntry where
  vi : Nat
  addr : Nat
  bytes : List Byte
  deriving DecidableEq, Repr

/-- A graph context of a configuration store (R368, R371): its key, the copy of the image as words (none when it holds
no image), its reference count, the first column at which it is placed with the slot whose share it stands in, whether
the placement is still being written, and the cycle since which it has been idle. -/
structure GraphCtx where
  vi : Nat
  root : DWord
  addr : DWord
  image : List Word
  count : Nat
  place : Option Nat
  owner : Nat
  placing : Option Nat
  idle : Nat
  deriving DecidableEq, Repr

/-- Where a token stands (R378, R379); `seq` orders the tokens admitted to a context. -/
inductive TokenState where
  | waiting
  | flight (seq : Nat)
  | left
  | dropped
  deriving DecidableEq, Repr

/-- What a token's nodes have computed: its result words, the stores that it performs when it leaves, each with its node's
number, and its mark. -/
structure TokenWork where
  results : List Word
  stores : List (Nat × DWord × Nat × Word × Nat)
  mark : Option Token
  deriving DecidableEq, Repr

/-- A token of a card (R373, R379): its lane, input words and state; what its nodes computed, when they have; and the
slots of a `.q` push held over a cut (R384); `cut` holds the request channels that were reset while it was in flight
(R356). -/
structure CardToken where
  lane : Nat
  inputs : List Word
  state : TokenState
  work : Option TokenWork
  held : List QEntry
  cut : List Nat
  deriving DecidableEq, Repr

/-- A job card (R373): the wave, slot and core that posted it, its graph table entry and context, its result block or
queue, parameter and tokens. `arrival` orders the cards at the arbiter, `bound` is the order in which it was bound, and
`collected` holds the lanes that have executed `jwait` after their tokens (R375); `reads` says that its graph has a node that
reads memory (R301). -/
structure Card where
  id : Nat
  arrival : Nat
  w : WaveRef
  slot : Nat
  core : Nat
  vi : Nat
  pc : Word
  entry : Nat
  ctx : Nat
  nout : Nat
  d : Nat
  q : Option Nat
  param : Word
  lanes : Lanes
  tokens : List CardToken
  bound : Option Nat
  cancelled : Bool
  collected : Lanes
  reads : Bool
  deriving DecidableEq, Repr

/-- One end of a copied range: global memory, the workgroup's scratch, or a constant byte. -/
inductive CopyEnd where
  | global (va : DWord)
  | scratch (off : Nat)
  | fill (b : Byte)
  deriving DecidableEq, Repr

/-- A range that an engine copies within one line. -/
structure Move where
  src : CopyEnd
  dst : CopyEnd
  n : Nat
  deriving DecidableEq, Repr

/-- A `.gq` stream (R394): its wave and queue, the byte ranges of each row in order, the words per row, the next word
to read, and the words read but not yet placed, one list of row words each. -/
structure Stream where
  wave : Nat
  q : Nat
  rows : List (List Move)
  words : Nat
  next : Nat
  held : List (List Word)
  deriving DecidableEq, Repr

/-- A copy command (R389, R393 to R399): who issued it, its tag, the ranges still to copy or its stream, its completion
word, whether the engine serves it, and its failure. `id` is the arrival order; `line` is the scratch line that it is writing
(R404), `words` the scratch words that it has read and not yet copied whole, by number (R402). -/
structure Command where
  id : Nat
  w : WaveRef
  core : Nat
  vi : Nat
  pc : Word
  tag : Nat
  scope : Nat
  nf : Bool
  todo : List Move
  stream : Option Stream
  completion : Word
  started : Bool
  failed : Option (Cause × DWord)
  line : Option Nat
  words : List (Nat × List Byte)
  deriving DecidableEq, Repr

/-- What the save area holds of a workgroup beside its own structure (R420, R384, R404): its graph contexts by entry, its
cards, its suspended commands, the loads that an unpaired store holds, and the pages that it occupies, in the pinned part
of the save region or not (R458). -/
structure SavedWork where
  graphs : List (Option GraphCtx)
  cards : List Card
  cmds : List Command
  reqs : List Req
  pages : Nat
  pinned : Bool
  deriving DecidableEq, Repr

/-- A workgroup (R37): its identity (R38, R39), place (R246, R412), scratch, barriers, rings, graph table (R367),
raster stream and waves; `request` is the pre-emption request
that stands, true for a discard (R409); `arrivedGrid` says that a wave has arrived at `gbar` since the release (R418);
`exchangeSince` starts the exchange period (R444); `released` orders the releases (R440). `id` is the model's name. -/
structure Workgroup where
  id : Nat
  launch : Nat
  keeper : Bool
  wgid : List Word
  cg : Nat
  flat : Nat
  core : Nat
  slot : Nat
  scrbase : Nat
  scratch : ByteFile
  barriers : List Barrier
  rings : List Ring
  graphs : List (Option Nat)
  raster : Raster
  waves : List Wave
  status : RunStatus
  request : Option Bool
  arrivedGrid : Bool
  exchangeSince : Option Nat
  released : Nat
  saved : Option SavedWork
  deriving DecidableEq, Repr

/-- The gate register of a cluster (R479), the units that are gated now, and the idle start of each woken unit
(R480), and the gated units that a request has reached. Units are numbered 0 to 31 for the matrix engines, 32 to 37 for
the islands in the order of R479, 38 for the copy engine. -/
structure Gate where
  mgate : Word
  off : Bool
  cgate : Bool
  kgate : Bool
  igate : BitVec 6
  gated : List Nat
  wanted : List Nat
  woken : List (Nat × Nat)
  deriving DecidableEq, Repr

/-- A cluster (R16): its L1 copies, translations and gates; the images that its islands hold (raster, intersection,
filter, blend), its request channels (R355), the blend buffer, the layout cache, the configuration store (R368), the
fabric ranges of the shares (slot, first core, cores; R359), and the number of the next binding or admission. -/
structure Cluster where
  l1 : List L1Line
  tlb : List Tlb
  gate : Gate
  images : List (Option IslandImage)
  channels : List Channel
  blend : List BlendLine
  layouts : List LayoutEntry
  contexts : List GraphCtx
  ranges : List (Nat × Nat × Nat)
  nextSeq : Nat
  deriving DecidableEq, Repr

/-- A clear of `ERRSTICKY` bits that has not taken effect: who issued it, the bits, and its cycle (R119). -/
structure StickyClear where
  w : WaveRef
  sl : Slice
  bits : BitVec 2
  due : Nat
  deriving DecidableEq, Repr

/-- A SIGNAL packet that waits for the launches before it (R437): those with a name below `before`. -/
structure PendingSignal where
  before : Nat
  scope : Nat
  notify : Bool
  addr : DWord
  value : DWord
  deriving DecidableEq, Repr

/-- The register block of a queue slot (R426, R445), each pending share with its cluster, its cores and the order in which
it was written, with its private buffer (R429), whether a read of the ring has failed behind the packets there (R431), and the
context's state: whether a context has been started, and terminated, and is mapped with its gang (R428), `errsticky` (R107) with
the clears that are still to take effect (R119), the images it names and
whether a named one was rejected (R476), its own effective level (that of a gang is the highest of its members, R440), the
start of its starvation (R441), the WAIT packet's next poll and the SIGNAL packets that wait (R437). -/
structure QSlot where
  ringbase : DWord
  enable : Bool
  priority : Nat
  gang : Nat
  ringlog : Nat
  tail : Word
  head : Word
  stopped : Bool
  level : Nat
  error : Nat
  faultbase : DWord
  faultcount : Nat
  faultwrite : Word
  faultread : Word
  overflow : Bool
  done : DWord
  slice : Nat
  shares : List Nat
  pendingShares : List (Nat × Nat × Nat)
  assigned : Option Nat
  buf : List Byte
  ringFailed : Bool
  context : Bool
  terminated : Bool
  mapped : Bool
  errsticky : BitVec 2
  clears : List StickyClear
  images : List IslandImage
  badImage : Bool
  starved : Option Nat
  waiting : Option Nat
  signals : List PendingSignal
  deriving DecidableEq, Repr

/-- The memory block of a virtual interface (R447), and its four current island images (R478). `busy` holds the invalidation
in progress (R454): the first name of a request made after its start, the first address and the bytes. -/
structure VIface where
  root : DWord
  on : Bool
  invaddr : DWord
  invpages : Word
  busy : Option (Nat × Nat × Nat)
  ways : BitVec 24
  ctimeout : Nat
  hintskip : Word
  errnote : Word
  erraddr : DWord
  beacon : Nat
  images : List IslandImage
  deriving DecidableEq, Repr

/-- A pin register (R457). -/
structure Pin where
  base : DWord
  on : Bool
  pages : Word
  status : Nat
  deriving DecidableEq, Repr

/-- The device control block (R482) with the re-arm state of the thermal bit of each die, the clock-mode change in
progress (R24: the cycle at which issue resumes), and whether issue is stopped (R28, R36). -/
structure Ctl where
  mode : Bool
  current : Bool
  ageing : Nat
  warn : Nat
  temps : List Byte
  armed : List Bool
  thermal : Bool
  moded : Bool
  shutdown : Bool
  error : Bool
  shutaddr : Nat
  changing : Option Nat
  stopped : Bool
  deriving DecidableEq, Repr

/-- The error counters and the device error record (R468). -/
structure Counters where
  counts : List Word
  valid : Bool
  unit : Nat
  location : DWord
  deriving DecidableEq, Repr

/-- Bring-up (R484) and the accepted firmware's digests (R478). -/
structure Boot where
  powered : Bool
  keysDerived : Bool
  bundle : DWord
  status : Nat
  refused : Nat
  digests : List (List Byte)
  deriving DecidableEq, Repr

/-- The attestation window (R478), with the identity certificate that it shows (R477). -/
structure Attest where
  certificate : List Byte
  nonce : List Word
  interface : Nat
  busy : Bool
  report : List Byte
  deriving DecidableEq, Repr

/-- An MSI-X vector (R483), with the count of its signals. -/
structure Vec where
  masked : Bool
  pending : Bool
  signals : Nat
  deriving DecidableEq, Repr

/-- One issue: an issue group of a slice of a wave at a counter (R53, R57). -/
structure Issue where
  w : WaveRef
  sl : Slice
  em : Lanes
  pc : Word
  deriving DecidableEq, Repr

/-- What the arbitration of a quarter-core holds of a slice (R50, R63): the cycle of its last issue, how often the device has
passed it over since while it was ready, the register codes that the hints of an `endrun` named at its last issue (R205), and the
codes whose write may still be pending in its scoreboard, each with the cycle by which it is made (R206). -/
structure Turn where
  w : WaveRef
  sl : Slice
  issued : Option Nat
  passed : Nat
  hints : List (BitVec 8)
  busy : List (BitVec 8 × Nat)
  deriving DecidableEq, Repr

/-- A write by a slice of a wave that the other slice may not see yet (R103, R125): an `s` register, or lanes of a row of `v`,
with its old contents, and what the other slice must pop first to see it, once the writer has placed a queue entry: by queue and
lane, the slots up to that entry. `req` names the outstanding request that will make the write; once the other slice has popped
such an entry before that, the write is `ordered`: its reads of the register wait for it. -/
structure LateWrite where
  w : WaveRef
  sl : Slice
  vector : Bool
  k : Nat
  lanes : Lanes
  old : List Word
  until_ : List (Nat × Nat × Nat)
  req : Option Nat
  ordered : Bool
  deriving DecidableEq, Repr

/-- The access of one lane of an `sts` that is not visible in-core yet, and is at `until_` (R248): the name of its instruction
among the accesses of its slice, its offset and bytes, and the entries that the slice has placed since, as in `StoreRec` (R275).
Those of a slice become visible in the order of their instructions, each access at once (R279, R280). -/
structure LateStore where
  id : Nat
  w : WaveRef
  sl : Slice
  off : Nat
  bytes : List Byte
  until_ : Nat
  slots : List (Nat × Nat × Nat)
  deriving DecidableEq, Repr

/-- A lane's store of a performed store record that the host link has accepted, and that host memory does not show yet (R303,
R464): the record's name, its wave, the kind of host memory, the address and the bytes. -/
structure Posted where
  id : Nat
  w : WaveRef
  mem : Nat
  pa : Nat
  bytes : List Byte
  deriving DecidableEq, Repr

/-- The whole machine. `watches` holds the watched objects (R299), each with the cycle at which its count last restarted and
what restarts it; `walkCache` the walkers' cache of table entries above T0, by interface and address (R452); `zeroed` the
addresses of the bytes that R35 replaced by zeros; `hshared` the lines that the host holds unmodified (R459); `lantern` the
lines in the Lantern cache; `rings` holds the exponent that the first
instruction on each ring block gave (R263, R425); `audited` is the cycle of the latest audits of the request channels (R356);
`turns`, `late` and `lateScratch` are described at their types; `deferred` holds the events from outside, the host's accesses
among them, that a recall delays (R300).
The model's own fields, which no rule names, are: `touched` says that this step has returned a replaced byte (R469),
`delayed` that a table walk or a host access of it has met a line that an engine owns, and `reached` holds the lines that it
has accessed at their banks, with whether it wrote them; `fresh`, the counter of free values drawn;
`agenda`, the events that are due before the next issue; `cur` and `second`, the issue groups that go next; `stalled`,
whether the last one waited; `nextId`, the next name of a workgroup, launch or request. -/
structure State where
  clock : Nat
  dmem : List Host.Cell
  hmem : List Host.Cell
  posted : List Posted
  hcache : List Host.Cell
  hostBias : List Nat
  owned : List Owned
  reqs : List Req
  cmds : List Command
  cards : List Card
  wgs : List Workgroup
  groups : List ClusterGroup
  launches : List Launch
  cores : List CoreSt
  clusters : List Cluster
  slots : List QSlot
  ifaces : List VIface
  pins : List Pin
  savebase : DWord
  savepages : Word
  ctl : Ctl
  counters : Counters
  boot : Boot
  attest : Attest
  vecs : List (List Vec)
  linkUp : Bool
  watches : List (WatchObj × Nat × List Nat)
  walkCache : List (Nat × Nat × Nat)
  zeroed : List Nat
  hshared : List Nat
  lantern : List LanternLine
  rings : List (Place × Nat)
  audited : Nat
  turns : List Turn
  late : List LateWrite
  lateScratch : List LateStore
  deferred : List Instr
  touched : Bool
  delayed : Bool
  reached : List (Nat × Bool)
  fresh : Nat
  nextId : Nat
  agenda : List Instr
  cur : Option Issue
  second : Option Issue
  stalled : Bool
  deriving DecidableEq, Repr

/-! The state right after reset. -/

/-- A core after reset: empty caches (log entry 3), holding no bank, out of fabric mode. -/
def CoreSt.reset : CoreSt := ⟨[], [], [], [], false, none, 0⟩

/-- The base image of R333. -/
def IslandImage.base : IslandImage := ⟨1, []⟩

/-- A cluster after reset: empty caches (log entry 3), gate register 0 (R479), base images (log entry 8), full channels
(R355), and an empty configuration store (log entry 3). -/
def Cluster.reset : Cluster where
  l1 := []
  tlb := []
  gate := ⟨0, false, false, false, 0, [], [], []⟩
  images := List.replicate 4 (some IslandImage.base)
  channels := List.replicate 128 ⟨16, false⟩
  blend := []
  layouts := []
  contexts := List.replicate 16 ⟨0, 0, 0, [], 0, none, 0, none, 0⟩
  ranges := []
  nextSeq := 0

/-- A queue slot after reset (R426); assigned to no interface (log entry 7). -/
def QSlot.reset : QSlot where
  ringbase := 0
  enable := false
  priority := 0
  gang := 0
  ringlog := 12
  tail := 0
  head := 0
  stopped := false
  level := 0
  error := 0
  faultbase := 0
  faultcount := 0
  faultwrite := 0
  faultread := 0
  overflow := false
  done := 0
  slice := 2 ^ 18
  shares := List.replicate 24 0
  pendingShares := []
  assigned := none
  buf := []
  ringFailed := false
  context := false
  terminated := false
  mapped := false
  errsticky := 0
  clears := []
  images := List.replicate 4 IslandImage.base
  badImage := false
  starved := none
  waiting := none
  signals := []

/-- A memory block after reset (R447). -/
def VIface.reset : VIface := 
  ⟨0, false, 0, 0, none, 0xFFFFFF#24, 10000, 0, 0, 0, 26, List.replicate 4 IslandImage.base⟩

/-- The device control block after reset (R482); the temperatures, which have no reset value, are log entry 4. -/
def Ctl.reset : Ctl where
  mode := false
  current := false
  ageing := 4800000
  warn := 95
  temps := [0, 0]
  armed := [true, true]
  thermal := false
  moded := false
  shutdown := false
  error := false
  shutaddr := 0
  changing := none
  stopped := false

/-- The state after reset. -/
def State.reset : State where
  clock := 0
  dmem := []
  hmem := []
  posted := []
  hcache := []
  hostBias := []
  owned := []
  reqs := []
  cmds := []
  cards := []
  wgs := []
  groups := []
  launches := []
  cores := List.replicate 192 CoreSt.reset
  clusters := List.replicate 24 Cluster.reset
  slots := List.replicate 64 QSlot.reset
  ifaces := List.replicate 16 VIface.reset
  pins := List.replicate 16 ⟨0, false, 0, 0⟩
  savebase := 0
  savepages := 0
  ctl := Ctl.reset
  counters := ⟨List.replicate 12 0, false, 0, 0⟩
  boot := ⟨false, false, 0, 0, 0, []⟩
  attest := ⟨[], List.replicate 8 0, 0, false, []⟩
  vecs := List.replicate 16 (List.replicate 66 ⟨true, false, 0⟩)
  linkUp := true
  watches := []
  walkCache := []
  zeroed := []
  hshared := []
  lantern := []
  rings := []
  audited := 0
  turns := []
  late := []
  lateScratch := []
  deferred := []
  touched := false
  delayed := false
  reached := []
  fresh := 0
  nextId := 0
  agenda := []
  cur := none
  second := none
  stalled := false

end Sys2Proof.Machine
end

