-- ==== Sys2Proof/Machine/Regs.lean ====
section
/-!
DEFINITION. Reading and writing the parts of the state: register files, scratch, waves, slices and threads.
-/
namespace Sys2Proof.Machine

open Sys2Proof

/-! Sparse files. -/

/-- The contents of an unlisted row of `n` words (R2). -/
def RegFile.unlisted (base : Option Nat) (n row : Nat) : List Word :=
  match base with
  | none => List.replicate n 0#32
  | some b => (List.range n).map fun i => Config.freeWord b (n * row + i)

/-- Row `row` of a file whose rows have `n` words. -/
def RegFile.row (n : Nat) (f : RegFile) (row : Nat) : List Word :=
  match f.rows.find? fun p => p.1 == row with
  | some p => p.2
  | none => RegFile.unlisted f.base n row

/-- `k` set to `x` in a list of pairs with rising keys. -/
def setPair {α : Type} (k : Nat) (x : α) : List (Nat × α) → List (Nat × α)
  | [] => [(k, x)]
  | p :: ps => if p.1 < k then p :: setPair k x ps else if p.1 = k then (k, x) :: ps else (k, x) :: p :: ps

/-- Row `row` set to `ws`. -/
def RegFile.setRow (f : RegFile) (row : Nat) (ws : List Word) : RegFile := { f with rows := setPair row ws f.rows }

/-- A register of a file with one word per row. -/
def RegFile.get (f : RegFile) (k : Nat) : Word := (f.row 1 k).headD 0#32
def RegFile.set (f : RegFile) (k : Nat) (w : Word) : RegFile := f.setRow k [w]

/-- The word of lane `i` of a row. -/
def laneAt (ws : List Word) (i : Nat) : Word := (ws[i]?).getD 0#32

/-- The row whose lanes of `em` are `g` and whose other lanes are those of `old` (R124). -/
def mergeLanes (em : Lanes) (old : List Word) (g : Nat → Word) : List Word :=
  laneList.map fun i => if em.getLsbD i then g i else laneAt old i

def ByteFile.get (f : ByteFile) (a : Nat) : Byte :=
  match f.cells.find? fun p => p.1 == a with
  | some p => p.2
  | none => match f.base with
    | none => 0#8
    | some b => Config.freeByte b a
def ByteFile.set (f : ByteFile) (a : Nat) (b : Byte) : ByteFile := { f with cells := setPair a b f.cells }
def ByteFile.read (f : ByteFile) (a n : Nat) : List Byte := (List.range n).map fun k => f.get (a + k)
def ByteFile.write (f : ByteFile) (a : Nat) : List Byte → ByteFile
  | [] => f
  | b :: bs => (f.set a b).write (a + 1) bs

/-! Slices, waves and workgroups. -/

def Wave.slice (w : Wave) : Slice → SliceSt
  | .a => w.a
  | .x => w.x
def Wave.setSlice (w : Wave) (sl : Slice) (t : SliceSt) : Wave :=
  match sl with
  | .a => { w with a := t }
  | .x => { w with x := t }
def Wave.updSlice (w : Wave) (sl : Slice) (f : SliceSt → SliceSt) : Wave := w.setSlice sl (f (w.slice sl))

def otherSlice : Slice → Slice
  | .a => .x
  | .x => .a

def Workgroup.wave (g : Workgroup) (k : Nat) : Option Wave := g.waves.find? fun w => w.id == k
def Workgroup.updWave (g : Workgroup) (k : Nat) (f : Wave → Wave) : Workgroup :=
  { g with waves := g.waves.map fun w => if w.id == k then f w else w }

def State.wg (s : State) (id : Nat) : Option Workgroup := s.wgs.find? fun g => g.id == id
def State.updWg (s : State) (id : Nat) (f : Workgroup → Workgroup) : State :=
  { s with wgs := s.wgs.map fun g => if g.id == id then f g else g }
def State.updWave (s : State) (r : WaveRef) (f : Wave → Wave) : State := s.updWg r.wg fun g => g.updWave r.wave f
def State.updSlice (s : State) (r : WaveRef) (sl : Slice) (f : SliceSt → SliceSt) : State :=
  s.updWave r fun w => w.updSlice sl f
def State.wave (s : State) (r : WaveRef) : Option Wave := (s.wg r.wg).bind fun g => g.wave r.wave

def State.launch (s : State) (id : Nat) : Option Launch := s.launches.find? fun l => l.id == id
def State.updLaunch (s : State) (id : Nat) (f : Launch → Launch) : State :=
  { s with launches := s.launches.map fun l => if l.id == id then f l else l }

def State.core (s : State) (k : Nat) : CoreSt := (s.cores[k]?).getD CoreSt.reset
def State.updCore (s : State) (k : Nat) (f : CoreSt → CoreSt) : State := { s with cores := updAt f s.cores k }
def State.cluster (s : State) (k : Nat) : Cluster := (s.clusters[k]?).getD Cluster.reset
def State.updCluster (s : State) (k : Nat) (f : Cluster → Cluster) : State :=
  { s with clusters := updAt f s.clusters k }
def State.slot (s : State) (k : Nat) : QSlot := (s.slots[k]?).getD QSlot.reset
def State.updSlot (s : State) (k : Nat) (f : QSlot → QSlot) : State := { s with slots := updAt f s.slots k }
/-- The number under which the accesses of keeper agents go: they use the tables of interface 0, the physical function's, but
for the pinned save region, which is not translated (R451, R456). -/
def keeperVi : Nat := 16
/-- The interface whose tables and registers an access uses. -/
def tableVi (vi : Nat) : Nat := if vi = keeperVi then 0 else vi
def State.iface (s : State) (k : Nat) : VIface := (s.ifaces[k]?).getD VIface.reset
def State.updIface (s : State) (k : Nat) (f : VIface → VIface) : State := { s with ifaces := updAt f s.ifaces k }

/-- The cluster and die of a core (R14). -/
def clusterOf (core : Nat) : Nat := core / 8
def dieOf (core : Nat) : Nat := core / 96

/-- One more free value is drawn. -/
def State.draw (s : State) : Nat × State := (Config.freeNat s.fresh, { s with fresh := s.fresh + 1 })

/-- A new name. -/
def State.newId (s : State) : Nat × State := (s.nextId, { s with nextId := s.nextId + 1 })

/-- An event that the step must take before any issue. -/
def State.due (s : State) (e : Instr) : State := { s with agenda := s.agenda ++ [e] }

/-! Threads. -/

def SliceSt.thread (t : SliceSt) (i : Nat) : Thread := (t.threads[i]?).getD ⟨0, .absent, 0⟩
def SliceSt.updThread (t : SliceSt) (i : Nat) (f : Thread → Thread) : SliceSt :=
  { t with threads := updAt f t.threads i }
/-- Changes the threads of a lane set. -/
def SliceSt.updLanes (t : SliceSt) (m : Lanes) (f : Nat → Thread → Thread) : SliceSt :=
  { t with threads := laneList.map fun i => if m.getLsbD i then f i (t.thread i) else t.thread i }

def ThreadState.isLive : ThreadState → Bool
  | .live | .parked _ => true
  | .exited | .absent => false
/-- Lanes whose thread is live, parked threads included (R41, R416). -/
def SliceSt.liveLanes (t : SliceSt) : Lanes := lanesWhere fun i => (t.thread i).st.isLive
/-- Lanes whose thread takes part in the vote (R42). -/
def SliceSt.votable (t : SliceSt) : Lanes := lanesWhere fun i => (t.thread i).st == .live
/-- Lanes parked on a given object. -/
def SliceSt.parkedOn (t : SliceSt) (p : Park) : Lanes := lanesWhere fun i => (t.thread i).st == .parked p

/-- A mask of the slice (R104). -/
def SliceSt.mask (t : SliceSt) (k : Nat) : Word := (t.m[k]?).getD 0#32
def SliceSt.setMask (t : SliceSt) (k : Nat) (w : Word) : SliceSt :=
  { t with m := updAt (fun _ => w) t.m k, mgen := updAt (· + 1) t.mgen k }
def SliceSt.loop (t : SliceSt) (k : Nat) : Loop := (t.loops[k]?).getD ⟨0, false, 0, 0, 0, 0, 0⟩
def SliceSt.updLoop (t : SliceSt) (k : Nat) (f : Loop → Loop) : SliceSt := { t with loops := updAt f t.loops k }

/-- The innermost active loop whose lane set holds lane `i` (R196). -/
def SliceSt.innermost (t : SliceSt) (i : Nat) : Option Nat :=
  ((List.range 4).filter fun k => (t.loop k).active && (t.loop k).lanes.getLsbD i).foldl
    (fun best k => match best with
      | none => some k
      | some j => if (t.loop j).order < (t.loop k).order then some k else best) none

/-- Lane `i` comes to counter `pc`: it parks when that is the end address of its innermost loop (R196), and is live
otherwise. In an open run no thread parks (R202). -/
def SliceSt.arrive (inRun : Bool) (t : SliceSt) (i : Nat) (pc : Word) : SliceSt :=
  let st := match t.innermost i with
    | some k => if !inRun && (t.loop k).stop == pc then .parked (.loopEnd k) else .live
    | none => .live
  t.updThread i fun h => { h with pc := pc, st := st }

/-- Every lane of a set comes to the counter `g` gives it. -/
def SliceSt.arriveAll (inRun : Bool) (t : SliceSt) (m : Lanes) (g : Nat → Word) : SliceSt :=
  (lanesOf m).foldl (fun t i => t.arrive inRun i (g i)) t

/-! Group registers, vector and operand rows of a wave. -/

def Wave.sreg (w : Wave) (k : Nat) : Word := w.s.get k
def Wave.sreg64 (w : Wave) (k : Nat) : DWord := joinWords (w.sreg k) (w.sreg (k + 1))
def Wave.setS (w : Wave) (k : Nat) (x : Word) : Wave := { w with s := w.s.set k x }
def Wave.vrow (w : Wave) (k : Nat) : List Word := w.v.row waveWidth k
def Wave.orow (w : Wave) (k : Nat) : List Word := w.o.row waveWidth k
def Wave.queue (w : Wave) (k : Nat) : Option Queue := (w.queues[k]?).join
def Wave.setQueue (w : Wave) (k : Nat) (q : Option Queue) : Wave := { w with queues := updAt (fun _ => q) w.queues k }
def Queue.col (q : Queue) (i : Nat) : List QEntry := (q.cols[i]?).getD []
def Queue.setCol (q : Queue) (i : Nat) (c : List QEntry) : Queue := { q with cols := updAt (fun _ => c) q.cols i }

/-- The wave's position within its quarter-core's numbering (R45). -/
def Wave.quarter (w : Wave) : Nat := w.id % 4

/-- A run is open in the slice. -/
def Wave.inRun (w : Wave) (sl : Slice) : Bool :=
  match w.run with
  | some r => r.sl == sl
  | none => false

end Sys2Proof.Machine
end

