-- ==== Sys2Proof/Machine/Memory.lean ====
section
/-!
DEFINITION. Memory: byte memories in canonical form, translation (R448 to R452), L1 copies and the read buffer (R277),
and the accesses of every scope to device and host memory (R276, R277, R460, R464).
-/
namespace Sys2Proof.Machine

open Sys2Proof

/-! Byte memories: lists of cells with rising addresses, none holding what an unlisted address reads as. -/

/-- What a byte that nothing has written reads as (DESIGN CHOICE, log entry 2). -/
def Mem.unlisted : Byte := 0#8

def Mem.get (m : List Host.Cell) (a : Nat) : Byte :=
  match m.find? fun c => c.1 == a with
  | some c => c.2
  | none => Mem.unlisted

/-- One byte written; the canonical form is kept. -/
def Mem.set (m : List Host.Cell) (a : Nat) (b : Byte) : List Host.Cell :=
  match m with
  | [] => if b = Mem.unlisted then [] else [(a, b)]
  | c :: cs =>
    if c.1 < a then c :: Mem.set cs a b
    else if c.1 = a then (if b = Mem.unlisted then cs else (a, b) :: cs)
    else if b = Mem.unlisted then c :: cs else (a, b) :: c :: cs

def Mem.read (m : List Host.Cell) (a n : Nat) : List Byte := (List.range n).map fun k => Mem.get m (a + k)
def Mem.write (m : List Host.Cell) (a : Nat) : List Byte → List Host.Cell
  | [] => m
  | b :: bs => Mem.write (Mem.set m a b) (a + 1) bs

/-- The canonical form: every address above `lo`, rising, and no cell equal to an unlisted byte. -/
def Mem.wfFrom (lo : Nat) : List Host.Cell → Bool
  | [] => true
  | c :: cs => lo ≤ c.1 && c.2 != Mem.unlisted && Mem.wfFrom (c.1 + 1) cs
def Mem.wf (m : List Host.Cell) : Bool := Mem.wfFrom 0 m

/-! Addresses. -/

/-- Device memory is 64 GiB (R19). -/
def deviceBytes : Nat := 2 ^ 36
/-- The 128-byte line of an address. -/
def lineOf (a : Nat) : Nat := a / 128 * 128
/-- Bits [63:52] all equal bit 51 (R239). -/
def canonical (va : DWord) : Bool := va.extractLsb' 51 13 == 0#13 || va.extractLsb' 51 13 == (-1 : BitVec 13)
/-- The 52-bit address that the tables translate (R448). -/
def va52 (va : DWord) : Nat := va.toNat % 2 ^ 52
/-- The home L1 slice of a line within its cluster (R249 and its section). -/
def homeSlice (pa : Nat) : Nat := (bits pa 9 7) ^^^ (bits pa 15 13)

/-- Two places lie in one line. -/
def sameLine (a b : Place) : Bool := a.mem == b.mem && lineOf a.pa == lineOf b.pa

/-- An engine owns the line of a place (R300). -/
def State.isOwned (s : State) (p : Place) : Bool := p.mem == 0 && s.owned.any fun o => o.line == lineOf p.pa

/-- The banks are reached for a line (R456). -/
def State.reach (s : State) (line : Nat) (write : Bool) : State := { s with reached := (line, write) :: s.reached }

/-! Translation. -/

/-- The table entry at an address; above T0 the walkers may hold it (R452). -/
def pte (s : State) (vi a : Nat) (upper : Bool) : Nat :=
  match if upper then s.walkCache.find? fun w => w.1 == vi && w.2.1 == a else none with
  | some w => w.2.2
  | none => ofBytes (Mem.read s.dmem a 8)

/-- The read of a table entry meets an uncorrectable error: it would return bytes that zeros replaced (R35, R450). -/
def lostEntry (s : State) (vi a : Nat) (upper : Bool) : Bool :=
  !(upper && s.walkCache.any fun w => w.1 == vi && w.2.1 == a) && s.zeroed.any fun z => a ≤ z && z < a + 8

/-- The page of a leaf at level `lv` with page size `size`, or the cause (R450). -/
def leafOf (e lv size va : Nat) : Except Cause Tlb :=
  let addr := bits e 51 12 * 4096
  let k := e.testBit 5
  let mem := bits e 7 6
  let size := if k then 65536 else size
  let r := e.testBit 2
  let w := e.testBit 3
  let x := e.testBit 4
  if addr % size != 0 then .error .pageEntry
  else if mem == 3 || (w && !r) || (x && mem == 2) || (mem == 0 && deviceBytes < addr + size) || (k && lv != 0) then
    .error .pageEntry
  else .ok ⟨0, va / size * size, size, ⟨mem, addr⟩, r, w, x⟩

/-- One level of the walk with the index bits and page size of each further level (R448, R450). -/
def walkFrom (s : State) (vi table va : Nat) : List (Nat × Nat × Nat) → Except Cause Tlb
  | [] => .error .pageWalk
  | (hi, lo, size) :: rest =>
    let e := pte s vi (table + 8 * bits va hi lo) (!rest.isEmpty)
    if lostEntry s vi (table + 8 * bits va hi lo) (!rest.isEmpty) then .error .pageWalk
    else if !e.testBit 0 then .error .pageAbsent
    else if bits e 63 52 != 0 || bits e 11 8 != 0 then .error .pageEntry
    else if e.testBit 1 then
      if bits e 7 2 != 0 || rest.isEmpty || deviceBytes ≤ bits e 51 12 * 4096 then .error .pageEntry
      else walkFrom s vi (bits e 51 12 * 4096) va rest
    else if size == 0 then .error .pageEntry
    else leafOf e rest.length size va

/-- The entries of the given levels that a walk reads: addresses and values. -/
def walkPath (s : State) (vi table va : Nat) : List (Nat × Nat) → List (Nat × Nat)
  | [] => []
  | (hi, lo) :: rest =>
    let a := table + 8 * bits va hi lo
    let e := pte s vi a true
    (a, e) :: (if e.testBit 1 then walkPath s vi (bits e 51 12 * 4096) va rest else [])

/-- The walkers keep the entries above T0 of a walk that succeeded, of their choice, and at most 256 (R452). -/
def State.keepWalk (s : State) (vi va : Nat) : State :=
  let (n, t) := (Config.freeNat s.fresh, ({ s with fresh := s.fresh + 1 } : State))
  let path := walkPath s vi (bits (s.iface vi).root.toNat 51 12 * 4096) va [(51, 44), (43, 35), (34, 29), (28, 21)]
  let kept := (List.range path.length).filterMap fun k => if n.testBit k then path[k]?.map fun p => (vi, p) else none
  let old := t.walkCache.filter fun w => !kept.any fun k => k.1 == w.1 && k.2.1 == w.2.1
  { t with walkCache := kept ++ old.take (n / 16 % 253) }

/-- The walk of R448 and R450 for an interface. The leaf's level is the count of levels below it. -/
def walk (s : State) (vi va : Nat) : Except Cause Tlb :=
  let f := s.iface vi
  let root := bits f.root.toNat 51 12 * 4096
  if !f.on || deviceBytes ≤ root then .error .pageWalk
  else match walkFrom s vi root va
      [(51, 44, 0), (43, 35, 2 ^ 35), (34, 29, 2 ^ 29), (28, 21, 2 ^ 21), (20, 12, 4096)] with
    | .ok t => .ok { t with vi := vi }
    | .error c => .error c

/-- A walk reads an entry in a line that an engine owns: it is delayed until the line is written (R300). -/
def walkOwned (s : State) (vi va : Nat) : Bool :=
  let f := s.iface vi
  let read (a : Nat) (upper : Bool) : Bool := !(upper && s.walkCache.any fun w => w.1 == vi && w.2.1 == a) && s.isOwned ⟨0, a⟩
  let path := walkPath s vi (bits f.root.toNat 51 12 * 4096) va [(51, 44), (43, 35), (34, 29), (28, 21), (20, 12)]
  f.on && (path.zipIdx).any fun p => read p.1.1 (p.2 != 4)

def tlbFind (l : List Tlb) (vi va : Nat) : Option Tlb :=
  l.find? fun t => t.vi == vi && t.va ≤ va && va < t.va + t.size

/-- A translation cache of `cap` entries takes an entry; when full it gives up one of the device's choice (R452). -/
def tlbInsert (cap n : Nat) (t : Tlb) (l : List Tlb) : List Tlb :=
  t :: (if l.length < cap then l else l.eraseIdx (n % l.length))

/-- A translation that is still to come: no access takes it, since the step that asked for it is delayed. -/
def lateTlb (vi va : Nat) : Tlb := ⟨vi, va / 4096 * 4096, 4096, ⟨3, 0⟩, true, true, true⟩

/-- An address lies in the pinned save region, which pin register 0 pins (R451, R457, R458). -/
def State.inSaveRegion (s : State) (a : Nat) : Bool :=
  match s.pins[0]? with
  | some p => p.on && p.status == 1 && p.base.toNat ≤ a && a < p.base.toNat + 4096 * p.pages.toNat
  | none => false

/-- The walkers read the entries of a walk at the banks, but those that they keep (R452, R456). -/
def State.reachWalk (s : State) (vi va : Nat) : State :=
  let path := walkPath s vi (bits (s.iface vi).root.toNat 51 12 * 4096) va [(51, 44), (43, 35), (34, 29), (28, 21), (20, 12)]
  let kept (p : (Nat × Nat) × Nat) : Bool := p.2 != 4 && s.walkCache.any fun w => w.1 == vi && w.2.1 == p.1.1
  ((path.zipIdx).filter fun p => !kept p).foldl (fun s p => s.reach (lineOf p.1.1) false) s

/-- Translates an address of 52 bits through the tables of an interface, for a core, or for an engine of a cluster
(`core = none`), filling the caches (R452). -/
def translateVi (s : State) (cluster : Nat) (core : Option Nat) (vi a : Nat) : Except Cause Tlb × State :=
  let own := match core with
    | some k => tlbFind (s.core k).tlb vi a
    | none => none
  match own with
  | some t => (.ok t, s)
  | none =>
    let found : Except Cause Tlb := match tlbFind (s.cluster cluster).tlb vi a with
      | some t => .ok t
      | none => walk s vi a
    if (tlbFind (s.cluster cluster).tlb vi a).isNone && walkOwned s vi a then (.ok (lateTlb vi a), { s with delayed := true })
    else match found with
    | .error c => (.error c, s)
    | .ok t =>
      let (n, s) := (if (tlbFind (s.cluster cluster).tlb vi a).isSome then s else (s.reachWalk vi a).keepWalk vi a).draw
      let s := s.updCluster cluster fun c =>
        if (tlbFind c.tlb vi a).isSome then c else { c with tlb := tlbInsert 2048 n t c.tlb }
      let s := match core with
        | some k => s.updCore k fun c => { c with tlb := tlbInsert 64 n t c.tlb }
        | none => s
      (.ok t, s)

/-- Translates a canonical address; a keeper agent's address in the pinned save region stands for itself (R451). -/
def translate (s : State) (cluster : Nat) (core : Option Nat) (vi : Nat) (va : DWord) : Except Cause Tlb × State :=
  let page := va52 va / 4096 * 4096
  if vi = keeperVi ∧ s.inSaveRegion (va52 va) = true then (.ok ⟨vi, page, 4096, ⟨0, page⟩, true, true, true⟩, s)
  else translateVi s cluster core (tableVi vi) (va52 va)

/-- Which permissions an access needs (R450). -/
structure Need where
  r : Bool
  w : Bool
  x : Bool
  deriving DecidableEq, Repr

def Need.load : Need := ⟨true, false, false⟩
def Need.store : Need := ⟨false, true, false⟩
def Need.atomic : Need := ⟨true, true, false⟩
def Need.fetch : Need := ⟨false, false, true⟩

def permit (n : Need) (t : Tlb) : Option Cause :=
  if n.r && !t.r then some .pageRead
  else if n.w && !t.w then some .pageWrite
  else if n.x && !t.x then some .pageExec else none

/-- The place of an address, or the cause: canonical form, translation, permission (R239, R450). -/
def locate (s : State) (cluster : Nat) (core : Option Nat) (vi : Nat) (va : DWord) (n : Need) :
    Except Cause Place × State :=
  if !canonical va then (.error .addrNoncanon, s)
  else match translate s cluster core vi va with
    | (.error c, s) => (.error c, s)
    | (.ok t, s) => match permit n t with
      | some c => (.error c, s)
      | none => (.ok ⟨t.place.mem, t.place.pa + (va52 va - t.va)⟩, s)

/-! The interleaved L1 of a cluster. -/

/-- The core whose SRAM holds the home slice of a line (R249). -/
def homeCore (cluster line : Nat) : Nat := 8 * cluster + homeSlice line
/-- The ways of a slice that are L1: those above the scratch ways of its core (R246). -/
def State.l1Ways (s : State) (cluster line : Nat) : Nat := 16 - (s.core (homeCore cluster line)).ways

def Cluster.l1Line (c : Cluster) (line : Nat) : Option L1Line := c.l1.find? fun l => l.line == line
def Cluster.l1Drop (c : Cluster) (line : Nat) : Cluster := { c with l1 := c.l1.filter fun l => l.line != line }
def Cluster.l1Put (c : Cluster) (l : L1Line) : Cluster := { c with l1 := l :: (c.l1Drop l.line).l1 }

/-- The bytes of device memory that the dirty bytes of a line give when written back (R277). -/
def writeDirty (m : List Host.Cell) (l : L1Line) : List Host.Cell :=
  (List.range 128).foldl
    (fun m k => if l.dirty.getLsbD k then Mem.set m (l.line + k) ((l.data[k]?).getD 0#8) else m) m

/-- The addresses of replaced bytes once a line's dirty bytes are written back (R35). -/
def lostAfter (z : List Nat) (l : L1Line) : List Nat :=
  ((List.range 128).filter fun k => l.dirty.getLsbD k && l.lost.getLsbD k).map (fun k => l.line + k) ++
    z.filter fun a => !(lineOf a == l.line && l.dirty.getLsbD (a % 128))

/-- The bytes of a line that zeros replaced in device memory. -/
def State.lostBits (s : State) (line : Nat) : BitVec 128 :=
  s.zeroed.foldl (fun m a => if lineOf a == line then m ||| (1#128 <<< (a % 128)) else m) 0

/-- Writes back a line's dirty bytes; the copy stays, clean. -/
def State.cleanLine (s : State) (cluster line : Nat) : State :=
  match (s.cluster cluster).l1Line line with
  | none => s
  | some l =>
    let t : State := { s with dmem := writeDirty s.dmem l, zeroed := lostAfter s.zeroed l }
    (if l.dirty == 0 then t else t.reach line true).updCluster cluster fun c =>
      c.l1Put { l with dirty := 0, writers := 0, out := false }

/-- Writes back a line's dirty bytes and drops the copy. -/
def State.evictLine (s : State) (cluster line : Nat) : State :=
  (s.cleanLine cluster line).updCluster cluster fun c => c.l1Drop line

/-- The whole L1 of a cluster, written back and dropped. -/
def State.flushL1 (s : State) (cluster : Nat) : State :=
  ((s.cluster cluster).l1.map fun l => l.line).foldl (fun s line => s.evictLine cluster line) s

/-- The lines of a slice's set (R246). -/
def State.l1Set (s : State) (cluster line : Nat) : List L1Line :=
  (s.cluster cluster).l1.filter fun l => homeSlice l.line == homeSlice line && Config.l1Set l.line == Config.l1Set line

/-- A way of its home slice for a line: its own, a free one, or that of a line of the device's choice, which is written back
and dropped (R246). -/
def State.l1Room (s : State) (cluster line : Nat) : Nat × State :=
  match (s.cluster cluster).l1Line line with
  | some l => (l.way, s)
  | none =>
    let set := s.l1Set cluster line
    let ways := (List.range 16).drop (16 - s.l1Ways cluster line)
    match ways.find? fun k => set.all fun l => l.way != k with
    | some k => (k, s)
    | none =>
      let (n, t) := s.draw
      match set[n % set.length]? with
      | some l => (l.way, t.evictLine cluster l.line)
      | none => (0, t)

/-- The copy of a line that its home slice holds in a way, filled from the Lantern cache where bytes are not valid. -/
def filled (s : State) (cluster line way : Nat) : L1Line :=
  let mem := Mem.read s.dmem line 128
  match (s.cluster cluster).l1Line line with
  | none => ⟨line, mem, BitVec.allOnes 128, 0, 0, false, way, s.lostBits line⟩
  | some l =>
    { l with
      data := (List.range 128).map (fun k => if l.valid.getLsbD k then (l.data[k]?).getD 0#8 else (mem[k]?).getD 0#8)
      valid := BitVec.allOnes 128
      lost := (l.lost &&& l.valid) ||| (s.lostBits line &&& ~~~l.valid) }

/-- Brings a whole line into its home slice. -/
def State.fill (s : State) (cluster line : Nat) : State :=
  let (way, s) := s.l1Room cluster line
  let s := match (s.cluster cluster).l1Line line with
    | some l => if l.valid == BitVec.allOnes 128 then s else s.reach line false
    | none => s.reach line false
  s.updCluster cluster fun c => c.l1Put (filled s cluster line way)

/-- The bytes of a range of one line that its home slice holds, or would hold (R277). -/
def l1Read (s : State) (cluster pa n : Nat) : List Byte :=
  (((filled s cluster (lineOf pa) 0).data).drop (pa % 128)).take n

/-- `data` with the bytes from index `k` replaced. -/
def spliceBytes (data : List Byte) (k : Nat) (bs : List Byte) : List Byte :=
  data.take k ++ bs ++ data.drop (k + bs.length)

/-- The bits of a byte range of a line. -/
def lineMask (k n : Nat) : BitVec 128 := (BitVec.allOnes 128 >>> (128 - n)) <<< k

/-- The bit of a core within its cluster. -/
def coreBit (core : Nat) : BitVec 8 := 1#8 <<< (core % 8)

/-- Writes bytes of one line at its home slice; `dirty` as they are not also written through (R277). -/
def State.l1Write (s : State) (cluster core pa : Nat) (bs : List Byte) (dirty : Bool) : State :=
  let line := lineOf pa
  let k := pa % 128
  let m := lineMask k bs.length
  let (way, s) := s.l1Room cluster line
  s.updCluster cluster fun c =>
    let l := (c.l1Line line).getD ⟨line, List.replicate 128 0#8, 0, 0, 0, false, way, 0⟩
    c.l1Put { l with
      data := spliceBytes l.data k bs
      valid := l.valid ||| m
      dirty := if dirty then l.dirty ||| m else l.dirty &&& ~~~m
      writers := if dirty then l.writers ||| coreBit core else l.writers
      lost := l.lost &&& ~~~m }

/-! The read buffer of a core (R277, R504). -/

def CoreSt.copy (c : CoreSt) (line : Nat) : Option RLine := c.rbuf.find? fun p => p.line == line
/-- Takes a copy; of 32 lines held it gives up one of the device's choice. -/
def CoreSt.keep (c : CoreSt) (n : Nat) (l : RLine) : CoreSt :=
  let rest := c.rbuf.filter fun p => p.line != l.line
  { c with rbuf := l :: (if rest.length < 32 then rest else rest.eraseIdx (n % rest.length)) }
/-- A store of the core updates its copy, as does what it reads at a wider scope; `lost` marks the replaced bytes of the line. -/
def CoreSt.updateCopy (c : CoreSt) (pa : Nat) (bs : List Byte) (lost : BitVec 128) : CoreSt :=
  let m := lineMask (pa % 128) bs.length
  { c with rbuf := c.rbuf.map fun p => if p.line == lineOf pa then
      { p with data := spliceBytes p.data (pa % 128) bs, lost := (p.lost &&& ~~~m) ||| (lost &&& m) } else p }

/-! The host's copies (R459, R460). -/

/-- The region of 2 MiB of an address is in host bias. -/
def State.inHostBias (s : State) (pa : Nat) : Bool := s.hostBias.contains (pa / 2 ^ 21)
/-- Takes back the host's copies of a line, with its modified bytes, by a back-invalidate snoop. -/
def State.recallHost (s : State) (pa : Nat) : State :=
  let line := lineOf pa
  let mine := s.hcache.filter fun c => lineOf c.1 == line
  { s with dmem := mine.foldl (fun m c => Mem.set m c.1 c.2) s.dmem
           zeroed := s.zeroed.filter fun a => !mine.any fun c => c.1 == a
           hcache := s.hcache.filter fun c => lineOf c.1 != line
           hshared := s.hshared.filter fun l => l != line }

/-- The level that serves a load (R411). -/
inductive Served where
  | own | neighbour | beyond
  deriving DecidableEq, Repr

/-- A load returns zeros that replaced lost data in device memory (R469). -/
def State.noteZero (s : State) (p : Place) (bs : List Byte) : State :=
  if p.mem = 0 && (List.range bs.length).any fun k => bs[k]? == some 0#8 && s.zeroed.contains (p.pa + k) then
    { s with touched := true }
  else s

/-- The same of a copy of a line whose replaced bytes are `lost`, from byte `k` of the line on. -/
def State.noteLostCopy (s : State) (lost : BitVec 128) (k : Nat) (bs : List Byte) : State :=
  if (List.range bs.length).any fun j => bs[j]? == some 0#8 && lost.getLsbD (k + j) then { s with touched := true } else s

/-- The replaced bytes of the copy of a line that its home slice holds. -/
def State.lostCopy (s : State) (cluster line : Nat) : BitVec 128 :=
  match (s.cluster cluster).l1Line line with
  | some l => l.lost
  | none => 0

/-- A slice's loads of one location never go back in coherence order (R278): what a load at `.cl` or wider returned replaces
an older copy of the core's read buffer, and at `.dev` or `.sys` the clean bytes of the home slice. -/
def State.refresh (s : State) (cluster : Nat) (core : Option Nat) (scope : Nat) (pa n : Nat) (bs : List Byte) : State :=
  let line := lineOf pa
  let lost := if 3 ≤ scope then s.lostBits line else s.lostCopy cluster line
  let s := match core with
    | some k => s.updCore k fun c => c.updateCopy pa bs lost
    | none => s
  if 3 ≤ scope then
    s.updCluster cluster fun c => match c.l1Line line with
      | some l =>
        let m := lineMask (pa % 128) n
        c.l1Put { l with
          data := spliceBytes l.data (pa % 128) bs, valid := l.valid ||| m
          lost := (l.lost &&& ~~~m) ||| (lost &&& m) }
      | none => c
  else s

/-! Host memory (R303, R464). -/

/-- Host memory as the device's own accesses find it: with the stores that the host link has accepted. -/
def State.hostView (s : State) : List Host.Cell := s.posted.foldl (fun m x => Mem.write m x.pa x.bytes) s.hmem
/-- Bytes that the device reads of host memory. -/
def State.hostRead (s : State) (pa n : Nat) : List Byte := Mem.read s.hostView pa n

/-- A store has bytes in a range. -/
def Posted.meets (x : Posted) (pa n : Nat) : Bool := decide (x.pa < pa + n) && decide (pa < x.pa + x.bytes.length)
/-- One store keeps its place before another: of the same bytes, or of one slice to non-coherent host memory (R278, R303). -/
def Posted.before (x y : Posted) : Bool := y.meets x.pa x.bytes.length || (x.w == y.w && x.mem == 2 && y.mem == 2)

/-- Host memory takes the accepted stores up to the last one that `hit` names. -/
def State.landHits (s : State) (hit : Posted → Bool) : State :=
  let k := s.posted.length - (s.posted.reverse.takeWhile fun x => !hit x).length
  { s with hmem := (s.posted.take k).foldl (fun m x => Mem.write m x.pa x.bytes) s.hmem, posted := s.posted.drop k }

/-- Host memory takes the accepted stores that `p` picks by place, each behind those that keep their place before it. -/
def State.landPosted (p : Nat → Bool) (s : State) : State :=
  let one (acc : List Posted × List Host.Cell) (x : Posted × Nat) : List Posted × List Host.Cell :=
    if p x.2 && !acc.1.any fun y => y.before x.1 then (acc.1, Mem.write acc.2 x.1.pa x.1.bytes) else (acc.1 ++ [x.1], acc.2)
  let r := s.posted.zipIdx.foldl one ([], s.hmem)
  { s with posted := r.1, hmem := r.2 }

/-- The device writes bytes of host memory, behind the accepted stores of them. -/
def State.hostPut (s : State) (pa : Nat) (bs : List Byte) : State :=
  let t := s.landHits fun x => x.meets pa bs.length
  { t with hmem := Mem.write t.hmem pa bs }

/-- A load of `n` bytes of one line at a scope, by a core (`none`: an engine of the cluster), and who served it (R277,
R460, R464). -/
def State.loadAt (s : State) (cluster : Nat) (core : Option Nat) (scope : Nat) (p : Place) (n : Nat) :
    List Byte × Served × State :=
  if p.mem != 0 then (s.hostRead p.pa n, .beyond, s)
  else
    let line := lineOf p.pa
    let home := homeCore cluster line
    let held := ((s.cluster cluster).l1Line line).isSome
    if 3 ≤ scope then
      let s := (s.cleanLine cluster line).reach line false
      let s := if scope == 4 && s.inHostBias p.pa then s.recallHost p.pa else s
      let bs := Mem.read s.dmem p.pa n
      (bs, .beyond, (s.refresh cluster core scope p.pa n bs).noteZero p bs)
    else
      let bs := l1Read s cluster p.pa n
      let t := s.fill cluster line
      let t := t.noteLostCopy (t.lostCopy cluster line) (p.pa % 128) bs
      match core with
      | none => (bs, if held then .neighbour else .beyond, t)
      | some k =>
        if home == k then (bs, if held then .own else .beyond, t)
        else if scope == 2 then (bs, if held then .neighbour else .beyond, t.refresh cluster core scope p.pa n bs)
        else match (s.core k).copy line with
          | some d =>
            let bs := (d.data.drop (p.pa % 128)).take n
            (bs, .own, s.noteLostCopy d.lost (p.pa % 128) bs)
          | none =>
            let l := filled s cluster line 0
            let (c, t) := t.draw
            (bs, if held then .neighbour else .beyond, t.updCore k fun r => r.keep c ⟨line, l.data, l.lost⟩)

/-- Stored bytes replace lost ones (R35). -/
def State.unzero (s : State) (pa n : Nat) : State :=
  { s with zeroed := s.zeroed.filter fun a => a < pa || pa + n ≤ a }

/-- A store of bytes of one line at a scope (R277, R460, R464). -/
def State.storeAt (s : State) (cluster : Nat) (core : Option Nat) (scope : Nat) (p : Place) (bs : List Byte) : State :=
  if p.mem != 0 then s.hostPut p.pa bs
  else
    let s := if scope == 4 && s.inHostBias p.pa then s.recallHost p.pa else s
    let s := match core with
      | some k => s.updCore k fun c => c.updateCopy p.pa bs 0
      | none => s
    let through := decide (3 ≤ scope)
    let s := s.l1Write cluster (core.getD 0) p.pa bs (!through)
    if through then ({ s with dmem := Mem.write s.dmem p.pa bs }.unzero p.pa bs.length).reach (lineOf p.pa) true else s

/-- Drops every non-home copy of a core at a scope (R276, R286); dirty bytes are kept. An acquire at `.cl` or wider makes the
core one of those whose release must cover what was released there (R284). -/
def State.dropCopies (s : State) (core scope : Nat) : State :=
  let cluster := clusterOf core
  let s := if 2 ≤ scope then (s.updCore core fun c => { c with rbuf := [] }).updCluster cluster fun c =>
      { c with l1 := c.l1.map fun l => if l.out then { l with writers := l.writers ||| coreBit core } else l }
    else s
  if 3 ≤ scope then
    s.updCluster cluster fun c =>
      { c with l1 := (c.l1.filter fun l => l.dirty != 0).map fun l => { l with valid := l.dirty } }
  else s

/-- Writes back every line that holds dirty bytes of a core's stores, or of stores that it has observed (R284, R286). -/
def State.releaseL1 (s : State) (core : Nat) : State :=
  ((s.cluster (clusterOf core)).l1.filter fun l => l.writers.getLsbD (core % 8)).foldl
    (fun s l => s.cleanLine (clusterOf core) l.line) s

/-- A release at `.cl`: the lines that a core's release at `.dev` would write back are open to the cluster (R284). -/
def State.publish (s : State) (core : Nat) : State :=
  s.updCluster (clusterOf core) fun c =>
    { c with l1 := c.l1.map fun l => if l.writers.getLsbD (core % 8) then { l with out := true } else l }

/-! The Lantern cache (R19, R456). Its bytes are those of device memory as the banks give them. -/

/-- A pinned range covers a line (R457). -/
def State.pinnedLine (s : State) (line : Nat) : Bool :=
  s.pins.any fun p => p.on && p.status == 1 &&
    bits p.base.toNat 51 12 * 4096 ≤ line && line < bits p.base.toNat 51 12 * 4096 + 4096 * p.pages.toNat

/-- What the cache holds, and the next draw, after an access of an interface has reached a line's bank: a hit, or an allocation
in a way of the device's choice among those that its `ways` field permits and that hold no pinned line; with none the access is
served without (R456). -/
def State.allocate (s : State) (vi : Nat) (p : List LanternLine × Nat) (a : Nat × Bool) : List LanternLine × Nat :=
  let (lines, n) := p
  if lines.any fun l => l.line == a.1 then
    (lines.map fun l => if l.line == a.1 then { l with dirty := l.dirty || a.2 } else l, n)
  else
    let sameSet (l : LanternLine) : Bool := Config.lanternSet l.line == Config.lanternSet a.1
    let free := (List.range 24).filter fun k => (s.iface vi).ways.getLsbD k &&
      !lines.any fun l => sameSet l && l.way == k && s.pinnedLine l.line
    (match free[Config.freeNat n % free.length]? with
      | none => lines
      | some k => ⟨a.1, k, a.2⟩ :: lines.filter fun l => !(sameSet l && l.way == k), n + 1)

/-- Lines that accesses of an interface have reached, with whether they wrote. -/
def State.allocateLines (s : State) (vi : Nat) (as : List (Nat × Bool)) : State :=
  let p := as.foldl (s.allocate vi) (s.lantern, s.fresh)
  { s with lantern := p.1, fresh := p.2 }

/-- The lines that a step has reached are allocated for an interface. -/
def State.allocateAll (s : State) (vi : Nat) : State := { s.allocateLines vi s.reached with reached := [] }

/-- A capacity choice of the device: one line of a cluster's L1, of its choice, may be written back and dropped. -/
def State.evictSome (s : State) (cluster : Nat) : State :=
  let (n, s) := s.draw
  match (s.cluster cluster).l1[n % ((s.cluster cluster).l1.length + 1)]? with
  | some l => s.evictLine cluster l.line
  | none => s

end Sys2Proof.Machine
end

