-- ==== Sys2Proof/Machine/Holds.lean ====
section
/-!
DEFINITION. Holds and order among a wave's accesses: ownership as an access meets it (R300), the holds of earlier stores and
atomics (R242, R270), and the order of accesses to one line and at `.wave` and `.wg` (R266, R278, R280).
-/
namespace Sys2Proof.Machine

open Sys2Proof

/-! Words of queue slots. -/

/-- The word of a slot that a pop takes. -/
def slotWord : Option QEntry → Word
  | some (.ready w) => w
  | some (.pixel w _ _ _) => w
  | _ => 0#32
/-- A slot that an instruction can take (R226). -/
def QEntry.settled : Option QEntry → Bool
  | some (.ready _) => true
  | some (.token _) => true
  | some (.pixel _ _ _ _) => true
  | _ => false

/-- The kind that a function belongs to (R335). -/
def fnKind (fn : Nat) : IslandKind :=
  if fn < 3 then .intersection else if fn < 6 then .filter else if fn = 6 then .raster else .blend

def CardToken.waits (t : CardToken) : Bool := t.state == .waiting
def CardToken.inFlight (t : CardToken) : Bool := match t.state with
  | .flight _ => true
  | _ => false
/-- Neither left nor dropped. -/
def CardToken.live (t : CardToken) : Bool := t.waits || t.inFlight

/-! Holds. -/

/-- The line of a place is owned as far as an access of a slice is concerned: a command that the slice issued later waits for
the access instead (R300, R402). -/
def State.ownedFor (s : State) (w : WaveRef) (sl : Slice) (id : Nat) (p : Place) : Bool :=
  p.mem == 0 && s.owned.any fun o => o.line == lineOf p.pa && match o.by_ with
    | .command k => !(id < k && sl == .a && s.cmds.any fun c => c.id == k && c.w == w)
    | .blend _ => true

/-- The place of a request's operand, if it has a translation, and its scope. -/
def State.reqPlace (s : State) (r : Req) : Option (Place × Nat) :=
  match r.kind with
  | .load _ _ va _ scope _ _ =>
    match (locate s (clusterOf r.core) (some r.core) r.vi va .load).1 with
    | .ok p => some (p, scope)
    | .error _ => none
  | .group _ p _ => some (p, 0)
  | .atomic _ p _ scope _ _ _ _ => some (p, scope)
  | _ => none

def ReqKind.isAtomic : ReqKind → Bool
  | .atomic _ _ _ _ _ _ _ _ => true
  | _ => false

/-- The lines that a request's operand may lie in meet that of a place: a ring block has elements after its header (R263). -/
def State.reqMeets (s : State) (r : Req) (p : Place) : Bool :=
  match s.reqPlace r with
  | none => false
  | some (p', _) => sameLine p' p || match r.kind with
    | .atomic (.enq k) _ _ _ _ _ _ _ | .atomic (.deq k) _ _ _ _ _ _ _ =>
      p'.mem == p.mem && lineOf p'.pa ≤ lineOf p.pa && lineOf p.pa ≤ lineOf (p'.pa + 31 + 4 * 2 ^ k)
    | _ => false

/-- A place is held by an earlier store record or atomic of the wave (R242, R270). -/
def State.held (s : State) (w : WaveRef) (id : Nat) (p : Place) : Bool :=
  (match s.wave w with
    | some v => v.recs.any fun r => r.id < id && !r.flush && r.lanes.any fun l => sameLine l.place p
    | none => false) ||
  s.reqs.any fun q => q.w == w && q.id < id && q.kind.isAtomic && s.reqMeets q p

/-- An earlier load or atomic of the wave must be performed first: it is to the same line (R266, R278), or both are
accesses at `.wave` or `.wg` to device memory (R280). A held one delays nothing (R242). -/
def State.follows (s : State) (w : WaveRef) (id : Nat) (p : Place) (scope : Nat) : Bool :=
  s.reqs.any fun q => q.w == w && q.id < id && match s.reqPlace q with
    | some (p', sc') =>
      !s.held w q.id p' && (p'.mem == 3 || sameLine p' p || (scope ≤ 1 && sc' ≤ 1 && p.mem == 0 && p'.mem == 0))
    | none => false

/-! Scratch stores (R248, R275, R280). -/

/-- The data slots of a record's lane, when they are all there (R240). -/
def storeData (w : Wave) (q n i : Nat) : Option (List Word) :=
  match w.queue (q + 1) with
  | none => none
  | some u =>
    let d := (u.col i).take n
    if d.length = n && d.all (fun e => QEntry.settled (some e)) then some (d.map fun e => slotWord (some e)) else none

/-- The store of one lane is visible in-core. -/
def State.storeScratch (s : State) (x : LateStore) : State :=
  s.updWg x.w.wg fun g => { g with scratch := g.scratch.write x.off x.bytes }

/-- The scratch stores that `p` picks, by place and entry, become visible, those of a slice in the order of their instructions:
one behind an earlier instruction of its slice stays. -/
def State.landScratch (p : Nat → LateStore → Bool) (s : State) : State :=
  let one (acc : List LateStore × State) (x : LateStore × Nat) : List LateStore × State :=
    let behind := acc.1.any fun y => y.w == x.1.w && y.sl == x.1.sl && y.id != x.1.id
    if p x.2 x.1 && !behind then (acc.1, acc.2.storeScratch x.1) else (acc.1 ++ [x.1], acc.2)
  let r := (s.lateScratch.zipIdx).foldl one ([], s)
  { r.2 with lateScratch := r.1 }

/-- A scratch store of a slice before name `id` is not visible yet. -/
def State.lateBefore (s : State) (w : WaveRef) (sl : Slice) (id : Nat) : Bool :=
  s.lateScratch.any fun x => x.w == w && x.sl == sl && x.id < id

/-- Every lane of the record has its data. -/
def recordReady (w : Wave) (r : StoreRec) : Bool :=
  r.flush || r.lanes.all fun l => (storeData w r.q (Form.sizeWords r.size) l.lane).isSome

/-- The X-slice's accesses from name `id` on are ordered after a store record (R275). -/
def StoreRec.before (k : StoreRec) (id : Nat) : Bool := match k.seen with
  | some n => n ≤ id
  | none => false

/-- A record that the X-slice's access `id` follows, and that needs no further data of the X-slice to be performed, as the
earlier ones need none: its slice may wait for it. -/
def Wave.readySeen (w : Wave) (id : Nat) (p : StoreRec → Bool) : Bool :=
  (w.recs.takeWhile (recordReady w)).any fun k => k.before id && p k

/-- An unperformed store record to the line of a place that the X-slice's access `id` follows (R275, R284). -/
def State.seenStore (s : State) (w : WaveRef) (id : Nat) (p : Place) : Bool :=
  match s.wave w with
  | some v => v.recs.any fun k => k.before id && !k.flush && k.lanes.any fun l => sameLine l.place p
  | none => false

/-- A store record at `.wave` or `.wg` to device memory, which the core's total store order counts (R280). -/
def StoreRec.inCore (k : StoreRec) : Bool := !k.flush && k.scope ≤ 1 && k.lanes.any fun l => l.place.mem == 0

/-- An earlier memory read of the wave's X-slice is still to be performed: of a filter request, or of a card's token whose
nodes have not run; for another than a blend request (`all`) also those of `bpx` and `ist` (R301). -/
def State.readsBefore (s : State) (w : WaveRef) (id : Nat) (all : Bool) : Bool :=
  (s.reqs.any fun o => o.w == w && o.id < id && match o.kind with
    | .island fn _ _ _ _ _ _ _ _ => fnKind fn == .filter || (all && fnKind fn == .blend)
    | _ => false) ||
  s.cards.any fun k => k.w == w && k.id < id && k.reads && k.tokens.any fun t => t.live && t.work.isNone

/-- Earlier accesses that come before a scratch access of a slice: its loads at `.wave` or `.wg` of device memory, and before a
store also the store records there, of the A-slice or followed by the X-slice (R280), where a held load delays nothing (R242);
and the X-slice's reads by islands and graphs (R301). -/
def State.scratchWaits (s : State) (w : WaveRef) (sl : Slice) (store : Bool) : Bool :=
  (s.reqs.any fun q => q.w == w && q.sl == sl && match s.reqPlace q with
    | some (p, scope) => scope ≤ 1 && p.mem == 0 && !s.held w q.id p
    | none => false) ||
  (store && match s.wave w with
    | some v => if sl == .a then v.recs.any StoreRec.inCore else v.readySeen s.nextId StoreRec.inCore
    | none => false) ||
  (sl == .x && s.readsBefore w s.nextId true)

end Sys2Proof.Machine
end

