-- ==== Sys2Proof/Machine/Ops.lean ====
section
/-!
DEFINITION. What every instruction shares: the issue of an instruction by an issue group, the causes that do not depend
on operand values, waiting and tokens (R227, R500), taking a cause (R8, R413), advancing (R181), and queues.
-/
namespace Sys2Proof.Machine

open Sys2Proof

abbrev Result := Host.Outcome State Fault Refusal

/-- What an instruction sees at its issue: the state, its workgroup and wave, slice, lanes and counter. -/
structure Ctx where
  s : State
  g : Workgroup
  w : Wave
  sl : Slice
  em : Lanes
  pc : Word

def Ctx.ref (c : Ctx) : WaveRef := ⟨c.g.id, c.w.id⟩
def Ctx.slice (c : Ctx) : SliceSt := c.w.slice c.sl
def Ctx.core (c : Ctx) : Nat := c.g.core
def Ctx.cluster (c : Ctx) : Nat := clusterOf c.g.core
/-- The lanes of `EM`, ascending. -/
def Ctx.lanes (c : Ctx) : List Nat := lanesOf c.em
/-- The lanes of `EM` that are no helper lanes (R62). -/
def Ctx.covered (c : Ctx) : List Nat := lanesOf (c.em &&& ~~~c.w.helper)

/-- What a fault record holds beside the cause (R415). -/
structure Info where
  origin : Nat := 0
  addr : DWord := 0
  apc : Word := 0
  detail : BitVec 16 := 0
  unit : BitVec 8 := 0
  lane : Option Nat := none
  number : BitVec 8 := 0
  deriving DecidableEq, Repr

/-- A record with nothing beside the cause. -/
def noInfo : Info := {}

/-- Why an instruction does not issue: it waits (R51, R227), or it raises a cause (R8). -/
inductive Stop where
  | wait
  | cause (c : Cause) (i : Info)
  /-- A physical address at which there is no device memory. -/
  | absent (addr : Nat)
  deriving DecidableEq, Repr

abbrev Eff (α : Type) := Except Stop α

/-! Taking a cause (R413, R414). -/

/-- The waves of a workgroup that satisfy `p`, as a mask. -/
def waveMask (g : Workgroup) (p : Wave → Bool) : Lanes :=
  lanesWhere fun i => match g.wave i with
    | some w => p w
    | none => false

/-- Of two causes in one cycle that of a lower `WAVEID` comes first, and then that of the A-slice (R414). -/
def Halt.before (h k : Halt) : Bool :=
  match h.wave, h.sl, k.wave, k.sl with
  | some w, some sl, some v, some sk => h.t == k.t && (w < v || (w == v && sl == .a && sk == .x))
  | _, _, _, _ => false

/-- A cause met at an instruction: of origin 2 that is a marked token at a `jwait`, whose counter is not that of the `jpost`, as a
failure of an engine names its instruction twice (R406, R503). -/
def Halt.precise (h : Halt) : Bool := h.origin < 2 || (h.origin == 2 && h.apc != h.pc) || h.origin == 4

/-- A workgroup that is not halting yet starts to halt with a record's contents; one that is halting keeps its first
cause, and the slice that met another at an instruction stops (R414). A halt supersedes a pre-emption and any masked window. -/
def haltGroup (g : Workgroup) (h : Halt) : Workgroup :=
  match g.status with
  | .halting old =>
    match h.wave, h.sl with
    | some w, some sl =>
      if !h.precise then g
      else if h.before old then { g with status := .halting { h with stopped := h.stopped ++ old.stopped } }
      else
        let own := if old.t + 4 ≤ h.t then old.own ++ [(w, h.cause)] else old.own
        { g with status := .halting { old with stopped := (w, sl) :: old.stopped, own := own } }
    | _, _ => g
  | .saved | .held | .ended => g
  | _ => { g with status := .halting h, request := none }

/-- The halt of a workgroup by a cause (R413); a BREAK of a launch with the hold bit holds it (R408). -/
def haltOf (s : State) (g : Workgroup) (w : Option Nat) (sl : Option Slice) (em : Lanes) (pc : Word) (cause : Cause)
    (i : Info) : Halt where
  cause := cause
  origin := i.origin
  sl := sl
  wave := w
  pc := pc
  apc := i.apc
  addr := i.addr
  lanes := em
  detail := i.detail
  unit := i.unit
  lane := i.lane.getD ((lowestLane em).getD 0)
  number := i.number
  held := cause == .brk && match s.launch g.launch with
    | some l => l.hold
    | none => false
  watch := none
  silent := false
  t := s.clock
  reached := false
  skid := []
  stopped := match w, sl with
    | some k, some t => [(k, t)]
    | _, _ => []
  own := []

/-- Taking a cause precisely at an instruction: everything else stays as it was (R8), the faulting slice stops and the
workgroup halts (R413). -/
def takeCause (s : State) (r : WaveRef) (sl : Slice) (em : Lanes) (pc : Word) (cause : Cause) (i : Info) : State :=
  s.updWg r.wg fun g => haltGroup g (haltOf s g (some r.wave) (some sl) em pc cause i)

/-! Causes that do not depend on operand values. -/

/-- The registers and queues that the words of a fixed layout name. -/
def fixedUses : Instr → List Use
  | .call d _ => [.wr d 1]
  | .bz c _ | .bnz c _ | .blt c _ | .bge c _ => [.rd c 1]
  | .brx a | .ret a => [.rd a 1]
  | .callx d a => [.rd a 1, .wr d 1]
  | .sli sd _ => [.gwr sd 1]
  | .endrunHinted h => ((List.range 3).filter fun k => hintByte h k != 0xFF#8).map fun k => .rd (hintByte h k) 1
  | _ => []

/-- What an instruction's fields name, in pop order. -/
def usesOf (i : Instr) : List Use :=
  match i.layout with
  | .lane _ _ f form => form.uses f
  | .group _ _ g form => form.uses g
  | _ => fixedUses i

/-- A `v` range reaches past the role's allotment (R47, R136, R232). -/
def overAllotment (w : Wave) (code : BitVec 8) (n : Nat) : Bool := Form.isV code && w.allot < code.toNat + n

/-- An operand code names a queue in a direction that its kind does not allow the slice (R228), or an unbound queue, or
a count above its depth. -/
def queueUse (w : Wave) (code : BitVec 8) (n : Nat) (ok : QKind → Bool) : List Cause :=
  if !Form.isQ code then []
  else match w.queue (Form.qIndex code) with
    | none => [.queueUnbound]
    | some q => (if ok q.kind then [] else [.queueDir]) ++ (if q.depth < n then [.queueBind] else [])

/-- The kinds that a slice pops and pushes (R228). -/
def poppable (sl : Slice) : QKind → Bool
  | .load | .result => sl == .x
  | .back => sl == .a
  | _ => false
def pushable (sl : Slice) : QKind → Bool
  | .back | .stdata => sl == .x
  | _ => false
/-- The kinds that a field naming a queue allows (R228). -/
def nameable (sl : Slice) : QueueAct → QKind → Bool
  | .look, k => poppable sl k
  | .loads, k => k == .load
  | .records, k => k == .staddr
  | .results, k => k == .result
  | .bound, _ => true

/-- The causes of one named field. -/
def useCauses (w : Wave) (sl : Slice) : Use → List Cause
  | .rd code n =>
    (if overAllotment w code n then [.regRange] else []) ++
    (if Form.isO code && !w.inRun sl then [.ofileOutsideRun] else []) ++ queueUse w code n (poppable sl)
  | .wr code n =>
    (if overAllotment w code n then [.regRange] else []) ++
    (if Form.isO code && !w.inRun sl then [.ofileOutsideRun] else []) ++ queueUse w code n (pushable sl)
  | .gwr code _ =>
    let k := code.toNat
    if k < 0x60 && (match sl with
      | .a => 48 ≤ k
      | .x => k < 48) then [.sregOwner] else []
  | .names code act n => queueUse w code n (nameable sl act)

def Use.isQueue : Use → Bool
  | .rd c _ | .wr c _ | .names c _ _ => Form.isQ c
  | .gwr _ _ => false

/-- Some field of the instruction names a queue (R202): `qstat` and `qbind` have one that asks no more of it. -/
def namesQueue (i : Instr) : Bool :=
  (usesOf i).any Use.isQueue || match i with
    | .qstat _ | .qbind _ => true
    | _ => false

def isEndrun : Instr → Bool
  | .endrun | .endrunHinted _ => true
  | _ => false

/-- The causes of runs (R202): what may stand at each position of an open run, and `endrun` outside one. The end address that
counts for a member is that of its innermost active loop (DEDUCED, log entry 143). -/
def runCauses (c : Ctx) (i : Instr) : List Cause :=
  match c.w.run with
  | some r =>
    if r.sl != c.sl then (if isEndrun i then [.runForm] else [])
    else
      let atEnd := c.lanes.any fun l => match c.slice.innermost l with
        | some k => (c.slice.loop k).stop == c.pc
        | none => false
      (if atEnd then [.runForm] else []) ++
      (if r.pos = r.n then (if isEndrun i then [] else [.runForm])
        else (if isEndrun i || !i.layout.runBody then [.runForm] else []) ++
          (if namesQueue i then [.queueInRun] else []))
  | none => if isEndrun i then [.runForm] else []

/-- The causes that an instruction raises whatever its operands hold (R67, R68). -/
def staticCauses (c : Ctx) (i : Instr) : List Cause :=
  let l := i.layout
  l.checks ++
  (if l.sliceOk c.sl && (!l.needsMatrix || c.w.role == .matrix) && (!l.needsFeeder || c.w.role == .feeder) &&
      (!l.needsKeeper || c.g.keeper) then [] else [.sliceRole]) ++
  (usesOf i).flatMap (useCauses c.w c.sl) ++ runCauses c i

/-! Queues: pops, pushes, readiness, room and tokens. -/

/-- The queue slots that each reading field takes, in pop order: queue, first slot, count (R77). -/
def popSpans (us : List Use) : List (Nat × Nat × Nat) :=
  (us.foldl (fun (acc : List (Nat × Nat × Nat)) u =>
    match u with
    | .rd code n =>
      if Form.isQ code then
        let q := Form.qIndex code
        acc ++ [(q, (acc.filter fun p => p.1 == q).foldl (fun t p => t + p.2.2) 0, n)]
      else acc
    | _ => acc) [])

/-- The slots of a column from `k` on, `n` of them; absent ones are none. -/
def spanSlots (w : Wave) (q i k n : Nat) : List (Option QEntry) :=
  match w.queue q with
  | none => []
  | some u => (List.range n).map fun j => (u.col i)[k + j]?

/-- Every slot that the instruction takes, in every lane of `EM`, is ready or token (R500). -/
def Ctx.popsReady (c : Ctx) (us : List Use) : Bool :=
  (popSpans us).all fun p => c.lanes.all fun i => (spanSlots c.w p.1 i p.2.1 p.2.2).all QEntry.settled

/-- A push of `n` slots by lane `i` is made (R62 suppresses a helper lane's store data). -/
def pushes (w : Wave) (q : Queue) (i : Nat) : Bool := !(q.kind == .stdata && w.helper.getLsbD i)

/-- Every column that the instruction pushes to has room (R227). -/
def Ctx.roomFor (c : Ctx) (us : List Use) : Bool :=
  us.all fun u => match u with
    | .wr code n =>
      if Form.isQ code then
        match c.w.queue (Form.qIndex code) with
        | none => true
        | some q => c.lanes.all fun i => !pushes c.w q i || (q.col i).length + n ≤ q.depth
      else true
    | _ => true

/-- The token that the instruction meets first: the lowest lane, and in it the slot it would remove first (R500). -/
def Ctx.tokenMet (c : Ctx) (us : List Use) : Option (Nat × Token) :=
  c.lanes.findSome? fun i => (popSpans us).findSome? fun p =>
    (spanSlots c.w p.1 i p.2.1 p.2.2).findSome? fun e => match e with
      | some (.token t) => some (i, t)
      | _ => none

def Token.info (lane : Nat) (t : Token) : Info :=
  { origin := 1, addr := t.addr, apc := t.pc, detail := t.node, unit := t.unit, lane := some lane }

/-- The first of the causes with the lowest code (R8). -/
def firstLowest : List (Cause × Info) → Option (Cause × Info)
  | [] => none
  | p :: ps => match firstLowest ps with
    | none => some p
    | some q => some (if p.1.code ≤ q.1.code then p else q)

/-- Waits for slots and room, then raises the lowest of the token's cause and the given causes, if any. -/
def Ctx.gate (c : Ctx) (us : List Use) (faults : List (Cause × Info)) : Eff Unit :=
  if !c.popsReady us || !c.roomFor us then .error .wait
  else
    let tok := match c.tokenMet us with
      | some (i, t) => [(t.cause, t.info i)]
      | none => []
    match firstLowest (tok ++ faults) with
    | some (k, i) => .error (.cause k i)
    | none => .ok ()

/-- Raises a cause without further contents. -/
def fail {α : Type} (c : Cause) : Eff α := .error (.cause c {})
def failAt {α : Type} (c : Cause) (i : Info) : Eff α := .error (.cause c i)
/-- Raises the lowest of the listed causes, if there is one. -/
def raiseAny (l : List (Cause × Info)) : Eff Unit :=
  match firstLowest l with
  | some (k, i) => .error (.cause k i)
  | none => .ok ()

/-- A lane that pops slot 0 of a raster batch takes the batch (R348): it may become a helper lane, and the batch's tag, if
there is one, replaces its own. -/
def Wave.take (i : Nat) (w : Wave) (e : QEntry) : Wave :=
  match e with
  | .pixel _ place helper covered =>
    let rest := w.tags.filter fun p => p.1 != i
    { w with
      helper := if helper then w.helper ||| (1#32 <<< i) else w.helper
      tags := if covered then (i, place) :: rest else rest }
  | _ => w

/-- The batches that the popped slots of a queue belong to are taken. -/
def takeBatches (em : Lanes) (cols : List (List QEntry)) (n : Nat) (w : Wave) : Wave :=
  (lanesOf em).foldl (fun w i => (((cols[i]?).getD []).take n).foldl (Wave.take i) w) w

/-- Removes the popped slots of every lane of `EM`. -/
def popAll (em : Lanes) (us : List Use) (w : Wave) : Wave :=
  (popSpans us).foldl (fun w p => match w.queue p.1 with
    | none => w
    | some q => takeBatches em q.cols p.2.2 (w.setQueue p.1 (some
        { q with cols := laneList.map fun i => if em.getLsbD i then (q.col i).drop p.2.2 else q.col i }))) w

/-- Pushes words to the columns of a queue for the lanes of a set. -/
def pushWords (em : Lanes) (q : Nat) (g : Nat → List Word) (w : Wave) : Wave :=
  match w.queue q with
  | none => w
  | some u =>
    let add (i : Nat) : List QEntry :=
      if em.getLsbD i && pushes w u i then u.col i ++ (g i).map QEntry.ready else u.col i
    w.setQueue q (some { u with cols := laneList.map add })

/-- Writes the word `k` of a destination block for the lanes of `EM` (R124). -/
def writeRow (em : Lanes) (code : BitVec 8) (k : Nat) (g : Nat → Word) (w : Wave) : Wave :=
  if Form.isV code then
    let r := code.toNat + k
    { w with v := w.v.setRow r (mergeLanes em (w.vrow r) g) }
  else if Form.isO code then
    let r := Form.oIndex code + k
    { w with o := w.o.setRow r (mergeLanes em (w.orow r) g) }
  else w

/-- Writes a block of words to a destination code: registers, or pushes to a queue. -/
def writeBlock (em : Lanes) (code : BitVec 8) (n : Nat) (g : Nat → List Word) (w : Wave) : Wave :=
  if Form.isQ code then pushWords em (Form.qIndex code) g w
  else (List.range n).foldl (fun w k => writeRow em code k (fun i => laneAt (g i) k) w) w

/-- Sets the bits of `EM` in a mask of the slice and keeps the others (R129). -/
def writeMaskBits (em : Lanes) (sl : Slice) (k : Nat) (p : Nat → Bool) (w : Wave) : Wave :=
  w.updSlice sl fun t => t.setMask k ((t.mask k &&& ~~~em) ||| (em &&& lanesWhere p))

/-- The bytes of an instruction (R65). -/
def stepBytes (i : Instr) : Word := BitVec.ofNat 32 i.bytes

/-- Every thread of the group advances past the instruction, and an open run of the slice counts it (R181, R201). -/
def advanceWave (c : Ctx) (i : Instr) (w : Wave) : Wave :=
  let w := w.updSlice c.sl fun t => t.arriveAll (w.inRun c.sl) c.em fun _ => c.pc + stepBytes i
  match w.run with
  | some r => if r.sl == c.sl then { w with run := some { r with pos := r.pos + 1 } } else w
  | none => w

/-- The effect on the wave, then the advance. -/
def Ctx.done (c : Ctx) (i : Instr) (f : Wave → Wave) : State := c.s.updWave c.ref fun w => advanceWave c i (f w)

/-- The effect on the state, then the advance. -/
def Ctx.doneState (c : Ctx) (i : Instr) (s : State) : State := s.updWave c.ref (advanceWave c i)

/-! The scoreboard (R206). Every result is written as its instruction issues, but those of `aldu` and `gload`. -/

/-- `n` consecutive registers from an `s` code; other codes name none. -/
def sRange {w : Nat} (code : BitVec w) (n : Nat) : List Nat :=
  if code.toNat < 0x60 then (List.range n).map fun k => code.toNat + k else []

/-- The `s` registers that a lane word reads: its field S, and D of a lane copy form. -/
def laneReads (op fn : Nat) (f : LaneFields) : List Nat :=
  let pair := [0x1F, 0x20, 0x21, 0x30, 0x31, 0x32, 0x38, 0x39, 0x3A, 0x3B, 0x3D].contains op ||
    (op == 0x0E && fn < 3) || (op == 0x3E && fn < 2)
  sRange f.s (if pair then 2 else 1) ++
    (if op == 0x3E && fn < 2 then sRange (f.d.extractLsb' 0 7) 2 else [])

/-- The `s` registers that an instruction reads or writes. -/
def sregsOf (i : Instr) : List Nat :=
  (usesOf i).flatMap (fun u => match u with
    | .gwr c n => sRange c n
    | _ => []) ++
  (match i.layout with
    | .lane op fn f _ => laneReads op fn f
    | .group _ _ g form => (form.reads g).flatMap fun r => sRange r.1 r.2
    | _ => [])

/-- The special register that `movs`, `sget` or `sset` names (R107). -/
def specialOf (i : Instr) : Option Nat :=
  match i with
  | .movs f => some f.a.toNat
  | .sget g => some g.sa.toNat
  | .sset g => some g.sd.toNat
  | _ => none

/-- The instruction reads or writes `GF`: the group instructions that set Z and N under R106, the reductions, votes and
scans of R220 and R222, `ssel`, and what names `GF` as an operand. -/
def usesGf (i : Instr) : Bool :=
  specialOf i == some 0x14 ||
  (match i.layout.key with
    | some (true, op, fn) => (op < 0x20 && op != 0x11 && op != 0x12 && op != 0x13) || op == 0x38 || op == 0x39 || op == 0x3A ||
        ((op == 0x3C || op == 0x3D) && fn == 0) || (op == 0x3E && fn == 3)
    | some (false, op, fn) => op == 0x26 || (op == 0x27 && (fn < 21 || fn == 22))
    | none => false) ||
  (match i.layout with
    | .group _ _ g form => (form.reads g).any fun r => r.1.toNat == 0x7B
    | _ => false)

/-- An instruction that accesses scratch, and whether it stores there; B of a matrix form that is in scratch is read as by an
`lds` (R327). -/
def scratchUse (i : Instr) : Option Bool :=
  match i with
  | .lds _ _ => some false
  | .sts _ _ => some true
  | .mma _ f | .mmasp _ f => if Form.hasRb f || Form.isQ f.b then none else some false
  | _ => none

/-- What the instruction depends on is still pending: a register of an `aldu`, D or `GF` of a `gload` (R369), such a register of
the other slice that an entry popped orders before (R103), a clear of `ERRSTICKY` (R119), or an earlier access that a scratch
access must follow (R280). -/
def Ctx.pendingResult (c : Ctx) (i : Instr) : Bool :=
  (c.s.reqs.any fun r => r.w == c.ref && r.sl == c.sl && match r.kind with
    | .group sd _ sz => (sregsOf i).any fun k => sd ≤ k && k < sd + Form.sizeWords sz
    | .gload sd _ => (sregsOf i).contains sd || usesGf i
    | _ => false) ||
  (c.s.late.any fun x => x.w == c.ref && x.sl != c.sl && x.ordered && (sregsOf i).contains x.k) ||
  (specialOf i == some 0x1C && match c.s.launch c.g.launch with
    | some l => (c.s.slot l.slot).clears.any fun k => k.w == c.ref && k.sl == c.sl
    | none => false) ||
  (match scratchUse i with
    | some store => c.s.scratchWaits c.ref c.sl store
    | none => false)

/-- An issue counts for the wave's event counter 1 (lane set) or 2 (group set) (R411); the
queue-bound count restarts (R250). -/
def countIssue (i : Instr) (w : Wave) : Wave :=
  let k := match i.layout.key with
    | some (true, _, _) => 2
    | _ => 1
  { w with pmc := updAt (· + 1) w.pmc k, qbound := none }

/-- The group waits. -/
def State.stall (s : State) : State := { s with stalled := true }

/-! Notifications (R469, R483). -/

/-- One signal of a vector: a masked one keeps a pending bit. -/
def Vec.signal (v : Vec) : Vec := if v.masked then { v with pending := true } else { v with signals := v.signals + 1 }
def State.updVec (s : State) (fn k : Nat) (f : Vec → Vec) : State :=
  { s with vecs := updAt (fun t => updAt f t k) s.vecs fn }
/-- Function 0 is the physical function and serves interface 0; function i serves interface i. -/
def State.signal (s : State) (fn k : Nat) : State := s.updVec fn k Vec.signal
/-- An uncorrectable-error notification of an interface (R469). -/
def State.noteError (s : State) (vi : Nat) : State :=
  (s.updIface vi fun f => { f with errnote := f.errnote + 1 }).signal vi 64

/-- The context of a workgroup has a replaced or dropped result (R107). -/
def State.stick (s : State) (wg : Nat) (bit : BitVec 2) : State :=
  match (s.wg wg).bind fun g => s.launch g.launch with
  | some l => s.updSlot l.slot fun q => { q with errsticky := q.errsticky ||| bit }
  | none => s

/-- What a step did for a workgroup: the lines that it reached are allocated for its interface (R456), and `ERRSTICKY`[0] of
its context is set when it returned a word that was replaced by zeros (R469). -/
def State.credit (s : State) (wg : Nat) : State :=
  let s := match (s.wg wg).bind fun g => s.launch g.launch with
    | some l => s.allocateAll l.vi
    | none => s
  if s.touched then ({ s with touched := false } : State).stick wg 1#2 else s

/-- The wave as a slice of it reads it: of each write of the other slice that nothing it has popped since orders before, the
device gives the old or the new contents (R103, R125). -/
def State.seenWave (s : State) (w : Wave) (r : WaveRef) (sl : Slice) : Wave :=
  (s.late.zipIdx).foldl (fun v x =>
    if x.1.w == r && x.1.sl != sl && !x.1.ordered && Config.staleRead s.fresh x.2 then
      (if x.1.vector then { v with v := v.v.setRow x.1.k (mergeLanes x.1.lanes (v.vrow x.1.k) (laneAt x.1.old)) }
        else v.setS x.1.k (laneAt x.1.old 0))
    else v) w

/-- The gated unit that an instruction of a wave needs (R480): its quarter-core's matrix engine, the island at its core, or
the copy engine. -/
def unitNeeded (g : Workgroup) (w : Wave) (i : Instr) : Option Nat :=
  let half := g.core % 8 / 4
  match i.layout.key with
  | some (false, op, fn) =>
    if op = 0x3C && fn < 24 then some (4 * (g.core % 8) + w.quarter)
    else if op = 0x3D then
      (if fn < 3 then some (33 + half) else if fn < 6 then some (35 + half) else if fn = 6 then some 32
        else if fn = 7 || fn = 9 then some 37 else none)
    else if op = 0x3E && fn < 8 then some 38 else none
  | some (true, op, _) => if 0x38 ≤ op && op < 0x3B then some 38 else none
  | none => none

/-- The request of an instruction reaches a gated unit, which must wake (R480, R481). -/
def State.wakes (s : State) (g : Workgroup) (w : Wave) (i : Instr) : Option Nat :=
  (unitNeeded g w i).filter fun u => (s.cluster (clusterOf g.core)).gate.gated.contains u

/-- The request is noted at the unit. -/
def State.wantUnit (s : State) (cluster u : Nat) : State :=
  s.updCluster cluster fun c => { c with gate := { c.gate with
    wanted := if c.gate.wanted.contains u then c.gate.wanted else u :: c.gate.wanted } }

/-- An instruction issues for the current issue group: the causes that do not depend on operands come first, then the
meaning waits, raises a cause, or gives the next state; it waits too when a table walk of it is delayed (R300). Without a
current group nothing happens. -/
def issue (i : Instr) (body : Ctx → Eff State) (s : State) : Result :=
  match s.cur with
  | none => .next s
  | some u =>
    match s.wg u.w.wg with
    | none => .next s
    | some g =>
      match g.wave u.w.wave with
      | none => .next s
      | some w =>
        let c : Ctx := ⟨s, g, s.seenWave w u.w u.sl, u.sl, u.em, u.pc⟩
        match lowestCause (staticCauses c i) with
        | some k => .next (takeCause s u.w u.sl u.em u.pc k {})
        | none =>
          if c.pendingResult i then .next s.stall
          else match s.wakes g w i with
          | some n => .next (s.stall.wantUnit (clusterOf g.core) n)
          | none => match body c with
          | .ok t => .next (if t.delayed then s.stall else (t.credit u.w.wg).updWave u.w (countIssue i))
          | .error .wait => .next s.stall
          | .error (.absent a) => .fault (.noDeviceMemory a)
          | .error (.cause k x) => .next (takeCause s u.w u.sl u.em u.pc k x)

end Sys2Proof.Machine
end

