-- ==== Sys2Proof/Machine/Operands.lean ====
section
/-!
DEFINITION. Operands: how constants and literals are presented (R79, R83), lane sources with their queue pops and the
`s` broadcast (R75 to R77), group sources (R83, R110), special registers (R107, R235), and the write of a lane
instruction's destination.
-/
namespace Sys2Proof.Machine

open Sys2Proof

/-- The width and format of a consuming operand (R79). -/
inductive Want where
  | int32 | int64 | f32 | f64 | f16x2 | bf16x2
  deriving DecidableEq, Repr

/-- The value of an integer code 0xD8 to 0xEF (R78). -/
def intConst (c : BitVec 8) : Int := if c.toNat < 0xE8 then c.toNat - 0xD8 else -((c.toNat : Int) - 0xE7)

/-- The FP32 encoding of a code from 0xF0, and the raw patterns (R78). -/
def floatConst (c : BitVec 8) : Word :=
  match c.toNat with
  | 0xF0 => 0x3F000000#32
  | 0xF1 => 0xBF000000#32
  | 0xF2 => 0x3F800000#32
  | 0xF3 => 0xBF800000#32
  | 0xF4 => 0x40000000#32
  | 0xF5 => 0xC0000000#32
  | 0xF6 => 0x40800000#32
  | 0xF7 => 0xC0800000#32
  | 0xF8 => 0x3E800000#32
  | 0xF9 => 0x41000000#32
  | 0xFA => 0x7F800000#32
  | 0xFB => 0xFF800000#32
  | 0xFC => 0x3E22F983#32
  | 0xFD => 0x80000000#32
  | _ => 0x7FFFFFFF#32

/-- A half of a format in both halves of a word. -/
def bothHalves (x : Nat) : DWord := BitVec.ofNat 64 (x + 65536 * x)

/-- A constant or literal as its consumer sees it (R79), in the low bits. -/
def present (want : Want) (c : BitVec 8) (lit : Word) : DWord :=
  if c.toNat == 0xFF then
    match want with
    | .int64 => lit.signExtend 64
    | .f64 => BitVec.ofNat 64 (roundX .f64 .rn (decodeF .f32 lit.toNat))
    | _ => lit.setWidth 64
  else if c.toNat < 0xF0 then
    match want with
    | .int32 => (BitVec.ofInt 32 (intConst c)).setWidth 64
    | .int64 => BitVec.ofInt 64 (intConst c)
    | .f32 => BitVec.ofNat 64 (roundX .f32 .rn (.ofInt (intConst c)))
    | .f64 => BitVec.ofNat 64 (roundX .f64 .rn (.ofInt (intConst c)))
    | .f16x2 => bothHalves (roundX .f16 .rn (.ofInt (intConst c)))
    | .bf16x2 => bothHalves (roundX .bf16 .rn (.ofInt (intConst c)))
  else if c.toNat < 0xFD then
    let x := decodeF .f32 (floatConst c).toNat
    match want with
    | .f64 => BitVec.ofNat 64 (roundX .f64 .rn x)
    | .f16x2 => bothHalves (roundX .f16 .rn x)
    | .bf16x2 => bothHalves (roundX .bf16 .rn x)
    | _ => (floatConst c).setWidth 64
  else (floatConst c).setWidth 64

/-- Word `k` of the block or column that a `v`, `o` or `q` code names, for lane `i`. -/
def codeWord (w : Wave) (code : BitVec 8) (k i : Nat) : Word :=
  if Form.isV code then laneAt (w.vrow (code.toNat + k)) i
  else if Form.isO code then laneAt (w.orow (Form.oIndex code + k)) i
  else match w.queue (Form.qIndex code) with
    | some q => slotWord ((q.col i)[k]?)
    | none => 0#32

/-- A source of 32 bits: `k` is the register within its block or the slot within its column. -/
def srcAt (w : Wave) (want : Want) (lit : Option Word) (code : BitVec 8) (k i : Nat) : Word :=
  if Form.isConst code || Form.isLit code then lowWord (present want code (lit.getD 0#32)) else codeWord w code k i

/-- A pair source (R136). -/
def srcPair (w : Wave) (want : Want) (lit : Option Word) (code : BitVec 8) (i : Nat) : DWord :=
  if Form.isConst code || Form.isLit code then present want code (lit.getD 0#32)
  else joinWords (codeWord w code 0 i) (codeWord w code 1 i)

/-- The slots that the pop of `code` finds before it in its column (R77): those popped by the fields before it. -/
def popsBefore (code : BitVec 8) (before : List (BitVec 8)) : Nat :=
  if Form.isQ code then (before.filter fun c => c == code).length else 0

/-- Source A of a form that pops A first. -/
def Ctx.srcA (c : Ctx) (f : LaneFields) (want : Want) (i : Nat) : Word := srcAt c.w want f.lit f.a 0 i
/-- Source B, or the broadcast of S (R75). -/
def Ctx.srcB (c : Ctx) (f : LaneFields) (want : Want) (i : Nat) : Word :=
  if Form.noS f then srcAt c.w want f.lit f.b (popsBefore f.b [f.a]) i else c.w.sreg f.s.toNat
/-- Source B of a form in which S never replaces B. -/
def Ctx.srcBplain (c : Ctx) (f : LaneFields) (want : Want) (i : Nat) : Word :=
  srcAt c.w want f.lit f.b (popsBefore f.b [f.a]) i
def Ctx.srcC (c : Ctx) (f : LaneFields) (want : Want) (i : Nat) : Word :=
  srcAt c.w want f.lit f.c (popsBefore f.c (f.a :: (if Form.noS f then [f.b] else []))) i
def Ctx.pairA (c : Ctx) (f : LaneFields) (want : Want) (i : Nat) : DWord := srcPair c.w want f.lit f.a i
/-- Pair source B, or the broadcast pair (R136). -/
def Ctx.pairB (c : Ctx) (f : LaneFields) (want : Want) (i : Nat) : DWord :=
  if Form.noS f then srcPair c.w want f.lit f.b i else c.w.sreg64 f.s.toNat
def Ctx.pairC (c : Ctx) (f : LaneFields) (want : Want) (i : Nat) : DWord := srcPair c.w want f.lit f.c i

/-- The mask that selector C names (R129), with `dflt` for 0x00. -/
def Ctx.maskC (c : Ctx) (f : LaneFields) (dflt : Word) : Word :=
  if f.c == 0#8 then dflt else c.slice.mask (f.c.toNat - 0x80)

/-- Waits for the slots and the room, raises a token's cause, removes the popped slots, writes `n` words to D for every
lane of `EM`, applies `extra` and advances: the effect of every lane instruction that writes a block of D. -/
def Ctx.laneWrite (c : Ctx) (i : Instr) (d : BitVec 8) (n : Nat) (g : Nat → List Word)
    (extra : Wave → Wave) : Eff State :=
  match c.gate (usesOf i) [] with
  | .error e => .error e
  | .ok () => .ok (c.done i fun w => extra (writeBlock c.em d n g (popAll c.em (usesOf i) w)))

/-- One word to D. -/
def Ctx.write1 (c : Ctx) (i : Instr) (f : LaneFields) (g : Nat → Word) : Eff State :=
  c.laneWrite i f.d 1 (fun l => [g l]) id

/-- A pair to D (R136). -/
def Ctx.write2 (c : Ctx) (i : Instr) (f : LaneFields) (g : Nat → DWord) : Eff State :=
  c.laneWrite i f.d 2 (fun l => [lowWord (g l), highWord (g l)]) id

/-- The truth value of a compare to D, or to the mask that C names (R133, R164). -/
def Ctx.writeCompare (c : Ctx) (i : Instr) (f : LaneFields) (p : Nat → Bool) : Eff State :=
  if f.c == 0#8 then c.write1 i f fun l => boolWord (p l)
  else c.laneWrite i 0#8 0 (fun _ => []) (writeMaskBits c.em c.sl (f.c.toNat - 0x80) p)

/-- The mask output of `.c`, if there is one (R131). -/
def Ctx.carryOut (c : Ctx) (f : LaneFields) (p : Nat → Bool) (w : Wave) : Wave :=
  if f.c == 0#8 then w else writeMaskBits c.em c.sl (f.c.toNat - 0x80) p w

/-! Special registers (R107). -/

/-- Consecutive ready or token slots from the head of a column (R234). -/
def readyCount (col : List QEntry) : Nat := (col.takeWhile fun e => QEntry.settled (some e)).length

/-- The store records of staddr queue `q` that hold lane `i` (R234, R240). -/
def recordCount (w : Wave) (q i : Nat) : Nat :=
  (w.recs.filter fun r => r.q == q && r.lanes.any fun l => l.lane == i).length

/-- A store record of the wave lacks data slots, or a stdata slot has no record (R250). -/
def unpairedStore (w : Wave) : Bool :=
  (List.range 16).any fun k => match w.queue k with
    | some u => u.kind == .stdata && laneList.any fun i =>
        (u.col i).length != (w.recs.filter fun r => r.q + 1 == k && r.lanes.any fun l => l.lane == i).foldl
          (fun n r => n + Form.sizeWords r.size) 0
    | none => false

/-- The count of a column's slots. -/
def Wave.colCount (w : Wave) (q : Nat) (u : Queue) (i : Nat) : Nat :=
  if u.kind == .staddr then recordCount w q i else (u.col i).length

/-- `QST` over a group (R235). -/
def Ctx.qst (c : Ctx) : Word :=
  (List.range 16).foldl (fun acc k => match c.w.queue k with
    | none => acc
    | some u =>
      let ready := u.kind != .staddr && c.lanes.all fun i => QEntry.settled (u.col i)[0]?
      let full := c.lanes.any fun i => u.depth ≤ c.w.colCount k u i
      acc ||| (if ready then 1#32 <<< k else 0#32) ||| (if full then 1#32 <<< (16 + k) else 0#32)) 0#32

def Role.code : Role → Nat
  | .feeder => 0
  | .matrix => 1
  | .vector => 2

def gfWord (t : SliceSt) : Word := t.gf.setWidth 32

/-- The launch of the workgroup, when it has one. -/
def Ctx.launch (c : Ctx) : Option Launch := c.s.launch c.g.launch

/-- `ERRSTICKY` of the workgroup's context (R107). A bit whose clear has not taken effect reads its old or its new
value (R119). -/
def Ctx.errsticky (c : Ctx) : Word :=
  match c.launch with
  | some l =>
    let q := c.s.slot l.slot
    (q.clears.foldl (fun x k => x &&& ~~~(k.bits &&& Config.stickyRead c.s.fresh)) q.errsticky).setWidth 32
  | none => 0#32

/-- The value of a special register for the group; `CLOCK` gives all 64 bits. -/
def Ctx.special (c : Ctx) (k : Nat) : DWord :=
  let w (x : Word) : DWord := x.setWidth 64
  let n (x : Nat) : DWord := BitVec.ofNat 64 x
  let dim (f : Launch → List Word) (j : Nat) : DWord := match c.launch with
    | some l => w (laneAt (f l) j)
    | none => 0
  match k with
  | 0x02 => n c.w.id
  | 0x03 => n waveWidth
  | 0x04 => w (laneAt c.g.wgid 0)
  | 0x05 => w (laneAt c.g.wgid 1)
  | 0x06 => w (laneAt c.g.wgid 2)
  | 0x07 => dim Launch.wgdim 0
  | 0x08 => dim Launch.wgdim 1
  | 0x09 => dim Launch.wgdim 2
  | 0x0A => dim Launch.grid 0
  | 0x0B => dim Launch.grid 1
  | 0x0C => dim Launch.grid 2
  | 0x0D => n c.g.cg
  | 0x0E => n c.w.role.code
  | 0x0F => n (if c.sl = .a then 0 else 1)
  | 0x10 => n c.g.core
  | 0x11 => n (clusterOf c.g.core)
  | 0x12 => n (dieOf c.g.core)
  | 0x13 => w c.em
  | 0x14 => w (gfWord c.slice)
  | 0x15 => w (c.slice.loop 0).count
  | 0x16 => w (c.slice.loop 1).count
  | 0x17 => w (c.slice.loop 2).count
  | 0x18 => w (c.slice.loop 3).count
  | 0x19 => w c.qst
  | 0x1A => n c.g.scrbase
  | 0x1B => n c.s.clock
  | 0x1C => w c.errsticky
  | _ => 0

/-! Group sources (R83, R110). -/

/-- A group source as an integer of `n` bits before it is cut to a width: constants and the literal are signed. -/
def Ctx.gsrc (c : Ctx) (g : GroupFields) (code : BitVec 7) : Word :=
  let k := code.toNat
  if k < 0x60 then c.w.sreg k
  else if k < 0x6C then c.slice.mask (k - 0x60)
  else if k < 0x74 then BitVec.ofNat 32 (k - 0x6C)
  else match k with
    | 0x74 => (-1 : Word)
    | 0x75 => 16#32
    | 0x76 => 32#32
    | 0x77 => 64#32
    | 0x78 => c.em
    | 0x79 => lowWord (c.special 0x02)
    | 0x7A => lowWord (c.special 0x03)
    | 0x7B => lowWord (c.special 0x14)
    | 0x7C => lowWord (c.special 0x1A)
    | 0x7D => lowWord (c.special 0x1B)
    | 0x7E => lowWord (c.special 0x19)
    | _ => g.lit.getD 0#32

/-- A 64-bit group source: a pair, a constant or the literal sign-extended, a shorthand zero-extended (R110). -/
def Ctx.gsrc64 (c : Ctx) (g : GroupFields) (code : BitVec 7) : DWord :=
  let k := code.toNat
  if k < 0x60 then c.w.sreg64 k
  else if (0x6C ≤ k && k < 0x78) || k == 0x7F then (c.gsrc g code).signExtend 64
  else (c.gsrc g code).setWidth 64

/-- The signed value of a group immediate in the literal (R117, R244). -/
def litInt (l : Option Word) : Int := (l.getD 0#32).toInt

end Sys2Proof.Machine
end

