-- ==== Sys2Proof/Machine/Flags.lean ====
section
/-!
DEFINITION. The group flags (R105, R106) and the write of a group instruction's destination with its flags.
-/
namespace Sys2Proof.Machine

open Sys2Proof

/-- The five flags of `GF` (R105). -/
structure Flags where
  z : Bool
  n : Bool
  c : Bool
  v : Bool
  e : Bool
  deriving DecidableEq, Repr

def Flags.ofGf (g : BitVec 5) : Flags := ⟨g.getLsbD 0, g.getLsbD 1, g.getLsbD 2, g.getLsbD 3, g.getLsbD 4⟩
def Flags.gf (f : Flags) : BitVec 5 :=
  BitVec.ofBool f.e ++ BitVec.ofBool f.v ++ BitVec.ofBool f.c ++ BitVec.ofBool f.n ++ BitVec.ofBool f.z

/-- Z and N of a word, and of a 64-bit value (R106); the other flags are kept. -/
def Flags.ofWord (f : Flags) (x : Word) : Flags := { f with z := x == 0#32, n := x.getLsbD 31 }
def Flags.ofDWord (f : Flags) (x : DWord) : Flags := { f with z := x == 0#64, n := x.getLsbD 63 }

/-- C of a sum and a difference, V of an exact result (R111). -/
def carryAdd {n : Nat} (a b : BitVec n) : Bool := decide (2 ^ n ≤ a.toNat + b.toNat)
def noBorrow {n : Nat} (a b : BitVec n) : Bool := decide (b.toNat ≤ a.toNat)
def outside (n : Nat) (x : Int) : Bool := satS x n != x

/-- The flags of a slice after a change. -/
def updFlags (sl : Slice) (f : Flags → Flags) (w : Wave) : Wave :=
  w.updSlice sl fun t => { t with gf := (f (Flags.ofGf t.gf)).gf }

/-- Writes a group destination: an `s` register, or a mask of the slice (R102, R104). -/
def writeGroup (sl : Slice) (code : BitVec 7) (x : Word) (w : Wave) : Wave :=
  if code.toNat < 0x60 then w.setS code.toNat x else w.updSlice sl fun t => t.setMask (code.toNat - 0x60) x

def writeGroup64 (code : BitVec 7) (x : DWord) (w : Wave) : Wave :=
  (w.setS code.toNat (lowWord x)).setS (code.toNat + 1) (highWord x)

/-- Writes D and sets Z and N, then the flags that the entry names. -/
def Ctx.groupWrite (c : Ctx) (i : Instr) (sd : BitVec 7) (x : Word) (more : Flags → Flags) : Eff State :=
  .ok (c.done i fun w => updFlags c.sl (fun f => more (f.ofWord x)) (writeGroup c.sl sd x w))

def Ctx.groupWrite64 (c : Ctx) (i : Instr) (sd : BitVec 7) (x : DWord) (more : Flags → Flags) : Eff State :=
  .ok (c.done i fun w => updFlags c.sl (fun f => more (f.ofDWord x)) (writeGroup64 sd x w))

/-- Writes D and no flag (R117, R118). -/
def Ctx.groupWriteQuiet (c : Ctx) (i : Instr) (sd : BitVec 7) (x : Word) : Eff State :=
  .ok (c.done i (writeGroup c.sl sd x))

end Sys2Proof.Machine
end

