-- ==== Sys2Proof/Machine/Requests.lean ====
section
/-!
DEFINITION. Outstanding requests of a slice: how they are placed, held (R242, R270), ordered (R266, R278, R280) and
filled into queue slots (R226), and the state of releases and acquires (R282, R286).
-/
namespace Sys2Proof.Machine

open Sys2Proof

/-- The interface of a workgroup's launch. -/
def State.viOf (s : State) (g : Workgroup) : Nat :=
  match s.launch g.launch with
  | some l => l.vi
  | none => 0
/-- The interface through which a workgroup's accesses go. -/
def Ctx.vi (c : Ctx) : Nat := if c.g.keeper then keeperVi else c.s.viOf c.g

/-- A request of the issuing slice, with name `id`. -/
def Ctx.req (c : Ctx) (id : Nat) (kind : ReqKind) : Req := ⟨id, none, c.ref, c.sl, c.core, c.vi, c.pc, kind⟩

/-- Places requests; the names up to `n` above the next one are used. -/
def State.place (s : State) (rs : List Req) (n : Nat) : State :=
  { s with reqs := s.reqs ++ rs, nextId := s.nextId + n }

def State.req (s : State) (id : Nat) : Option Req := s.reqs.find? fun r => r.id == id
/-- The reads of an event for a request are credited to its context (R469). -/
def State.creditReq (s : State) (id : Nat) (t : State) : State :=
  match s.req id with
  | some r => t.credit r.w.wg
  | none => t
/-- A request has ended; the wave's queue-bound count restarts (R250). -/
def State.endReq (s : State) (id : Nat) : State :=
  match s.req id with
  | none => s
  | some r => { s with reqs := s.reqs.filter fun q => q.id != id }.updWave r.w fun w => { w with qbound := none }

/-! Slots. -/

/-- The pending slots of request `id` in a column become what `g` gives each of its words (R226, R239). -/
def fillCol (id : Nat) (g : Nat → QEntry) (col : List QEntry) : List QEntry :=
  col.map fun e => match e with
    | .pending r k => if r = id then g k else e
    | e => e
/-- The same in the columns of a lane set. -/
def fillQueue (q id : Nat) (m : Lanes) (g : Nat → Nat → QEntry) (w : Wave) : Wave :=
  match w.queue q with
  | none => w
  | some u =>
    let col (i : Nat) : List QEntry := if m.getLsbD i then fillCol id (g i) (u.col i) else u.col i
    w.setQueue q (some { u with cols := laneList.map col })

/-- Slots are placed in the columns of a lane set (R227). -/
def appendSlots (q : Nat) (m : Lanes) (g : Nat → List QEntry) (w : Wave) : Wave :=
  match w.queue q with
  | none => w
  | some u =>
    let col (i : Nat) : List QEntry := if m.getLsbD i then u.col i ++ g i else u.col i
    w.setQueue q (some { u with cols := laneList.map col })

/-- Allocates `n` slots in the columns of a lane set: pending on the request that `idOf` gives the lane (R239). -/
def allocSlots (q n : Nat) (m : Lanes) (idOf : Nat → Nat) (w : Wave) : Wave :=
  appendSlots q m (fun i => (List.range n).map (QEntry.pending (idOf i))) w

/-- Every lane's column of a queue has room for `n` more slots (R227). -/
def Ctx.room (c : Ctx) (q n : Nat) : Bool :=
  match c.w.queue q with
  | none => true
  | some u => c.lanes.all fun i => (u.col i).length + n ≤ u.depth

/-! Holds and order. -/

/-- The engine that owns a line, or that will own it first. -/
def State.ownerOf (s : State) (line : Nat) : Option Owner := (s.owned.find? fun o => o.line == line).map Owned.by_

/-- The blend island of a cluster writes a line of its buffer back to the Lantern cache and gives up its ownership
(R300, R352). -/
def State.writeBlend (s : State) (cluster line : Nat) : State :=
  match (s.cluster cluster).blend.find? fun b => b.line == line with
  | none => s
  | some b =>
    let s := s.storeAt cluster none 3 ⟨0, line⟩ b.data
    { s with
      zeroed := b.lost.map (fun k => line + k) ++ s.zeroed
      owned := s.owned.erase ⟨line, .blend cluster⟩ }.updCluster cluster fun c =>
      { c with blend := c.blend.filter fun b => b.line != line }

/-- Every target line that a workgroup's requests touched is written back (R352). -/
def State.writeBlends (s : State) (g : Workgroup) : State :=
  let cluster := clusterOf g.core
  (((s.cluster cluster).blend.filter fun b => b.wgs.contains g.id).map BlendLine.line).foldl
    (fun s line => s.writeBlend cluster line) s

/-- A ring request is held by an earlier store record to a line of its block (R270). -/
def State.blockHeld (s : State) (r : Req) : Bool :=
  match s.wave r.w with
  | none => false
  | some v => v.recs.any fun k => k.id < r.id && !k.flush && k.lanes.any fun l => s.reqMeets r l.place

/-- A request to host memory has waited `ctimeout` microseconds for its completion: 2,400 or 1,200 cycles each by the clock
mode (R465). -/
def State.timedOut (s : State) (r : Req) : Bool :=
  match r.sent with
  | some t => t + (s.iface (tableVi r.vi)).ctimeout * (if s.ctl.current then 1200 else 2400) ≤ s.clock
  | none => false

/-! Releases and acquires. -/

/-- The cards and the requests of a workgroup, also those that a save holds (R298, R307, R420). -/
def State.allCards (s : State) (wg : Nat) : List Card :=
  s.cards ++ (((s.wg wg).bind Workgroup.saved).map SavedWork.cards).getD []
def State.allReqs (s : State) (wg : Nat) : List Req :=
  s.reqs ++ (((s.wg wg).bind Workgroup.saved).map SavedWork.reqs).getD []

/-- The reads of the tokens of a wave's cards before name `upto` are performed: their nodes have run (R274, R301). -/
def State.tokensRead (s : State) (r : WaveRef) (upto : Nat) : Bool :=
  (s.allCards r.wg).all fun k => k.w != r || upto ≤ k.id || !k.reads || k.tokens.all fun t => !t.live || t.work.isSome

/-- Every access of a slice before name `upto` is complete (R286), but for the reads of graph tokens: loads and atomics performed,
stores acknowledged, scratch stores visible in-core, and the reads of island requests performed (R301). Of the X-slice that
counts the store records that it follows (R275), as far as it owes them no data. -/
def State.accessesDone (s : State) (r : WaveRef) (sl : Slice) (upto : Nat) : Bool :=
  (match s.wave r with
    | some w => if sl == .x then !w.readySeen upto fun _ => true else w.recs.all fun k => upto ≤ k.id
    | none => true) &&
  !s.lateBefore r sl upto &&
  (s.allReqs r.wg).all fun q => q.w != r || q.sl != sl || upto ≤ q.id || match q.kind with
    | .icinv _ => true
    | _ => false

/-- Every access of a slice before name `upto` is complete, with the reads of the tokens of its cards (R286, R301). -/
def State.released (s : State) (r : WaveRef) (sl : Slice) (upto : Nat) : Bool :=
  (sl == .a || s.tokensRead r upto) && s.accessesDone r sl upto

/-- Every load, `aldu` and atomic of a slice is performed (R286). -/
def State.loadsDone (s : State) (r : WaveRef) (sl : Slice) : Bool :=
  (sl == .a || s.tokensRead r s.nextId) && s.reqs.all fun q => q.w != r || q.sl != sl || match q.kind with
    | .ack _ _ => true
    | .icinv _ => true
    | _ => false

/-- What a release at a scope does once its accesses are complete. -/
def State.releaseAt (s : State) (core scope : Nat) : State :=
  if 3 ≤ scope then s.releaseL1 core else if scope = 2 then s.publish core else s

end Sys2Proof.Machine
end

