-- ==== Sys2Proof/Machine/Access.lean ====
section
/-!
DEFINITION. Queue instructions, global loads and stores, line operations and scratch (10_queues_access.md, R225 to
R251), with the events of their completion.
-/
namespace Sys2Proof.Machine

open Sys2Proof

/-! Queue instructions (R231 to R234). -/

/-- `qpush`: one source of any code, or `n` registers. -/
def execQpush (f : LaneFields) (s : State) : Result :=
  issue (.qpush f) (fun c =>
    let n := Form.countC f
    c.laneWrite (.qpush f) f.d n
      (fun l => if n = 1 then [c.srcA f .int32 l] else (List.range n).map fun j => codeWord c.w f.a j l) id) s

/-- `qpop`: all slots are read before any register is written. -/
def execQpop (f : LaneFields) (s : State) : Result :=
  issue (.qpop f) (fun c =>
    let n := Form.countC f
    c.laneWrite (.qpop f) f.d n (fun l => (List.range n).map fun j => codeWord c.w f.a j l) id) s

/-- Slot `k` of a lane's column. -/
def Ctx.slotAt (c : Ctx) (q k i : Nat) : Option QEntry := (spanSlots c.w q i k 1).head?.join

/-- `qpeek` (R233, R500): waits for slot k alone, and raises a token that it holds. -/
def execQpeek (f : LaneFields) (s : State) : Result :=
  issue (.qpeek f) (fun c =>
    let q := Form.qIndex f.a
    let k := f.c.toNat
    if c.lanes.all fun i => QEntry.settled (c.slotAt q k i) then
      match c.lanes.findSome? fun i => match c.slotAt q k i with
          | some (.token t) => some (i, t)
          | _ => none with
      | some (i, t) => failAt t.cause (t.info i)
      | none => c.write1 (.qpeek f) f fun l => slotWord (c.slotAt q k l)
    else .error .wait) s

/-- `qdrop`: waits for `n` slots in any state and removes them. -/
def execQdrop (f : LaneFields) (s : State) : Result :=
  issue (.qdrop f) (fun c =>
    let q := Form.qIndex f.a
    let n := Form.countC f
    match c.w.queue q with
    | none => fail .queueUnbound
    | some u =>
      if c.lanes.all fun i => n ≤ (u.col i).length then
        .ok (c.done (.qdrop f) fun w => w.setQueue q (some { u with
          cols := laneList.map fun i => if c.em.getLsbD i then (u.col i).drop n else u.col i }))
      else .error .wait) s

/-- `qwait`: waits until the first `n` slots are ready or token. -/
def execQwait (f : LaneFields) (s : State) : Result :=
  issue (.qwait f) (fun c =>
    let q := Form.qIndex f.a
    if c.lanes.all fun i => (spanSlots c.w q i 0 (Form.countC f)).all QEntry.settled then .ok (c.done (.qwait f) id)
    else .error .wait) s

def QKind.code : QKind → Nat
  | .load => 1
  | .back => 2
  | .staddr => 3
  | .stdata => 4
  | .result => 5
def QKind.ofCode : Nat → QKind
  | 1 => .load
  | 2 => .back
  | 3 => .staddr
  | 4 => .stdata
  | _ => .result

def isToken : Option QEntry → Bool
  | some (.token _) => true
  | _ => false

/-- The status word of a column (R234). -/
def statusWord (w : Wave) (q i : Nat) : Word :=
  match w.queue q with
  | none => 0#32
  | some u =>
    BitVec.ofNat 32 (QKind.code u.kind * 2 ^ 21 + u.depth * 2 ^ 16 + w.colCount q u i * 2 ^ 10 +
      (if isToken (u.col i)[0]? then 2 ^ 9 else 0) + readyCount (u.col i) * 2 ^ 4)

def execQstat (f : LaneFields) (s : State) : Result :=
  issue (.qstat f) (fun c => c.write1 (.qstat f) f fun l => statusWord c.w (Form.qIndex f.a) l) s

def Wave.boundKind (w : Wave) (q : Nat) (k : QKind) : Bool :=
  match w.queue q with
  | some u => u.kind == k
  | none => false
/-- The sum of the depths bound in the wave. -/
def Wave.depths (w : Wave) : Nat := w.queues.foldl (fun n q => n + match q with
  | some u => u.depth
  | none => 0) 0

/-- `qbind` and its cases of QUEUE_BIND (R229, R231). -/
def execQbind (f : LaneFields) (s : State) : Result :=
  issue (.qbind f) (fun c =>
    let q := Form.qIndex f.d
    let kind := QKind.ofCode f.a.toNat
    let depth := f.b.toNat
    if (c.w.queue q).isSome || (kind == .staddr && (q % 2 == 1 || !c.w.boundKind (q + 1) .stdata)) ||
        c.w.budget < c.w.depths + depth then fail .queueBind
    else .ok (c.done (.qbind f) fun w => w.setQueue q (some ⟨kind, depth, List.replicate waveWidth [], .none⟩))) s

/-- `qunbind` and its cases of QUEUE_BIND (R231). -/
def execQunbind (f : LaneFields) (s : State) : Result :=
  issue (.qunbind f) (fun c =>
    let q := Form.qIndex f.d
    match c.w.queue q with
    | none => fail .queueUnbound
    | some u =>
      if u.cols.any (fun col => !col.isEmpty) || c.w.recs.any (fun r => r.q == q && !r.flush) || u.attach != .none ||
          (u.kind == .stdata && c.w.boundKind (q - 1) .staddr) then fail .queueBind
      else .ok (c.done (.qunbind f) fun w => w.setQueue q none)) s

/-! Addresses (R237). -/

/-- The signed offset of field B. -/
def offsetB (f : LaneFields) : Int :=
  if f.b == 0#8 then 0 else if Form.isLit f.b then (f.lit.getD 0#32).toInt else intConst f.b

/-- The address of lane `l`. -/
def Ctx.address (c : Ctx) (f : LaneFields) (l : Nat) : DWord :=
  let off : DWord := BitVec.ofInt 64 (offsetB f)
  if Form.noS f then joinWords (codeWord c.w f.a 0 l) (codeWord c.w f.a 1 l) + off
  else c.w.sreg64 f.s.toNat + (codeWord c.w f.a 0 l).setWidth 64 + off

def misaligned (va : DWord) (n : Nat) : Bool := va.toNat % n != 0

/-- The MISALIGNED cause of the lowest lane of a list whose address is no multiple of `n`. -/
def Ctx.alignFault (c : Ctx) (f : LaneFields) (lanes : List Nat) (n : Nat) : List (Cause × Info) :=
  match lanes.find? fun l => misaligned (c.address f l) n with
  | some l => [(.misaligned, { addr := c.address f l, lane := some l })]
  | none => []

/-! Loads. -/

/-- The first lane of a list whose bytes fall in the same line as lane `l`'s (R411). -/
def Ctx.leads (c : Ctx) (f : LaneFields) (l : Nat) : Bool :=
  match c.lanes.find? fun k => lineOf (c.address f k).toNat == lineOf (c.address f l).toNat with
  | some k => k == l
  | none => true

def scopeOf (f : LaneFields) : Nat := (f.flags.extractLsb' 0 3).toNat

/-- The request of lane `l` of an `ald`; its name is the next name plus `l`. -/
def Ctx.loadReq (c : Ctx) (sz : Size) (f : LaneFields) (l : Nat) : Req :=
  c.req (c.s.nextId + l) (.load (Form.qIndex f.d) l (c.address f l) sz (scopeOf f) (c.w.helper.getLsbD l) (c.leads f l))

/-- `ald` (R239): pending slots and one request for each lane. -/
def execAld (sz : Size) (f : LaneFields) (s : State) : Result :=
  issue (.ald sz f) (fun c =>
    let q := Form.qIndex f.d
    let n := Form.sizeWords sz
    match raiseAny (c.alignFault f c.covered (Form.sizeBytes sz)) with
    | .error e => .error e
    | .ok () =>
      if !c.room q n then .error .wait
      else .ok ((c.done (.ald sz f) (allocSlots q n c.em fun l => c.s.nextId + l)).place
        (c.lanes.map (c.loadReq sz f)) waveWidth)) s

/-- The slots that the bytes of a load give (R239). -/
def loadSlot (bs : List Byte) (k : Nat) : QEntry := .ready (laneAt (wordsOf (ofBytes bs) 4) k)

/-- Counts a line request at the level that served it (R411). -/
def countServed (sv : Served) (lead : Bool) (w : Wave) : Wave :=
  if !lead then w
  else { w with pmc := updAt (· + 1) w.pmc (match sv with
    | .own => 5
    | .neighbour => 6
    | .beyond => 7) }

/-- A host read fails: the link is down, or the completion has an error status, a free choice (R465, R467). -/
def State.hostReadFails (s : State) : Bool × State :=
  let (n, t) := s.draw
  (!s.linkUp || n % 2 == 1, t)

/-- The same of the lanes of one instruction, whose bytes in one 64-byte line of host memory one request to the host serves
(R464): `key` names the instruction's request. -/
def State.hostLineFails (s : State) (key : Nat) (p : Place) : Bool := !s.linkUp || Config.hostFails key (p.pa / 64)

/-- Fills the slots of a load of one lane and ends the request. -/
def State.loadDone (s : State) (r : Req) (q lane : Nat) (g : Nat → QEntry) (count : Wave → Wave) : State :=
  (s.updWave r.w fun w => count (fillQueue q r.id (1#32 <<< lane) (fun _ => g) w)).endReq r.id

/-- The tokens of a failed load; a helper lane's entry holds 0 (R62, R239). -/
def failedSlot (r : Req) (helper : Bool) (va : DWord) (c : Cause) : QEntry :=
  if helper then .ready 0#32 else .token ⟨c, va, r.pc, 0, 0⟩

/-- The requests of one `ald` have names from one base on, by lane. -/
def Req.base (r : Req) : Nat :=
  match r.kind with
  | .load _ lane _ _ _ _ _ => r.id - lane
  | _ => r.id

/-- The lanes of the instruction of a load whose bytes lie in the same 64-byte line of host memory: one request to the host
serves them (R464). -/
def State.hostMates (s : State) (r : Req) (p : Place) : List (Req × Place) :=
  s.reqs.filterMap fun q => if q.w != r.w || q.base != r.base then none else match q.kind, s.reqPlace q with
    | .load _ _ _ _ _ _ _, some (p', _) => if p'.mem == p.mem && p'.pa / 64 == p.pa / 64 then some (q, p') else none
    | _, _ => none

/-- A load of non-coherent host memory does not pass the earlier posted writes of its slice (R303). -/
def State.readPast (s : State) (r : WaveRef) (p : Place) : State :=
  if p.mem == 2 then s.landHits fun x => x.w == r else s

/-- A lane of such a request gets its data, or its failure (R465). -/
def hostLane (bad : Bool) (s : State) (x : Req × Place) : State :=
  match x.1.kind with
  | .load q lane va sz _ helper lead =>
    if bad then s.loadDone x.1 q lane (fun _ => failedSlot x.1 helper va .hostRead) id
    else s.loadDone x.1 q lane (loadSlot (s.hostRead x.2.pa (Form.sizeBytes sz))) (countServed .beyond lead)
  | _ => s

/-- The data or the failure of a load arrives (R239, R242, R277); a read from the host fails once its time is over. -/
def completeLoad (s : State) (r : Req) (q lane : Nat) (va : DWord) (sz : Size) (scope : Nat) (helper lead : Bool) :
    State :=
  if helper && misaligned va (Form.sizeBytes sz) then s.loadDone r q lane (fun _ => .ready 0#32) id
  else match locate s (clusterOf r.core) (some r.core) r.vi va .load with
  | (.error c, t) => t.loadDone r q lane (fun _ => failedSlot r helper va c) id
  | (.ok p, t) =>
    if t.ownedFor r.w r.sl r.id p || t.held r.w r.id p || t.follows r.w r.id p scope then s
    else if p.mem == 0 then
      let (bs, sv, t) := t.loadAt (clusterOf r.core) (some r.core) scope p (Form.sizeBytes sz)
      t.loadDone r q lane (loadSlot bs) (countServed sv lead)
    else
      let (bad, t) := (t.readPast r.w p).hostReadFails
      (t.hostMates r p).foldl (hostLane (bad || t.timedOut r)) t

/-! Group loads (R244). -/

/-- The base plus the immediate, or plus the signed literal. -/
def alduAddr (c : Ctx) (g : GroupFields) : DWord :=
  c.w.sreg64 g.sa.toNat + BitVec.ofInt 64 (if Form.gLit g.sb then litInt g.lit else 4 * (g.sb.toNat : Int))

/-- Writes the words of a load to consecutive group registers. -/
def writeGroupWords (sd n : Nat) (bs : List Byte) (w : Wave) : Wave :=
  (List.range n).foldl (fun w k => w.setS (sd + k) (laneAt (wordsOf (ofBytes bs) 4) k)) w

/-- The words of an `aldu` are written at its issue: from host memory, or zeros. -/
def Ctx.alduDone (c : Ctx) (sz : Size) (g : GroupFields) (bs : List Byte) (count : Wave → Wave) : State :=
  c.done (.aldu sz g) fun w => count (writeGroupWords g.sd.toNat (Form.sizeWords sz) bs w)

/-- A cause of an `aldu` is precise; when every lane of `EM` is a helper lane it is suppressed, and 0 is loaded (R62). -/
def Ctx.alduFault (c : Ctx) (sz : Size) (g : GroupFields) (k : Cause) (va : DWord) : Eff State :=
  if c.covered.isEmpty then .ok (c.alduDone sz g (List.replicate (Form.sizeBytes sz) 0#8) id)
  else failAt k { addr := va }

/-- `aldu`. A load from host memory holds the slice until its data returns (R465), so it is done here, once nothing holds it
(R242, R270, R280); one from device memory is a request. -/
def execAldu (sz : Size) (g : GroupFields) (s : State) : Result :=
  issue (.aldu sz g) (fun c =>
    let va := alduAddr c g
    let n := Form.sizeBytes sz
    if misaligned va n then c.alduFault sz g .misaligned va
    else match locate c.s c.cluster (some c.core) c.vi va .load with
    | (.error k, _) => c.alduFault sz g k va
    | (.ok p, t) =>
      let d : Ctx := { c with s := t }
      if p.mem == 0 then
        .ok (d.doneState (.aldu sz g) (t.place [c.req c.s.nextId (.group g.sd.toNat p sz)] 1))
      else if t.delayed || t.held c.ref t.nextId p || t.follows c.ref t.nextId p 0 then .error .wait
      else
        let (bad, t) := (t.readPast c.ref p).hostReadFails
        let d : Ctx := { c with s := t }
        if bad then d.alduFault sz g .hostRead va
        else .ok (d.alduDone sz g (t.hostRead p.pa n) (countServed .beyond true))) s

/-- A request has made its writes of `s` registers: the other slice reads an ordered one, and sees the others late (R103). -/
def State.writeMade (s : State) (id : Nat) : State :=
  { s with late := s.late.filterMap fun x => if x.req != some id then some x
      else if x.ordered then none else some { x with req := none } }

/-- The data of an `aldu` arrives: a load at `.wave` (R244). -/
def completeGroup (s : State) (r : Req) (sd : Nat) (p : Place) (sz : Size) : State :=
  if s.ownedFor r.w r.sl r.id p || s.held r.w r.id p || s.follows r.w r.id p 0 then s
  else
    let (bs, sv, t) := s.loadAt (clusterOf r.core) (some r.core) 0 p (Form.sizeBytes sz)
    ((t.updWave r.w fun w => countServed sv true (writeGroupWords sd (Form.sizeWords sz) bs w)).writeMade r.id).endReq r.id

/-- LOAD_COMPLETION (R239). A held or delayed request stays. -/
def execLoadCompletion (id : Nat) (s : State) : Result :=
  .next (State.creditReq s id (match s.req id with
    | none => s
    | some r => match r.kind with
      | .load q lane va sz scope helper lead => completeLoad s r q lane va sz scope helper lead
      | .group sd p sz => completeGroup s r sd p sz
      | _ => s))

/-! Stores. -/

/-- Translates the addresses of a list of lanes; each lane's place or cause, and the state with the caches filled. -/
def Ctx.locateAll (c : Ctx) (f : LaneFields) (need : Need) (lanes : List Nat) :
    List (Nat × Except Cause Place) × State :=
  lanes.foldl (fun (acc : List (Nat × Except Cause Place) × State) l =>
    let r := locate acc.2 c.cluster (some c.core) c.vi (c.address f l) need
    (acc.1 ++ [(l, r.1)], r.2)) ([], c.s)

/-- The causes among located lanes. -/
def Ctx.placeFaults (c : Ctx) (f : LaneFields) (ps : List (Nat × Except Cause Place)) : List (Cause × Info) :=
  ps.filterMap fun p => match p.2 with
    | .error k => some (k, { addr := c.address f p.1, lane := some p.1 })
    | .ok _ => none

/-- The lanes of a store record. -/
def Ctx.recordLanes (c : Ctx) (f : LaneFields) (ps : List (Nat × Except Cause Place)) : List LaneStore :=
  ps.filterMap fun p => match p.2 with
    | .ok x => some ⟨p.1, c.address f p.1, x⟩
    | .error _ => none

/-- The paired stdata queue is too shallow for the size (R240). -/
def shallow (w : Wave) (q n : Nat) : Bool :=
  match w.queue (q + 1) with
  | some u => u.depth < n
  | none => true

/-- `ast` (R240, R241): one store record for the covered lanes of `EM`. It waits for room in its staddr queue before its causes
are raised, as R239 has it for `ald` (DEDUCED, log entry 174). -/
def execAst (sz : Size) (f : LaneFields) (s : State) : Result :=
  issue (.ast sz f) (fun c =>
    let q := Form.qIndex f.d
    if shallow c.w q (Form.sizeWords sz) then fail .queueBind
    else match c.w.queue q with
    | none => fail .queueUnbound
    | some u =>
      if !c.covered.all fun l => recordCount c.w q l < u.depth then .error .wait
      else
        let r := c.locateAll f .store c.covered
        if r.2.delayed then .error .wait
        else match raiseAny (c.alignFault f c.covered (Form.sizeBytes sz) ++ c.placeFaults f r.1) with
        | .error e => .error e
        | .ok () =>
          let lanes := c.recordLanes f r.1
          let t := if lanes.isEmpty then r.2 else
            { r.2.updWave c.ref fun w => { w with
                recs := w.recs ++ [⟨r.2.nextId, false, q, sz, scopeOf f, lanes, [], none⟩] } with nextId := r.2.nextId + 1 }
          .ok (c.doneState (.ast sz f) t)) s

/-- An access of the wave at a place must be performed before name `id`'s (R270, R278, R280). -/
def State.storeWaits (s : State) (w : WaveRef) (id : Nat) (p : Place) (scope : Nat) : Bool :=
  s.ownedFor w .a id p || s.follows w id p scope || (scope ≤ 1 && p.mem == 0 && s.lateBefore w .a id) ||
  s.reqs.any fun q => q.w == w && q.id < id && q.kind.isAtomic && s.reqMeets q p

/-- A store of the context's wave to a place; a store to host memory over a link that is down is dropped, `ERRSTICKY`[0] of
the context is set, and the context is notified (R467, R469). -/
def State.contextStore (s : State) (r : WaveRef) (core scope : Nat) (p : Place) (bs : List Byte) : State :=
  if p.mem != 0 && !s.linkUp then
    match s.wg r.wg with
    | some g => (s.stick r.wg 1#2).noteError (s.viOf g)
    | none => s
  else s.storeAt (clusterOf core) (some core) scope p bs

/-- The store of a lane of a record: one to host memory is accepted by the host link, and is performed there later (R303, R464;
log entry 103). -/
def State.postStore (s : State) (r : WaveRef) (core : Nat) (k : StoreRec) (p : Place) (bs : List Byte) : State :=
  if p.mem != 0 && s.linkUp then { s with posted := s.posted ++ [⟨k.id, r, p.mem, p.pa, bs⟩] }
  else s.contextStore r core k.scope p bs

/-- One lane of a record is performed: its data slots are removed and its bytes written (R240). -/
def performLane (r : WaveRef) (core : Nat) (k : StoreRec) (s : State) (l : LaneStore) : State :=
  let n := Form.sizeWords k.size
  match s.wave r with
  | none => s
  | some w =>
    let d := (storeData w k.q n l.lane).getD []
    let s := s.updWave r fun w => match w.queue (k.q + 1) with
      | some u => w.setQueue (k.q + 1) (some (u.setCol l.lane ((u.col l.lane).drop n)))
      | none => w
    s.postStore r core k l.place (bytesOf (ofWords d) (Form.sizeBytes k.size))

/-- An `aflush` takes its place among the stores: the dirty bytes of each line go toward the point of its scope. -/
def flushLanes (core : Nat) (k : StoreRec) (s : State) : State :=
  k.lanes.foldl (fun s l =>
    if 3 ≤ k.scope && l.place.mem == 0 then s.cleanLine (clusterOf core) (lineOf l.place.pa) else s) s

/-- STORE_RECORD_PERFORM (R240): the oldest record of the wave, when it has its data and nothing holds it; it is then
issued and awaits its acknowledgement. -/
def execStoreRecordPerform (r : WaveRef) (s : State) : Result :=
  .next (match s.wg r.wg with
    | none => s
    | some g => match g.wave r.wave with
      | none => s
      | some w => match w.recs with
        | [] => s
        | k :: rest =>
          if !recordReady w k || k.lanes.any fun l => s.storeWaits r k.id l.place k.scope then s
          else
            let t := if k.flush then flushLanes g.core k s else k.lanes.foldl (performLane r g.core k) s
            let acks : List Req := match k.lanes with
              | [] => []
              | l :: _ => [⟨k.id, none, r, .a, g.core, s.viOf g, 0, .ack k.scope l.place⟩]
            (({ t with reqs := t.reqs ++ acks }).updWave r fun w => { w with recs := rest, qbound := none }).credit r.wg)

/-- STORE_ACKNOWLEDGE (R243): by then host memory holds the record's stores. -/
def execStoreAcknowledge (id : Nat) (s : State) : Result :=
  .next (match s.req id with
    | none => s
    | some r => match r.kind with
      | .ack _ _ => (s.landHits fun x => x.id == id).endReq id
      | _ => s)

/-! Line operations (R243). -/

/-- Applies a change for every lane of `EM` whose line has a translation. -/
def Ctx.eachLine (c : Ctx) (f : LaneFields) (g : State → Place → State) : State :=
  c.lanes.foldl (fun s l => match locate s c.cluster (some c.core) c.vi (c.address f l) ⟨false, false, false⟩ with
    | (.ok p, t) => g t p
    | (.error _, _) => s) c.s

/-- `apf`: the device fetches the line to the level named, the L1 slice or the Lantern cache, or does nothing (a free choice). -/
def execApf (f : LaneFields) (s : State) : Result :=
  issue (.apf f) (fun c =>
    .ok (c.doneState (.apf f) (c.eachLine f fun s p =>
      let (n, t) := s.draw
      if n % 2 == 0 || p.mem != 0 || t.isOwned p then t
      else if f.c == 0#8 then t.fill c.cluster (lineOf p.pa) else t.reach (lineOf p.pa) false))) s

/-- `aflush`: ordered as a store of the wave, so it is a record that takes no data. -/
def execAflush (f : LaneFields) (s : State) : Result :=
  issue (.aflush f) (fun c =>
    let r := c.locateAll f ⟨false, false, false⟩ c.lanes
    let t := { r.2.updWave c.ref fun w => { w with
      recs := w.recs ++ [⟨r.2.nextId, true, 16, .b, scopeOf f, c.recordLanes f r.1, [], none⟩] } with nextId := r.2.nextId + 1 }
    .ok (c.doneState (.aflush f) t)) s

/-- Drops the copies of a line in the core's access path other than the home copy: the read buffer's, and the clean
bytes of the cluster's L1, whose home at `.dev` is the Lantern cache (R276). -/
def State.dropLine (s : State) (core line : Nat) : State :=
  (s.updCore core fun c => { c with rbuf := c.rbuf.filter fun p => p.line != line }).updCluster (clusterOf core) fun c =>
    { c with l1 := (c.l1.filter fun l => l.line != line || l.dirty != 0).map fun l =>
        if l.line == line then { l with valid := l.dirty } else l }

def execAinv (f : LaneFields) (s : State) : Result :=
  issue (.ainv f) (fun c =>
    .ok (c.doneState (.ainv f) (c.eachLine f fun s p =>
      if p.mem == 0 then s.dropLine c.core (lineOf p.pa) else s))) s

/-! Scratch (R246, R247). -/

/-- The scratch size of the workgroup's kernel. -/
def Ctx.scratchSize (c : Ctx) : Nat :=
  match c.launch with
  | some l => l.kernel.scratch
  | none => 0

/-- The offset of lane `l`, modulo 2^32. -/
def Ctx.scratchOff (c : Ctx) (f : LaneFields) (l : Nat) : Nat :=
  let sv : Word := if Form.noS f then 0#32 else c.w.sreg f.s.toNat
  (codeWord c.w f.a 0 l + sv + BitVec.ofInt 32 (offsetB f)).toNat

/-- MISALIGNED and SCRATCH_RANGE of the lanes. -/
def Ctx.scratchFaults (c : Ctx) (f : LaneFields) (n : Nat) (lanes : List Nat) : List (Cause × Info) :=
  lanes.filterMap fun l =>
    let off := c.scratchOff f l
    let i : Info := { addr := BitVec.ofNat 64 off, lane := some l }
    if off % n != 0 then some (.misaligned, i)
    else if c.scratchSize < off + n then some (.scratchRange, i) else none

/-- A scratch store of the slice is not visible yet, to a line of scratch that the lanes' bytes lie in: a later `lds` there waits
for it (R248, R280). -/
def Ctx.scratchPending (c : Ctx) (f : LaneFields) : Bool :=
  c.s.lateScratch.any fun x => x.w == c.ref && x.sl == c.sl && c.lanes.any fun l => lineOf (c.scratchOff f l) == lineOf x.off

def execLds (sz : Size) (f : LaneFields) (s : State) : Result :=
  issue (.lds sz f) (fun c =>
    let n := Form.sizeBytes sz
    match c.gate (usesOf (.lds sz f)) (c.scratchFaults f n c.lanes) with
    | .error e => .error e
    | .ok () =>
      if c.scratchPending f then .error .wait
      else c.laneWrite (.lds sz f) f.d (Form.sizeWords sz)
        (fun l => wordsOf (ofBytes (c.g.scratch.read (c.scratchOff f l) n)) (Form.sizeWords sz)) id) s

/-- The bytes that lane `l` of an `sts` stores. -/
def Ctx.stsBytes (c : Ctx) (sz : Size) (f : LaneFields) (l : Nat) : List Byte :=
  bytesOf (ofWords ((List.range (Form.sizeWords sz)).map fun k => codeWord c.w f.d k l)) (Form.sizeBytes sz)

/-- The stores of an `sts`, one for each lane that is no helper lane (R62); of lanes with one offset that of the highest, which
ascending order leaves (R248). -/
def Ctx.stsStores (c : Ctx) (sz : Size) (f : LaneFields) : List LateStore :=
  let last (l : Nat) : Bool := c.covered.all fun k => k ≤ l || c.scratchOff f k != c.scratchOff f l
  (c.covered.filter last).map fun l =>
    ⟨c.s.nextId, c.ref, c.sl, c.scratchOff f l, c.stsBytes sz f l, c.s.clock + 8, []⟩

/-- `sts`: its stores become visible in-core within 8 cycles (R248). -/
def execSts (sz : Size) (f : LaneFields) (s : State) : Result :=
  issue (.sts sz f) (fun c =>
    match c.gate (usesOf (.sts sz f)) (c.scratchFaults f (Form.sizeBytes sz) c.covered) with
    | .error e => .error e
    | .ok () =>
      let t : State := { c.s with lateScratch := c.s.lateScratch ++ c.stsStores sz f, nextId := c.s.nextId + 1 }
      .ok (c.doneState (.sts sz f) (t.updWave c.ref (popAll c.em (usesOf (.sts sz f)))))) s

end Sys2Proof.Machine
end

