-- ==== Sys2Proof/Machine/Transcendental.lean ====
section
/-!
DEFINITION. The transcendental forms (R167 to R169). Where R167 and R168 give one result, that is the result. Elsewhere
the device's own function of the input gives the result, a free value that must lie within R167's bound: a free draw
outside the bound is replaced by the value rounded to nearest. The bound is tested against an enclosure of the exact
value, which is finer than 2^−60 of the bound (log entry 12).
-/
namespace Sys2Proof

/-- Fixed point with 120 fraction bits. -/
def fxOne : Nat := 2 ^ 120
def fxLn2 : Nat := 921350637599661305226344307672478454
def fxPi : Nat := 4175892906503776358826876457663557747

/-- Sum of t, t·z/(d), … for the series whose next term is the last times `z` over `k (k+1)` with rising `k`; signs
alternate when `alt`. The fuel bounds the terms. -/
def fxSeries (z : Nat) (step : Nat) (alt : Bool) : Nat → Nat → Nat → Bool → Int → Int
  | 0, _, _, _, acc => acc
  | fuel + 1, k, t, neg, acc =>
    let acc := if neg then acc - t else acc + t
    let d := if step = 2 then k * (k + 1) else k
    fxSeries z step alt fuel (k + step) (t * z / fxOne / d) (if alt then !neg else neg) acc

/-- e^u for 0 ≤ u < 1. -/
def fxExp (u : Nat) : Nat := (fxSeries u 1 false 40 1 fxOne false 0).toNat
/-- 2^u for 0 ≤ u < 1. -/
def fxExp2 (u : Nat) : Nat := fxExp (u * fxLn2 / fxOne)
/-- sin(πu) for 0 ≤ u ≤ 1/2. -/
def fxSin (u : Nat) : Nat :=
  let x := u * fxPi / fxOne
  (fxSeries (x * x / fxOne) 2 true 30 2 x false 0).toNat
/-- cos(πu) for 0 ≤ u ≤ 1/2. -/
def fxCos (u : Nat) : Nat :=
  let x := u * fxPi / fxOne
  (fxSeries (x * x / fxOne) 2 true 30 1 fxOne false 0).toNat

/-- atanh(z) from powers of z² (z ≤ 1/3). -/
def fxAtanh (z : Nat) : Nat → Nat → Nat → Nat → Nat
  | 0, _, _, acc => acc
  | fuel + 1, k, t, acc => fxAtanh z fuel (k + 2) (t * z / fxOne * z / fxOne) (acc + t / k)

/-- log2(m) for 1 ≤ m < 2 in fixed point. -/
def fxLog2 (m : Nat) : Nat :=
  let z := (m - fxOne) * fxOne / (m + fxOne)
  2 * fxAtanh z 80 1 z 0 * fxOne / fxLn2

/-- floor(√n), bit by bit. -/
def isqrtFrom (n : Nat) : Nat → Nat → Nat
  | 0, r => r
  | k + 1, r => let t := r + 2 ^ k; isqrtFrom n k (if t * t ≤ n then t else r)
def isqrt (n : Nat) : Nat := isqrtFrom n (n.log2 / 2 + 1) 0

/-- A magnitude as a fixed-point number (rounded down). -/
def fxOf (m : Nat) (e : Int) : Nat := let p := XVal.ratio m e; p.1 * fxOne / p.2

/-- An exact value or an enclosure of it: magnitude num/den with a slack of `slack`/den on either side. -/
structure Enclosure where
  neg : Bool
  num : Nat
  den : Nat
  slack : Nat
  deriving DecidableEq, Repr

/-- ulp(y) of R167 as a quotient over 2^149: y is num/den. -/
def ulpExp (num den : Nat) : Int := if num = 0 then -149 else max (log2Ratio num den - 23) (-149)

/-- |r − y| ≤ bound for every y of the enclosure, with the bound `units` × 2^`q`. -/
def within (y : Enclosure) (r : XVal) (units : Nat) (q : Int) : Bool :=
  match r with
  | .fin neg m e =>
    -- everything over the denominator den × 2^200 (2^400 when an exponent lies lower)
    let big := 2 ^ 400
    let yv : Int := (if y.neg then -1 else 1) * (y.num * big)
    let rv : Int := (if neg then -1 else 1) * ((m * 2 ^ (e + 400).toNat) * y.den)
    let b : Int := (units * 2 ^ (q + 400).toNat) * y.den - y.slack * big
    decide ((yv - rv).natAbs ≤ b)
  | _ => false

/-- The enclosure of the exact value for a finite nonzero input that R167 and R168 leave a bound for: form `fn`, input
magnitude m × 2^e with sign `neg`; the bound as units and the exponent of its unit (`none`: ulp of y). -/
def transEnclosure (fn : Nat) (neg : Bool) (m : Nat) (e : Int) : Enclosure × Nat × Option Int :=
  let x := XVal.ratio m e
  let fx (neg : Bool) (v : Nat) : Enclosure := ⟨neg, v, fxOne, 2 ^ 30⟩
  match fn with
  | 0 => (⟨neg, x.2, x.1, 0⟩, 1, none)
  | 1 =>
    -- 1/√(n/d) = √(n d)/n, over 2^200
    let s := isqrt (x.1 * x.2 * 2 ^ 600)
    (⟨false, s, x.1 * 2 ^ 300, 1⟩, 1, none)
  | 3 =>
    let fl : Int := if neg then -(((x.1 + x.2 - 1) / x.2 : Nat) : Int) else ((x.1 / x.2 : Nat) : Int)
    let frac := if neg then (fl.natAbs * x.2 - x.1) * fxOne / x.2 else (x.1 % x.2) * fxOne / x.2
    let v := fxExp2 frac
    -- far outside the range of the format, where only the overflow or the bound of a subnormal counts
    if fl < -1000 then (⟨false, 1, 2 ^ 1000, 1⟩, 2, none)
    else if 129 < fl then (⟨false, 2 ^ 129, 1, 0⟩, 2, none)
    else if fl < 0 then (⟨false, v, fxOne * 2 ^ fl.natAbs, 2 ^ 30⟩, 2, none)
    else (⟨false, v * 2 ^ fl.natAbs, fxOne, 2 ^ 30 * 2 ^ fl.natAbs⟩, 2, none)
  | 4 =>
    let g := log2Ratio x.1 x.2
    let mant := if g < 0 then x.1 * 2 ^ g.natAbs * fxOne / x.2 else x.1 * fxOne / (x.2 * 2 ^ g.natAbs)
    let y : Int := g * fxOne + fxLog2 mant
    let near := x.2 ≤ 2 * x.1 && x.1 ≤ 2 * x.2
    (fx (decide (y < 0)) y.natAbs, if near then 1 else 2, if near then some (-22) else none)
  | 5 | 6 =>
    -- reduced to [0, 2) with the sign of x for the sine
    let r := x.1 * fxOne / x.2 % (2 * fxOne)
    let half := fxOne / 2
    let quad := r / half
    let t := r % half
    let (s, v) := if fn = 5 then
        (if quad = 0 then (false, fxSin t) else if quad = 1 then (false, fxCos t)
          else if quad = 2 then (true, fxSin t) else (true, fxCos t))
      else
        (if quad = 0 then (false, fxCos t) else if quad = 1 then (true, fxSin t)
          else if quad = 2 then (true, fxCos t) else (false, fxSin t))
    (fx (if fn = 5 then s != neg else s) v, 1, some (-22))
  | _ =>
    if x.1 * 2 ^ 13 < x.2 then
      -- x − x³/3 ≤ tanh x ≤ x − x³/3 + 2x⁵/15
      let n := x.1; let d := x.2
      (⟨neg, 15 * n * d ^ 4 - 5 * n ^ 3 * d ^ 2 + n ^ 5, 15 * d ^ 5, n ^ 5⟩, 2, none)
    else
      let u := 2 * x.1 * fxOne / x.2
      let t := u * fxOne / fxLn2
      let k := t / fxOne
      let ex := fxExp2 (t % fxOne) * 2 ^ k
      (⟨neg, (ex - fxOne) * fxOne / (ex + fxOne), fxOne, 2 ^ 60⟩, 2, none)

/-- The exponent n when a positive value is exactly 2^n. -/
def exactPow2 (m : Nat) (e : Int) : Option Int := if m = 2 ^ m.log2 && m != 0 then some (m.log2 + e) else none

/-- A finite value is an integer multiple of 2^−k. -/
def isMultiple (m : Nat) (e : Int) (k : Nat) : Bool := let p := XVal.ratio (m * 2 ^ k) e; p.1 % p.2 = 0

/-- The results that R167's last column and R168 state for x, and `none` where only a bound is stated. -/
def transExact (fn : Nat) (x : XVal) : Option XVal :=
  let one (neg : Bool) : XVal := .fin neg 1 0
  match fn, x with
  | _, .nan => some .nan
  | 0, .inf n => some (.zero n)
  | 0, .fin n m e => if m = 0 then some (.inf n) else
      match exactPow2 m e with
      -- 2^−k is representable for −k from −149 to 127
      | some k => if -127 ≤ k && k ≤ 149 then some (.fin n 1 (-k)) else none
      | none => none
  | 1, .inf n => some (if n then .nan else .zero false)
  | 1, .fin n m e => if m = 0 then some (.inf n) else if n then some .nan else
      match exactPow2 m e with
      | some k => if k % 2 = 0 then some (.fin false 1 (-(k / 2))) else none
      | none => none
  | 2, .inf n => some (if n then .nan else .inf false)
  | 2, .fin n m e => if m = 0 then some (.zero n) else if n then some .nan else
      -- correctly rounded: √(m 2^e) to 200 extra bits, with a sticky bit
      let e2 := if e % 2 = 0 then e else e - 1
      let m2 := (if e % 2 = 0 then m else 2 * m) * 2 ^ 200
      let s := isqrt m2
      some (.fin false (2 * s + (if s * s = m2 then 0 else 1)) (e2 / 2 - 100 - 1))
  | 3, .inf n => some (if n then .zero false else .inf false)
  | 3, .fin n m e => if m = 0 then some (one false) else
      if isMultiple m e 0 then
        let p := XVal.ratio m e
        let k : Int := if n then -((p.1 / p.2 : Nat) : Int) else ((p.1 / p.2 : Nat) : Int)
        if -149 ≤ k && k ≤ 127 then some (.fin false 1 k) else none
      else none
  | 4, .inf n => some (if n then .nan else .inf false)
  | 4, .fin n m e => if m = 0 then some (.inf true) else if n then some .nan else
      match exactPow2 m e with
      | some k => some (.ofInt k)
      | none => none
  | 5, .inf _ => some .nan
  | 5, .fin n m e => if m = 0 then some (.zero n) else if isMultiple m e 0 then some (.zero n)
      else if isMultiple m e 1 then
        let p := XVal.ratio (2 * m) e
        some (one (((p.1 / p.2) % 4 == 3) != n))
      else none
  | 6, .inf _ => some .nan
  | 6, .fin _ m e => if m = 0 then some (one false) else if isMultiple m e 0 then
        let p := XVal.ratio m e
        some (one ((p.1 / p.2) % 2 == 1))
      else if isMultiple m e 1 then some (.zero false) else none
  | _, .inf n => some (one n)
  | _, .fin n m e => if m = 0 then some (.zero n)
      else if (let p := XVal.ratio m e; 9 * p.2 ≤ p.1) then some (one n) else none

/-- The result of a transcendental form for input bits (R167 to R169); `ftzIn` says that `.ftz` acts on the input. -/
def transcend (fn : Nat) (ftzIn ftz clamp absf negf : Bool) (a : Word) : Word :=
  let x := prepF .f32 ftzIn absf negf a.toNat
  match transExact fn x with
  | some y => BitVec.ofNat 32 (finishF .f32 .rn ftz clamp y)
  | none =>
    match x with
    | .fin n m e =>
      let (y, units, q) := transEnclosure fn n m e
      let key := BitVec.ofNat 32 (roundX .f32 .rn x)
      let cand := (Config.transcendental fn key ftz clamp).toNat
      let near := roundRatio .f32 .rn y.neg y.num y.den
      -- an exact value beyond the format rounds to the infinity, which no bound in units admits
      let r := if within y (decodeF .f32 cand) units (q.getD (ulpExp y.num y.den)) then cand else near
      BitVec.ofNat 32 (finishBits .f32 ftz clamp r)
    | _ => 0x7FC00000#32

end Sys2Proof
end

