-- ==== Sys2Proof/Machine/LaneFloat.lean ====
section
/-!
DEFINITION. Lane floating-point instructions (07_lane_float.md, R157 to R171).
-/
namespace Sys2Proof.Machine

open Sys2Proof

def isFtz (f : LaneFields) : Bool := f.mode.getLsbD 3
def isClamp (f : LaneFields) : Bool := f.flags.getLsbD 7

/-- The rounding mode of R73, with the draw that `sr` uses. -/
def rmode (f : LaneFields) (rnd : Nat) : RMode :=
  match (f.mode.extractLsb' 0 3).toNat with
  | 0 => .rn
  | 1 => .rz
  | 2 => .rp
  | 3 => .rm
  | _ => .sr rnd
def rmode0 (f : LaneFields) : RMode := rmode f 0

/-- `.ftz` flushes the source that a code names; it never changes a constant or a literal (R79, R152). -/
def ftzOf (f : LaneFields) (code : BitVec 8) : Bool := isFtz f && !(Form.isConst code || Form.isLit code)

/-- `Prep` of sources A, B and C with the flags of R74. -/
def prepA (fmt : Fmt) (f : LaneFields) (b : Nat) : XVal := prepF fmt (ftzOf f f.a) (f.flags.getLsbD 1) (f.flags.getLsbD 0) b
def prepB (fmt : Fmt) (f : LaneFields) (b : Nat) : XVal := prepF fmt (ftzOf f f.b) (f.flags.getLsbD 3) (f.flags.getLsbD 2) b
def prepC (fmt : Fmt) (f : LaneFields) (b : Nat) : XVal := prepF fmt (ftzOf f f.c) (f.flags.getLsbD 5) (f.flags.getLsbD 4) b

/-- `Finish` in the mode of the instruction, with its `.ftz` and `.clamp`. -/
def finishOf (fmt : Fmt) (f : LaneFields) (x : XVal) : Nat := finishF fmt (rmode0 f) (isFtz f) (isClamp f) x

/-- The sources of an FP32 form. -/
def Ctx.fa (c : Ctx) (f : LaneFields) (l : Nat) : XVal := prepA .f32 f (c.srcA f .f32 l).toNat
def Ctx.fb (c : Ctx) (f : LaneFields) (l : Nat) : XVal := prepB .f32 f (c.srcB f .f32 l).toNat
def Ctx.fc (c : Ctx) (f : LaneFields) (l : Nat) : XVal := prepC .f32 f (c.srcC f .f32 l).toNat

def f32Word (f : LaneFields) (x : XVal) : Word := BitVec.ofNat 32 (finishOf .f32 f x)

def floatBin (i : Instr) (f : LaneFields) (op : XVal → XVal → XVal) (c : Ctx) : Eff State :=
  c.write1 i f fun l => f32Word f (op (c.fa f l) (c.fb f l))

/-- a × b + c with one rounding (R161, R162). -/
def fmaX (down : Bool) (a b c : XVal) : XVal := (XVal.mul a b).add down c
def downOf (f : LaneFields) : Bool := (rmode0 f).isDown

def execFadd (f : LaneFields) (s : State) : Result :=
  issue (.fadd f) (floatBin (.fadd f) f fun a b => a.add (downOf f) b) s
def execFsub (f : LaneFields) (s : State) : Result :=
  issue (.fsub f) (floatBin (.fsub f) f fun a b => a.add (downOf f) b.neg) s
def execFmul (f : LaneFields) (s : State) : Result := issue (.fmul f) (floatBin (.fmul f) f fun a b => a.mul b) s
def execFfma (f : LaneFields) (s : State) : Result :=
  issue (.ffma f) (fun c => c.write1 (.ffma f) f fun l =>
    f32Word f (fmaX (downOf f) (c.fa f l) (c.fb f l) (c.fc f l))) s

/-- The minimum and maximum that propagate a NaN, and those that return the other operand (R163). -/
def fminX (a b : XVal) : XVal := if a.isNan || b.isNan then .nan else a.minOf b
def fmaxX (a b : XVal) : XVal := if a.isNan || b.isNan then .nan else a.maxOf b
def fminnumX (a b : XVal) : XVal := if a.isNan then b else if b.isNan then a else a.minOf b
def fmaxnumX (a b : XVal) : XVal := if a.isNan then b else if b.isNan then a else a.maxOf b

def execFmin (f : LaneFields) (s : State) : Result := issue (.fmin f) (floatBin (.fmin f) f fminX) s
def execFmax (f : LaneFields) (s : State) : Result := issue (.fmax f) (floatBin (.fmax f) f fmaxX) s
def execFminnum (f : LaneFields) (s : State) : Result := issue (.fminnum f) (floatBin (.fminnum f) f fminnumX) s
def execFmaxnum (f : LaneFields) (s : State) : Result := issue (.fmaxnum f) (floatBin (.fmaxnum f) f fmaxnumX) s

/-- The float conditions (R164). -/
def floatHolds (cc : FloatCond) (a b : XVal) : Bool :=
  let un := a.isNan || b.isNan
  match cc with
  | .eq => a.eq b
  | .ne => !a.eq b
  | .lt => a.lt b
  | .le => a.lt b || a.eq b
  | .un => un
  | .ord => !un

def execFcmp (cc : FloatCond) (f : LaneFields) (s : State) : Result :=
  issue (.fcmp cc f) (fun c => c.writeCompare (.fcmp cc f) f fun l => floatHolds cc (c.fa f l) (c.fb f l)) s

/-- The class bit of a value (R165). -/
def classBit : XVal → Nat
  | .nan => 8
  | .inf n => if n then 0 else 7
  | .fin n m e =>
    if m = 0 then (if n then 3 else 4)
    else if (XVal.fin false m e).lt (.fin false 1 (-126)) then (if n then 2 else 5)
    else if n then 1 else 6

def execFclass (f : LaneFields) (s : State) : Result :=
  issue (.fclass f) (fun c => c.write1 (.fclass f) f fun l => 1#32 <<< classBit (c.fa f l)) s

/-- A value rounded to an integer value, its sign kept (R166). -/
def integralX (mode : RMode) : XVal → XVal
  | .fin n m e => let p := XVal.ratio m e; .fin n (roundInt mode n p.1 p.2) 0
  | v => v

def RoundDir.mode : RoundDir → RMode
  | .rn => .rn
  | .rz => .rz
  | .rp => .rp
  | .rm => .rm

/-- The fractional part (R166). -/
def fractWord (f : LaneFields) (a : XVal) : Word :=
  match a with
  | .fin _ _ _ =>
    let r := finishF .f32 .rn (isFtz f) false (a.add false (integralX .rm a).neg)
    if r = 0x3F800000 then 0x3F7FFFFF#32 else BitVec.ofNat 32 r
  | _ => 0x7FC00000#32

def execFfract (f : LaneFields) (s : State) : Result :=
  issue (.ffract f) (fun c => c.write1 (.ffract f) f fun l => fractWord f (c.fa f l)) s
/-- The exponent of `fldexp`: beyond ±1000 every FP32 source over- or underflows alike. -/
def ldexpBy (b : Word) : Int := min (max b.toInt (-1000)) 1000

def execFldexp (f : LaneFields) (s : State) : Result :=
  issue (.fldexp f) (fun c => c.write1 (.fldexp f) f fun l =>
    f32Word f ((c.fa f l).scale (ldexpBy (c.srcB f .int32 l)))) s

/-- Mantissa and exponent (R166). -/
def frexpX : XVal → XVal × Int
  | .fin n m e => if m = 0 then (.fin n 0 0, 0) else (.fin n m (-(m.log2 + 1 : Nat)), e + (m.log2 + 1 : Nat))
  | v => (v, 0)

def execFfrexp (f : LaneFields) (s : State) : Result :=
  issue (.ffrexp f) (fun c => c.write2 (.ffrexp f) f fun l =>
    let r := frexpX (c.fa f l)
    joinWords (f32Word f r.1) (BitVec.ofInt 32 r.2)) s
def execFround (dir : RoundDir) (f : LaneFields) (s : State) : Result :=
  issue (.fround dir f) (fun c => c.write1 (.fround dir f) f fun l =>
    BitVec.ofNat 32 (finishF .f32 .rn (isFtz f) (isClamp f) (integralX (RoundDir.mode dir) (c.fa f l)))) s

/-! Transcendentals (R167 to R169). -/

def transcendental (i : Instr) (fn : Nat) (f : LaneFields) (c : Ctx) : Eff State :=
  c.write1 i f fun l =>
    transcend fn (ftzOf f f.a) (isFtz f) (isClamp f) (f.flags.getLsbD 1) (f.flags.getLsbD 0) (c.srcA f .f32 l)

def execFrcp (f : LaneFields) (s : State) : Result := issue (.frcp f) (transcendental (.frcp f) 0 f) s
def execFrsq (f : LaneFields) (s : State) : Result := issue (.frsq f) (transcendental (.frsq f) 1 f) s
def execFsqrt (f : LaneFields) (s : State) : Result := issue (.fsqrt f) (transcendental (.fsqrt f) 2 f) s
def execFexp2 (f : LaneFields) (s : State) : Result := issue (.fexp2 f) (transcendental (.fexp2 f) 3 f) s
def execFlog2 (f : LaneFields) (s : State) : Result := issue (.flog2 f) (transcendental (.flog2 f) 4 f) s
def execFsinpi (f : LaneFields) (s : State) : Result := issue (.fsinpi f) (transcendental (.fsinpi f) 5 f) s
def execFcospi (f : LaneFields) (s : State) : Result := issue (.fcospi f) (transcendental (.fcospi f) 6 f) s
def execFtanh (f : LaneFields) (s : State) : Result := issue (.ftanh f) (transcendental (.ftanh f) 7 f) s

/-! Packed halves (R170). -/

/-- Half `k` of a word as a number. -/
def halfNat (x : Word) (k : Nat) : Nat := (x.extractLsb' (16 * k) 16).toNat
/-- A word of two halves. -/
def packHalves (g : Nat → Nat) : Word := BitVec.ofNat 32 (g 0 % 65536 + 65536 * (g 1 % 65536))

def packedBin (i : Instr) (f : LaneFields) (op : XVal → XVal → XVal) (c : Ctx) : Eff State :=
  c.write1 i f fun l => packHalves fun k =>
    finishOf .f16 f (op (prepA .f16 f (halfNat (c.srcA f .f16x2 l) k)) (prepB .f16 f (halfNat (c.srcB f .f16x2 l) k)))
def packedFma (i : Instr) (fmt : Fmt) (want : Want) (f : LaneFields) (c : Ctx) : Eff State :=
  c.write1 i f fun l => packHalves fun k =>
    finishOf fmt f (fmaX (downOf f) (prepA fmt f (halfNat (c.srcA f want l) k))
      (prepB fmt f (halfNat (c.srcB f want l) k)) (prepC fmt f (halfNat (c.srcC f want l) k)))

def execHadd2 (f : LaneFields) (s : State) : Result :=
  issue (.hadd2 f) (packedBin (.hadd2 f) f fun a b => a.add (downOf f) b) s
def execHsub2 (f : LaneFields) (s : State) : Result :=
  issue (.hsub2 f) (packedBin (.hsub2 f) f fun a b => a.add (downOf f) b.neg) s
def execHmul2 (f : LaneFields) (s : State) : Result := issue (.hmul2 f) (packedBin (.hmul2 f) f fun a b => a.mul b) s
def execHfma2 (f : LaneFields) (s : State) : Result := issue (.hfma2 f) (packedFma (.hfma2 f) .f16 .f16x2 f) s
def execHmin2 (f : LaneFields) (s : State) : Result := issue (.hmin2 f) (packedBin (.hmin2 f) f fminX) s
def execHmax2 (f : LaneFields) (s : State) : Result := issue (.hmax2 f) (packedBin (.hmax2 f) f fmaxX) s
def execBfma2 (f : LaneFields) (s : State) : Result := issue (.bfma2 f) (packedFma (.bfma2 f) .bf16 .bf16x2 f) s

/-! FP64 (R171). -/

def Ctx.da (c : Ctx) (f : LaneFields) (l : Nat) : XVal := prepA .f64 f (c.pairA f .f64 l).toNat
def Ctx.db (c : Ctx) (f : LaneFields) (l : Nat) : XVal := prepB .f64 f (c.pairB f .f64 l).toNat
def Ctx.dc (c : Ctx) (f : LaneFields) (l : Nat) : XVal := prepC .f64 f (c.pairC f .f64 l).toNat
def f64Word (f : LaneFields) (x : XVal) : DWord := BitVec.ofNat 64 (finishOf .f64 f x)

def execDadd (f : LaneFields) (s : State) : Result :=
  issue (.dadd f) (fun c => c.write2 (.dadd f) f fun l => f64Word f ((c.da f l).add (downOf f) (c.db f l))) s
def execDmul (f : LaneFields) (s : State) : Result :=
  issue (.dmul f) (fun c => c.write2 (.dmul f) f fun l => f64Word f ((c.da f l).mul (c.db f l))) s
def execDfma (f : LaneFields) (s : State) : Result :=
  issue (.dfma f) (fun c => c.write2 (.dfma f) f fun l =>
    f64Word f (fmaX (downOf f) (c.da f l) (c.db f l) (c.dc f l))) s

end Sys2Proof.Machine
end

