-- ==== Sys2Proof/Machine/Atomic.lean ====
section
/-!
DEFINITION. Atomics and ring control blocks (11_atomics.md, R252 to R273), with the events that perform and complete
them. The lanes of a request are performed one after another in ascending order, which is what R265 makes of combining.
-/
namespace Sys2Proof.Machine

open Sys2Proof

/-- What an atomic instruction asks for: its work, operand bytes, alignment, and the words that each lane supplies. -/
structure AtomForm where
  work : AtomWork
  size : Nat
  align : Nat
  words : Nat
  /-- Value slots of a result, or none for `ared`. -/
  result : Option Nat
  nf : Bool

/-- The operation exists on host memory (R258), where its form returns a result: `ared` does not. -/
def AtomWork.onHost : AtomWork → Bool
  | .rmw .add | .rmw .sub | .rmw .xchg | .cas => true
  | _ => false
/-- Lanes with one operand address form one request (R265). -/
def AtomWork.combines : AtomWork → Bool
  | .rmw .xchg | .rmw .inc | .rmw .dec | .cas | .enq _ | .deq _ => false
  | .rmw _ => true
/-- The bytes of elements that follow a ring block (R256). -/
def AtomWork.ringBytes : AtomWork → Option Nat
  | .enq k | .deq k => some (32 + 4 * 2 ^ k)
  | _ => none

/-- The permissions that an atomic needs: R450 asks only write permission of `ared`, which a valid entry grants only with
read permission (R256; DEDUCED, log entry 149). -/
def AtomForm.need (a : AtomForm) : Need := if a.result.isSome then .atomic else .store

/-- The checks of one lane (R256) in their order, with the caches filled by its translation. -/
def Ctx.atomCheck (c : Ctx) (a : AtomForm) (scope : Nat) (va : DWord) (s : State) : Except Cause Place × State :=
  if misaligned va a.align then (.error .misaligned, s)
  else if !canonical va then (.error .addrNoncanon, s)
  else match translate s c.cluster (some c.core) c.vi va with
    | (.error k, s) => (.error k, s)
    | (.ok t, s) => match permit a.need t with
      | some k => (.error k, s)
      | none =>
        let off := va52 va - t.va
        if t.place.mem != 0 && !(scope == 4 && a.work.onHost && a.result.isSome) then (.error .atomTarget, s)
        else if t.size < off + a.work.ringBytes.getD 0 then (.error .ringForm, s)
        else (.ok ⟨t.place.mem, t.place.pa + off⟩, s)

/-- The checks of every covered lane (R256, R269). -/
def Ctx.atomChecks (c : Ctx) (a : AtomForm) (f : LaneFields) : List (Nat × Except Cause Place) × State :=
  c.covered.foldl (fun (acc : List (Nat × Except Cause Place) × State) l =>
    let r := c.atomCheck a (scopeOf f) (c.address f l) acc.2
    (acc.1 ++ [(l, r.1)], r.2)) ([], c.s)

/-- The lanes that send a request, with their places. -/
def activeLanes (ps : List (Nat × Except Cause Place)) : List (Nat × Place) :=
  ps.filterMap fun p => match p.2 with
    | .ok x => some (p.1, x)
    | .error _ => none

/-- The lane that names a lane's request: the lowest active lane with the same address, or itself (R265). -/
def Ctx.requestLane (c : Ctx) (a : AtomForm) (f : LaneFields) (act : List (Nat × Place)) (l : Nat) : Nat :=
  if !a.work.combines then l
  else match act.find? fun p => c.address f p.1 == c.address f l with
    | some p => p.1
    | none => l

/-- The operand words of a lane: queue slots, a register block, or a constant as one word or one 64-bit value (R254). -/
def Ctx.atomOperand (c : Ctx) (a : AtomForm) (f : LaneFields) (l : Nat) : List Word :=
  if Form.isConst f.c || Form.isLit f.c then
    let want : Want := match a.work with
      | .rmw op => if Form.isFloatAtom op then .f32 else if a.words = 2 then .int64 else .int32
      | _ => .int32
    wordsOf (present want f.c (f.lit.getD 0#32)).toNat a.words
  else (List.range a.words).map fun k => codeWord c.w f.c k l

/-- The requests of an instruction, in ascending order of their lowest lanes (R266). -/
def Ctx.atomRequests (c : Ctx) (a : AtomForm) (f : LaneFields) (base : Nat) (act : List (Nat × Place)) : List Req :=
  (act.filter fun p => c.requestLane a f act p.1 == p.1).map fun p =>
    let ops := (act.filter fun q => c.requestLane a f act q.1 == p.1).map fun q => (q.1, c.atomOperand a f q.1)
    c.req (base + p.1) (.atomic a.work p.2 (c.address f p.1) (scopeOf f) a.size ops
      (a.result.map fun _ => Form.qIndex f.d) a.nf)

/-- The status slot (R268): 0 when performed. -/
def atomStatus (c : Option Cause) : QEntry :=
  .ready (match c with
    | some k => 0x80000000#32 ||| BitVec.ofNat 32 k.code
    | none => 0#32)

/-- The slots that a lane allocates (R267 to R269): zeros for a helper lane, a status and zeros for a lane that `.nf`
removed, pending ones for an active lane. -/
def Ctx.atomSlots (c : Ctx) (a : AtomForm) (f : LaneFields) (base : Nat) (ps : List (Nat × Except Cause Place))
    (n l : Nat) : List QEntry :=
  let total := n + (if a.nf then 1 else 0)
  let zeros (k : Nat) : List QEntry := List.replicate k (.ready 0#32)
  match ps.find? fun p => p.1 == l with
  | none => zeros total
  | some (_, .error k) => atomStatus (some k) :: zeros n
  | some (_, .ok _) => (List.range total).map (QEntry.pending (base + c.requestLane a f (activeLanes ps) l))

/-- Every lane's column of the result queue has room for the slots (R267). -/
def Ctx.atomRoom (c : Ctx) (f : LaneFields) (a : AtomForm) : Bool :=
  match a.result with
  | some n => c.room (Form.qIndex f.d) (n + (if a.nf then 1 else 0))
  | none => true

/-- An atomic instruction (R256, R265 to R267). -/
def atomic (i : Instr) (f : LaneFields) (a : AtomForm) (c : Ctx) : Eff State :=
  let us := usesOf i
  if !c.atomRoom f a then .error .wait
  else
    let r := c.atomChecks a f
    if r.2.delayed then .error .wait
    else match c.gate us (if a.nf then [] else c.placeFaults f r.1) with
    | .error e => .error e
    | .ok () =>
      let base := r.2.nextId
      let t := r.2.place (c.atomRequests a f base (activeLanes r.1)) waveWidth
      let t := t.updWave c.ref fun w =>
        let w := popAll c.em us w
        match a.result with
        | some n => appendSlots (Form.qIndex f.d) c.em (c.atomSlots a f base r.1 n) w
        | none => w
      .ok (c.doneState i t)

/-- The forms (R252, R255, R267). -/
def rmwForm (op : AtomOp) (f : LaneFields) (returns : Bool) : AtomForm :=
  let n := Form.atomWords f
  ⟨.rmw op, 4 * n, 4 * n, n, if returns then some n else none, returns && Form.isNf f⟩
def casForm (sz : CasSize) (f : LaneFields) : AtomForm :=
  let n := Form.casWords sz
  ⟨.cas, 4 * n, 4 * n, 2 * n, some n, Form.isNf f⟩

def enqForm (f : LaneFields) : AtomForm := ⟨.enq f.mode.toNat, 4, 32, 1, some 1, Form.isNf f⟩
def deqForm (f : LaneFields) : AtomForm := ⟨.deq f.mode.toNat, 4, 32, 0, some 2, Form.isNf f⟩

def execAatom (op : AtomOp) (f : LaneFields) (s : State) : Result :=
  issue (.aatom op f) (atomic (.aatom op f) f (rmwForm op f true)) s
def execAcas (sz : CasSize) (f : LaneFields) (s : State) : Result :=
  issue (.acas sz f) (atomic (.acas sz f) f (casForm sz f)) s
def execAred (op : AtomOp) (f : LaneFields) (s : State) : Result :=
  issue (.ared op f) (atomic (.ared op f) f (rmwForm op f false)) s
def execAenq (f : LaneFields) (s : State) : Result :=
  issue (.aenq f) (atomic (.aenq f) f (enqForm f)) s
def execAdeq (f : LaneFields) (s : State) : Result :=
  issue (.adeq f) (atomic (.adeq f) f (deqForm f)) s

/-! Performing a request. -/

/-- The new value of `n` bits (R260). -/
def atomNew (op : AtomOp) (n : Nat) (old b : BitVec n) : BitVec n :=
  let flt (f : XVal → XVal → XVal) : BitVec n :=
    BitVec.ofNat n (roundX .f32 .rn (f (decodeF .f32 old.toNat) (decodeF .f32 b.toNat)))
  match op with
  | .add => old + b
  | .sub => old - b
  | .min => if old.toInt ≤ b.toInt then old else b
  | .max => if old.toInt ≤ b.toInt then b else old
  | .minu => if old.toNat ≤ b.toNat then old else b
  | .maxu => if old.toNat ≤ b.toNat then b else old
  | .and => old &&& b
  | .or => old ||| b
  | .xor => old ^^^ b
  | .xchg => b
  | .inc => if b.toNat ≤ old.toNat then 0 else old + 1
  | .dec => if old.toNat = 0 || b.toNat < old.toNat then b else old - 1
  | .fadd => flt fun x y => x.add false y
  | .fmin => flt fminX
  | .fmax => flt fmaxX

/-- Before an atomic at `.dev` or `.sys`, the cluster's copy of its line is written back and dropped, and for `.sys` the
host's copies are resolved (R258). -/
def State.toPoint (s : State) (cluster scope : Nat) (p : Place) : State :=
  if p.mem != 0 || scope ≤ 2 then s
  else
    let t := s.evictLine cluster (lineOf p.pa)
    if scope == 4 && t.inHostBias p.pa then t.recallHost p.pa else t

/-- Reads at the point where an atomic of a scope is performed (R258): the home L1 slice of the cluster, or the Lantern
bank; the core's read buffer gives no older bytes afterwards (R278). -/
def State.pointRead (s : State) (cluster core scope : Nat) (p : Place) (n : Nat) : List Byte × State :=
  if p.mem != 0 then (s.hostRead p.pa n, s)
  else if scope ≤ 2 then
    let (bs, _, t) := s.loadAt cluster (some core) 2 p n
    (bs, t)
  else
    let t := (s.toPoint cluster scope p).reach (lineOf p.pa) false
    let bs := Mem.read t.dmem p.pa n
    (bs, (t.refresh cluster (some core) scope p.pa n bs).noteZero p bs)

/-- Writes at that point; the core's read buffer takes the store (R277), and the bytes are no lost ones any more (R35). -/
def State.pointWrite (s : State) (cluster core scope : Nat) (p : Place) (bs : List Byte) : State :=
  if p.mem != 0 then s.hostPut p.pa bs
  else if scope ≤ 2 then s.storeAt cluster (some core) 2 p bs
  else (({ s with dmem := Mem.write s.dmem p.pa bs }.unzero p.pa bs.length).reach (lineOf p.pa) true).updCore core fun c =>
    c.updateCopy p.pa bs 0

/-- The outcome of one lane: its value words, or RING_FORM. -/
abbrev LaneOutcome := Nat × Except Cause (List Word)

/-- A ring block as one indivisible action (R263, R264). -/
def ringAct (s : State) (cluster core scope : Nat) (p : Place) (enq : Option Word) (k : Nat) :
    Except Cause (List Word) × State :=
  let at_ (o : Nat) : Place := ⟨p.mem, p.pa + o⟩
  let (hb, s) := s.pointRead cluster core scope p 4
  let (tb, s) := s.pointRead cluster core scope (at_ 4) 4
  let head : Word := BitVec.ofNat 32 (ofBytes hb)
  let tail : Word := BitVec.ofNat 32 (ofBytes tb)
  let cnt := (tail - head).toNat
  let slot (x : Word) : Place := at_ (32 + 4 * (x.toNat % 2 ^ k))
  if 2 ^ k < cnt then (.error .ringForm, s)
  else match enq with
    | some d =>
      if cnt = 2 ^ k then (.ok [0#32], s)
      else
        let s := (s.toPoint cluster scope (slot tail)).pointWrite cluster core scope (slot tail) (bytesOf d.toNat 4)
        (.ok [1#32], s.pointWrite cluster core scope (at_ 4) (bytesOf (tail + 1#32).toNat 4))
    | none =>
      if cnt = 0 then (.ok [0#32, 0#32], s)
      else
        let (eb, s) := s.pointRead cluster core scope (slot head) 4
        (.ok [1#32, BitVec.ofNat 32 (ofBytes eb)], s.pointWrite cluster core scope p (bytesOf (head + 1#32).toNat 4))

/-- The bytes of a ring block with elements of exponent `k` hold undefined contents, a draw (R263, R425). -/
def State.scramble (s : State) (cluster core scope : Nat) (p : Place) (k : Nat) : State :=
  let put (t : State) (o n : Nat) : State :=
    t.pointWrite cluster core scope ⟨p.mem, p.pa + o⟩ ((List.range n).map fun j => Config.freeByte s.fresh (o + j))
  let t := (List.range (2 ^ k)).foldl (fun t j => put t (32 + 4 * j) 4) (put s 0 8)
  { t with fresh := s.fresh + 1 }

/-- A ring instruction: one whose exponent differs from that of an earlier one on the block leaves the contents of the
block undefined (R263, R425). No store to the block clears the exponent, so that this holds too of a block that software sets up
anew at the place with another one (DEDUCED, log entry 137). -/
def ringStep (s : State) (cluster core scope : Nat) (p : Place) (enq : Option Word) (k : Nat) :
    Except Cause (List Word) × State :=
  let (r, t) := ringAct s cluster core scope p enq k
  match t.rings.find? fun x => x.1 == p with
  | none => (r, { t with rings := (p, k) :: t.rings })
  | some x => if x.2 = k then (r, t) else (r, t.scramble cluster core scope p (max k x.2))

/-- One lane of a request is performed: its outcome and the memory after it. -/
def performAtom (work : AtomWork) (cluster core scope size : Nat) (p : Place) (words : List Word) (s : State) :
    Except Cause (List Word) × State :=
  match work with
  | .enq k => ringStep s cluster core scope p (some (laneAt words 0)) k
  | .deq k => ringStep s cluster core scope p none k
  | .rmw op =>
    let (bs, s) := s.pointRead cluster core scope p size
    let old := ofBytes bs
    let new := (atomNew op (8 * size) (BitVec.ofNat _ old) (BitVec.ofNat _ (ofWords words))).toNat
    (.ok (wordsOf old (size / 4)), s.pointWrite cluster core scope p (bytesOf new size))
  | .cas =>
    let (bs, s) := s.pointRead cluster core scope p size
    let old := ofBytes bs
    let n := size / 4
    (.ok (wordsOf old n),
      if old = ofWords (words.take n) then s.pointWrite cluster core scope p (bytesOf (ofWords (words.drop n)) size)
      else s)

/-- Every lane of a request, in ascending order (R265, R266). -/
def performAll (work : AtomWork) (cluster core scope size : Nat) (p : Place) :
    List (Nat × List Word) → State → List LaneOutcome × State
  | [], s => ([], s)
  | (l, ws) :: rest, s =>
    let (o, s) := performAtom work cluster core scope size p ws s
    let (os, s) := performAll work cluster core scope size p rest s
    ((l, o) :: os, s)

/-- Slot `k` of a lane whose request has an outcome (R267, R268). -/
def outcomeSlot (nf : Bool) (va : DWord) (pc : Word) (o : Except Cause (List Word)) (k : Nat) : QEntry :=
  match o with
  | .ok ws => if nf then (if k = 0 then atomStatus none else .ready (laneAt ws (k - 1))) else .ready (laneAt ws k)
  | .error c => if nf then (if k = 0 then atomStatus (some c) else .ready 0#32) else .token ⟨c, va, pc, 0, 0⟩

/-- The slots of a request's lanes become ready together and the request ends. -/
def State.atomDone (s : State) (r : Req) (q : Option Nat) (nf : Bool) (va : DWord) (os : List LaneOutcome) : State :=
  let fill (k : Nat) (s : State) (o : LaneOutcome) : State :=
    s.updWave r.w (fillQueue k r.id (1#32 <<< o.1) fun _ j => outcomeSlot nf va r.pc o.2 j)
  (match q with
    | none => s
    | some k => os.foldl (fill k) s).endReq r.id

/-- An atomic at `.wave` or `.wg` to device memory writes after the earlier stores there and in scratch (R280). -/
def State.inCoreBefore (s : State) (r : Req) (p : Place) (scope : Nat) : Bool :=
  scope ≤ 1 && p.mem == 0 && (s.lateBefore r.w r.sl r.id || match s.wave r.w with
    | some w => w.recs.any fun k => k.id < r.id && k.inCore
    | none => false)

/-- An atomic must wait: its line is owned, or an earlier access of the wave comes first (R266, R270, R280, R300). -/
def State.atomWaits (s : State) (r : Req) (p : Place) (scope : Nat) : Bool :=
  s.ownedFor r.w r.sl r.id p || s.held r.w r.id p || s.blockHeld r || s.follows r.w r.id p scope || s.inCoreBefore r p scope

/-- ATOMIC_PERFORM (R258): a request to device memory. -/
def execAtomicPerform (id : Nat) (s : State) : Result :=
  .next (State.creditReq s id (match s.req id with
    | none => s
    | some r => match r.kind with
      | .atomic work p va scope size ops q nf =>
        if p.mem != 0 || s.atomWaits r p scope then s
        else
          let (os, t) := performAll work (clusterOf r.core) r.core scope size p ops s
          t.atomDone r q nf va os
      | _ => s))

/-- The host link has yet to accept an earlier access of the slice to host memory, a request or a store record (R464). -/
def State.hostBusy (s : State) (r : Req) : Bool :=
  (s.reqs.any fun q => q.w == r.w && q.sl == r.sl && q.id < r.id && q.sent.isNone && match s.reqPlace q with
    | some (p, _) => p.mem != 0
    | none => false) ||
  match s.wave r.w with
  | some w => w.recs.any fun k => k.id < r.id && !k.flush && k.lanes.any fun l => l.place.mem != 0
  | none => false

/-- A request to host memory that nothing holds, which has gone to the host (R242, R464). -/
def State.maySend (s : State) (r : Req) : Bool :=
  match s.reqPlace r with
  | some (p, scope) => (p.mem == 1 || p.mem == 2) && !s.held r.w r.id p && !s.follows r.w r.id p scope &&
    !(r.kind.isAtomic && s.hostBusy r)
  | none => false

/-- The requests that have gone to the host are timed from now on (R465). -/
def State.markSent (s : State) : State :=
  { s with reqs := s.reqs.map fun r => if r.sent.isNone && s.maySend r then { r with sent := some s.clock } else r }

/-- A host request fails for every lane with one cause. -/
def failAtomic (s : State) (r : Req) (q : Option Nat) (nf : Bool) (va : DWord) (ops : List (Nat × List Word)) : State :=
  s.atomDone r q nf va (ops.map fun o => (o.1, .error .hostAtomic))

/-- HOST_ATOMIC_COMPLETION (R258): a status other than success changes no memory. -/
def execHostAtomicCompletion (id : Nat) (success : Bool) (s : State) : Result :=
  .next (State.creditReq s id (match s.req id with
    | none => s
    | some r => match r.kind with
      | .atomic work p va scope size ops q nf =>
        if p.mem == 0 || s.hostBusy r || s.held r.w r.id p || s.follows r.w r.id p scope then s
        else if !success || !s.linkUp || s.timedOut r then failAtomic s r q nf va ops
        else
          let (os, t) := performAll work (clusterOf r.core) r.core scope size p ops s
          t.atomDone r q nf va os
      | _ => s))

/-- Fails an outstanding read or atomic to host memory (R465, R467). -/
def failHost (s : State) (id : Nat) : State :=
  match s.req id with
  | none => s
  | some r => match r.kind with
    | .load _ _ _ _ _ _ _ => match s.reqPlace r with
      | some (p, _) => if p.mem == 1 || p.mem == 2 then (s.hostMates r p).foldl (hostLane true) s else s
      | none => s
    | .atomic _ p va _ _ ops q nf => if p.mem != 0 then failAtomic s r q nf va ops else s
    | _ => s

/-- HOST_COMPLETION_TIMEOUT (R465). -/
def execHostCompletionTimeout (id : Nat) (s : State) : Result :=
  .next (match s.req id with
    | none => s
    | some r => if s.timedOut r then failHost s id else s)

end Sys2Proof.Machine
end

