-- ==== Sys2Proof/Machine/Island.lean ====
section
/-!
DEFINITION. Function islands (14_islands.md): images, channels, the intersection and filter functions, links, and the
events by which requests are accepted, audited and completed.
-/
namespace Sys2Proof.Machine

open Sys2Proof

/-! Images and channels (R330 to R333, R355). -/

def kindIndex : IslandKind → Nat
  | .raster => 0
  | .intersection => 1
  | .filter => 2
  | .blend => 3
/-- The unit code of a fault record (R415). -/
def kindUnit : IslandKind → BitVec 8
  | .intersection => 0
  | .filter => 1
  | .raster => 2
  | .blend => 3

/-- The unit of the island that serves a request of a core. -/
def islandUnit (core fn : Nat) : Nat :=
  let half := core % 8 / 4
  match fnKind fn with
  | .raster => 32
  | .intersection => 33 + half
  | .filter => 35 + half
  | .blend => 37

/-- The image that a cluster's islands of a kind hold. -/
def State.image (s : State) (cluster : Nat) (k : IslandKind) : Option IslandImage :=
  ((s.cluster cluster).images[kindIndex k]?).join

/-- The functions of an image: the base image implements every function but `iprim` (R333). -/
def IslandImage.implements (m : IslandImage) (fn : Nat) : Bool :=
  if m.identity = 1 then fn != 2 else (Config.imageFunctions m.digest).testBit fn

/-- The image of the cluster implements the function. -/
def State.hasFunction (s : State) (cluster fn : Nat) : Bool :=
  match s.image cluster (fnKind fn) with
  | some m => m.implements fn
  | none => false

/-- The channel of a quarter-core to an island kind: 32 for each kind, two instances of 16 for the first two (R330). -/
def channelOf (k : IslandKind) (core quarter : Nat) : Nat :=
  (match k with
    | .intersection => 0
    | .filter => 32
    | .raster => 64
    | .blend => 96) + 4 * (core % 8) + quarter

def State.channel (s : State) (cluster chan : Nat) : Channel := ((s.cluster cluster).channels[chan]?).getD ⟨16, false⟩
def State.updChannel (s : State) (cluster chan : Nat) (f : Channel → Channel) : State :=
  s.updCluster cluster fun c => { c with channels := updAt f c.channels chan }

/-! Issue (R336). -/

/-- ISLAND_FN and ISLAND_LINK of an instruction (R333, R336). -/
def Ctx.islandFaults (c : Ctx) (fn : Nat) (q : Option Nat) : List (Cause × Info) :=
  (if c.s.hasFunction c.cluster fn then [] else [(Cause.islandFn, ({} : Info))]) ++
  (match q with
    | none => []
    | some k => match c.w.queue k with
      | some u => if u.kind == .result && u.attach == .island (fnKind fn) then [] else [(Cause.islandLink, ({} : Info))]
      | none => [])

/-- Words of the register blocks of a lane. -/
def Ctx.blockWords (c : Ctx) (code : BitVec 8) (n l : Nat) : List Word :=
  (List.range n).map fun k => codeWord c.w code k l

/-- An island instruction: it waits for room and for a free request slot, then allocates its slots and sends one entry
that carries `lanes` (R336). -/
def islandRequest (i : Instr) (fn imm : Nat) (q : Option Nat) (slots : Nat) (lanes : List (Nat × List Word))
    (places : List (Nat × Nat)) (obj : DWord) (c : Ctx) : Eff State :=
  let chan := channelOf (fnKind fn) c.core c.w.quarter
  match raiseAny (c.islandFaults fn q) with
  | .error e => .error e
  | .ok () =>
    let roomy := match q with
      | some k => c.room k slots
      | none => true
    if !roomy || (c.s.channel c.cluster chan).free = 0 then .error .wait
    else
      let id := c.s.nextId
      let t := c.s.place [c.req id (.island fn imm chan lanes places obj q slots false)] 1
      let t := t.updChannel c.cluster chan fun h => { h with free := h.free - 1 }
      let t := match q with
        | some k => t.updWave c.ref (allocSlots k slots c.em fun _ => id)
        | none => t
      .ok (c.doneState i t)

/-- A ray instruction: the ray block and a second block of `n` registers. -/
def rayRequest (i : Instr) (fn n slots : Nat) (f : LaneFields) (c : Ctx) : Eff State :=
  islandRequest i fn f.c.toNat (some (Form.qIndex f.d)) slots
    (c.lanes.map fun l => (l, c.blockWords f.a 8 l ++ c.blockWords f.b n l)) [] 0 c

def execIbox (f : LaneFields) (s : State) : Result := issue (.ibox f) (rayRequest (.ibox f) 0 6 1 f) s
def execItri (f : LaneFields) (s : State) : Result := issue (.itri f) (rayRequest (.itri f) 1 9 3 f) s
def execIprim (f : LaneFields) (s : State) : Result := issue (.iprim f) (rayRequest (.iprim f) 2 8 3 f) s

/-- A filter instruction: three registers and the descriptor's address. -/
def textureRequest (i : Instr) (fn : Nat) (f : LaneFields) (c : Ctx) : Eff State :=
  islandRequest i fn f.c.toNat (some (Form.qIndex f.d)) 4 (c.lanes.map fun l => (l, c.blockWords f.a 3 l)) []
    (c.w.sreg64 f.s.toNat) c

def execTsmp (f : LaneFields) (s : State) : Result := issue (.tsmp f) (textureRequest (.tsmp f) 3 f) s
def execTgth (f : LaneFields) (s : State) : Result := issue (.tgth f) (textureRequest (.tgth f) 4 f) s
def execTfch (f : LaneFields) (s : State) : Result := issue (.tfch f) (textureRequest (.tfch f) 5 f) s

/-! Exact numbers. -/

/-- A finite FP32 value in units of 2^−149. -/
def fixed32 (w : Word) : Int :=
  match decodeF .f32 w.toNat with
  | .fin n m e => XVal.scaled (-149) n m e
  | _ => 0
def finite32 (w : Word) : Bool :=
  match decodeF .f32 w.toNat with
  | .fin _ _ _ => true
  | _ => false
def unit149 : Nat := 2 ^ 149

/-- A fraction with a positive denominator; a zero keeps a sign. -/
structure Frac where
  neg : Bool
  num : Nat
  den : Nat
  deriving DecidableEq, Repr

/-- The quotient of two integers; an exact zero is +0 (DEDUCED, log entry 142). -/
def Frac.ofInts (num den : Int) : Frac := ⟨decide (num < 0) != decide (den < 0) && num != 0, num.natAbs, den.natAbs⟩
def Frac.signed (a : Frac) : Int := if a.neg then -(a.num : Int) else a.num
def Frac.lt (a b : Frac) : Bool := decide (a.signed * b.den < b.signed * a.den)
def Frac.round (mode : RMode) (a : Frac) : Word := BitVec.ofNat 32 (roundRatio .f32 mode a.neg a.num a.den)

/-- +∞ is no fraction. -/
abbrev Ext := Option Frac
def Ext.lt : Ext → Ext → Bool
  | none, _ => false
  | some _, none => true
  | some a, some b => a.lt b
def Ext.max (a b : Ext) : Ext := if Ext.lt a b then b else a
def Ext.min (a b : Ext) : Ext := if Ext.lt b a then b else a

/-! Intersection functions (R338, R339). -/

def plusInf : Word := 0x7F800000#32

/-- The eight ray words: every value but a `tmax` of +∞ is finite, and tmin ≤ tmax. -/
def rayOk (ray : List Word) : Bool :=
  (ray.take 7).all finite32 &&
    (laneAt ray 7 == plusInf || (finite32 (laneAt ray 7) && fixed32 (laneAt ray 6) ≤ fixed32 (laneAt ray 7)))

def extOf (w : Word) : Ext := if w == plusInf then none else some ⟨w.getLsbD 31, (fixed32 w).natAbs, unit149⟩

/-- (b − o) / d, exact. A zero quotient has the exclusive-or of its operands' signs, where a cancellation is −0 under the
rounding toward −∞ that follows (R150). -/
def slabTime (o d b : Word) : Frac :=
  match (decodeF .f32 b.toNat).add true (decodeF .f32 o.toNat).neg with
  | .fin n m e =>
    let x := (XVal.scaled (-149) n m e).natAbs
    ⟨n != d.getLsbD 31, x, (fixed32 d).natAbs⟩
  | _ => ⟨false, 0, 1⟩

/-- One axis of the slab test: entry and exit. -/
def slab (o d lo hi : Word) (p : Ext × Ext) : Ext × Ext :=
  if fixed32 d = 0 then
    (if fixed32 o < fixed32 lo || fixed32 hi < fixed32 o then none else p.1, p.2)
  else
    let t0 : Ext := some (slabTime o d lo)
    let t1 : Ext := some (slabTime o d hi)
    (p.1.max (t0.min t1), p.2.min (t0.max t1))

/-- `ibox` (R338): the ray block and then the box block. -/
def iboxResult (ws : List Word) : List Word :=
  let w := laneAt ws
  let boxOk := ((ws.drop 8).take 6).all finite32 && (List.range 3).all fun a => fixed32 (w (8 + a)) ≤ fixed32 (w (11 + a))
  if !rayOk ws || !boxOk || (List.range 3).all fun a => fixed32 (w (3 + a)) = 0 then [plusInf]
  else
    let p := (List.range 3).foldl (fun p a => slab (w a) (w (3 + a)) (w (8 + a)) (w (11 + a)) p)
      (extOf (w 6), extOf (w 7))
    match p.1 with
    | none => [plusInf]
    | some te => if Ext.lt p.2 p.1 then [plusInf] else [te.round .rm]

/-- The determinant of three columns. -/
def det3 (a b c : Nat → Int) : Int :=
  a 0 * (b 1 * c 2 - b 2 * c 1) - b 0 * (a 1 * c 2 - a 2 * c 1) + c 0 * (a 1 * b 2 - a 2 * b 1)

/-- `itri` (R339): the ray block and then p0, p1 and p2, by Cramer's rule. -/
def itriResult (ws : List Word) : List Word :=
  let w := laneAt ws
  let x (k : Nat) : Nat → Int := fun a => fixed32 (w (k + a))
  let miss : List Word := [plusInf, 0#32, 0#32]
  if !rayOk ws || !((ws.drop 8).take 9).all finite32 then miss
  else
    let e1 (a : Nat) : Int := x 11 a - x 8 a
    let e2 (a : Nat) : Int := x 14 a - x 8 a
    let nd (a : Nat) : Int := -(x 3 a)
    let r (a : Nat) : Int := x 0 a - x 8 a
    let det := det3 e1 e2 nd
    if det = 0 then miss
    else
      let u := Frac.ofInts (det3 r e2 nd) det
      let v := Frac.ofInts (det3 e1 r nd) det
      let t := Frac.ofInts (det3 e1 e2 r) det
      let sum := Frac.ofInts (det3 r e2 nd + det3 e1 r nd) det
      if u.neg || v.neg || Frac.lt ⟨false, 1, 1⟩ sum || Ext.lt (some t) (extOf (w 6)) || Ext.lt (extOf (w 7)) (some t)
      then miss
      else [t.round .rn, u.round .rn, v.round .rn]

/-! Filter functions (R341, R342). -/

/-- A texture descriptor (R341). -/
structure TexDesc where
  base : DWord
  width : Nat
  height : Nat
  wrap : Nat
  bilinear : Bool
  levels : Nat
  format : Nat
  pitch : Nat

/-- The descriptor that 32 bytes hold, unless a value is reserved or out of range (R343). -/
def texDesc (bs : List Byte) : Option TexDesc :=
  let w := laneAt (wordsOf (ofBytes bs) 8)
  let f (k hi lo : Nat) : Nat := bits (w k).toNat hi lo
  let d : TexDesc := ⟨joinWords (w 0) (w 1), f 2 15 0, f 2 31 16, f 3 15 14, f 3 13 12 = 1, f 3 11 8, f 3 7 0, (w 4).toNat⟩
  if d.base.toNat % 256 != 0 || d.width = 0 || 16384 < d.width || d.height = 0 || 16384 < d.height || f 3 31 16 != 0 ||
      d.wrap = 3 || 1 < f 3 13 12 || d.levels = 0 || d.format = 0 || 4 < d.format || d.pitch % 256 != 0 ||
      (List.range 3).any fun k => w (5 + k) != 0#32 then none
  else some d

def TexDesc.levelWidth (d : TexDesc) (l : Nat) : Nat := max 1 (d.width >>> l)
def TexDesc.levelHeight (d : TexDesc) (l : Nat) : Nat := max 1 (d.height >>> l)
def TexDesc.levelPitch (d : TexDesc) (l : Nat) : Nat := ceilDiv (max 256 (d.pitch >>> l)) 256 * 256
/-- The offset of level `l` from the base. -/
def TexDesc.levelStart (d : TexDesc) (l : Nat) : Nat :=
  (List.range l).foldl (fun n k => n + d.levelPitch k * d.levelHeight k) 0
def TexDesc.texelBytes (d : TexDesc) : Nat := if d.format = 2 then 8 else 4
def TexDesc.texelAddr (d : TexDesc) (p : Nat × Nat × Nat) : DWord :=
  d.base + BitVec.ofNat 64 (d.levelStart p.2.2 + p.2.1 * d.levelPitch p.2.2 + p.1 * d.texelBytes)

/-- n / 255 rounded to FP32, for a byte of RGBA8 unorm. -/
def unorm8 (n : Nat) : XVal := decodeF .f32 (roundRatio .f32 .rn false n 255)
def xOne : XVal := .ofInt 1

/-- The channels R, G, B, A of a texel (R341). -/
def TexDesc.channels (d : TexDesc) (bs : List Byte) : List XVal :=
  let x := ofBytes bs
  let half (k : Nat) : XVal := decodeF .f16 (bits x (16 * k + 15) (16 * k))
  match d.format with
  | 1 => (List.range 4).map fun k => unorm8 (bits x (8 * k + 7) (8 * k))
  | 2 => (List.range 4).map half
  | 3 => [decodeF .f32 x, .zero false, .zero false, xOne]
  | _ => [half 0, half 1, .zero false, xOne]

/-- `wrap` (R342). -/
def wrapCoord (mode : Nat) (i : Int) (n : Nat) : Nat :=
  if mode = 0 then (min (max i 0) ((n : Int) - 1)).toNat
  else if mode = 1 then (i % (n : Int)).toNat
  else
    let m := (i % (2 * n : Int)).toNat
    if m < n then m else 2 * n - 1 - m

/-- A number of halves: round(x × 2^k / 2^j) to nearest, ties to even. -/
def roundHalfEven (num : Int) (den : Nat) : Int :=
  let q := num / (den : Int)
  let r := (num % (den : Int)).toNat
  if den < 2 * r || (2 * r = den && q % 2 = 1) then q + 1 else q

/-- The texels that a lane needs, as (x, y, level), and what it makes of their channels. -/
structure TexPlan where
  coords : List (Nat × Nat × Nat)
  combine : List (List XVal) → List Word

def qnan32 : Word := f32Bits .nan
def channelAt (t : List XVal) (c : Nat) : XVal := (t[c]?).getD (.zero false)
def texelAt (ts : List (List XVal)) (k : Nat) : List XVal := (ts[k]?).getD []

/-- A bilinear channel: the weights are products of 256ths (R342). -/
def bilinear (ax ay : Nat) (ts : List (List XVal)) (c : Nat) : Word :=
  let term (k w : Nat) : XVal := (XVal.fin false w (-16)).mul (channelAt (texelAt ts k) c)
  f32Bits ((((term 0 ((256 - ax) * (256 - ay))).add false (term 1 (ax * (256 - ay)))).add false
    (term 2 ((256 - ax) * ay))).add false (term 3 (ax * ay)))

/-- `tsmp`, or `tgth` of a channel (R342). -/
def samplePlan (d : TexDesc) (ch : Option Nat) (u v lod : Word) : TexPlan :=
  if !finite32 u || !finite32 v || !finite32 lod then ⟨[], fun _ => List.replicate 4 qnan32⟩
  else
    let l := (min (max (roundHalfEven (fixed32 lod) unit149) 0) ((d.levels : Int) - 1)).toNat
    let w := d.levelWidth l
    let h := d.levelHeight l
    let cx (i : Int) : Nat := wrapCoord d.wrap i w
    let cy (i : Int) : Nat := wrapCoord d.wrap i h
    if !d.bilinear then
      ⟨[(cx (fixed32 u * w / unit149), cy (fixed32 v * h / unit149), l)], fun ts =>
        (List.range 4).map fun k => f32Bits (channelAt (texelAt ts 0) (ch.getD k))⟩
    else
      let den : Int := 2 * unit149
      let x := 2 * fixed32 u * w - unit149
      let y := 2 * fixed32 v * h - unit149
      let x0 := x / den
      let y0 := y / den
      let ax := (roundHalfEven (256 * (x - x0 * den)) (2 * unit149)).toNat
      let ay := (roundHalfEven (256 * (y - y0 * den)) (2 * unit149)).toNat
      ⟨[(cx x0, cy y0, l), (cx (x0 + 1), cy y0, l), (cx x0, cy (y0 + 1), l), (cx (x0 + 1), cy (y0 + 1), l)], fun ts =>
        (List.range 4).map fun k => match ch with
          | some c => f32Bits (channelAt (texelAt ts k) c)
          | none => bilinear ax ay ts k⟩

/-- `tfch` (R342): signed integer coordinates and level. -/
def fetchPlan (d : TexDesc) (x y l : Word) : TexPlan :=
  let lv := l.toInt.toNat
  if l.toInt < 0 || (d.levels : Int) ≤ l.toInt || x.toInt < 0 || (d.levelWidth lv : Int) ≤ x.toInt || y.toInt < 0 ||
      (d.levelHeight lv : Int) ≤ y.toInt then ⟨[], fun _ => List.replicate 4 0#32⟩
  else ⟨[(x.toInt.toNat, y.toInt.toNat, lv)], fun ts => (List.range 4).map fun k => f32Bits (channelAt (texelAt ts 0) k)⟩

def texPlan (fn imm : Nat) (d : TexDesc) (ws : List Word) : TexPlan :=
  let w := laneAt ws
  if fn = 5 then fetchPlan d (w 0) (w 1) (w 2) else samplePlan d (if fn = 4 then some imm else none) (w 0) (w 1) (w 2)

/-! Reads of an engine or island. -/

/-- Why a read is not performed: its line is owned by another engine (R300), or it fails. -/
inductive ReadStop where
  | owned
  | cause (c : Cause) (va : DWord)
  deriving DecidableEq, Repr

/-- Who reads: the cluster, the interface and the scope, the places that it must wait for, and the request that its host lines
belong to, if its lanes share them. -/
structure Reader where
  cluster : Nat
  vi : Nat
  scope : Nat
  blocked : State → Place → Bool
  key : Option Nat

/-- A read of `n` bytes of one line by an engine or island of a cluster. -/
def State.engineRead (s : State) (e : Reader) (va : DWord) (n : Nat) : Except ReadStop (List Byte) × State :=
  match locate s e.cluster none e.vi va .load with
  | (.error c, t) => (.error (.cause c va), t)
  | (.ok p, t) =>
    if t.delayed || e.blocked t p then (.error .owned, t)
    else
      let (bad, t) := if p.mem == 0 then (false, t) else match e.key with
        | some k => (t.hostLineFails k p, t)
        | none => t.hostReadFails
      if bad then (.error (.cause .hostRead va), t)
      else
        let (bs, _, t) := t.loadAt e.cluster none e.scope p n
        (.ok bs, t)

/-- Why a read of `n` bytes at an address is not performed, as far as its form, translation and permission say: the lowest cause
of its two ends (R8, R239, R450). -/
def State.readFault (s : State) (cluster vi : Nat) (va : DWord) (n : Nat) : Option ReadStop :=
  let ends := [va, va + BitVec.ofNat 64 (n - 1)].map fun a => locate s cluster none vi a .load
  if ends.any fun r => r.2.delayed then some .owned
  else (lowestCause (ends.filterMap fun r => match r.1 with
    | .error c => some c
    | .ok _ => none)).map fun c => .cause c va

/-- Reads a list of addresses of `n` bytes in order. -/
def readAll (e : Reader) (n : Nat) : List DWord → State → Except ReadStop (List (List Byte)) × State
  | [], s => (.ok [], s)
  | a :: rest, s => match s.engineRead e a n with
    | (.error e, s) => (.error e, s)
    | (.ok b, s) => match readAll e n rest s with
      | (.error e, s) => (.error e, s)
      | (.ok bs, s) => (.ok (b :: bs), s)

/-- The results of one lane of a filter request: the descriptor and the texels are loads at `.cl` (R343). -/
def filterLane (s : State) (e : Reader) (fn imm : Nat) (obj : DWord) (ws : List Word) :
    Except ReadStop (List Word) × State :=
  if misaligned obj 32 then (.error ((s.readFault e.cluster e.vi obj 32).getD (.cause .islandDesc obj)), s)
  else match s.engineRead e obj 32 with
    | (.error e, s) => (.error e, s)
    | (.ok bs, s) => match texDesc bs with
      | none => (.error (.cause .islandDesc obj), s)
      | some d =>
        let p := texPlan fn imm d ws
        match readAll e d.texelBytes (p.coords.map d.texelAddr) s with
        | (.error e, s) => (.error e, s)
        | (.ok ts, s) => (.ok (p.combine (ts.map d.channels)), s)

/-- The results of one lane: the base image's functions, or the free function of another image (R333). -/
def islandLane (s : State) (e : Reader) (fn imm slots : Nat) (obj : DWord) (ws : List Word) :
    Except ReadStop (List Word) × State :=
  match s.image e.cluster (fnKind fn) with
  | none => (.ok (List.replicate slots 0#32), s)
  | some m =>
    if m.identity != 1 then
      let (n, s) := s.draw
      (.ok ((List.range slots).map (laneAt (Config.imageFunction n fn (BitVec.ofNat 32 imm :: ws)))), s)
    else match fn with
      | 0 => (.ok (iboxResult ws), s)
      | 1 => (.ok (itriResult ws), s)
      | _ => filterLane s e fn imm obj ws

/-- Every lane's results, or its token's cause; none while a line is owned. -/
def islandLanes (e : Reader) (fn imm slots : Nat) (obj : DWord) :
    List (Nat × List Word) → State → Option (List (Nat × Except (Cause × DWord) (List Word))) × State
  | [], s => (some [], s)
  | (l, ws) :: rest, s =>
    let r := islandLane s e fn imm slots obj ws
    let o : Option (Except (Cause × DWord) (List Word)) := match r.1 with
      | .ok x => some (.ok x)
      | .error (.cause c va) => some (.error (c, va))
      | .error .owned => none
    match o, islandLanes e fn imm slots obj rest r.2 with
    | some x, (some xs, s) => (some ((l, x) :: xs), s)
    | _, (_, s) => (none, s)

/-- The islands read for a request at `.cl`, after the store records that its slice follows (R275, R301). -/
def Req.reader (r : Req) : Reader :=
  ⟨clusterOf r.core, r.vi, 2, fun s p => s.isOwned p || s.seenStore r.w r.id p, some r.id⟩

/-- Slot `k` of a lane: its word, or a token that holds 0 in a helper lane (R336, R343). -/
def islandSlot (helper : Bool) (kind : IslandKind) (pc : Word) (r : Except (Cause × DWord) (List Word)) (k : Nat) :
    QEntry :=
  match r with
  | .ok ws => .ready (laneAt ws k)
  | .error (c, va) => if helper then .ready 0#32 else .token ⟨c, va, pc, 0, kindUnit kind⟩

/-- ISLAND_REQUEST_COMPLETE (R336): the results of an accepted request become ready together; a filter request's reads come in
the slice's program order (R301). The helper lanes are those at this moment (DESIGN CHOICE, log entry 148). -/
def execIslandRequestComplete (id : Nat) (s : State) : Result :=
  .next (State.creditReq s id (match s.req id with
    | none => s
    | some r => match r.kind, s.wave r.w with
      | .island fn imm _ lanes _ obj (some q) slots true, some w =>
        if fnKind fn == .filter && s.readsBefore r.w id true then s
        else match islandLanes r.reader fn imm slots obj lanes s with
        | (none, _) => s
        | (some rs, t) =>
          let fill (t : State) (p : Nat × Except (Cause × DWord) (List Word)) : State :=
            t.updWave r.w (fillQueue q r.id (1#32 <<< p.1) fun _ =>
              islandSlot (w.helper.getLsbD p.1) (fnKind fn) r.pc p.2)
          (rs.foldl fill t).endReq id
      | _, _ => s))

/-- Changes a request's kind. -/
def State.updReq (s : State) (id : Nat) (f : ReqKind → ReqKind) : State :=
  { s with reqs := s.reqs.map fun r => if r.id == id then { r with kind := f r.kind } else r }

/-- CHANNEL_SLOT_RETURN (R355): the island has accepted the oldest entry of a channel that it had not, and the
quarter-core's counter increments. An `rtri` is complete then (R357). -/
def execChannelSlotReturn (id : Nat) (s : State) : Result :=
  .next (match s.req id with
    | none => s
    | some r => match r.kind with
      | .island fn _ chan _ _ _ _ _ false =>
        let older := s.reqs.any fun o => o.id < id && clusterOf o.core == clusterOf r.core && match o.kind with
          | .island _ _ ch _ _ _ _ _ acc => ch == chan && !acc
          | _ => false
        if older then s
        else
          let t := s.updChannel (clusterOf r.core) chan fun h => { h with free := h.free + 1 }
          if fn = 6 then t.endReq id
          else t.updReq id fun k => match k with
            | .island fn imm ch ls ps o q n _ => .island fn imm ch ls ps o q n true
            | k => k
      | _ => s)

/-! Links (R337). -/

/-- The kind that `ilink` names; 3 detaches. -/
def linkKind (n : Nat) : Option IslandKind :=
  match n with
  | 0 => some .intersection
  | 1 => some .filter
  | 2 => some .raster
  | _ => none

/-- `ilink` and its cases of ISLAND_LINK (R337). A queue that a copy stream or a card is attached to counts as already linked
for kinds 0 to 2, and kind 3 leaves it attached; ISLAND_FN (R333) is not raised, since fn 8 belongs to no island kind whose image
has a function map (DEDUCED, log entry 175). -/
def execIlink (f : LaneFields) (s : State) : Result :=
  issue (.ilink f) (fun c =>
    let q := Form.qIndex f.d
    match c.w.queue q with
    | none => fail .queueUnbound
    | some u =>
      let set (a : Attach) : State := c.s.updWave c.ref fun w => w.setQueue q (some { u with attach := a })
      if u.kind != .result then fail .islandLink
      else match linkKind f.c.toNat with
        | some k =>
          if u.attach != .none || (k == .raster && u.depth < 5) then fail .islandLink
          else
            let t := set (.island k)
            let t := if k == .raster then t.updWg c.g.id fun g =>
              { g with raster := { g.raster with links := g.raster.links ++ [(c.w.id, q)] } } else t
            .ok (c.doneState (.ilink f) t)
        | none =>
          let pending := u.cols.any fun col => col.any fun e => match e with
            | .pending _ _ => true
            | _ => false
          if pending then .error .wait
          else
            let isIsland := match u.attach with
              | .island _ => true
              | _ => false
            if !isIsland then .ok (c.done (.ilink f) id)
            else .ok (c.doneState (.ilink f) ((set .none).updWg c.g.id fun g =>
              { g with raster := { g.raster with links := g.raster.links.filter fun p => p != (c.w.id, q) } }))) s

/-! Audits (R356). -/

/-- A request is an entry of a channel. -/
def onChannel (cluster chan : Nat) (r : Req) : Bool :=
  clusterOf r.core == cluster && match r.kind with
    | .island _ _ ch _ _ _ _ _ _ => ch == chan
    | _ => false

/-- The lanes of a dropped final `bpx` that it had not reached hold their tags again, but those that have taken another. -/
def Wave.holdTags (places : List (Nat × Nat)) (w : Wave) : Wave :=
  { w with tags := w.tags ++ places.filter fun p => !w.tags.any fun q => q.1 == p.1 }

/-- The triangles of a dropped `rtri` leave the stream; the one that had ended before it has ended again. -/
def Raster.dropItems (id : Nat) (r : Raster) : Raster :=
  { r with
    items := r.items.filter fun t => t.req != id
    ended := r.ended || r.items.any fun t => t.req == id && t.again }

/-- An incomplete entry is dropped: its result slots hold 0xFFC00001, and a request without results has had no effect. -/
def State.dropEntry (s : State) (r : Req) : State :=
  let s := match r.kind with
    | .island _ _ _ _ _ _ (some q) _ _ =>
      s.updWave r.w (fillQueue q r.id (BitVec.allOnes 32) fun _ _ => .ready 0xFFC00001#32)
    | .island 7 imm _ _ places _ none _ _ => if imm.testBit 3 then s.updWave r.w (Wave.holdTags places) else s
    | _ => s
  let s := s.updWg r.w.wg fun g => { g with raster := g.raster.dropItems r.id }
  (s.endReq r.id).stick r.w.wg 2#2

def State.bumpCounter (s : State) (k : Nat) : State :=
  { s with counters := { s.counters with
      counts := updAt (fun x => if x == BitVec.allOnes 32 then x else x + 1#32) s.counters.counts k } }

/-! Images (R332). -/

/-- A cluster holds a workgroup. -/
def State.clusterBusy (s : State) (cluster : Nat) : Bool :=
  s.wgs.any fun g => clusterOf g.core == cluster && match g.status with
    | .resident | .halting _ | .saving | .discarding => !g.keeper
    | _ => false

/-- The islands of a kind in a cluster, as units that can be gated (R479). -/
def kindUnits : IslandKind → List Nat
  | .raster => [32]
  | .intersection => [33, 34]
  | .filter => [35, 36]
  | .blend => [37]

/-- ISLAND_IMAGE_LOAD (R332): an island takes the image that a slot's context names; a gated one wakes first (R480). -/
def execIslandImageLoad (cluster : Nat) (kind : IslandKind) (slot : Nat) (s : State) : Result :=
  let gated := (kindUnits kind).filter fun u => (s.cluster cluster).gate.gated.contains u
  .next (if s.clusterBusy cluster || (s.cluster cluster).gate.off then s
    else if !gated.isEmpty then gated.foldl (fun s u => s.wantUnit cluster u) s
    else s.updCluster cluster fun c =>
      { c with images := updAt (fun _ => (s.slot slot).images[kindIndex kind]?) c.images (kindIndex kind) })

end Sys2Proof.Machine
end

