-- ==== Sys2Proof/Machine/Raster.lean ====
section
/-!
DEFINITION. Rasterisation (R344 to R348): submission of triangles, their coverage, batches and the links that receive
them.
-/
namespace Sys2Proof.Machine

open Sys2Proof

/-! Submission (R344). -/

/-- Width and height of a viewport. -/
def viewWidth (v : Word) : Nat := (v.extractLsb' 0 16).toNat
def viewHeight (v : Word) : Nat := (v.extractLsb' 16 16).toNat
def sizeOk (n : Nat) : Bool := 1 ≤ n && n ≤ 16384

/-- The items that an `rtri` adds to the stream: a triangle for each lane of `EM`, and the end of the stream. -/
def Ctx.triangles (c : Ctx) (f : LaneFields) (id : Nat) (viewport : Word) (again : Bool) : List RasterItem :=
  (c.lanes.map fun l => ⟨id, c.blockWords f.a 10 l, (f.c.extractLsb' 0 2).toNat, viewport, false, again⟩) ++
    (if f.c.getLsbD 2 then [⟨id, [], 0, viewport, true, again⟩] else [])

/-- The earliest linked queue: its wave, and whether every column has room for a batch. -/
def Workgroup.firstLink (g : Workgroup) : Option ((Nat × Nat) × Bool) :=
  g.raster.links.findSome? fun p => match g.wave p.1 with
    | some w => if w.ended then none
      else (w.queue p.2).map fun u => (p, u.cols.all fun col => col.length + 5 ≤ u.depth)
    | none => none

/-- Nothing of a stream that has ended is still to be placed, and every linked queue has had its empty batch (R347). -/
def Workgroup.streamOver (g : Workgroup) : Bool := g.raster.closed.isEmpty && g.firstLink.isNone
/-- An `rtri` of the workgroup starts a new stream. -/
def Workgroup.startsStream (g : Workgroup) : Bool := g.raster.ended && g.raster.items.isEmpty && g.streamOver

/-- `rtri`: ISLAND_DESC for a bad viewport; the triangles enter the workgroup's stream at issue. -/
def execRtri (f : LaneFields) (s : State) : Result :=
  issue (.rtri f) (fun c =>
    let v := c.w.sreg f.s.toNat
    let bad : List (Cause × Info) := if sizeOk (viewWidth v) && sizeOk (viewHeight v) then [] else [(.islandDesc, {})]
    match raiseAny (c.islandFaults 6 none ++ bad) with
    | .error e => .error e
    | .ok () => match islandRequest (.rtri f) 6 f.c.toNat none 0 [] [] (v.setWidth 64) c with
      | .error e => .error e
      | .ok t => .ok (t.updWg c.g.id fun g => { g with raster := { g.raster with
          items := g.raster.items ++ c.triangles f c.s.nextId v g.startsStream
          ended := g.raster.ended && !g.startsStream } })) s

/-! Coverage (R345). -/

/-- A vertex in units of 1/256 pixel. -/
structure Vertex where
  x : Int
  y : Int
  deriving DecidableEq, Repr

/-- `E_ij` at a point. -/
def edgeFn (i j p : Vertex) : Int := (j.x - i.x) * (p.y - i.y) - (j.y - i.y) * (p.x - i.x)

/-- A triangle that is not dropped, with its edge functions oriented so that its area is positive. -/
structure Tri where
  v0 : Vertex
  v1 : Vertex
  v2 : Vertex
  neg : Bool
  area : Nat
  z0 : Word
  z1 : Word
  z2 : Word
  prim : Word
  deriving DecidableEq, Repr

/-- The triangle of 10 words, unless R345 drops it. -/
def triOf (ws : List Word) (cull : Nat) : Option Tri :=
  let w := laneAt ws
  let at_ (k : Nat) : Vertex := ⟨roundHalfEven (fixed32 (w k) * 256) unit149, roundHalfEven (fixed32 (w (k + 1)) * 256) unit149⟩
  let small (v : Vertex) : Bool := v.x.natAbs < 2 ^ 24 && v.y.natAbs < 2 ^ 24
  let a := edgeFn (at_ 0) (at_ 3) (at_ 6)
  if !((ws.take 9).all finite32) || !small (at_ 0) || !small (at_ 3) || !small (at_ 6) || a = 0 ||
      (cull = 1 && 0 < a) || (cull = 2 && a < 0) then none
  else some ⟨at_ 0, at_ 3, at_ 6, decide (a < 0), a.natAbs, w 2, w 5, w 8, w 9⟩

/-- An edge function of the triangle, negated when its area was negative. -/
def Tri.edge (t : Tri) (i j p : Vertex) : Int := if t.neg then -edgeFn i j p else edgeFn i j p

/-- The inclusive-edge test, after the negation: negating an edge function reverses its edge. -/
def Tri.inclusive (t : Tri) (i j : Vertex) : Bool :=
  let dx := if t.neg then i.x - j.x else j.x - i.x
  let dy := if t.neg then i.y - j.y else j.y - i.y
  decide (dy < 0) || (dy = 0 && 0 < dx)

def pixelCentre (px py : Nat) : Vertex := ⟨256 * (px : Int) + 128, 256 * (py : Int) + 128⟩

/-- A pixel inside the viewport is covered. -/
def Tri.covers (t : Tri) (viewport : Word) (px py : Nat) : Bool :=
  let p := pixelCentre px py
  let ok (i j : Vertex) : Bool := 0 < t.edge i j p || (t.edge i j p = 0 && t.inclusive i j)
  px < viewWidth viewport && py < viewHeight viewport && ok t.v1 t.v2 && ok t.v2 t.v0 && ok t.v0 t.v1

/-- A quotient by the area, rounded once. -/
def Tri.share (t : Tri) (e : Int) : Word := (Frac.ofInts e t.area).round .rn

/-- The depth at a point, exact before its one rounding. An edge value that is exactly 0 counts as +0, so that a zero depth has
the sign that the products' rounding rules give it (DEDUCED, log entry 142). -/
def Tri.depth (t : Tri) (p : Vertex) : Word :=
  let term (e : Int) (z : Word) : XVal := (XVal.ofInt e).mul (decodeF .f32 z.toNat)
  match ((term (t.edge t.v1 t.v2 p) t.z0).add false (term (t.edge t.v2 t.v0 p) t.z1)).add false
      (term (t.edge t.v0 t.v1 p) t.z2) with
  | .fin n m e => (⟨n, (XVal.scaled (-149) n m e).natAbs, t.area * unit149⟩ : Frac).round .rn
  | _ => 0#32

/-- The five slots of a lane of an emitted quad (R346). -/
def Tri.pixelSlots (t : Tri) (viewport : Word) (px py : Nat) : List Word :=
  let p := pixelCentre px py
  let kind : Word := if t.covers viewport px py then 0x80000000#32 else 0x40000000#32
  [BitVec.ofNat 32 (py * 65536 + px), kind ||| (t.prim &&& 0x1FFFFFFF#32), t.share (t.edge t.v2 t.v0 p),
    t.share (t.edge t.v0 t.v1 p), t.depth p]

/-- The quad with corner (x, y), unless none of its pixels is covered. -/
def Tri.quad (t : Tri) (viewport : Word) (x y : Nat) : Option (List (List Word)) :=
  let at_ (k : Nat) : Nat × Nat := (x + k % 2, y + k / 2)
  if (List.range 4).any fun k => t.covers viewport (at_ k).1 (at_ k).2 then
    some ((List.range 4).map fun k => t.pixelSlots viewport (at_ k).1 (at_ k).2)
  else none

/-- The even coordinates, below `n`, of the quads that the pixel columns or rows between two coordinates can lie in. -/
def quadRange (lo hi : Int) (n : Nat) : List Nat :=
  let first := (lo / 256).toNat / 2
  let last := min ((hi / 256).toNat / 2) ((n - 1) / 2)
  if hi < 0 then [] else (List.range (last + 1 - first)).map fun k => 2 * (first + k)

/-- The quads of a triangle, in ascending y and then ascending x. -/
def triQuads (ws : List Word) (cull : Nat) (viewport : Word) : List (List (List Word)) :=
  match triOf ws cull with
  | none => []
  | some t =>
    let lo (f : Vertex → Int) : Int := min (f t.v0) (min (f t.v1) (f t.v2))
    let hi (f : Vertex → Int) : Int := max (f t.v0) (max (f t.v1) (f t.v2))
    (quadRange (lo Vertex.y) (hi Vertex.y) (viewHeight viewport)).flatMap fun y =>
      (quadRange (lo Vertex.x) (hi Vertex.x) (viewWidth viewport)).filterMap fun x => t.quad viewport x y

/-! Batches (R346). -/

/-- A quad of another image in the format of R346. -/
def quadFormat (q : List (List Word)) : List (List Word) :=
  (List.range 4).map fun k => (List.range 5).map (laneAt ((q[k]?).getD []))

/-- The pixel tags of a quad: one for each covered lane (R348). -/
def quadTags (place : Nat) (q : List (List Word)) : List PixelTag :=
  (List.range 4).filterMap fun k =>
    let w := laneAt ((q[k]?).getD [])
    if (w 1).getLsbD 31 then
      some ⟨place + k, (w 0).toNat % 65536, (w 0).toNat / 65536, w 4, false, false, false⟩
    else none

/-- An emitted quad joins the open batch, which closes at 8 quads. -/
def Raster.emit (r : Raster) (q : List (List Word)) : Raster :=
  let b := r.batch ++ [⟨r.nextPlace, q⟩]
  let r := { r with nextPlace := r.nextPlace + 4, tags := r.tags ++ quadTags r.nextPlace q }
  if b.length = 8 then { r with batch := [], closed := r.closed ++ [b] } else { r with batch := b }

/-- The end flag closes the open batch and ends the stream. -/
def Raster.finish (r : Raster) : Raster :=
  { r with ended := true, batch := [], closed := if r.batch.isEmpty then r.closed else r.closed ++ [r.batch] }

/-- The quads of an item, by the image of the cluster; none when the island holds no image. -/
def State.itemQuads (s : State) (cluster : Nat) (t : RasterItem) : Option (List (List (List Word))) × State :=
  match s.image cluster .raster with
  | none => (none, s)
  | some m =>
    if m.identity = 1 then (some (triQuads t.words t.cull t.viewport), s)
    else
      let (n, s) := s.draw
      (some ((Config.imageQuads n (t.viewport :: BitVec.ofNat 32 t.cull :: t.words)).map quadFormat), s)

/-- RASTER_QUAD_EMIT (R345, R346): the stream's first item, once the island has accepted its request, and what an earlier stream
left to be placed has been (R347). A gated island wakes first (R480). -/
def execRasterQuadEmit (wg : Nat) (s : State) : Result :=
  .next (match s.wg wg with
    | none => s
    | some g => match g.raster.items with
      | [] => s
      | t :: rest =>
        if (s.req t.req).isSome || (g.raster.ended && !g.streamOver) then s
        else if (s.cluster (clusterOf g.core)).gate.gated.contains 32 then s.wantUnit (clusterOf g.core) 32
        else if t.stop then s.updWg wg fun g => { g with raster := { g.raster with items := rest }.finish }
        else match s.itemQuads (clusterOf g.core) t with
          | (none, s) => s
          | (some qs, s) => s.updWg wg fun g =>
              { g with raster := { qs.foldl Raster.emit g.raster with items := rest, ended := false } })

/-! Placement (R347, R348). -/

/-- The slots of a lane: of its quad, or of no quad. -/
def batchSlots (b : List RasterQuad) (l : Nat) : List QEntry :=
  let empty : List QEntry :=
    [.pixel 0#32 0 true false, .ready 0x60000000#32, .ready 0#32, .ready 0#32, .ready 0#32]
  match b[l / 4]? with
  | none => empty
  | some q => match (q.slots[l % 4]?).getD [] with
    | [] => empty
    | w :: ws =>
      .pixel w (q.place + l % 4) ((laneAt ws 0).getLsbD 30) ((laneAt ws 0).getLsbD 31) :: ws.map QEntry.ready

/-- A queue receives a batch and detaches itself. -/
def Workgroup.receive (p : Nat × Nat) (b : List RasterQuad) (g : Workgroup) : Workgroup :=
  let g := g.updWave p.1 fun w =>
    let w := appendSlots p.2 (BitVec.allOnes 32) (batchSlots b) w
    match w.queue p.2 with
    | some u => w.setQueue p.2 (some { u with attach := .none })
    | none => w
  { g with raster := { g.raster with links := g.raster.links.filter fun x => x != p } }

/-- RASTER_BATCH_PLACE (R347): the oldest closed batch, or an empty one once the stream has ended and every batch has been
placed, goes to the earliest link (a queue linked after the end: DEDUCED, log entry 48). A gated island wakes first (R480). -/
def execRasterBatchPlace (wg : Nat) (s : State) : Result :=
  .next (match s.wg wg with
    | none => s
    | some g => match g.firstLink with
      | some (p, true) =>
        if (s.cluster (clusterOf g.core)).gate.gated.contains 32 && (!g.raster.closed.isEmpty || g.raster.ended) then
          s.wantUnit (clusterOf g.core) 32
        else match g.raster.closed with
        | b :: rest => s.updWg wg fun g => { g with raster := { g.raster with closed := rest } }.receive p b
        | [] => if g.raster.ended && g.raster.batch.isEmpty then s.updWg wg (Workgroup.receive p []) else s
      | _ => s)

end Sys2Proof.Machine
end

