-- ==== Sys2Proof/Machine/Blend.lean ====
section
/-!
DEFINITION. Blending and target stores (R349 to R352): the target table, the order of pixels, the depth test, and the
blend island's buffer of owned lines.
-/
namespace Sys2Proof.Machine

open Sys2Proof

/-! Issue (R336, R350). -/

/-- The place of the pixel tag that a lane holds. -/
def Wave.tagOf (w : Wave) (l : Nat) : Option Nat := (w.tags.find? fun p => p.1 == l).map fun p => p.2

/-- `bpx`: the covered lanes of `EM` that hold a tag. A lane's tag leaves it with its final `bpx` (R351). -/
def execBpx (f : LaneFields) (s : State) : Result :=
  issue (.bpx f) (fun c =>
    let lanes := c.covered.filter fun l => (c.w.tagOf l).isSome
    let places := lanes.map fun l => (l, (c.w.tagOf l).getD 0)
    match islandRequest (.bpx f) 7 f.c.toNat none 0 (lanes.map fun l => (l, c.blockWords f.a 4 l)) places
        (c.w.sreg64 f.s.toNat) c with
    | .error e => .error e
    | .ok t =>
      if f.c.getLsbD 3 then
        .ok (t.updWave c.ref fun w => { w with tags := w.tags.filter fun p => !lanes.contains p.1 })
      else .ok t) s

/-- `ist`: the lanes of `EM` that are no helper lanes. -/
def execIst (f : LaneFields) (s : State) : Result :=
  issue (.ist f) (fun c =>
    islandRequest (.ist f) 9 f.c.toNat none 0 (c.covered.map fun l => (l, c.blockWords f.a 5 l)) []
      (c.w.sreg64 f.s.toNat) c) s

/-! The target table (R349). -/

structure Target where
  base : DWord
  zwrite : Bool
  compare : Nat
  op : Nat
  format : Nat
  pitch : Nat
  width : Nat
  height : Nat
  deriving DecidableEq, Repr

def Target.enabled (t : Target) : Bool := t.base != 0#64
def Target.isDepth (t : Target) : Bool := t.format = 5

/-- The entry of 16 bytes; none when it is enabled and holds a reserved value or one out of range. The compare field of a colour
entry, which nothing uses, may hold any value (DEDUCED, log entry 176). -/
def targetOf (bs : List Byte) : Option Target :=
  let w := laneAt (wordsOf (ofBytes bs) 4)
  let f (k hi lo : Nat) : Nat := bits (w k).toNat hi lo
  let t : Target := ⟨joinWords (w 0) (w 1), (w 2).getLsbD 26, f 2 25 23, f 2 22 20, f 2 19 16, f 2 15 0, f 3 15 0, f 3 31 16⟩
  let ok := t.base.toNat % 256 = 0 && f 2 31 27 = 0 && [1, 2, 3, 5].contains t.format && 1 ≤ t.pitch &&
    sizeOk t.width && sizeOk t.height && t.op ≤ 4 && (!t.isDepth || t.compare ≤ 4)
  if t.enabled && !ok then none else some t

/-- The eight entries; none for a bad table: a bad entry, or two depth entries (R350). -/
def targetTable (bs : List Byte) : Option (List Target) :=
  match (List.range 8).mapM fun k => targetOf ((bs.drop (16 * k)).take 16) with
  | none => none
  | some ts => if 1 < (ts.filter fun t => t.enabled && t.isDepth).length then none else some ts

def Target.pixelBytes (t : Target) : Nat := if t.format = 2 then 8 else 4
/-- The address of a pixel. -/
def Target.pixelAddr (t : Target) (x y : Nat) : DWord :=
  t.base + BitVec.ofNat 64 (y * t.pitch * 256 + x * t.pixelBytes)

/-! Pixels (R350). -/

/-- The decoded channels of a stored pixel. -/
def Target.decode (t : Target) (bs : List Byte) : List XVal := (⟨0, 1, 1, 0, false, 1, t.format, 0⟩ : TexDesc).channels bs

/-- One channel: source word, source alpha and decoded destination. A replace gives the source's bits, also those of a NaN
(DEDUCED, log entry 141). -/
def blendChannel (op : Nat) (s : Word) (sa d : XVal) : Word :=
  let x := decodeF .f32 s.toNat
  match op with
  | 0 => s
  | 1 => f32Bits ((x.mul sa).add false (d.mul (xOne.add false sa.neg)))
  | 2 => f32Bits (x.add false d)
  | 3 => f32Bits (fminX x d)
  | _ => f32Bits (fmaxX x d)

/-- RGBA8 unorm of a channel. -/
def encodeUnorm8 (r : Word) : Byte :=
  let x := decodeF .f32 r.toNat
  if x.isNan || x.sign then 0#8
  else if xOne.lt x then 255#8
  else BitVec.ofInt 8 (roundHalfEven (255 * fixed32 r) unit149)

/-- The bytes of a blended pixel. -/
def Target.encode (t : Target) (rs : List Word) : List Byte :=
  match t.format with
  | 1 => rs.map encodeUnorm8
  | 2 => rs.flatMap fun r => bytesOf (roundX .f16 .rn (decodeF .f32 r.toNat)) 2
  | _ => bytesOf (laneAt rs 0).toNat 4

/-- The pixel that a request stores over the old one. -/
def Target.blend (t : Target) (op : Nat) (src : List Word) (old : List Byte) : List Byte :=
  let d := t.decode old
  let sa := decodeF .f32 (laneAt src 3).toNat
  t.encode ((List.range 4).map fun k => blendChannel op (laneAt src k) sa (channelAt d k))

/-- The depth test of a tag; a NaN fails every compare but "always" (R351). -/
def depthPasses (compare : Nat) (z stored : Word) : Bool :=
  let a := decodeF .f32 z.toNat
  let b := decodeF .f32 stored.toNat
  match compare with
  | 0 => true
  | 1 => a.lt b
  | 2 => a.lt b || a.eq b
  | 3 => b.lt a
  | _ => b.lt a || a.eq b

/-! The buffer (R352). -/

/-- A result with its state; a stop leaves the state as it was. -/
def settle {α ε : Type} (r : Except ε α × State) : Except ε (α × State) :=
  match r with
  | (.error e, _) => .error e
  | (.ok x, s) => .ok (x, s)

/-- The blend island holds a line in its buffer, taking ownership of it at the first touch; it waits while another engine
owns it. -/
def holdLine (cluster wg line : Nat) (s : State) : Except ReadStop State :=
  let touch (b : BlendLine) : BlendLine :=
    if b.line == line && !b.wgs.contains wg then { b with wgs := wg :: b.wgs } else b
  if (s.cluster cluster).blend.any fun b => b.line == line then
    .ok (s.updCluster cluster fun c => { c with blend := c.blend.map touch })
  else if (s.ownerOf line).isSome then .error .owned
  else
    let (bs, _, t) := s.loadAt cluster none 3 (⟨0, line⟩ : Place) 128
    let t : State := { t with owned := t.owned ++ [⟨line, .blend cluster⟩], touched := s.touched }
    let lost := (List.range 128).filter fun k => t.zeroed.contains (line + k)
    .ok (t.updCluster cluster fun c => { c with blend := c.blend ++ [⟨line, bs, [wg], lost⟩] })

/-- The translated place of a pixel, held in the buffer when it lies in device memory. -/
def pixelPlace (r : Req) (need : Need) (va : DWord) (s : State) : Except ReadStop (Place × State) :=
  let cluster := clusterOf r.core
  match locate s cluster none r.vi va need with
  | (.error c, _) => .error (.cause c va)
  | (.ok p, s) =>
    if s.delayed then .error .owned else if p.mem != 0 then .ok (p, s) else (holdLine cluster r.w.wg (lineOf p.pa) s).map fun s => (p, s)

/-- The bytes of a pixel. -/
def readPixel (r : Req) (va : DWord) (p : Place) (n : Nat) (s : State) : Except ReadStop (List Byte × State) :=
  if p.mem != 0 then
    if s.hostLineFails r.id p then .error (.cause .hostRead va) else .ok (s.hostRead p.pa n, s)
  else match (s.cluster (clusterOf r.core)).blend.find? fun b => b.line == lineOf p.pa with
    | some b => .ok ((b.data.drop (p.pa % 128)).take n,
        if b.lost.any fun k => p.pa % 128 ≤ k && k < p.pa % 128 + n then { s with touched := true } else s)
    | none => .error .owned

/-- Writes the bytes of a pixel. -/
def writePixel (r : Req) (p : Place) (bs : List Byte) (s : State) : State :=
  if p.mem != 0 then s.contextStore r.w r.core 3 p bs
  else
    let put (b : BlendLine) : BlendLine :=
      if b.line == lineOf p.pa then
        { b with
          data := spliceBytes b.data (p.pa % 128) bs
          lost := b.lost.filter fun k => k < p.pa % 128 || p.pa % 128 + bs.length ≤ k }
      else b
    s.updCluster (clusterOf r.core) fun c => { c with blend := c.blend.map put }

/-! Applying (R351). -/

/-- The position of a lane of a request: of its tag, or of its first word. -/
def requestPos (g : Workgroup) (fn : Nat) (places : List (Nat × Nat)) (l : Nat) (ws : List Word) : Nat × Nat :=
  if fn = 9 then ((laneAt ws 0).toNat % 65536, (laneAt ws 0).toNat / 65536)
  else match places.find? fun p => p.1 == l with
    | some p => match g.raster.tags.find? fun t => t.place == p.2 with
      | some t => (t.x, t.y)
      | none => (0, 0)
    | none => (0, 0)

/-- The tag at a place has not retired: it waits in a batch or a queue, a lane holds it, or a `bpx` of it is pending. -/
def State.tagLive (s : State) (g : Workgroup) (place : Nat) : Bool :=
  let inBatch (b : List RasterQuad) : Bool := b.any fun q => q.place ≤ place && place < q.place + 4
  inBatch g.raster.batch || g.raster.closed.any inBatch ||
  g.waves.any (fun w => w.tags.any (fun p => p.2 == place) || w.queues.any fun q => match q with
    | none => false
    | some u => laneList.any fun l => (w.x.thread l).st.isLive && (u.col l).any fun e => match e with
      | .pixel _ p _ covered => covered && p == place
      | _ => false) ||
  s.reqs.any fun r => r.w.wg == g.id && match r.kind with
    | .island 7 _ _ _ ps _ _ _ _ => ps.any fun p => p.2 == place
    | _ => false

/-- A lane of a request must wait: for an earlier live tag at its position (`bpx`), or for an earlier request of its wave
that writes the pixel. -/
def State.pixelWaits (s : State) (g : Workgroup) (r : Req) (fn : Nat) (places : List (Nat × Nat)) (l : Nat)
    (ws : List Word) : Bool :=
  let pos := requestPos g fn places l ws
  (fn = 7 && match places.find? fun p => p.1 == l with
    | some p => g.raster.tags.any fun t => t.place < p.2 && (t.x, t.y) == pos && !t.final && s.tagLive g t.place
    | none => false) ||
  s.reqs.any fun o => o.id < r.id && o.w == r.w && match o.kind with
    | .island k _ _ ls ps _ _ _ _ => 7 ≤ k && ls.any fun x => requestPos g k ps x.1 x.2 == pos
    | _ => false

/-- The color write of a lane: nothing for a disabled target or an `ist` outside the target. -/
def colorWrite (r : Req) (fn : Nat) (t : Target) (pos : Nat × Nat) (src : List Word) (s : State) :
    Except ReadStop State := do
  if !t.enabled || (fn = 9 && !(pos.1 < t.width && pos.2 < t.height)) then .ok s
  else
    let op := if fn = 9 then 0 else t.op
    let va := t.pixelAddr pos.1 pos.2
    let (p, s) ← pixelPlace r (if op = 0 then .store else .atomic) va s
    let (old, s) ← if op = 0 then .ok (List.replicate t.pixelBytes 0#8, s) else readPixel r va p t.pixelBytes s
    match s.image (clusterOf r.core) .blend with
    | none => .error .owned
    | some m =>
      if m.identity = 1 then .ok (writePixel r p (t.blend op src old) s)
      else
        let (n, s) := s.draw
        let new := Config.imagePixel n src old
        .ok (writePixel r p ((List.range t.pixelBytes).map fun k => (new[k]?).getD 0#8) s)

/-- The depth entry's test of a tag that has not been tested: whether it passes. -/
def depthTest (r : Req) (depth : Option Target) (tag : PixelTag) (s : State) : Except ReadStop (Bool × State) := do
  if tag.tested then .ok (!tag.failed, s)
  else match depth with
    | none => .ok (true, s)
    | some d =>
      if d.compare = 0 then .ok (true, s)
      else
        let va := d.pixelAddr tag.x tag.y
        let (p, s) ← pixelPlace r .load va s
        let (bs, s) ← readPixel r va p 4 s
        .ok (depthPasses d.compare tag.z (BitVec.ofNat 32 (ofBytes bs)), s)

/-- `zwrite` of a passing tag at its final `bpx`. -/
def depthWrite (r : Req) (depth : Option Target) (tag : PixelTag) (s : State) : Except ReadStop State := do
  match depth with
  | some d =>
    if d.zwrite then
      let (p, s) ← pixelPlace r .store (d.pixelAddr tag.x tag.y) s
      .ok (writePixel r p (bytesOf tag.z.toNat 4) s)
    else .ok s
  | none => .ok s

/-- A tag of a workgroup changes. -/
def State.updTag (s : State) (wg place : Nat) (f : PixelTag → PixelTag) : State :=
  s.updWg wg fun g => { g with raster := { g.raster with
    tags := g.raster.tags.map fun t => if t.place == place then f t else t } }

/-- One lane of a request: the table is read, then the pixel is written. -/
def applyLane (g : Workgroup) (r : Req) (fn imm : Nat) (obj : DWord) (places : List (Nat × Nat)) (l : Nat)
    (ws : List Word) (s : State) : Except ReadStop State := do
  if misaligned obj 128 then .error ((s.readFault (clusterOf r.core) r.vi obj 128).getD (.cause .islandDesc obj))
  else
    let (bs, s) ← settle (s.engineRead r.reader obj 128)
    match targetTable bs with
    | none => .error (.cause .islandDesc obj)
    | some ts => match ts[imm % 8]? with
      | none => .ok s
      | some t =>
        if t.enabled && t.isDepth then .error (.cause .islandDesc obj)
        else if fn = 9 then colorWrite r fn t (requestPos g fn places l ws) (ws.drop 1) s
        else
          match (places.find? fun p => p.1 == l).bind fun p => g.raster.tags.find? fun x => x.place == p.2 with
          | none => .ok s
          | some tag =>
            let depth := ts.find? fun t => t.enabled && t.isDepth
            let final := decide (8 ≤ imm)
            let (pass, s) ← depthTest r depth tag s
            let s ← if pass then colorWrite r fn t (tag.x, tag.y) ws s else .ok s
            let s ← if pass && final then depthWrite r depth tag s else .ok s
            .ok (s.updTag g.id tag.place fun t => { t with tested := true, failed := !pass, final := final })

/-- A lane leaves a request, which ends with its last lane. -/
def State.laneApplied (s : State) (id l : Nat) : State :=
  let s := s.updReq id fun k => match k with
    | .island fn imm ch ls ps o q n acc =>
      .island fn imm ch (ls.filter fun x => x.1 != l) (ps.filter fun x => x.1 != l) o q n acc
    | k => k
  match s.req id with
  | some ⟨_, _, _, _, _, _, _, .island _ _ _ [] _ _ _ _ _⟩ => s.endReq id
  | _ => s

/-- BLEND_APPLY (R351): the lowest lane of an accepted request that need not wait; a bad table halts the workgroup
(R350). -/
def execBlendApply (id : Nat) (s : State) : Result :=
  .next (State.creditReq s id (match s.req id with
    | none => s
    | some r => match r.kind, s.wg r.w.wg with
      | .island fn imm _ lanes places obj _ _ true, some g =>
        if fn < 7 || s.readsBefore r.w id false then s
        else if lanes.isEmpty then s.endReq id
        else match lanes.find? fun x => !s.pixelWaits g r fn places x.1 x.2 with
          | none => s
          | some (l, ws) => match applyLane g r fn imm obj places l ws s with
            | .ok t => t.laneApplied id l
            | .error .owned => s
            | .error (.cause c va) =>
              takeCause (s.endReq id) r.w r.sl (1#32 <<< l) r.pc c
                { origin := 2, apc := r.pc, addr := va, unit := 3, lane := some l }
      | _, _ => s))

/-- BLEND_WRITEBACK (R352): the blend island evicts a line. -/
def execBlendWriteback (cluster line : Nat) (s : State) : Result := .next (s.writeBlend cluster line)

end Sys2Proof.Machine
end

