-- ==== Sys2Proof/Machine/Convert.lean ====
section
/-!
DEFINITION. Conversions (07_lane_float.md, R172 to R178). An operand of FP8, FP4 or scale elements reads constants as
a 32-bit bit operand (DEDUCED, log entry 17).
-/
namespace Sys2Proof.Machine

open Sys2Proof

/-- Float to an integer of `n` bits (R173). -/
def toIntBits (n : Nat) (signed : Bool) (mode : RMode) (x : XVal) : BitVec n :=
  let top : Int := if signed then 2 ^ (n - 1) - 1 else 2 ^ n - 1
  let low : Int := if signed then -(2 ^ (n - 1)) else 0
  match x with
  | .nan => 0
  | .inf neg => BitVec.ofInt n (if neg then low else top)
  | .fin neg m e =>
    let p := XVal.ratio m e
    let k : Int := roundInt mode neg p.1 p.2
    let k := if neg then -k else k
    BitVec.ofInt n (if signed then satS k n else satU k n)

/-- A wide conversion: `A` as 32 bits or a pair, the result likewise (R172). -/
def convert (op : CvtOp) (f : LaneFields) (c : Ctx) : Eff State :=
  let i : Instr := .cvt op f
  let one (g : Nat → Word) : Eff State := c.write1 i f g
  let two (g : Nat → DWord) : Eff State := c.write2 i f g
  let half (fmt : Fmt) (want : Want) (k : Nat) : Eff State :=
    one fun l => f32Word f (prepA fmt f (halfNat (c.srcA f want l) k))
  let packed (fmt : Fmt) : Eff State :=
    one fun l => packHalves fun k => finishOf fmt f (if k = 0 then c.fa f l else c.fb f l)
  match op with
  | .f32F64 => one fun l => f32Word f (c.da f l)
  | .f64F32 => two fun l => f64Word f (c.fa f l)
  | .f16F32 => packed .f16
  | .bf16F32 => packed .bf16
  | .f32F16Lo => half .f16 .f16x2 0
  | .f32F16Hi => half .f16 .f16x2 1
  | .f32Bf16Lo => half .bf16 .bf16x2 0
  | .f32Bf16Hi => half .bf16 .bf16x2 1
  | .i32F32 => one fun l => toIntBits 32 true (rmode0 f) (c.fa f l)
  | .ui32F32 => one fun l => toIntBits 32 false (rmode0 f) (c.fa f l)
  | .f32I32 => one fun l => f32Word f (.ofInt (c.srcA f .int32 l).toInt)
  | .f32Ui32 => one fun l => f32Word f (.ofInt (c.srcA f .int32 l).toNat)
  | .i32F64 => one fun l => toIntBits 32 true (rmode0 f) (c.da f l)
  | .ui32F64 => one fun l => toIntBits 32 false (rmode0 f) (c.da f l)
  | .f64I32 => two fun l => f64Word f (.ofInt (c.srcA f .int32 l).toInt)
  | .f64Ui32 => two fun l => f64Word f (.ofInt (c.srcA f .int32 l).toNat)
  | .i64F64 => two fun l => toIntBits 64 true (rmode0 f) (c.da f l)
  | .ui64F64 => two fun l => toIntBits 64 false (rmode0 f) (c.da f l)
  | .f64I64 => two fun l => f64Word f (.ofInt (c.pairA f .int64 l).toInt)
  | .f64Ui64 => two fun l => f64Word f (.ofInt (c.pairA f .int64 l).toNat)

def execCvt (op : CvtOp) (f : LaneFields) (s : State) : Result := issue (.cvt op f) (convert op f) s

/-- Element `k` of `w` bits of a word, and a word with that element replaced (R144). -/
def elemAt (x : Word) (w k : Nat) : Nat := bits x.toNat (w * k + w - 1) (w * k)
def setElem (x : Word) (w k e : Nat) : Word :=
  let m : Word := BitVec.ofNat 32 (2 ^ w - 1) <<< (w * k)
  (x &&& ~~~m) ||| (BitVec.ofNat 32 (e % 2 ^ w) <<< (w * k))

/-- The rounding mode for the element at position `k` of D in lane `l` (R175): under `sr`, S names the seed. -/
def elemMode (c : Ctx) (f : LaneFields) (l k : Nat) : RMode := rmode f (srBits (c.w.sreg f.s.toNat) l k)

/-- Source B of a form in which S is the seed under `sr` (R175). -/
def srcBSeed (c : Ctx) (f : LaneFields) (want : Want) (l : Nat) : Word :=
  if Form.isSr f then c.srcBplain f want l else c.srcB f want l

/-- The scale operand of a block-scaled pack: its pop follows those of A and B (R77, R177). -/
def srcScale (c : Ctx) (f : LaneFields) (l : Nat) : Word :=
  srcAt c.w .int32 f.lit f.c (popsBefore f.c (f.a :: (if Form.isSr f || Form.noS f then [f.b] else []))) l

/-- Elements 2k and 2k + 1 of D packed in a format; the other elements are kept (R174). -/
def packTwo (c : Ctx) (f : LaneFields) (fmt : Fmt) (k l : Nat) (x y : XVal) : Word :=
  let fin (pos : Nat) (v : XVal) : Nat := finishF fmt (elemMode c f l pos) (isFtz f) false v
  let d := codeWord c.w f.d 0 l
  setElem (setElem d fmt.width (2 * k) (fin (2 * k) x)) fmt.width (2 * k + 1) (fin (2 * k + 1) y)

/-- The element of a block-scaled pack before rounding: NaN under a scale of 0xFF (R177). -/
def scaledDown (s : Nat) (x : XVal) : XVal := if s = 0xFF then .nan else x.scale (127 - (s : Int))
/-- The value of an element under its scale (R146). -/
def scaledUp (s : Nat) (x : XVal) : XVal := if s = 0xFF then .nan else x.scale ((s : Int) - 127)

/-- The scale of a block (R176). -/
def blockScale (emax : Int) (v : XVal) : Nat :=
  match v with
  | .nan => 0xFF
  | .inf _ => 0xFF
  | .fin _ m e => if m = 0 then 0x7F else (min (max ((m.log2 : Int) + e - emax + 127) 0) 254).toNat

/-- A conversion of opcode 0x23 (R174). -/
def convertSmall (op : CvtSmallOp) (f : LaneFields) (c : Ctx) : Eff State :=
  let i : Instr := .cvtFp8Fp4 op f
  let k := f.c.toNat
  let pack (fmt : Fmt) : Eff State :=
    c.write1 i f fun l => packTwo c f fmt k l (c.fa f l) (prepB .f32 f (srcBSeed c f .f32 l).toNat)
  let packH (fmt : Fmt) : Eff State :=
    c.write1 i f fun l =>
      let h (j : Nat) : XVal := prepA .f16 f (halfNat (c.srcA f .f16x2 l) j)
      packTwo c f fmt k l (h 0) (h 1)
  let unpack (fmt : Fmt) : Eff State :=
    c.write1 i f fun l => f32Word f (prepA fmt f (elemAt (c.srcA f .int32 l) fmt.width k))
  let unpackH (fmt : Fmt) : Eff State :=
    c.write1 i f fun l => packHalves fun j =>
      finishOf .f16 f (prepA fmt f (elemAt (c.srcA f .int32 l) 8 (2 * k + j)))
  let scale (emax : Int) : Eff State := c.write1 i f fun l => BitVec.ofNat 32 (blockScale emax (c.fa f l).abs)
  let packBs (fmt : Fmt) (k : Nat) : Eff State :=
    c.write1 i f fun l =>
      let sc := (srcScale c f l).toNat % 256
      packTwo c f fmt k l (scaledDown sc (c.fa f l))
        (scaledDown sc (prepB .f32 f (srcBSeed c f .f32 l).toNat))
  let unpackBs (fmt : Fmt) : Eff State :=
    c.write1 i f fun l =>
      let b := c.srcB f .int32 l
      let sc := elemAt b 8 (if fmt.width = 4 && 4 ≤ k then 1 else 0)
      f32Word f (scaledUp sc (prepA fmt f (elemAt (c.srcA f .int32 l) fmt.width k)))
  match op with
  | .e4m3F32 => pack .e4m3
  | .e5m2F32 => pack .e5m2
  | .e2m1F32 => pack .e2m1
  | .e4m3F16 => packH .e4m3
  | .e5m2F16 => packH .e5m2
  | .f32E4m3 => unpack .e4m3
  | .f32E5m2 => unpack .e5m2
  | .f32E2m1 => unpack .e2m1
  | .f16E4m3 => unpackH .e4m3
  | .f16E5m2 => unpackH .e5m2
  | .scaleE4m3 => scale 8
  | .scaleE2m1 => scale 2
  | .bs4e4m3K0 => packBs .e4m3 0
  | .bs4e4m3K1 => packBs .e4m3 1
  | .bs4e2m1K0 => packBs .e2m1 0
  | .bs4e2m1K1 => packBs .e2m1 1
  | .bs4e2m1K2 => packBs .e2m1 2
  | .bs4e2m1K3 => packBs .e2m1 3
  | .f32Bs4e4m3 => unpackBs .e4m3
  | .f32Bs4e2m1 => unpackBs .e2m1

def execCvtFp8Fp4 (op : CvtSmallOp) (f : LaneFields) (s : State) : Result :=
  issue (.cvtFp8Fp4 op f) (convertSmall op f) s

end Sys2Proof.Machine
end

