-- ==== Sys2Proof/Machine/Barriers.lean ====
section
/-!
DEFINITION. Barriers, stage rings and grid phases as objects: arrivals, phases and the threads that they release (R289
to R298).
-/
namespace Sys2Proof.Machine

open Sys2Proof

/-! Barriers (R289, R291). -/

/-- A workgroup belongs to the instance of a barrier that `g` names: itself, or its cluster group. -/
def sharesBarrier (g h : Workgroup) (bar : Nat) : Bool :=
  if bar < 64 then h.id == g.id else h.launch == g.launch && h.cg == g.cg

def State.clusterGroup (s : State) (g : Workgroup) : Option ClusterGroup :=
  s.groups.find? fun k => k.launch == g.launch && k.cg == g.cg

/-- The barrier that a number names in a workgroup; an undeclared one has expected count 0. -/
def State.barrier (s : State) (g : Workgroup) (bar : Nat) : Option Barrier :=
  if bar < 64 then (g.barriers[bar]?).filter fun b => b.expected != 0
  else match s.clusterGroup g with
    | some k => k.barriers[bar - 64]?
    | none => none

def State.updBarrier (s : State) (g : Workgroup) (bar : Nat) (f : Barrier → Barrier) : State :=
  if bar < 64 then s.updWg g.id fun h => { h with barriers := updAt f h.barriers bar }
  else { s with groups := s.groups.map fun k =>
    if k.launch == g.launch && k.cg == g.cg then { k with barriers := updAt f k.barriers (bar - 64) } else k }

def Contrib.fresh (bar : Nat) : Contrib := ⟨bar, 0, 0, none, none⟩
/-- A wave's record at a barrier. -/
def Wave.contrib (w : Wave) (bar : Nat) : Contrib := (w.contribs.find? fun c => c.bar == bar).getD (.fresh bar)
def Wave.setContrib (w : Wave) (c : Contrib) : Wave :=
  { w with contribs := c :: w.contribs.filter fun d => d.bar != c.bar }

/-- Every live thread of the slices that the barrier counts has contributed, and there is one (R291, log entry 34). -/
def contributed (w : Wave) (b : Barrier) (c : Contrib) : Bool :=
  (c.a ||| c.x) != 0#32 &&
    ((b.sliceA && w.a.liveLanes != 0#32) || (b.sliceX && w.x.liveLanes != 0#32)) &&
    (!b.sliceA || w.a.liveLanes &&& ~~~c.a == 0#32) && (!b.sliceX || w.x.liveLanes &&& ~~~c.x == 0#32)

/-- The wave arrives when it can: the arrival is pending, and its release covers the accesses before `upto`. -/
def Wave.tryArrive (b : Barrier) (upto : Nat) (c : Contrib) (w : Wave) : Wave :=
  w.setContrib (if c.pending.isNone && contributed w b c then { c with a := 0, x := 0, pending := some upto } else c)

/-- A thread of the group has contributed to an arrival of the current phase (R291). -/
def alreadyIn (b : Barrier) (c : Contrib) (sl : Slice) (em : Lanes) : Bool :=
  c.pending.isSome || c.phase == some b.phase || (match sl with
    | .a => c.a
    | .x => c.x) &&& em != 0#32

/-- The threads of a wave that are parked on an object go on after the instruction of `n` bytes at which they parked;
the slices that they leave from. -/
def Wave.release (p : Park → Bool) (n : Word) (w : Wave) : Wave :=
  let go (t : SliceSt) : SliceSt :=
    t.arriveAll false (lanesWhere fun i => match (t.thread i).st with
      | .parked q => p q
      | _ => false) fun i => (t.thread i).pc + n
  { w with a := go w.a, x := go w.x }

/-- The phase completes: the threads of every wave whose arrival took effect in it go on, and each core acquires
(R291, R292). -/
def State.completeBarrier (s : State) (g : Workgroup) (bar phase : Nat) : State :=
  let s := s.updBarrier g bar fun b => { b with arrivals := 0, arrived := [], phase := phase + 1 }
  let free (w : Wave) : Wave :=
    if (w.contrib bar).phase == some phase then w.release (fun p => p == .barrier bar) 4#32 else w
  (s.wgs.filter fun h => sharesBarrier g h bar).foldl (fun s h =>
    (s.dropCopies h.core (if bar < 64 then 1 else 2)).updWg h.id fun h => { h with waves := h.waves.map free }) s

/-- The pending arrival of a wave takes effect (R291); at a cluster barrier it releases at `.cl` (R282). -/
def State.arriveBarrier (s : State) (g : Workgroup) (r : WaveRef) (bar : Nat) : State :=
  match s.barrier g bar with
  | none => s
  | some b =>
    let s := (s.releaseAt g.core (if bar < 64 then 1 else 2)).updWave r fun w =>
      w.setContrib { w.contrib bar with pending := none, phase := some b.phase }
    let s := s.updBarrier g bar fun b =>
      { b with arrivals := b.arrivals + 1, arrived := b.arrived ++ [(r.wg, r.wave)] }
    if b.arrivals + 1 = b.expected then s.completeBarrier g bar b.phase else s

/-! Rings (R294, R296). -/

def Workgroup.ring (g : Workgroup) (k : Nat) : Option Ring := g.rings.find? fun r => r.index == k
def Ring.side (r : Ring) (empty : Bool) (slot : Nat) : Option RingSide := (if empty then r.empty else r.full)[slot]?
def Ring.updSide (r : Ring) (empty : Bool) (slot : Nat) (f : RingSide → RingSide) : Ring :=
  if empty then { r with empty := updAt f r.empty slot } else { r with full := updAt f r.full slot }
def Ring.expected (r : Ring) (empty : Bool) : Nat := if empty then r.expectEmpty else r.expectFull

/-- One arrival on a side, of a wave or an engine: the count, and the phase at the expected count. -/
def RingSide.arrive (expected : Nat) (by_ : Option Nat) (t : RingSide) : RingSide :=
  if t.count + 1 = expected then ⟨!t.phase, 0, 0⟩
  else ⟨t.phase, t.count + 1, t.waves ||| (match by_ with
    | some k => 1#32 <<< k
    | none => 0#32)⟩

/-- An arrival takes effect; the parked threads whose parity it satisfies go on after their `ring.wait` (R297). -/
def State.arriveRing (s : State) (wg : Nat) (by_ : Option Nat) (empty : Bool) (ring slot : Nat) : State :=
  s.updWg wg fun g =>
    let step (r : Ring) : Ring :=
      if r.index == ring then r.updSide empty slot (RingSide.arrive (r.expected empty) by_) else r
    let g : Workgroup := { g with rings := g.rings.map step }
    match (g.ring ring).bind fun r => r.side empty slot with
    | none => g
    | some t =>
      let goes (n : Word) (p : Park) : Bool := match p with
        | .ring e k j par l => e == empty && k == ring && j == slot && par != t.phase && n == (if l then 8#32 else 4#32)
        | _ => false
      { g with waves := g.waves.map fun w => (w.release (goes 4#32) 4#32).release (goes 8#32) 8#32 }

/-! Grid phases (R298). -/

/-- Every live thread of the wave has executed `gbar`, and there is one (R298). -/
def gridContributed (w : Wave) : Bool :=
  (w.gridA ||| w.gridX) != 0#32 && (w.a.liveLanes ||| w.x.liveLanes) != 0#32 && w.a.liveLanes &&& ~~~w.gridA == 0#32 && w.x.liveLanes &&& ~~~w.gridX == 0#32
def Wave.tryGrid (upto : Nat) (w : Wave) : Wave :=
  if w.gridPending.isNone && !w.gridArrived && gridContributed w then
    { w with gridA := 0, gridX := 0, gridPending := some upto } else w

/-- The wave's grid arrival has taken effect: its release at `.dev` is complete. -/
def State.gridTaken (s : State) (g : Workgroup) (w : Wave) : Bool :=
  w.gridArrived || match w.gridPending with
    | some n => s.released ⟨g.id, w.id⟩ .a n && s.released ⟨g.id, w.id⟩ .x n
    | none => false

/-! The end of a thread re-evaluates arrivals (R291). -/

def State.reevaluate (s : State) (g : Workgroup) (r : WaveRef) : State :=
  (List.range 72).foldl (fun s bar => match s.barrier g bar with
    | none => s
    | some b => s.updWave r fun w =>
        if (w.contribs.any fun c => c.bar == bar) then w.tryArrive b s.nextId (w.contrib bar) else w)
    (s.updWave r fun w => w.tryGrid s.nextId)

end Sys2Proof.Machine
end

