-- ==== Sys2Proof/Machine/Control.lean ====
section
/-!
DEFINITION. Control flow, reconvergence, hardware loops and runs (08_control.md, R183 to R205), with the events that
release parked threads at an `mwait` and at a loop end.
-/
namespace Sys2Proof.Machine

open Sys2Proof

/-! Branches (R183 to R185). -/

/-- The effect on the wave, then every lane of `EM` comes to the counter that `tgt` gives it. -/
def Ctx.goto (c : Ctx) (f : Wave → Wave) (tgt : Nat → Word) : State :=
  c.s.updWave c.ref fun w => (f w).updSlice c.sl fun t => t.arriveAll false c.em tgt

/-- The target of a branch with an offset in words (R184). -/
def branchTarget {n : Nat} (c : Ctx) (off : BitVec n) : Word := c.pc + 4#32 * off.signExtend 32

def execJmp (off : BitVec 24) (s : State) : Result :=
  issue (.jmp off) (fun c => .ok (c.goto id fun _ => branchTarget c off)) s

def execCall (d : BitVec 8) (off : BitVec 16) (s : State) : Result :=
  issue (.call d off) (fun c =>
    .ok (c.goto (writeRow c.em d 0 fun _ => c.pc + 4#32) fun _ => branchTarget c off)) s

/-- A conditional branch: the condition is popped or read per lane (R184, R185). -/
def condBranch (i : Instr) (code : BitVec 8) (off : BitVec 16) (taken : Word → Bool) (c : Ctx) : Eff State :=
  match c.gate (usesOf i) [] with
  | .error e => .error e
  | .ok () =>
    .ok (c.goto (popAll c.em (usesOf i)) fun l =>
      if taken (codeWord c.w code 0 l) then branchTarget c off else c.pc + 4#32)

def execBz (d : BitVec 8) (off : BitVec 16) (s : State) : Result :=
  issue (.bz d off) (condBranch (.bz d off) d off fun x => x == 0#32) s
def execBnz (d : BitVec 8) (off : BitVec 16) (s : State) : Result :=
  issue (.bnz d off) (condBranch (.bnz d off) d off fun x => x != 0#32) s
def execBlt (d : BitVec 8) (off : BitVec 16) (s : State) : Result :=
  issue (.blt d off) (condBranch (.blt d off) d off fun x => x.getLsbD 31) s
def execBge (d : BitVec 8) (off : BitVec 16) (s : State) : Result :=
  issue (.bge d off) (condBranch (.bge d off) d off fun x => !x.getLsbD 31) s

/-- An indirect branch: MISALIGNED when a lane's target is no multiple of 4, before any effect (R184). -/
def indirect (a : BitVec 8) (f : Wave → Wave) (c : Ctx) : Eff State :=
  match c.lanes.find? fun l => (codeWord c.w a 0 l).extractLsb' 0 2 != 0#2 with
  | some l => failAt .misaligned { addr := (codeWord c.w a 0 l).setWidth 64, lane := some l }
  | none => .ok (c.goto f fun l => codeWord c.w a 0 l)

def execBrx (a : BitVec 8) (s : State) : Result := issue (.brx a) (indirect a id) s
def execCallx (d a : BitVec 8) (s : State) : Result :=
  issue (.callx d a) (fun c => indirect a (writeRow c.em d 0 fun _ => c.pc + 4#32) c) s
def execRet (a : BitVec 8) (s : State) : Result := issue (.ret a) (indirect a id) s

def execNop (s : State) : Result := issue .nop (fun c => .ok (c.done .nop id)) s

/-! The end of threads and waves (R186); `exit` itself waits for what R310, R357, R386 and R404 name. -/

/-- A loop without the lanes of a set; it becomes inactive with counter 0 when its lane set becomes empty. -/
def Loop.without (m : Lanes) (l : Loop) : Loop :=
  if !l.active then l
  else
    let rest := l.lanes &&& ~~~m
    if rest == 0#32 then { l with active := false, count := 0, lanes := 0, left := 0 }
    else { l with lanes := rest, left := l.left &&& ~~~m }

/-- The threads of a set end in the slice. -/
def SliceSt.exitLanes (m : Lanes) (t : SliceSt) : SliceSt :=
  let t := t.updLanes m fun _ h => { h with st := .exited, skip := 0 }
  let t := (List.range 12).foldl
    (fun t k => if t.mask k &&& m == 0#32 then t else t.setMask k (t.mask k &&& ~~~m)) t
  { t with loops := t.loops.map (Loop.without m) }

/-- The tags of threads that have ended are gone (R351). -/
def Wave.dropTags (w : Wave) : Wave :=
  { w with tags := w.tags.filter fun p => (w.a.liveLanes ||| w.x.liveLanes).getLsbD p.1 }

/-- A wave ends when all its threads have ended; its masked window then closes (R41, R409). -/
def Wave.endIfDone (w : Wave) : Wave :=
  if w.a.liveLanes == 0#32 && w.x.liveLanes == 0#32 then
    { w with ended := true, active := false, unblocked := none, window := none } else w

/-- The wave after an issue group's exit. -/
def Wave.exitGroup (sl : Slice) (em : Lanes) (w : Wave) : Wave :=
  (w.updSlice sl (SliceSt.exitLanes em)).dropTags.endIfDone

/-! The uniform branch and `yield` (R187, R188). -/

def sbrTaken (cond : SbrCond) (a : Word) : Bool :=
  match cond with
  | .always => true
  | .z => a == 0#32
  | .nz => a != 0#32
  | .lt => a.getLsbD 31
  | .ge => !a.getLsbD 31

def execSbr (cond : SbrCond) (g : GroupFields) (s : State) : Result :=
  issue (.sbr cond g) (fun c =>
    let t := if sbrTaken cond (c.gsrc g g.sa) then c.pc + 4#32 * g.lit.getD 0#32 else c.pc + 8#32
    .ok (c.goto id fun _ => t)) s

/-- The pending unblocked waves of a quarter-core, each with its workgroup, the cycle in which it became unblocked and its
wave slot (R52). -/
def State.pendingWaves (s : State) (core quarter : Nat) : List (WaveRef × Nat × Nat) :=
  s.wgs.flatMap fun g => if g.core == core && g.status == .resident && !g.keeper then
    g.waves.filterMap fun w => if w.active || w.ended || w.quarter != quarter then none
      else w.unblocked.map fun t => (⟨g.id, w.id⟩, t, w.wslot)
    else []

/-- The pending wave that became unblocked earliest; ties go to the lower wave slot (R52). -/
def State.earliest (s : State) (core quarter : Nat) : Option WaveRef :=
  ((s.pendingWaves core quarter).foldl (fun best p => match best with
    | none => some p
    | some b => if p.2.1 < b.2.1 || (p.2.1 == b.2.1 && p.2.2 < b.2.2) then some p else some b) none).map fun p => p.1

/-- Two waves change places between the active and the pending set (R52). -/
def State.exchange (s : State) (out in_ : WaveRef) : State :=
  (s.updWave out fun w => { w with active := false, unblocked := none }).updWave in_ fun w =>
    { w with active := true, unblocked := none }

/-- A wave is exchanged at its own request, with the wave that R52 puts first, and is unblocked from the cycle `since` of its
`yield` (R188). -/
def State.giveWay (s : State) (r : WaveRef) (core since : Nat) : State :=
  match s.earliest core (r.wave % 4) with
  | none => s
  | some o => (s.exchange r o).updWave r fun w => { w with unblocked := some since }

/-- `yield` (R188): an exchange, when an unblocked wave is pending; while the other slice has a run open, one after its
`endrun` (R201, R204). A keeper agent stands in no active set (R49). -/
def execYield (s : State) : Result :=
  issue .yield (fun c =>
    if c.g.keeper || (c.s.earliest c.core (c.w.id % 4)).isNone then .ok (c.done .yield id)
    else if c.w.run.isSome then .ok (c.done .yield fun w => { w with yielding := some c.s.clock })
    else .ok ((c.done .yield id).giveWay c.ref c.core c.s.clock)) s

/-! Reconvergence (R190, R191). -/

/-- The mask number of a group code. -/
def maskIndex (code : BitVec 7) : Nat := code.toNat - 0x60

def execJoin (g : GroupFields) (s : State) : Result :=
  issue (.join g) (fun c =>
    .ok (c.done (.join g) fun w => w.updSlice c.sl fun t =>
      t.setMask (maskIndex g.sd) (t.mask (maskIndex g.sd) ||| c.em))) s
def execLeave (g : GroupFields) (s : State) : Result :=
  issue (.leave g) (fun c =>
    .ok (c.done (.leave g) fun w => w.updSlice c.sl fun t =>
      t.setMask (maskIndex g.sd) (t.mask (maskIndex g.sd) &&& ~~~c.em))) s

/-- The threads of a set park at their counter (R42). -/
def SliceSt.parkLanes (m : Lanes) (p : Park) (t : SliceSt) : SliceSt :=
  t.updLanes m fun _ h => { h with st := .parked p, skip := 0 }

/-- `mwait`: threads outside the mask go on, the others park; the release is the event MWAIT_RELEASE. -/
def execMwait (g : GroupFields) (s : State) : Result :=
  issue (.mwait g) (fun c =>
    let k := maskIndex g.sa
    let m := c.slice.mask k
    .ok (c.s.updSlice c.ref c.sl fun t =>
      (t.arriveAll false (c.em &&& ~~~m) fun _ => c.pc + 4#32).parkLanes (c.em &&& m) (.mwait k))) s

/-- The threads of a slice that are parked at the `mwait` on mask k at counter pc. -/
def SliceSt.mwaiters (t : SliceSt) (k : Nat) (pc : Word) : Lanes :=
  lanesWhere fun i => (t.thread i).st == .parked (.mwait k) && (t.thread i).pc == pc

/-- The release condition of R191. -/
def SliceSt.mwaitReady (t : SliceSt) (k : Nat) (pc : Word) : Bool :=
  let p := t.mwaiters k pc
  p != 0#32 && (t.mask k &&& t.liveLanes &&& ~~~p) == 0#32

/-- MWAIT_RELEASE (R191): every thread parked at this `mwait` goes on together. -/
def execMwaitRelease (w : WaveRef) (sl : Slice) (k : Nat) (pc : Word) (s : State) : Result :=
  .next (s.updSlice w sl fun t =>
    if t.mwaitReady k pc then t.arriveAll false (t.mwaiters k pc) fun _ => pc + 4#32 else t)

/-! Hardware loops (R194 to R199). -/

/-- The trips of a loop: the quotient rounded up, at least 0. -/
def tripCount (start stop step : Int) : Int := max 0 (-((start - stop).fdiv step))

/-- The live threads of the slice that `lbrk` has removed from an active loop. -/
def SliceSt.brokenOut (t : SliceSt) : Lanes :=
  t.loops.foldl (fun m l => if l.active then m ||| l.left else m) 0#32

/-- The place after every active loop in the nesting order. -/
def SliceSt.nextOrder (t : SliceSt) : Nat :=
  t.loops.foldl (fun n l => if l.active && n ≤ l.order then l.order + 1 else n) 1

/-- `loop` (R195, R199). Threads that another group has parked at the end of counter k stay there (DEDUCED, log entry
145). -/
def execLoop (g : GroupFields) (s : State) : Result :=
  issue (.loop g) (fun c =>
    let lit := g.lit.getD 0#32
    let step := (lit.extractLsb' 16 16).toInt
    let k := g.sd.toNat
    let stop := c.pc + 4#32 * BitVec.ofNat 32 (Form.loopOffset lit)
    if c.slice.liveLanes &&& ~~~c.em &&& ~~~c.slice.brokenOut != 0#32 then fail .loopDiverged
    else if step = 0 then fail .loopStep
    else
      let trips := tripCount (c.gsrc64 g g.sa).toInt (c.gsrc64 g g.sb).toInt step
      if 2 ^ 32 - 1 < trips then fail .loopRange
      else if trips = 0 then
        .ok (c.s.updSlice c.ref c.sl fun t =>
          (t.updLoop k fun l => { l with count := 0, active := false, lanes := 0, left := 0 }).arriveAll false c.em
            fun _ => stop)
      else
        .ok (c.s.updSlice c.ref c.sl fun t =>
          (t.updLoop k fun _ => ⟨BitVec.ofInt 32 trips, true, c.pc + 8#32, stop, c.em, 0, t.nextOrder⟩).arriveAll
            false c.em fun _ => c.pc + 8#32)) s

/-- The members of loop k are all parked at its end (R196). -/
def SliceSt.loopEndReady (t : SliceSt) (k : Nat) : Bool :=
  let l := t.loop k
  l.active && l.lanes != 0#32 && (l.lanes &&& ~~~t.parkedOn (.loopEnd k)) == 0#32

/-- The end of a loop is reached: another trip, or the end of the loop (R196). -/
def SliceSt.loopEnd (k : Nat) (t : SliceSt) : SliceSt :=
  let l := t.loop k
  let n := l.count - 1#32
  if n != 0#32 then
    (t.updLoop k fun l => { l with count := n }).arriveAll false l.lanes fun _ => l.start
  else
    (t.updLoop k fun l => { l with count := 0, active := false, lanes := 0, left := 0 }).arriveAll false l.lanes
      fun _ => l.stop

/-- LOOP_END_REACHED (R196). -/
def execLoopEndReached (w : WaveRef) (sl : Slice) (k : Nat) (s : State) : Result :=
  .next (s.updSlice w sl fun t => if t.loopEndReady k then t.loopEnd k else t)

/-- `lbrk` (R198): the group leaves loop k and every loop inside it, and passes the end of loop k; each of its threads counts
as removed, in the loop's lane set or not (DEDUCED, log entry 146). -/
def SliceSt.breakLoop (em : Lanes) (k : Nat) (t : SliceSt) : SliceSt :=
  let top := t.loop k
  let leave (l : Loop) : Loop :=
    if l.active && top.order ≤ l.order then
      let rest := l.lanes &&& ~~~em
      if rest == 0#32 then { l with active := false, count := 0, lanes := 0, left := 0 }
      else { l with lanes := rest, left := l.left ||| em }
    else l
  { t with loops := t.loops.map leave }.arriveAll false em fun _ => top.stop

def execLbrk (g : GroupFields) (s : State) : Result :=
  issue (.lbrk g) (fun c =>
    let k := g.sd.toNat
    if !(c.slice.loop k).active then fail .loopInactive
    else .ok (c.s.updSlice c.ref c.sl (SliceSt.breakLoop c.em k))) s

/-! Runs (R200 to R205). -/

/-- `run`: waits while the other slice has a run open; every `o` row then holds unpredictable contents (R203). -/
def execRun (g : GroupFields) (s : State) : Result :=
  issue (.run g) (fun c =>
    if c.w.run.isSome then .error .wait
    else
      let t := c.s.updWave c.ref fun w =>
        { w.updSlice c.sl (fun t => t.arriveAll true c.em fun _ => c.pc + 4#32) with
          run := some ⟨c.sl, c.em, 0, g.sa.toNat⟩, o := ⟨[], some c.s.fresh⟩ }
      .ok { t with fresh := t.fresh + 1 }) s

/-- Closes the open run; the group then arrives at the next instruction, and a `yield` that waited is served (R204). -/
def closeRun (i : Instr) (c : Ctx) : Eff State :=
  let t := c.done i fun w => { w with run := none, yielding := none }
  .ok (match c.w.yielding with
    | some since => t.giveWay c.ref c.core since
    | none => t)

def execEndrun (s : State) : Result := issue .endrun (closeRun .endrun) s
/-- The hint changes nothing but scheduling (R205): see `State.takeTurn`. -/
def execEndrunHinted (h : Word) (s : State) : Result := issue (.endrunHinted h) (closeRun (.endrunHinted h)) s

end Sys2Proof.Machine
end

