-- ==== Sys2Proof/Machine/Ordering.lean ====
section
/-!
DEFINITION. Fences, barriers, stage rings, grid supersteps and code invalidation (12_ordering.md, R285 to R307), with the
events by which their arrivals take effect.
-/
namespace Sys2Proof.Machine

open Sys2Proof

/-! Fences (R285, R286). -/

def FenceKind.releases : FenceKind → Bool
  | .acq => false
  | _ => true
def FenceKind.acquires : FenceKind → Bool
  | .rel => false
  | _ => true

/-- A fence waits until the accesses it covers are complete; a release at `.dev` or `.sys` then writes back the core's
dirty bytes, and an acquire drops the non-home copies of its scope. -/
def execFence (kind : FenceKind) (g : GroupFields) (s : State) : Result :=
  issue (.fence kind g) (fun c =>
    let scope := g.sa.toNat
    if (FenceKind.releases kind && !c.s.released c.ref c.sl c.s.nextId) ||
        (FenceKind.acquires kind && !c.s.loadsDone c.ref c.sl) then .error .wait
    else
      let t := if FenceKind.releases kind then c.s.releaseAt c.core scope else c.s
      let t := if FenceKind.acquires kind then t.dropCopies c.core scope else t
      .ok (c.doneState (.fence kind g) t)) s

/-! Barriers (R290 to R293). -/

/-- The barrier of an arriving instruction: BAR_STATE when it is undeclared or does not count the slice (R293). -/
def arrivingAt (c : Ctx) (bar : Nat) : Eff Barrier :=
  match c.s.barrier c.g bar with
  | none => fail .barState
  | some b => if (match c.sl with
      | .a => b.sliceA
      | .x => b.sliceX) then .ok b else fail .barState

/-- The group contributes to its wave's next arrival; it waits when a thread already has (R291). -/
def contribute (c : Ctx) (bar : Nat) : Eff State :=
  match arrivingAt c bar with
  | .error e => .error e
  | .ok b =>
    let k := c.w.contrib bar
    if alreadyIn b k c.sl c.em then .error .wait
    else
      let k := match c.sl with
        | .a => { k with a := k.a ||| c.em }
        | .x => { k with x := k.x ||| c.em }
      .ok (c.s.updWave c.ref (Wave.tryArrive b c.s.nextId k))

def execBarSync (g : GroupFields) (s : State) : Result :=
  issue (.barSync g) (fun c => match contribute c g.sd.toNat with
    | .error e => .error e
    | .ok t => .ok (t.updSlice c.ref c.sl (SliceSt.parkLanes c.em (.barrier g.sd.toNat)))) s
def execBarArr (g : GroupFields) (s : State) : Result :=
  issue (.barArr g) (fun c => match contribute c g.sd.toNat with
    | .error e => .error e
    | .ok t => .ok (c.doneState (.barArr g) t)) s

/-- `bar.wait` goes on at once when the wave has not arrived or the phase of its latest arrival has completed. -/
def execBarWait (g : GroupFields) (s : State) : Result :=
  issue (.barWait g) (fun c =>
    let bar := g.sd.toNat
    match c.s.barrier c.g bar with
    | none => fail .barState
    | some b =>
      let k := c.w.contrib bar
      if k.pending.isSome || k.phase == some b.phase then
        .ok (c.s.updSlice c.ref c.sl (SliceSt.parkLanes c.em (.barrier bar)))
      else .ok (c.doneState (.barWait g) (c.s.dropCopies c.core (if bar < 64 then 1 else 2)))) s

/-- A wave has an arrival pending, or a thread parked, at the barrier. -/
def usesBarrier (bar : Nat) (w : Wave) : Bool :=
  let k := w.contrib bar
  k.pending.isSome || k.a ||| k.x != 0#32 || w.a.parkedOn (.barrier bar) ||| w.x.parkedOn (.barrier bar) != 0#32

/-- `bar.init` and its cases of BAR_STATE (R293); the phase number is kept. -/
def execBarInit (g : GroupFields) (s : State) : Result :=
  issue (.barInit g) (fun c =>
    let bar := g.sd.toNat
    let n := (c.gsrc g g.sa).toNat
    match c.s.barrier c.g bar with
    | none => fail .barState
    | some b =>
      if n = 0 || (if bar < 64 then 32 else 256) < n || b.arrivals != 0 ||
          c.s.wgs.any (fun h => sharesBarrier c.g h bar && h.waves.any (usesBarrier bar)) then fail .barState
      else
        .ok (c.doneState (.barInit g) (c.s.updBarrier c.g bar fun b =>
          { b with expected := n, sliceA := g.sb.toNat != 1, sliceX := g.sb.toNat != 0 }))) s

/-- A pending arrival of a wave can take effect: the release of the counted slices is complete (R291). -/
def State.arrivalReady (s : State) (g : Workgroup) (w : Wave) (bar : Nat) : Bool :=
  match s.barrier g bar, (w.contrib bar).pending with
  | some b, some n => (!b.sliceA || s.released ⟨g.id, w.id⟩ .a n) && (!b.sliceX || s.released ⟨g.id, w.id⟩ .x n)
  | _, _ => false

/-- BARRIER_ARRIVAL_EFFECT (R291). -/
def execBarrierArrivalEffect (r : WaveRef) (bar : Nat) (s : State) : Result :=
  .next (match s.wg r.wg with
    | none => s
    | some g => match g.wave r.wave with
      | none => s
      | some w => if s.arrivalReady g w bar then s.arriveBarrier g r bar else s)

/-! Stage rings (R295 to R297). -/

/-- The side, ring and slot that a ring instruction names: BAR_STATE for an undeclared ring or a slot beyond it. -/
def ringAt (c : Ctx) (g : GroupFields) : Eff (Bool × Nat × Nat × RingSide) :=
  let empty := g.sd.getLsbD 6
  let k := (g.sd.extractLsb' 0 4).toNat
  let slot := (c.gsrc g g.sa).toNat
  match c.g.ring k with
  | none => fail .barState
  | some r => if r.slots ≤ slot then fail .barState else match r.side empty slot with
    | none => fail .barState
    | some t => .ok (empty, k, slot, t)

def execRingArr (g : GroupFields) (s : State) : Result :=
  issue (.ringArr g) (fun c => match ringAt c g with
    | .error e => .error e
    | .ok (empty, k, slot, _) =>
      .ok (c.done (.ringArr g) fun w =>
        { w with ringArrivals := w.ringArrivals ++ [⟨empty, k, slot, c.sl, c.s.nextId⟩] })) s

/-- `ring.wait`: complete when the phase differs from the parity, otherwise the group parks. -/
def execRingWait (g : GroupFields) (s : State) : Result :=
  issue (.ringWait g) (fun c => match ringAt c g with
    | .error e => .error e
    | .ok (empty, k, slot, t) =>
      let parity := (c.gsrc g g.sb).getLsbD 0
      if t.phase != parity then .ok (c.done (.ringWait g) id)
      else .ok (c.s.updSlice c.ref c.sl (SliceSt.parkLanes c.em (.ring empty k slot parity g.lit.isSome)))) s

/-- The first pending arrival of a workgroup on a ring side whose release is complete. -/
def readyArrival (s : State) (g : Workgroup) (empty : Bool) (ring slot : Nat) : Option (Nat × RingArrival) :=
  g.waves.findSome? fun w => (w.ringArrivals.find? fun a =>
    a.empty == empty && a.ring == ring && a.slot == slot && s.released ⟨g.id, w.id⟩ a.sl a.upto).map fun a => (w.id, a)

/-- RING_ARRIVAL_EFFECT (R297). -/
def execRingArrivalEffect (wg : Nat) (empty : Bool) (ring slot : Nat) (s : State) : Result :=
  .next (match s.wg wg with
    | none => s
    | some g => match readyArrival s g empty ring slot with
      | none => s
      | some (k, a) =>
        (s.updWave ⟨wg, k⟩ fun w => { w with ringArrivals := w.ringArrivals.erase a }).arriveRing wg (some k) empty ring slot)

/-! Grid supersteps (R298). -/

/-- `gbar`: the threads park; the wave arrives when every live thread has executed it. -/
def execGbar (s : State) : Result :=
  issue .gbar (fun c =>
    .ok (c.s.updWave c.ref fun w =>
      let w := w.updSlice c.sl (SliceSt.parkLanes c.em .grid)
      Wave.tryGrid c.s.nextId (match c.sl with
        | .a => { w with gridA := w.gridA ||| c.em }
        | .x => { w with gridX := w.gridX ||| c.em }))) s

/-- The workgroups of a launch that have been released and not discarded. -/
def State.grid (s : State) (launch : Nat) : List Workgroup := s.wgs.filter fun g => g.launch == launch && !g.keeper

/-- The workgroups of a grid. -/
def Launch.count (l : Launch) : Nat := l.grid.foldl (fun n d => n * d.toNat) 1

/-- GRID_PHASE_COMPLETE (R298): every wave of every workgroup of the grid has arrived. -/
def execGridPhaseComplete (launch : Nat) (s : State) : Result :=
  .next (match s.launch launch with
    | none => s
    | some l =>
      let gs := s.grid launch
      if gs.isEmpty || gs.length != l.count || !gs.all (fun g => g.waves.all (s.gridTaken g)) then s
      else
        let s := gs.foldl (fun s g => (s.releaseL1 g.core).dropCopies g.core 3) s
        let free (w : Wave) : Wave :=
          { w with gridArrived := false, gridPending := none }.release (fun p => p == Park.grid) 4#32
        let s := gs.foldl (fun s g => s.updWg g.id fun h => { h with waves := h.waves.map free, arrivedGrid := true }) s
        s.updLaunch launch fun l => { l with gridPhase := l.gridPhase + 1 })

/-! Code invalidation (R304 to R306). -/

def lineAddr (va : DWord) : DWord := va &&& ~~~0x7F#64

/-- `icinv` places a request that completes once the wave's earlier stores are acknowledged and every instruction cache
has dropped the line. -/
def execIcinv (g : GroupFields) (s : State) : Result :=
  issue (.icinv g) (fun c =>
    let va := c.w.sreg64 g.sa.toNat
    if !canonical va then failAt .addrNoncanon { addr := va }
    else .ok (c.doneState (.icinv g) (c.s.place [c.req c.s.nextId (.icinv (lineAddr va))] 1))) s

/-- Every store record of the wave formed before name `upto` is acknowledged (R302, R305). -/
def State.storesDone (s : State) (r : WaveRef) (upto : Nat) : Bool :=
  (match s.wave r with
    | some w => w.recs.all fun k => upto ≤ k.id
    | none => true) &&
  s.reqs.all fun q => q.w != r || upto ≤ q.id || match q.kind with
    | .ack _ _ => false
    | _ => true

/-- ICINV_COMPLETE (R305): every instruction cache has dropped the interface's line. -/
def execIcinvComplete (id : Nat) (s : State) : Result :=
  .next (match s.req id with
    | none => s
    | some r => match r.kind with
      | .icinv line =>
        if !s.storesDone r.w r.id then s
        else
          let s := s.releaseL1 r.core
          let keep (l : ILine) : Bool := !(l.vi == tableVi r.vi && l.line == va52 line)
          let s : State := { s with cores := s.cores.map fun c => { c with icache := c.icache.filter keep } }
          s.endReq id
      | _ => s)

/-- `ifence` waits for every earlier `icinv` of the wave and empties the fetch buffers of both slices. -/
def execIfence (s : State) : Result :=
  issue .ifence (fun c =>
    if c.s.reqs.any fun q => q.w == c.ref && match q.kind with
        | .icinv _ => true
        | _ => false then .error .wait
    else .ok (c.done .ifence fun w => { w with a := { w.a with fbuf := [] }, x := { w.x with fbuf := [] } })) s

end Sys2Proof.Machine
end

