-- ==== Sys2Proof/Machine/Copy.lean ====
section
/-!
DEFINITION. The copy engine (16_copy.md): layout records and their cache, the commands that copy instructions form, and
the events by which an engine reads, writes, places, completes and fails; `tfence` (R302) and recalls (R300).
-/
namespace Sys2Proof.Machine

open Sys2Proof

/-! LayoutRec records (R390, R391). -/

structure LayoutRec where
  ebase : Nat
  sbase : Nat
  epitch : Nat
  spitch : Nat
  rows : Nat
  cols : Nat
  format : Nat
  deriving DecidableEq, Repr

/-- A format with a scale plane. -/
def LayoutRec.scaled (r : LayoutRec) : Bool := r.format = 5 || r.format = 6
/-- Bits of an element. -/
def LayoutRec.bits (r : LayoutRec) : Nat :=
  match r.format with
  | 1 | 5 => 4
  | 2 | 6 => 8
  | 3 => 16
  | _ => 32
/-- Bytes of `n` elements. -/
def LayoutRec.bytes (r : LayoutRec) (n : Nat) : Nat := n * r.bits / 8
/-- The multiple that a column number is of. -/
def LayoutRec.unit (r : LayoutRec) : Nat := if r.scaled then 4 else if r.format = 1 then 2 else 1

/-- The good record that 64 bytes hold, if they do (R390). -/
def layoutOf (bs : List Byte) : Option LayoutRec :=
  let ws := wordsOf (ofBytes bs) 16
  let w (k : Nat) : Nat := (laneAt ws k).toNat
  let r : LayoutRec := ⟨w 0 + 2 ^ 32 * w 1, w 2 + 2 ^ 32 * w 3, w 4, w 5, w 6, w 7, w 8⟩
  let eEnd := r.ebase + (r.rows - 1) * r.epitch + ceilDiv (r.cols * r.bits) 8
  let sEnd := r.sbase + (r.rows - 1) * r.spitch + r.cols / 4
  let planes := if r.scaled then
      r.spitch % 4 = 0 && r.cols ≤ 4 * r.spitch && (eEnd ≤ r.sbase || sEnd ≤ r.ebase)
    else r.sbase = 0 && r.spitch = 0
  if 1 ≤ r.format && r.format ≤ 6 && r.ebase % 16 = 0 && r.epitch % 16 = 0 && r.cols * r.bits ≤ 8 * r.epitch &&
      1 ≤ r.rows && r.rows ≤ 2 ^ 24 && 1 ≤ r.cols && r.cols ≤ 2 ^ 24 && r.cols % r.unit = 0 && planes &&
      (List.range 7).all (fun k => w (9 + k) = 0) then some r else none

/-- Takes a record into the layout cache of 128. -/
def Cluster.keepLayout (c : Cluster) (n : Nat) (e : LayoutEntry) : Cluster :=
  { c with layouts := e :: (if c.layouts.length < 128 then c.layouts else c.layouts.eraseIdx (n % c.layouts.length)) }

/-- The 64 bytes of a record through the layout cache; a held record gives each of its 16-byte units in its held or its
present contents (R391). -/
def State.layoutBytes (s : State) (cluster vi : Nat) (va : DWord) : Except ReadStop (List Byte) × State :=
  let r := s.engineRead ⟨cluster, vi, 3, State.isOwned, none⟩ va 64
  match (s.cluster cluster).layouts.find? fun e => e.vi == vi && e.addr == va.toNat with
  | some e =>
    match r with
    | (.ok bs, t) =>
      let (n, t) := t.draw
      (.ok ((List.range 4).flatMap fun k => (((if n.testBit k then bs else e.bytes).drop (16 * k)).take 16)), t)
    | _ => (.ok e.bytes, s)
  | none =>
    match r with
    | (.ok bs, t) =>
      let (n, t) := t.draw
      (.ok bs, t.updCluster cluster fun c => c.keepLayout n ⟨vi, va.toNat, bs⟩)
    | r => r

/-- The formats of R390. -/
def layoutFormats : List Nat := [1, 2, 3, 4, 5, 6]
/-- The formats that a bad record can be taken to have: its own, when that is one. -/
def badFormats (bs : List Byte) : List Nat :=
  let f := (laneAt (wordsOf (ofBytes bs) 16) 8).toNat % 256
  if layoutFormats.contains f then [f] else layoutFormats

/-- The record at an address: good, or LAYOUT_BAD or the cause of its read, with the formats that it can be taken to have; none
while its line is owned. A record that is not aligned, or not in device memory, is bad; a cause of its address comes before that
(R8). -/
def State.layoutAt (s : State) (cluster vi : Nat) (va : DWord) : Option (Except (Cause × List Nat) LayoutRec) × State :=
  let inHost : Bool := match (locate s cluster none vi va .load).1 with
    | .ok p => p.mem == 1 || p.mem == 2
    | .error _ => false
  if misaligned va 64 || inHost then match s.readFault cluster vi va 64 with
    | some .owned => (none, s)
    | some (.cause c _) => (some (.error (c, layoutFormats)), s)
    | none => (some (.error (.layoutBad, layoutFormats)), s)
  else match s.layoutBytes cluster vi va with
    | (.error .owned, t) => (none, t)
    | (.error (.cause c _), t) => (some (.error (c, layoutFormats)), t)
    | (.ok bs, t) => match layoutOf bs with
      | some r => (some (.ok r), t)
      | none => (some (.error (.layoutBad, badFormats bs)), t)

/-- `lrec` (R401). -/
def execLrec (g : GroupFields) (s : State) : Result :=
  issue (.lrec g) (fun c =>
    match c.s.layoutAt c.cluster c.vi (c.w.sreg64 g.sa.toNat) with
    | (none, _) => .error .wait
    | (some r, t) => ({ c with s := t } : Ctx).groupWrite (.lrec g) g.sd (match r with
        | .ok _ => 0#32
        | .error (k, _) => BitVec.ofNat 32 k.code) id) s

/-! Ranges. -/

/-- The end `k` bytes further. -/
def CopyEnd.at_ (k : Nat) : CopyEnd → CopyEnd
  | .global va => .global (va + BitVec.ofNat 64 k)
  | .scratch off => .scratch (off + k)
  | .fill b => .fill b
/-- The bytes up to the end of a global line. -/
def CopyEnd.room : CopyEnd → Nat
  | .global va => 128 - va.toNat % 128
  | _ => 2 ^ 21
/-- The same of a destination, where an engine writes scratch by aligned units of 16 bytes (R279, R402). -/
def CopyEnd.roomTo : CopyEnd → Nat
  | .scratch off => 16 - off % 16
  | e => e.room

/-- A move cut at the boundaries of both sides; `fuel` bounds the pieces. -/
def Move.split (fuel : Nat) (m : Move) : List Move :=
  match fuel with
  | 0 => []
  | fuel + 1 =>
    if m.n = 0 then []
    else
      let k := min m.n (min m.src.room m.dst.roomTo)
      ⟨m.src, m.dst, k⟩ :: Move.split fuel ⟨m.src.at_ k, m.dst.at_ k, m.n - k⟩
def splitMoves (ms : List Move) : List Move := ms.flatMap fun m => m.split (m.n / 2 + 4)

/-! Completion words (R397). -/

def arrives (w : Word) : Bool := w.getLsbD 31
def completionSide (w : Word) : Bool := w.getLsbD 30
def completionRing (w : Word) : Nat := (w.extractLsb' 16 4).toNat
def completionSlot (w : Word) : Nat := (w.extractLsb' 0 4).toNat
/-- COPY_FORM for a reserved bit; BAR_STATE for a ring or slot that is not there. -/
def completionFaults (g : Workgroup) (w : Word) : List (Cause × Info) :=
  (if w.extractLsb' 20 10 == 0#10 && w.extractLsb' 4 12 == 0#12 then [] else [(.copyForm, noInfo)]) ++
  (if !arrives w then [] else match g.ring (completionRing w) with
    | some r => if completionSlot w < r.slots then [] else [(.barState, noInfo)]
    | none => [(.barState, noInfo)])

/-! Issue (R389, R398, R402). -/

/-- The wave has 16 commands incomplete, or the engine holds 64 (R398). -/
def Ctx.copyFull (c : Ctx) : Bool :=
  16 ≤ (c.s.cmds.filter fun k => k.w == c.ref).length ||
  64 ≤ (c.s.cmds.filter fun k => clusterOf k.core == c.cluster).length

/-- The lines of device memory that moves write, translated as far as they can be (R300). -/
def destLines (s : State) (cluster vi : Nat) (ms : List Move) : List Nat :=
  ms.foldl (fun ls m => match m.dst with
    | .global va => match (locate s cluster none vi va .store).1 with
      | .ok p => if p.mem = 0 && !ls.contains (lineOf p.pa) then ls ++ [lineOf p.pa] else ls
      | .error _ => ls
    | _ => ls) []

/-- The place of a destination waits for a table entry in an owned line. -/
def lateDest (s : State) (cluster vi : Nat) (m : Move) : Bool :=
  match m.dst with
  | .global va => (locate s cluster none vi va .store).2.delayed
  | _ => false

/-- A command takes ownership of the lines that it has still to write (R300). -/
def State.takeLines (s : State) (k : Command) : State :=
  { s with
    delayed := s.delayed || k.todo.any (lateDest s (clusterOf k.core) k.vi)
    owned := s.owned ++ (destLines s (clusterOf k.core) k.vi k.todo).map fun l => ⟨l, .command k.id⟩ }
/-- A command's ownership ends. -/
def State.dropLines (s : State) (id : Nat) : State := { s with owned := s.owned.filter fun o => o.by_ != .command id }

/-- The status of a tag (R400). -/
def statusPending : Nat := 0x80000000
def setStatus (tag x : Nat) (w : Wave) : Wave :=
  { w with copyStatus := w.copyStatus.map fun p => if p.1 == tag then (tag, x) else p }

/-- A new command with the wave's next tag; the wave keeps 64 statuses. -/
def Ctx.newCommand (c : Ctx) (scope : Nat) (nf : Bool) (todo : List Move) (stream : Option Stream) (completion : Word)
    (t : State) : State :=
  let k : Command := ⟨t.nextId, c.ref, c.core, c.vi, c.pc, c.w.copyTag, scope, nf, splitMoves todo, stream, completion,
    false, none, none, []⟩
  let t := { t with cmds := t.cmds ++ [k], nextId := t.nextId + 1 }.takeLines k
  t.updWave c.ref fun w => { w with
    copyTag := (w.copyTag + 1) % 2 ^ 32, copyStatus := ((c.w.copyTag, statusPending) :: w.copyStatus).take 64 }

/-- `sk+6` and `sk+7` of a block: faults, scope and `.nf` (R392). -/
def Ctx.tailFaults (c : Ctx) (k : Nat) : List (Cause × Info) :=
  let m := c.w.sreg (k + 7)
  let sc := (m.extractLsb' 0 3).toNat
  (if 2 ≤ sc && sc ≤ 4 && m &&& ~~~0x17#32 == 0#32 then [] else [(.copyForm, noInfo)]) ++
    completionFaults c.g (c.w.sreg (k + 6))
def Ctx.blockScope (c : Ctx) (k : Nat) : Nat := ((c.w.sreg (k + 7)).extractLsb' 0 3).toNat
def Ctx.blockNf (c : Ctx) (k : Nat) : Bool := (c.w.sreg (k + 7)).getLsbD 4

/-- MISALIGNED and SCRATCH_RANGE of a scratch range. -/
def Ctx.rangeFaults (c : Ctx) (off align n : Nat) : List (Cause × Info) :=
  let i : Info := { addr := BitVec.ofNat 64 off }
  (if off % align = 0 then [] else [(.misaligned, i)]) ++
    (if off + n ≤ c.scratchSize then [] else [(.scratchRange, i)])

/-! `cpy.tile` (R392 to R394). -/

/-- A tile: its record, first element, rows and columns. -/
structure Tile where
  r : LayoutRec
  row0 : Nat
  col0 : Nat
  rows : Nat
  cols : Nat
  deriving DecidableEq, Repr

def Tile.rb (t : Tile) : Nat := t.r.bytes t.cols
def Tile.sb (t : Tile) : Nat := if t.r.scaled then t.cols / 4 else 0
def Tile.size (t : Tile) : Nat := t.rows * (t.rb + t.sb)
/-- The columns of tile row `i` that lie in the record. -/
def Tile.inside (t : Tile) (i : Nat) : Nat := if t.row0 + i < t.r.rows then min t.cols (t.r.cols - t.col0) else 0
def Tile.elemAt (t : Tile) (i : Nat) : CopyEnd :=
  .global (BitVec.ofNat 64 (t.r.ebase + (t.row0 + i) * t.r.epitch + t.r.bytes t.col0))
def Tile.scaleAt (t : Tile) (i : Nat) : CopyEnd :=
  .global (BitVec.ofNat 64 (t.r.sbase + (t.row0 + i) * t.r.spitch + t.col0 / 4))
/-- The place of row `i` in a scratch image, and that of its scales. -/
def Tile.elemOff (t : Tile) (off i : Nat) : CopyEnd := .scratch (off + i * t.rb)
def Tile.scaleOff (t : Tile) (off i : Nat) : CopyEnd := .scratch (off + t.rows * t.rb + i * t.sb)

/-- The moves that read row `i` into a scratch image: elements in the record, then +0; scales, then 0x7F. -/
def Tile.rowIn (t : Tile) (off i : Nat) : List Move :=
  let n := t.r.bytes (t.inside i)
  let k := if t.r.scaled then t.inside i / 4 else 0
  [⟨t.elemAt i, t.elemOff off i, n⟩, ⟨.fill 0#8, (t.elemOff off i).at_ n, t.rb - n⟩,
    ⟨t.scaleAt i, t.scaleOff off i, k⟩, ⟨.fill 0x7F#8, (t.scaleOff off i).at_ k, t.sb - k⟩]
/-- The moves that write row `i` from a scratch image: those in the record. -/
def Tile.rowOut (t : Tile) (off i : Nat) : List Move :=
  [⟨t.elemOff off i, t.elemAt i, t.r.bytes (t.inside i)⟩,
    ⟨t.scaleOff off i, t.scaleAt i, if t.r.scaled then t.inside i / 4 else 0⟩]

/-- COPY_FORM of the tile's fields (R392, R394). -/
def Tile.formOk (t : Tile) (toQueue : Bool) : Bool :=
  t.col0 % t.r.unit = 0 && 1 ≤ t.rows && t.rows ≤ (if toQueue then 32 else 256) && t.cols * t.r.bits % 32 = 0 &&
    t.rb ≤ 4096 && (!t.r.scaled || t.cols % 16 = 0)

/-- The queue that a `.gq` may stream to: of result kind, deep enough, attached to nothing or to streams of the same
feeder wave (R394). -/
def Ctx.streamTarget (c : Ctx) (target : Word) (slots : Nat) : Bool :=
  match (c.g.wave (target.extractLsb' 16 5).toNat).bind fun w => w.queue (target.extractLsb' 0 4).toNat with
  | some u => u.kind == .result && slots ≤ u.depth && (u.attach == .none || u.attach == .copy c.w.id)
  | none => false

/-- The checks of a tile command against a good record. -/
def Ctx.tileFaults (c : Ctx) (dir : TileDir) (t : Tile) (target : Word) : List (Cause × Info) :=
  let ok := t.formOk (dir == .gq) && (dir != .gq || target &&& ~~~0x1F000F#32 == 0#32)
  (if ok then [] else [(.copyForm, noInfo)]) ++
  match dir with
  | .gq => if c.streamTarget target ((t.rb + t.sb) / 4) then [] else [(.copyTarget, noInfo)]
  | _ => c.rangeFaults target.toNat 16 t.size

/-- The causes of a tile command whose record is bad or cannot be read: those that it has with each format that the record can be
taken to have (R8; DEDUCED, log entry 55). -/
def Ctx.bareFaults (c : Ctx) (dir : TileDir) (t : Tile) (target : Word) (formats : List Nat) : List (Cause × Info) :=
  let each := formats.map fun f => c.tileFaults dir { t with r := ⟨0, 0, 0, 0, 0, 0, f⟩ } target
  (each.headD []).filter fun p => each.all fun l => l.any fun q => q.1 == p.1

/-- Tags are written to SD with Z and N (R389). -/
def Ctx.tagWrite (c : Ctx) (i : Instr) (g : GroupFields) (t : State) : Eff State :=
  ({ c with s := t } : Ctx).groupWrite i g.sd (BitVec.ofNat 32 c.w.copyTag) id

/-- A stream attaches its queue, until its last word is placed; one without words attaches nothing. -/
def Ctx.attachStream (c : Ctx) (st : Stream) (t : State) : State :=
  if st.words = 0 then t
  else t.updWave ⟨c.g.id, st.wave⟩ fun w => match w.queue st.q with
    | some u => w.setQueue st.q (some { u with attach := .copy c.w.id })
    | none => w

/-- `cpy.tile`. -/
def execCpyTile (dir : TileDir) (g : GroupFields) (s : State) : Result :=
  issue (.cpyTile dir g) (fun c =>
    let k := g.sa.toNat
    let x (j : Nat) : Word := c.w.sreg (k + j)
    let tileOf (r : LayoutRec) : Tile :=
      ⟨r, (x 2).toNat, (x 3).toNat, ((x 4).extractLsb' 16 16).toNat, ((x 4).extractLsb' 0 16).toNat⟩
    if c.copyFull then .error .wait
    else match c.s.layoutAt c.cluster c.vi (c.w.sreg64 k) with
    | (none, _) => .error .wait
    | (some (.error (e, formats)), _) =>
      match raiseAny ((e, ({ addr := c.w.sreg64 k } : Info)) ::
          c.bareFaults dir (tileOf ⟨0, 0, 0, 0, 0, 0, 0⟩) (x 5) formats ++ c.tailFaults k) with
      | .error e => .error e
      | .ok () => fail e
    | (some (.ok r), t) =>
      let tile := tileOf r
      match raiseAny (c.tileFaults dir tile (x 5) ++ c.tailFaults k) with
      | .error e => .error e
      | .ok () =>
        let off := (x 5).toNat
        let rows := List.range tile.rows
        let st : Stream := ⟨((x 5).extractLsb' 16 5).toNat, ((x 5).extractLsb' 0 4).toNat, rows.map (tile.rowIn 0),
          (tile.rb + tile.sb) / 4, 0, []⟩
        let todo := match dir with
          | .gs => rows.flatMap (tile.rowIn off)
          | .sg => rows.flatMap (tile.rowOut off)
          | .gq => []
        let t := if dir == .gq then c.attachStream st t else t
        c.tagWrite (.cpyTile dir g) g
          (c.newCommand (c.blockScope k) (c.blockNf k) todo (if dir == .gq then some st else none) (x 6) t)) s

/-! `cpy.lin` (R395). -/

/-- Two ranges of `n` bytes overlap modulo 2^64. -/
def overlap (a b : DWord) (n : Nat) : Bool := (a - b).toNat < n || (b - a).toNat < n

def execCpyLin (dir : LinDir) (g : GroupFields) (s : State) : Result :=
  issue (.cpyLin dir g) (fun c =>
    let k := g.sa.toNat
    let x (j : Nat) : Word := c.w.sreg (k + j)
    let n := (x 4).toNat
    let src := c.w.sreg64 k
    let dst := c.w.sreg64 (k + 2)
    let form : Bool := 1 ≤ n && n ≤ 2 ^ 20 && x 5 == 0#32 && match dir with
      | .gg => !overlap src dst n
      | .gs => x 3 == 0#32
      | .sg => x 1 == 0#32
    let range := match dir with
      | .gg => []
      | .gs => c.rangeFaults (x 2).toNat 1 n
      | .sg => c.rangeFaults (x 0).toNat 1 n
    if c.copyFull then .error .wait
    else match raiseAny ((if form then [] else [(.copyForm, noInfo)]) ++ range ++ c.tailFaults k) with
      | .error e => .error e
      | .ok () =>
        let m : Move := match dir with
          | .gg => ⟨.global src, .global dst, n⟩
          | .gs => ⟨.global src, .scratch (x 2).toNat, n⟩
          | .sg => ⟨.scratch (x 0).toNat, .global dst, n⟩
        c.tagWrite (.cpyLin dir g) g (c.newCommand (c.blockScope k) (c.blockNf k) [m] none (x 6) c.s)) s

/-! `cpy.gth` and `cpy.sct` (R396). -/

/-- The bytes of the size in mode [10:8]. -/
def copySize (f : LaneFields) : Nat := 2 ^ (f.mode.extractLsb' 0 3).toNat

/-- MISALIGNED and ADDR_NONCANON of the lanes. -/
def Ctx.laneAddrFaults (c : Ctx) (f : LaneFields) (n : Nat) : List (Cause × Info) :=
  c.alignFault f c.covered n ++ c.covered.filterMap fun l =>
    if canonical (c.address f l) then none else some (.addrNoncanon, { addr := c.address f l, lane := some l })

/-- A lane command: `gather` or scatter. -/
def copyLanes (i : Instr) (gather : Bool) (f : LaneFields) (c : Ctx) : Eff State :=
  let n := copySize f
  let j := (f.d.extractLsb' 0 7).toNat
  let off := (c.w.sreg j).toNat
  let last := c.covered.foldl (fun _ l => (l + 1) * n) 0
  if c.copyFull then .error .wait
  else match raiseAny (c.laneAddrFaults f n ++ c.rangeFaults off n last ++ completionFaults c.g (c.w.sreg (j + 1))) with
    | .error e => .error e
    | .ok () =>
      let move (l : Nat) : Move :=
        let m : CopyEnd := .global (c.address f l)
        let h : CopyEnd := .scratch (off + l * n)
        if gather then ⟨m, h, n⟩ else ⟨h, m, n⟩
      let t := c.newCommand (scopeOf f) (Form.isNf f) (c.covered.map move) none (c.w.sreg (j + 1)) c.s
      .ok (({ c with s := t } : Ctx).done i fun w =>
        if f.c == 0#8 then w else w.setS (f.c.extractLsb' 0 7).toNat (BitVec.ofNat 32 c.w.copyTag))

def execCpyGth (f : LaneFields) (s : State) : Result := issue (.cpyGth f) (copyLanes (.cpyGth f) true f) s
def execCpySct (f : LaneFields) (s : State) : Result := issue (.cpySct f) (copyLanes (.cpySct f) false f) s

/-- `cpy.stat` (R400). -/
def execCpyStat (g : GroupFields) (s : State) : Result :=
  issue (.cpyStat g) (fun c =>
    let tag := (c.gsrc g g.sa).toNat
    c.groupWrite (.cpyStat g) g.sd (match c.w.copyStatus.find? fun p => p.1 == tag with
      | some p => BitVec.ofNat 32 p.2
      | none => 0x20000000#32) id) s

/-- `tfence` (R302): the wave's stores reach the point of `.dev`, then the cluster's layout cache is empty. -/
def execTfence (s : State) : Result :=
  issue .tfence (fun c =>
    if !c.s.storesDone c.ref c.s.nextId then .error .wait
    else
      let t := c.s.releaseL1 c.core
      .ok (c.doneState .tfence (t.updCluster c.cluster fun k => { k with layouts := [] }))) s

/-! The engine (R300, R301, R403). -/

def State.cmd (s : State) (id : Nat) : Option Command := s.cmds.find? fun k => k.id == id
def State.updCmd (s : State) (id : Nat) (f : Command → Command) : State :=
  { s with cmds := s.cmds.map fun k => if k.id == id then f k else k }

/-- The engine may run the commands of the workgroup: it is not suspended (R404). -/
def servable (g : Workgroup) : Bool :=
  match g.status with
  | .resident | .halting _ | .discarding => true
  | _ => false

/-- A stream has words to read. -/
def Stream.unread (t : Stream) : Bool := t.next < t.words
/-- A command has something to copy or read. -/
def Command.busy (k : Command) : Bool := k.failed.isNone && (!k.todo.isEmpty || match k.stream with
  | some t => t.unread
  | none => false)

/-- An engine's access for a command waits while another engine owns the line. -/
def Command.blocked (k : Command) (s : State) (p : Place) : Bool :=
  p.mem == 0 && match s.ownerOf (lineOf p.pa) with
  | none => false
  | some o => o != .command k.id

/-- A byte of the workgroup's scratch for a command: of the word that it has read before, if it has one (R402). -/
def Command.scratchByte (k : Command) (m : ByteFile) (off : Nat) : Byte :=
  match k.words.find? fun p => p.1 == off / 4 with
  | some p => (p.2[off % 4]?).getD 0#8
  | none => m.get off
/-- The scratch words that a move reads. -/
def Move.scratchWords (m : Move) : List Nat :=
  match m.src with
  | .scratch off => (List.range ((off + m.n + 3) / 4 - off / 4)).map fun j => off / 4 + j
  | _ => []

/-- What an engine writes at once at a destination: a line of memory, so that it keeps its earlier contents until all of it is
written (R300, R399, R404), or a unit of scratch (R279). Destinations whose place is not known lie together by address. -/
def State.copyUnit (s : State) (k : Command) (e : CopyEnd) : Option (Nat × Nat) :=
  match e with
  | .fill _ => none
  | .scratch off => some (4, off / 16)
  | .global va => match (locate s (clusterOf k.core) none k.vi va .store).1 with
    | .ok p => some (p.mem, lineOf p.pa)
    | .error _ => some (5, va.toNat / 128)

/-- A move goes to the scratch line that the engine is writing for the command (R404). -/
def Command.midLine (k : Command) (m : Move) : Bool :=
  k.failed.isNone && match m.dst, k.line with
  | .scratch off, some l => off / 128 == l
  | _, _ => false

/-- The bytes at one end of a range within a line. -/
def readEnd (k : Command) (e : CopyEnd) (n : Nat) (s : State) : Except ReadStop (List Byte × State) :=
  match e with
  | .fill b => .ok (List.replicate n b, s)
  | .scratch off => match s.wg k.w.wg with
    | some g => .ok ((List.range n).map fun j => k.scratchByte g.scratch (off + j), s)
    | none => .ok (List.replicate n 0#8, s)
  | .global va => settle (s.engineRead ⟨clusterOf k.core, k.vi, k.scope, k.blocked, some k.id⟩ va n)

/-- Bytes written at an end of a range within a line. -/
def writeEnd (k : Command) (e : CopyEnd) (bs : List Byte) (s : State) : Except ReadStop State :=
  match e with
  | .fill _ => .ok s
  | .scratch off => .ok (s.updWg k.w.wg fun g => { g with scratch := g.scratch.write off bs })
  | .global va => match locate s (clusterOf k.core) none k.vi va .store with
    | (.error c, _) => .error (.cause c va)
    | (.ok p, s) => if s.delayed || k.blocked s p then .error .owned else .ok (s.contextStore k.w k.core k.scope p bs)

/-- The bytes of the sources of moves. -/
def readMoves (k : Command) : List Move → State → Except ReadStop (List (Move × List Byte) × State)
  | [], s => .ok ([], s)
  | m :: ms, s => do
    let (bs, s) ← readEnd k m.src m.n s
    let (rest, s) ← readMoves k ms s
    .ok ((m, bs) :: rest, s)
/-- Bytes written at the destinations of moves, in order. -/
def writeMoves (k : Command) : List (Move × List Byte) → State → Except ReadStop State
  | [], s => .ok s
  | (m, bs) :: rest, s => do
    let s ← writeEnd k m.dst bs s
    writeMoves k rest s

/-- A command after the moves `done` of what it has to copy, the last one `m`, of scratch contents `sc`: it keeps the words that
others of its moves still read (R402), and the scratch line while others write it. -/
def Command.after (sc : ByteFile) (done left : List Move) (m : Move) (k : Command) : Command :=
  let still := left.flatMap Move.scratchWords
  let read := (done.flatMap Move.scratchWords).map fun a => (a, (List.range 4).map fun j => k.scratchByte sc (4 * a + j))
  let k := { k with todo := left, words := (k.words ++ read).filter fun p => still.contains p.1, line := match m.dst with
    | .scratch off => some (off / 128)
    | _ => none }
  if left.any k.midLine then k else { k with line := none }

/-- The moves to the line or unit that a move writes are copied together, in order: all or none. The line is then no longer
owned (R300). -/
def Command.perform (k : Command) (m : Move) (s : State) : Except ReadStop State := do
  let key := s.copyUnit k m.dst
  let mine (x : Move) : Bool := s.copyUnit k x.dst == key
  let sc := ((s.wg k.w.wg).map Workgroup.scratch).getD ⟨[], none⟩
  let done := k.todo.filter mine
  let left := k.todo.filter fun x => !mine x
  let (bs, s) ← readMoves k done s
  let s ← writeMoves k bs s
  let s := s.updCmd k.id (Command.after sc done left m)
  match m.dst with
  | .global va => match (locate s (clusterOf k.core) none k.vi va .store).1 with
    | .ok p => .ok { s with owned := s.owned.filter fun o => !(o.line == lineOf p.pa && o.by_ == .command k.id) }
    | .error _ => .ok s
  | _ => .ok s

/-- The source of byte `off` of a row. -/
def rowByte (ms : List Move) (off : Nat) : CopyEnd :=
  match ms with
  | [] => .fill 0#8
  | m :: rest => if off < m.n then m.src.at_ off else rowByte rest (off - m.n)

/-- Reads sources of one byte each. -/
def readBytes (k : Command) : List CopyEnd → State → Except ReadStop (List Byte × State)
  | [], s => .ok ([], s)
  | e :: es, s => do
    let (b, s) ← readEnd k e 1 s
    let (bs, s) ← readBytes k es s
    .ok (b ++ bs, s)

/-- A stream reads its next word of every row. -/
def Command.readWord (k : Command) (t : Stream) (s : State) : Except ReadStop State := do
  let (bs, s) ← readBytes k (t.rows.flatMap fun ms => (List.range 4).map fun j => rowByte ms (4 * t.next + j)) s
  .ok (s.updCmd k.id fun k =>
    { k with stream := some { t with next := t.next + 1, held := t.held ++ [wordsOf (ofBytes bs) t.rows.length] } })

/-- The effect of a piece of a command: done, waiting, or failed at an address (R399). -/
def State.pieceDone (s : State) (id : Nat) (r : Except ReadStop State) : State :=
  match r with
  | .ok t => t
  | .error .owned => s
  | .error (.cause c va) => s.updCmd id fun k => { k with failed := some (c, va) }

/-- A command starts once the release of its issue is complete, which it then performs (R282, R402); none before. -/
def State.startCommand (s : State) (k : Command) : Option State :=
  if k.started then some s
  else if s.released k.w .a k.id then
    some ((s.releaseAt k.core k.scope).updCmd k.id fun k => { k with started := true })
  else none

/-- The engine still writes a line for a command of a workgroup that is saved (R404). -/
def Command.finishes (k : Command) (g : Workgroup) : Bool := g.status == .saving && k.todo.any k.midLine
/-- The move that comes next: into the line that it is writing, first, while its workgroup is saved. -/
def Command.nextMove (k : Command) (saving : Bool) : Option Move := if saving then k.todo.find? k.midLine else k.todo.head?

/-- COPY_ENGINE_SERVE (R403): the first command that has something left starts, or copies its next piece; a gated engine
wakes first (R480). -/
def execCopyEngineServe (cluster : Nat) (s : State) : Result :=
  .next (
    let open_ (k : Command) : Bool := match s.wg k.w.wg with
      | some g => servable g || k.finishes g
      | none => false
    match s.cmds.find? fun k => clusterOf k.core == cluster && k.busy && open_ k with
    | none => s
    | some k =>
      if (s.cluster cluster).gate.gated.contains 38 then s.wantUnit cluster 38
      else if !k.started then (s.startCommand k).getD s
      else match k.nextMove (((s.wg k.w.wg).map k.finishes).getD false), k.stream with
        | some m, _ => (s.pieceDone k.id (k.perform m s)).credit k.w.wg
        | none, some t => (s.pieceDone k.id (k.readWord t s)).credit k.w.wg
        | none, none => s)

/-- A stream has words to read or to place. -/
def Stream.open_ (t : Stream) : Bool := t.unread || !t.held.isEmpty

/-- An earlier stream of the same feeder wave into the same queue is not finished (R394). -/
def State.streamBefore (s : State) (k : Command) (t : Stream) : Bool :=
  s.cmds.any fun j => j.id < k.id && j.w == k.w && match j.stream with
    | some u => u.wave == t.wave && u.q == t.q && u.open_
    | none => false

/-- The queue of a stream is attached to nothing more, when no other stream uses it. -/
def State.detachStream (s : State) (k : Command) (t : Stream) : State :=
  let other := s.cmds.any fun j => j.id != k.id && j.w == k.w && match j.stream with
    | some u => u.wave == t.wave && u.q == t.q && u.open_
    | none => false
  if other then s
  else s.updWave ⟨k.w.wg, t.wave⟩ fun w => match w.queue t.q with
    | some u => if u.attach == .copy k.w.wave then w.setQueue t.q (some { u with attach := .none }) else w
    | none => w

/-- COPY_QUEUE_WORD_PLACE (R394): the next word of every row, when all their columns have room; with the last one the queue
is attached no more. -/
def execCopyQueueWordPlace (id : Nat) (s : State) : Result :=
  .next (match s.cmd id with
    | none => s
    | some k => match k.stream with
      | none => s
      | some t => match t.held, (s.wave ⟨k.w.wg, t.wave⟩).bind fun w => w.queue t.q with
        | ws :: rest, some u =>
          let lanes := List.range t.rows.length
          if s.streamBefore k t || !(lanes.all fun l => (u.col l).length < u.depth) then s
          else
            let s := s.updWave ⟨k.w.wg, t.wave⟩
              (appendSlots t.q (lanesWhere fun l => l < t.rows.length) fun l => [.ready (laneAt ws l)])
            let u : Stream := { t with held := rest }
            let s := s.updCmd id fun k => { k with stream := some u }
            if u.open_ then s else s.detachStream k u
        | _, _ => s)

/-- A command ends with a status: its ownership and its attachment end, and it makes its arrival (R397). -/
def State.endCommand (s : State) (k : Command) (status : Nat) (arrive : Bool) : State :=
  let s := match k.stream with
    | some t => if t.open_ then s.detachStream k t else s
    | none => s
  let s := s.dropLines k.id
  let s := { s with cmds := s.cmds.filter fun j => j.id != k.id }.updWave k.w (setStatus k.tag status)
  if arrive && arrives k.completion then
    s.arriveRing k.w.wg none (completionSide k.completion) (completionRing k.completion) (completionSlot k.completion)
  else s

/-- Nothing is left of a command. -/
def Command.finished (k : Command) : Bool := k.failed.isNone && k.todo.isEmpty && match k.stream with
  | some t => !t.unread && t.held.isEmpty
  | none => true

/-- COPY_COMMAND_COMPLETE (R397). -/
def execCopyCommandComplete (id : Nat) (s : State) : Result :=
  .next (match s.cmd id with
    | none => s
    | some k => if !k.finished then s else match s.startCommand k with
      | some t => t.endCommand k 0 true
      | none => s)

/-- COPY_DATA_FAILURE (R399): with `.nf` the status holds the cause and the arrival is made; otherwise the workgroup
halts. -/
def execCopyDataFailure (id : Nat) (s : State) : Result :=
  .next (match s.cmd id with
    | none => s
    | some k => match k.failed with
      | none => s
      | some (c, va) =>
        let t := s.endCommand k (0x40000000 + c.code) k.nf
        if k.nf then t
        else takeCause t k.w .a 0#32 k.pc c
          { origin := 2, apc := k.pc, addr := va, detail := BitVec.ofNat 16 k.tag, lane := some 0 })

/-- The commands whose lines an access waits for that a command's release covers (R301, R402). -/
def State.waitsFor (s : State) (k : Command) : List Nat :=
  let recs := ((s.wave k.w).map Wave.recs).getD []
  let places : List (Nat × Place) :=
    ((recs.filter fun r => r.id < k.id).flatMap fun r => r.lanes.map fun l => (r.id, l.place)) ++
    (s.reqs.filter fun q => q.w == k.w && q.sl == .a && q.id < k.id).filterMap fun q => (s.reqPlace q).map fun p => (q.id, p.1)
  s.owned.filterMap fun o => match o.by_ with
    | .command j =>
      if j != k.id && places.any fun p => sameLine p.2 ⟨0, o.line⟩ && s.ownedFor k.w .a p.1 p.2 then some j else none
    | .blend _ => none
/-- The same of those commands in turn. -/
def State.waitChain (s : State) : Nat → List Nat → List Nat
  | 0, ids => ids
  | n + 1, ids =>
    let more := (s.cmds.filter fun k => ids.contains k.id && !k.started).flatMap s.waitsFor
    s.waitChain n (ids ++ more.eraseDups.filter fun j => !ids.contains j)
/-- The release of a command waits for itself: the recall of its line, which is bounded, then comes before it (R300; DEDUCED, log
entry 169). -/
def State.circular (s : State) (k : Command) : Bool := (s.waitChain s.cmds.length (s.waitsFor k)).contains k.id

/-- The engine that owns a line writes it next (R300); a gated one wakes first (R480). -/
def State.recall (s : State) (line : Nat) : State :=
  match s.ownerOf line with
  | none => s
  | some (.blend cluster) => s.writeBlend cluster line
  | some (.command id) => match s.cmd id with
    | none => s.dropLines id
    | some k =>
      let writes (m : Move) : Bool := match m.dst with
        | .global va => match (locate s (clusterOf k.core) none k.vi va .store).1 with
          | .ok p => p.mem = 0 && lineOf p.pa = line
          | .error _ => false
        | _ => false
      if k.failed.isSome then s
      else if (s.cluster (clusterOf k.core)).gate.gated.contains 38 then s.wantUnit (clusterOf k.core) 38
      else match k.todo.find? writes, (s.startCommand k).or (if s.circular k then some s else none) with
        | some m, some t => (t.pieceDone id (k.perform m t)).credit k.w.wg
        | some _, none => s
        | none, _ => { s with owned := s.owned.filter fun o => !(o.line == line && o.by_ == .command id) }

/-- DIRECTORY_RECALL (R300): an access that reaches a cluster's point for a line that an engine owns makes that engine
write the line next. -/
def execDirectoryRecall (_cluster line : Nat) (s : State) : Result := .next (s.recall line)

end Sys2Proof.Machine
end

