-- ==== Sys2Proof/Machine/LaneInteger.lean ====
section
/-!
DEFINITION. Lane integer, compare, select, address and pair instructions (05_lane_integer.md, R127 to R139).
-/
namespace Sys2Proof.Machine

open Sys2Proof

/-- `.sat` is set (R73, R128). -/
def isSat (f : LaneFields) : Bool := f.mode.getLsbD 3

/-- A result of `n` bits of the exact value, wrapped or saturated once (R128, R135). -/
def signedResult (n : Nat) (sat : Bool) (x : Int) : BitVec n := BitVec.ofInt n (if sat then satS x n else x)

/-- A form with sources A and B of 32 bits. -/
def intBin (i : Instr) (f : LaneFields) (op : Word → Word → Word) (c : Ctx) : Eff State :=
  c.write1 i f fun l => op (c.srcA f .int32 l) (c.srcB f .int32 l)
/-- A form with source A. -/
def intUn (i : Instr) (f : LaneFields) (op : Word → Word) (c : Ctx) : Eff State :=
  c.write1 i f fun l => op (c.srcA f .int32 l)
/-- A form with sources A, B and C. -/
def intTri (i : Instr) (f : LaneFields) (op : Word → Word → Word → Word) (c : Ctx) : Eff State :=
  c.write1 i f fun l => op (c.srcA f .int32 l) (c.srcB f .int32 l) (c.srcC f .int32 l)
/-- `iadd`, `isub` with their mask output (R131). -/
def intCarry (i : Instr) (f : LaneFields) (op : Word → Word → Word) (carry : Word → Word → Bool) (c : Ctx) :
    Eff State :=
  c.laneWrite i f.d 1 (fun l => [op (c.srcA f .int32 l) (c.srcB f .int32 l)])
    (c.carryOut f fun l => carry (c.srcA f .int32 l) (c.srcB f .int32 l))

def execIadd (f : LaneFields) (s : State) : Result :=
  issue (.iadd f) (intCarry (.iadd f) f (fun a b => signedResult 32 (isSat f) (a.toInt + b.toInt))
    fun a b => decide (2 ^ 32 ≤ a.toNat + b.toNat)) s
def execIsub (f : LaneFields) (s : State) : Result :=
  issue (.isub f) (intCarry (.isub f) f (fun a b => signedResult 32 (isSat f) (a.toInt - b.toInt))
    fun a b => decide (b.toNat ≤ a.toNat)) s
def execImul (f : LaneFields) (s : State) : Result := issue (.imul f) (intBin (.imul f) f fun a b => a * b) s

/-- The high word of a signed and of an unsigned product (R130). -/
def mulHigh (a b : Word) : Word := highWord (BitVec.ofInt 64 (a.toInt * b.toInt))
def mulHighU (a b : Word) : Word := highWord (BitVec.ofNat 64 (a.toNat * b.toNat))

def execImulhi (f : LaneFields) (s : State) : Result := issue (.imulhi f) (intBin (.imulhi f) f mulHigh) s
def execImulhu (f : LaneFields) (s : State) : Result := issue (.imulhu f) (intBin (.imulhu f) f mulHighU) s
def execImad (f : LaneFields) (s : State) : Result :=
  issue (.imad f) (intTri (.imad f) f fun a b c => signedResult 32 (isSat f) (a.toInt * b.toInt + c.toInt)) s
def execAnd (f : LaneFields) (s : State) : Result := issue (.and f) (intBin (.and f) f fun a b => a &&& b) s
def execOr (f : LaneFields) (s : State) : Result := issue (.or f) (intBin (.or f) f fun a b => a ||| b) s
def execXor (f : LaneFields) (s : State) : Result := issue (.xor f) (intBin (.xor f) f fun a b => a ^^^ b) s
def execAndn (f : LaneFields) (s : State) : Result := issue (.andn f) (intBin (.andn f) f fun a b => a &&& ~~~b) s
def execNot (f : LaneFields) (s : State) : Result := issue (.not f) (intUn (.not f) f fun a => ~~~a) s

/-- Shifts (R111, R130): by 32 or more a logical shift gives 0, an arithmetic one shifts by 31. -/
def shiftLeft (a b : Word) : Word := if 32 ≤ b.toNat then 0#32 else a <<< b.toNat
def shiftRight (a b : Word) : Word := if 32 ≤ b.toNat then 0#32 else a >>> b.toNat
def shiftArith (a b : Word) : Word := a.sshiftRight (min b.toNat 31)
def rotate (a b : Word) : Word := a.rotateLeft (b.toNat % 32)

def execShl (f : LaneFields) (s : State) : Result := issue (.shl f) (intBin (.shl f) f shiftLeft) s
def execShr (f : LaneFields) (s : State) : Result := issue (.shr f) (intBin (.shr f) f shiftRight) s
def execSar (f : LaneFields) (s : State) : Result := issue (.sar f) (intBin (.sar f) f shiftArith) s
def execRotl (f : LaneFields) (s : State) : Result := issue (.rotl f) (intBin (.rotl f) f rotate) s

/-- The offset and the count of bits of the field that b names (R112, R132), cut at bit 31. -/
def fieldOff (b : Word) : Nat := b.toNat % 32
def fieldLen (b : Word) : Nat := min (min (bits b.toNat 13 8) 32) (32 - fieldOff b)
/-- The mask of `n` low bits. -/
def lowMask (n : Nat) : Word := BitVec.ofNat 32 (2 ^ n - 1)
def extractU (a b : Word) : Word := (a >>> fieldOff b) &&& lowMask (fieldLen b)
def extractS (a b : Word) : Word :=
  let n := fieldLen b
  let x := extractU a b
  if n != 0 && x.getLsbD (n - 1) then x ||| ~~~lowMask n else x
def insertBits (a b c : Word) : Word :=
  let m := lowMask (fieldLen b) <<< fieldOff b
  (c &&& ~~~m) ||| ((a <<< fieldOff b) &&& m)

def execBfe (f : LaneFields) (s : State) : Result := issue (.bfe f) (intBin (.bfe f) f extractS) s
def execBfeu (f : LaneFields) (s : State) : Result := issue (.bfeu f) (intBin (.bfeu f) f extractU) s
def execBfi (f : LaneFields) (s : State) : Result := issue (.bfi f) (intTri (.bfi f) f insertBits) s

def execBfrev (f : LaneFields) (s : State) : Result := issue (.bfrev f) (intUn (.bfrev f) f BitVec.reverse) s
def execPopc (f : LaneFields) (s : State) : Result :=
  issue (.popc f) (intUn (.popc f) f fun a => BitVec.ofNat 32 (popcount a)) s
def execClz (f : LaneFields) (s : State) : Result :=
  issue (.clz f) (intUn (.clz f) f fun a => BitVec.ofNat 32 (leadingZeros a)) s
def execCtz (f : LaneFields) (s : State) : Result :=
  issue (.ctz f) (intUn (.ctz f) f fun a => BitVec.ofNat 32 (trailingZeros a)) s

/-- Minima and maxima (R111, R130). -/
def minS (a b : Word) : Word := if a.toInt ≤ b.toInt then a else b
def maxS (a b : Word) : Word := if a.toInt ≤ b.toInt then b else a
def minU (a b : Word) : Word := if a.toNat ≤ b.toNat then a else b
def maxU (a b : Word) : Word := if a.toNat ≤ b.toNat then b else a

def execImin (f : LaneFields) (s : State) : Result := issue (.imin f) (intBin (.imin f) f minS) s
def execImax (f : LaneFields) (s : State) : Result := issue (.imax f) (intBin (.imax f) f maxS) s
def execUimin (f : LaneFields) (s : State) : Result := issue (.uimin f) (intBin (.uimin f) f minU) s
def execUimax (f : LaneFields) (s : State) : Result := issue (.uimax f) (intBin (.uimax f) f maxU) s
def execIabs (f : LaneFields) (s : State) : Result :=
  issue (.iabs f) (intUn (.iabs f) f fun a => signedResult 32 (isSat f) a.toInt.natAbs) s
def execIneg (f : LaneFields) (s : State) : Result :=
  issue (.ineg f) (intUn (.ineg f) f fun a => signedResult 32 (isSat f) (-a.toInt)) s

/-- The integer conditions (R111, R133). -/
def intHolds (cc : IntCond) (a b : Word) : Bool :=
  match cc with
  | .eq => a == b
  | .ne => a != b
  | .lt => decide (a.toInt < b.toInt)
  | .le => decide (a.toInt ≤ b.toInt)
  | .ltu => decide (a.toNat < b.toNat)
  | .leu => decide (a.toNat ≤ b.toNat)

def execIcmp (cc : IntCond) (f : LaneFields) (s : State) : Result :=
  issue (.icmp cc f) (fun c => c.writeCompare (.icmp cc f) f fun l =>
    intHolds cc (c.srcA f .int32 l) (c.srcB f .int32 l)) s
def execMov (f : LaneFields) (s : State) : Result := issue (.mov f) (intUn (.mov f) f id) s

/-- `movs` (R134): field A holds the index; `LANEID` and `QUADID` are the lane's own. -/
def execMovs (f : LaneFields) (s : State) : Result :=
  issue (.movs f) (fun c => c.write1 (.movs f) f fun l =>
    match f.a.toNat with
    | 0 => BitVec.ofNat 32 l
    | 1 => BitVec.ofNat 32 (l / 4)
    | k => lowWord (c.special k)) s

def execSel (f : LaneFields) (s : State) : Result :=
  issue (.sel f) (fun c => c.write1 (.sel f) f fun l =>
    if (c.maskC f 0#32).getLsbD l then c.srcA f .int32 l else c.srcB f .int32 l) s

/-- Byte `k` of a word. -/
def byteAt (x : Word) (k : Nat) : Byte := x.extractLsb' (8 * k) 8

/-- A result byte of `prmt`: pick, fill, invert, zero (R135). -/
def permuteByte (a b : Word) (sel : Byte) : Byte :=
  let p := (sel.extractLsb' 0 3).toNat
  let v := if p < 4 then byteAt a p else byteAt b (p - 4)
  let v := if sel.getLsbD 4 then (if v.getLsbD 7 then 0xFF#8 else 0#8) else v
  let v := if sel.getLsbD 5 then ~~~v else v
  if sel.getLsbD 6 then 0#8 else v
def permute (a b c : Word) : Word :=
  permuteByte a b (byteAt c 3) ++ permuteByte a b (byteAt c 2) ++ permuteByte a b (byteAt c 1) ++
    permuteByte a b (byteAt c 0)

def execPrmt (f : LaneFields) (s : State) : Result := issue (.prmt f) (intTri (.prmt f) f permute) s
def execLea (f : LaneFields) (s : State) : Result :=
  issue (.lea f) (intBin (.lea f) f fun a b => a + (b <<< f.c.toNat)) s

/-- The sum of `g` over 0 to `n` − 1. -/
def sumTo (n : Nat) (g : Nat → Int) : Int := (List.range n).foldl (fun t k => t + g k) 0
/-- Half `k` of a word. -/
def halfAt (x : Word) (k : Nat) : BitVec 16 := x.extractLsb' (16 * k) 16

def sad8 (sat : Bool) (a b c : Word) : Word :=
  let x := c.toNat + sumTo 4 fun k => (((byteAt a k).toNat : Int) - (byteAt b k).toNat).natAbs
  BitVec.ofInt 32 (if sat then satU x 32 else x)
def dot4 (a b : Word) : Int := sumTo 4 fun k => (byteAt a k).toInt * (byteAt b k).toInt
def dot2 (a b : Word) : Int := sumTo 2 fun k => (halfAt a k).toInt * (halfAt b k).toInt

def execSad8 (f : LaneFields) (s : State) : Result := issue (.sad8 f) (intTri (.sad8 f) f (sad8 (isSat f))) s
def execIdot4 (f : LaneFields) (s : State) : Result :=
  issue (.idot4 f) (intTri (.idot4 f) f fun a b c => signedResult 32 (isSat f) (c.toInt + dot4 a b)) s
def execIdot2 (f : LaneFields) (s : State) : Result :=
  issue (.idot2 f) (intTri (.idot2 f) f fun a b c => signedResult 32 (isSat f) (c.toInt + dot2 a b)) s

/-! Pairs (R136, R137). -/

def pairCarry (i : Instr) (f : LaneFields) (op : DWord → DWord → DWord) (carry : DWord → DWord → Bool) (c : Ctx) :
    Eff State :=
  let r (l : Nat) : DWord := op (c.pairA f .int64 l) (c.pairB f .int64 l)
  c.laneWrite i f.d 2 (fun l => [lowWord (r l), highWord (r l)])
    (c.carryOut f fun l => carry (c.pairA f .int64 l) (c.pairB f .int64 l))

def execIadd64 (f : LaneFields) (s : State) : Result :=
  issue (.iadd64 f) (pairCarry (.iadd64 f) f (fun a b => signedResult 64 (isSat f) (a.toInt + b.toInt))
    fun a b => decide (2 ^ 64 ≤ a.toNat + b.toNat)) s
def execIsub64 (f : LaneFields) (s : State) : Result :=
  issue (.isub64 f) (pairCarry (.isub64 f) f (fun a b => signedResult 64 (isSat f) (a.toInt - b.toInt))
    fun a b => decide (b.toNat ≤ a.toNat)) s
def execImul64 (f : LaneFields) (s : State) : Result :=
  issue (.imul64 f) (fun c => c.write2 (.imul64 f) f fun l => c.pairA f .int64 l * c.pairB f .int64 l) s
def execShl64 (f : LaneFields) (s : State) : Result :=
  issue (.shl64 f) (fun c => c.write2 (.shl64 f) f fun l =>
    let n := (c.srcB f .int32 l).toNat
    if 64 ≤ n then 0#64 else c.pairA f .int64 l <<< n) s
def execShr64 (f : LaneFields) (s : State) : Result :=
  issue (.shr64 f) (fun c => c.write2 (.shr64 f) f fun l =>
    let n := (c.srcB f .int32 l).toNat
    if 64 ≤ n then 0#64 else c.pairA f .int64 l >>> n) s

/-- The low `w` bits of a, with w at most 32, zero- and sign-extended (R137). -/
def zextField (a b : Word) : DWord := (a &&& lowMask (min b.toNat 32)).setWidth 64
def sextField (a b : Word) : DWord :=
  let n := min b.toNat 32
  if n != 0 && a.getLsbD (n - 1) then zextField a b ||| ~~~(lowMask n).setWidth 64 else zextField a b

def execSext (f : LaneFields) (s : State) : Result :=
  issue (.sext f) (fun c => c.write2 (.sext f) f fun l => sextField (c.srcA f .int32 l) (c.srcB f .int32 l)) s
def execZext (f : LaneFields) (s : State) : Result :=
  issue (.zext f) (fun c => c.write2 (.zext f) f fun l => zextField (c.srcA f .int32 l) (c.srcB f .int32 l)) s

end Sys2Proof.Machine
end

