-- ==== Sys2Proof/Machine/Matrix.lean ====
section
/-!
DEFINITION. Matrix instructions (13_matrix.md, R308 to R329): operand layouts, exact products, the chunk adder, the
tiles and the latches of the collector.
-/
namespace Sys2Proof.Machine

open Sys2Proof

/-! Elements and products (R311 to R314). -/

/-- The element format of a form; `mma.i8` has no float format. -/
def MmaFmt.elem : MmaFmt → Fmt
  | .f16 => .f16
  | .bf16 => .bf16
  | .e5m2 => .e5m2
  | .bs4e2m1 => .e2m1
  | .e4m3 | .bs4e4m3 | .i8 => .e4m3
/-- The form carries scale bytes. -/
def MmaFmt.scaled : MmaFmt → Bool
  | .bs4e2m1 | .bs4e4m3 => true
  | _ => false

/-- Element `k` of `n` bits in consecutive words (R144). -/
def elementAt (n : Nat) (ws : List Word) (k : Nat) : Nat :=
  let per := 32 / n
  ((laneAt ws (k / per)).toNat >>> (n * (k % per))) % 2 ^ n

/-- The exact value of a block-scaled element (R146). -/
def scaledValue (fe : Fmt) (e s : Nat) : XVal :=
  if s = 0xFF then .nan else (decodeF fe e).scale ((s : Int) - 127)

/-- Element `k` of a row or column of a form, whose scale bytes start at word `at_`; `g` is the scale byte's number. -/
def mmaValue (fmt : MmaFmt) (ws : List Word) (at_ k g : Nat) : XVal :=
  let fe := MmaFmt.elem fmt
  let e := elementAt fe.width ws k
  if MmaFmt.scaled fmt then scaledValue fe e (elementAt 8 (ws.drop at_) g) else decodeF fe e

/-- floor(log2 |p|) of a nonzero finite product. -/
def magnitudeLog2 : XVal → Option Int
  | .fin _ m e => if m = 0 then none else some ((m.log2 : Int) + e)
  | _ => none

def maxLog2 (ps : List XVal) : Option Int :=
  ps.foldl (fun best p => match magnitudeLog2 p, best with
    | none, b => b
    | some x, none => some x
    | some x, some b => some (max x b)) none

/-- A product in units of 2^(emax − 20), its magnitude truncated toward zero before its sign is applied. -/
def truncated (emax : Int) : XVal → Int
  | .fin neg m e =>
    let sh := e + 20 - emax
    let x : Int := if 0 ≤ sh then m * 2 ^ sh.toNat else (m / 2 ^ (-sh).toNat : Nat)
    if neg then -x else x
  | _ => 0

/-- The sum of sixteen finite products (R315). -/
def chunkSum (ps : List XVal) : XVal :=
  match maxLog2 ps with
  | none => .zero (ps.all XVal.sign)
  | some emax => (XVal.ofInt (ps.foldl (fun t p => t + truncated emax p) 0)).scale (emax - 20)

/-- `ChunkAdd` (R315): products and an addend, one rounding. -/
def chunkAdd (ps : List XVal) (c : XVal) : Word :=
  let all := c :: ps
  if all.any XVal.isNan then f32Bits .nan
  else if all.any XVal.isInf then
    if all.any (fun p => p.isInf && p.sign) && all.any (fun p => p.isInf && !p.sign) then f32Bits .nan
    else f32Bits (.inf (all.any fun p => p.isInf && p.sign))
  else f32Bits ((chunkSum ps).add false c)

/-! Tiles (R308, R309). -/

/-- Row `i` of tile `t`. -/
def Wave.tileRow (w : Wave) (t i : Nat) : List Word := w.tiles.row 32 (32 * t + i)
def Wave.setTileRow (w : Wave) (t i : Nat) (ws : List Word) : Wave :=
  { w with tiles := w.tiles.setRow (32 * t + i) ws }
/-- Replaces the rows of a tile that belong to a set of lanes. -/
def Wave.updTile (w : Wave) (t : Nat) (em : Lanes) (g : Nat → List Word) : Wave :=
  (lanesOf em).foldl (fun w i => w.setTileRow t i (g i)) w

/-! Multiply-accumulate (R316 to R321). -/

/-- What a form multiplies: A's rows by lane and B's columns, each as element words and then scale words. -/
structure MmaOps where
  fmt : MmaFmt
  sparse : Bool
  a : List (List Word)
  b : List (List Word)
  /-- The index bits of each lane's row (R313). -/
  meta_ : List Nat

/-- Stored elements per row of A. -/
def MmaOps.stored (o : MmaOps) : Nat := if o.sparse then Form.mmaK true o.fmt / 2 else Form.mmaK false o.fmt
/-- The logical row of B that stored element `j` of row `i` meets (R313, R318). -/
def MmaOps.logical (o : MmaOps) (i j : Nat) : Nat :=
  if o.sparse then 4 * (j / 2) + ((o.meta_[i]?).getD 0 >>> (4 * (j / 2) + 2 * (j % 2))) % 4 else j
def MmaOps.rowA (o : MmaOps) (i : Nat) : List Word := (o.a[i]?).getD []
def MmaOps.colB (o : MmaOps) (n : Nat) : List Word := (o.b[n]?).getD []
/-- The element words of a column of B. -/
def columnWords (sparse : Bool) : Nat := if sparse then 16 else 8

/-- The exact product of stored element `j` of row `i` and its row of column `n` (R314, R318). -/
def MmaOps.product (o : MmaOps) (i n j : Nat) : XVal :=
  let k := o.logical i j
  (mmaValue o.fmt (o.rowA i) 8 j (if o.sparse then j / 2 else j / 4)).mul
    (mmaValue o.fmt (o.colB n) (columnWords o.sparse) k (k / 4))

/-- A tile element after a float form: one rounding per chunk of sixteen stored elements (R318). -/
def MmaOps.accumulate (o : MmaOps) (i n : Nat) (acc : Word) : Word :=
  (List.range (o.stored / 16)).foldl (fun acc ch =>
    chunkAdd ((List.range 16).map fun q => o.product i n (16 * ch + q)) (decodeF .f32 acc.toNat)) acc

/-- The exact sum of an `i8` form (R319). -/
def MmaOps.integerSum (o : MmaOps) (i n : Nat) : Int :=
  let sx (ws : List Word) (k : Nat) : Int := (BitVec.ofNat 8 (elementAt 8 ws k)).toInt
  (List.range o.stored).foldl (fun t j => t + sx (o.rowA i) j * sx (o.colB n) (o.logical i j)) 0

/-- A tile element after the form. -/
def MmaOps.element (o : MmaOps) (i n : Nat) (acc : Word) : Word :=
  match o.fmt with
  | .i8 => acc + BitVec.ofInt 32 (o.integerSum i n)
  | _ => o.accumulate i n acc

/-- The A block read from its registers, by lane. -/
def readBlockA (w : Wave) (code : BitVec 8) (regs : Nat) : List (List Word) :=
  laneList.map fun i => (List.range regs).map fun k => codeWord w code k i

/-- Column `n` of B in scratch (R312). -/
def scratchColumn (m : ByteFile) (sparse : Bool) (fmt : MmaFmt) (off n : Nat) : List Word :=
  let cb := 4 * columnWords sparse
  let k := Form.mmaK sparse fmt
  wordsOf (ofBytes (m.read (off + n * cb) cb)) (cb / 4) ++
    (if MmaFmt.scaled fmt then wordsOf (ofBytes (m.read (off + 32 * cb + n * (k / 4)) (k / 4))) (k / 16) else [])

/-- Where B comes from (R317). -/
inductive MmaSource where
  | latch
  | queue (code : BitVec 8)
  | scratch (off : Nat)

def Ctx.mmaSource (c : Ctx) (f : LaneFields) : MmaSource :=
  if Form.hasRb f then .latch
  else if Form.isQ f.b then .queue f.b
  else .scratch (c.w.sreg f.s.toNat).toNat

/-- A latch holds a form. -/
def Latch.holds (l : Option Latch) (tag : Nat) : Bool :=
  match l with
  | some k => k.tag == [tag]
  | none => false

/-- The scratch size of the workgroup's kernel. -/
def Ctx.scratchLimit (c : Ctx) : Nat :=
  match c.launch with
  | some l => l.kernel.scratch
  | none => 0

/-- The causes of a form's operands (R320, R321, R329). -/
def Ctx.mmaFaults (c : Ctx) (f : LaneFields) (sparse : Bool) (fmt : MmaFmt) (tag : Nat) : List (Cause × Info) :=
  let latchA := if Form.hasRa f && c.w.latchA.isSome && !Latch.holds c.w.latchA tag then [(Cause.mmaLatch, ({} : Info))] else []
  latchA ++
  match c.mmaSource f with
  | .latch => if Latch.holds c.w.latchB tag then [] else [(.mmaLatch, {})]
  | .queue _ =>
    if lanesWhere (fun i => (c.slice.thread i).st != .absent) &&& ~~~c.em != 0#32 then [(.mmaPartial, {})] else []
  | .scratch off =>
    let i : Info := { addr := BitVec.ofNat 64 off }
    (if off % 128 != 0 then [(.misaligned, i)] else []) ++
      (if c.scratchLimit < off + Form.mmaBytes sparse fmt then [(.scratchRange, i)] else [])

/-- The columns of B. -/
def Ctx.mmaColumns (c : Ctx) (f : LaneFields) (sparse : Bool) (fmt : MmaFmt) : List (List Word) :=
  match c.mmaSource f with
  | .latch => match c.w.latchB with
    | some l => l.words
    | none => []
  | .queue q => laneList.map fun n => (List.range (Form.mmaSlots sparse fmt)).map fun k => codeWord c.w q k n
  | .scratch off => laneList.map (scratchColumn c.g.scratch sparse fmt off)

/-- The rows of A: the latch's under `.ra` when it holds the form, the registers' otherwise (R320). -/
def Ctx.mmaRows (c : Ctx) (f : LaneFields) (sparse : Bool) (fmt : MmaFmt) : List (List Word) :=
  match Form.hasRa f, c.w.latchA with
  | true, some l => l.words
  | _, _ => readBlockA c.w f.a (Form.mmaRegs sparse fmt)

/-- The index bits of every lane's row (R313). -/
def Ctx.mmaMeta (c : Ctx) (f : LaneFields) (fmt : MmaFmt) : List Nat :=
  let sel := (f.mode.extractLsb' 0 3).toNat
  laneList.map fun i =>
    let src := i / 2 ^ sel * 2 ^ sel
    ofWords ((List.range (Form.mmaW fmt)).map fun k => codeWord c.w f.c k src)

/-- The causes of a form depend on no slot, so a form that would wait for one raises them at once (log entry 18). -/
def Ctx.mmaGate (c : Ctx) (us : List Use) (faults : List (Cause × Info)) : Eff Unit :=
  if c.popsReady us then c.gate us faults
  else match raiseAny faults with
    | .error e => .error e
    | .ok () => .error .wait

/-- A scratch store of the slice to a line of a scratch B is not visible yet: the form waits for it, as an `lds` does (R248,
R327). -/
def Ctx.columnsPending (c : Ctx) (f : LaneFields) (sparse : Bool) (fmt : MmaFmt) : Bool :=
  match c.mmaSource f with
  | .scratch off => c.s.lateScratch.any fun x => x.w == c.ref && x.sl == c.sl && lineOf off ≤ lineOf x.off &&
      x.off < off + Form.mmaBytes sparse fmt
  | _ => false

/-- A multiply-accumulate form with its function value `tag` (R317 to R321). -/
def multiply (i : Instr) (sparse : Bool) (fmt : MmaFmt) (tag : Nat) (f : LaneFields) (c : Ctx) : Eff State :=
  match c.mmaGate (usesOf i) (c.mmaFaults f sparse fmt tag) with
  | .error e => .error e
  | .ok () => if c.columnsPending f sparse fmt then .error .wait else
    let o : MmaOps := ⟨fmt, sparse, c.mmaRows f sparse fmt, c.mmaColumns f sparse fmt,
      if sparse then c.mmaMeta f fmt else []⟩
    let t := f.d.toNat
    .ok (c.done i fun w =>
      let w := popAll c.em (usesOf i) w
      let w := w.updTile t c.em fun l => (List.range 32).map fun n => o.element l n (laneAt (c.w.tileRow t l) n)
      { w with
        latchA := if Form.hasRa f then some ⟨[tag], o.a⟩ else none
        latchB := some ⟨[tag], o.b⟩ })

def execMma (fmt : MmaFmt) (f : LaneFields) (s : State) : Result :=
  issue (.mma fmt f) (multiply (.mma fmt f) false fmt (MmaFmt.fn fmt) f) s
def execMmasp (fmt : MmaFmt) (f : LaneFields) (s : State) : Result :=
  issue (.mmasp fmt f) (multiply (.mmasp fmt f) true fmt (MmaFmt.fn fmt + 8) f) s

/-! `fdot16` (R323) and the moves of accumulators (R324). -/

def fp8 : Fp8Fmt → Fmt
  | .e4m3 => .e4m3
  | .e5m2 => .e5m2

def execFdot16 (fmt : Fp8Fmt) (f : LaneFields) (s : State) : Result :=
  issue (.fdot16 fmt f) (fun c =>
    c.laneWrite (.fdot16 fmt f) f.d 1 (fun l =>
      let block (code : BitVec 8) : List Word := (List.range 4).map fun k => codeWord c.w code k l
      let v (code : BitVec 8) (k : Nat) : XVal := decodeF (fp8 fmt) (elementAt 8 (block code) k)
      [chunkAdd ((List.range 16).map fun k => (v f.a k).mul (v f.b k))
        (decodeF .f32 (srcAt c.w .f32 f.lit f.c 0 l).toNat)]) id) s

def execAclr (f : LaneFields) (s : State) : Result :=
  issue (.aclr f) (fun c =>
    .ok (c.done (.aclr f) fun w => w.updTile f.d.toNat c.em fun _ => List.replicate 32 0#32)) s

def execAmovVa (f : LaneFields) (s : State) : Result :=
  issue (.amovVa f) (fun c =>
    c.laneWrite (.amovVa f) f.d 8 (fun l => ((c.w.tileRow f.a.toNat l).drop (8 * f.c.toNat)).take 8) id) s

def execAmovAv (f : LaneFields) (s : State) : Result :=
  issue (.amovAv f) (fun c =>
    let k := 8 * f.c.toNat
    .ok (c.done (.amovAv f) fun w => w.updTile f.d.toNat c.em fun l =>
      let row := c.w.tileRow f.d.toNat l
      row.take k ++ ((List.range 8).map fun m => codeWord c.w f.a m l) ++ row.drop (k + 8))) s

end Sys2Proof.Machine
end

