-- ==== Sys2Proof/Machine/GraphImage.lean ====
section
/-!
DEFINITION. Graph images (R361 to R366, R502): their headers and nodes, the checks that make an image valid, and what
the nodes of a token compute.
-/
namespace Sys2Proof.Machine

open Sys2Proof

/-! Headers and nodes (R361 to R363). -/

structure GraphHeader where
  size : Nat
  nodes : Nat
  columns : Nat
  ii : Nat
  latency : Nat
  depth : Nat
  nin : Nat
  nout : Nat
  unordered : Bool
  nodeoff : Nat
  pooloff : Nat
  poolbytes : Nat
  deriving DecidableEq, Repr

def graphHeader (img : List Word) : GraphHeader :=
  let f (k hi lo : Nat) : Nat := bits (laneAt img k).toNat hi lo
  ⟨f 1 31 16, f 1 15 0, f 2 31 24, f 2 23 16, f 2 15 0, f 3 31 16, f 3 15 8, f 3 7 4, (laneAt img 3).getLsbD 0,
    (laneAt img 4).toNat, (laneAt img 5).toNat, (laneAt img 6).toNat⟩

/-- A node table entry (R362); `A`, `B` and `C` are sources of 16 bits. -/
structure Node where
  cls : Nat
  op : Nat
  fn : Nat
  col : Nat
  row : Nat
  slot : Nat
  count : Nat
  mode : BitVec 4
  flags : BitVec 8
  low : Nat
  abc : List Nat
  extra : Nat
  listed : List Nat
  deriving DecidableEq, Repr

def nodeAt (img : List Word) (h : GraphHeader) (n : Nat) : Node :=
  let w (k : Nat) : Word := laneAt img (h.nodeoff / 4 + 4 * n + k)
  let f (k hi lo : Nat) : Nat := bits (w k).toNat hi lo
  ⟨f 0 31 28, f 0 27 22, f 0 21 17, f 0 16 14, f 0 13 12, f 0 11 8, f 0 7 0, (w 1).extractLsb' 28 4,
    (w 1).extractLsb' 20 8, f 1 19 0, [f 2 31 16, f 2 15 0, f 3 31 16], f 3 15 0,
    [f 1 31 16, f 1 15 0, f 2 31 16, f 2 15 0, f 3 31 16, f 3 15 0].take (f 0 7 0)⟩

def graphNodes (img : List Word) (h : GraphHeader) : List Node := (List.range h.nodes).map (nodeAt img h)

/-- A word of the constant pool. -/
def poolWord (img : List Word) (h : GraphHeader) (k : Nat) : Word := laneAt img (h.pooloff / 4 + k)

/-- A source (R363). -/
inductive Src where
  | node (n r : Nat)
  | input (k : Nat)
  | pool (k : Nat)
  | param
  deriving DecidableEq, Repr

/-- The source that 16 bits name, if they name one legally. -/
def srcOf (h : GraphHeader) (x : Nat) : Option Src :=
  match x / 2 ^ 14 with
  | 1 => if bits x 13 13 = 0 then some (.node (bits x 9 0) (bits x 12 10)) else none
  | 2 => if bits x 13 3 = 0 && bits x 2 0 < h.nin then some (.input (bits x 2 0)) else none
  | 3 =>
    if bits x 13 9 != 0 then none
    else if bits x 8 0 = 0x1FF then some .param
    else if 4 * bits x 8 0 < h.poolbytes then some (.pool (bits x 8 0)) else none
  | _ => none

/-! Class 0 and 1 nodes (R364, R502). -/

/-- The largest value of an immediate in field C of a class 0 form. C of `cvt.scale`, which can only be 0, is a field that the
form does not use (DEDUCED, log entry 177). -/
def immediateMax (op fn : Nat) : Option Nat :=
  if op = 0x0C && fn = 4 then some 4
  else if op != 0x23 then none
  else match fn with
    | 0 | 1 | 3 | 4 => some 1
    | 2 => some 3
    | 5 | 6 => some 3
    | 7 => some 7
    | 8 | 9 => some 1
    | 18 => some 3
    | 19 => some 7
    | _ => none

/-- The opcodes of R364; `movs`, `imul64` and the FP64 and 64-bit conversions are none of them. -/
def classZero (op fn : Nat) : Bool :=
  (op < 0x18 && !(op = 0x0C && fn = 1) && !(op = 0x0E && fn = 2)) || (0x18 < op && op < 0x1F) ||
    (op = 0x22 && 2 ≤ fn && fn ≤ 11) || op = 0x23

/-- `sel` takes C as a word. -/
def isSelNode (op fn : Nat) : Bool := op = 0x0C && fn = 2

/-- The fields of the lane form that a node stands for: sources A, B, C and the prior D in `v0`, `v8`, `v16` and `v24`, the
destination `v24`, and an immediate C. -/
def nodeFields (n : Node) (imm : Nat) : Option (Instr × LaneForm × LaneFields) :=
  let f0 : LaneFields := ⟨true, 24#8, 0#8, 8#8, 16#8, 0x7F#7, n.mode, n.flags, none⟩
  match (laneInstr n.op n.fn f0).map Instr.layout with
  | some (.lane _ _ _ form) =>
    let c : BitVec 8 := if isSelNode n.op n.fn then 0x80#8 else if (immediateMax n.op n.fn).isSome then BitVec.ofNat 8 imm
      else if form.opC then 16#8 else 0#8
    let f := { f0 with b := if form.opB then 8#8 else 0#8, c := c }
    (laneInstr n.op n.fn f).map fun i => (i, form, f)
  | _ => none

/-- The words that the field with a register code supplies, and the words that the form writes. -/
def readsOf (us : List Use) (code : BitVec 8) : Nat :=
  us.foldl (fun n u => match u with
    | .rd c k => if c == code then n + k else n
    | _ => n) 0
def writesOf (us : List Use) : Nat :=
  us.foldl (fun n u => match u with
    | .wr _ k => n + k
    | _ => n) 0

/-- The operands of a class 0 or 1 node in the order of R502: words of A, of B, of C, an immediate or a `sel` word, and
words of the prior D. -/
structure NodeShape where
  a : Nat
  b : Nat
  c : Nat
  imm : Option Nat
  sel : Bool
  d : Nat
  results : Nat
  deriving DecidableEq, Repr

def NodeShape.sources (s : NodeShape) : Nat :=
  s.a + s.b + s.c + (if s.imm.isSome then 1 else 0) + (if s.sel then 1 else 0) + s.d

/-- The shape of a legal class 0 or 1 node. -/
def laneShape (n : Node) : Option NodeShape :=
  let legal := if n.cls = 1 then n.op = 0x18 else classZero n.op n.fn && !(n.op = 0x23 && n.mode.extractLsb' 0 3 == 4#3)
  if !legal then none
  else match nodeFields n 0 with
    | none => none
    | some (i, form, f) =>
      if !i.layout.checks.isEmpty then none
      else
        let us := form.uses f
        some ⟨readsOf us 0#8, readsOf us 8#8, readsOf us 16#8, immediateMax n.op n.fn, isSelNode n.op n.fn,
          readsOf us 24#8, writesOf us⟩

/-- The meaning of a lane form that a graph node may take. -/
def execNode (i : Instr) (s : State) : Result :=
  match i with
  | .and f => execAnd f s
  | .or f => execOr f s
  | .xor f => execXor f s
  | .andn f => execAndn f s
  | .not f => execNot f s
  | .shl f => execShl f s
  | .shr f => execShr f s
  | .sar f => execSar f s
  | .rotl f => execRotl f s
  | .bfe f => execBfe f s
  | .bfeu f => execBfeu f s
  | .bfi f => execBfi f s
  | .bfrev f => execBfrev f s
  | .popc f => execPopc f s
  | .clz f => execClz f s
  | .ctz f => execCtz f s
  | .imin f => execImin f s
  | .imax f => execImax f s
  | .uimin f => execUimin f s
  | .uimax f => execUimax f s
  | .iabs f => execIabs f s
  | .ineg f => execIneg f s
  | .mov f => execMov f s
  | .sel f => execSel f s
  | .prmt f => execPrmt f s
  | .lea f => execLea f s
  | .sad8 f => execSad8 f s
  | .idot4 f => execIdot4 f s
  | .idot2 f => execIdot2 f s
  | .iadd f => execIadd f s
  | .isub f => execIsub f s
  | .imul f => execImul f s
  | .imulhi f => execImulhi f s
  | .imulhu f => execImulhu f s
  | .imad f => execImad f s
  | .iadd64 f => execIadd64 f s
  | .isub64 f => execIsub64 f s
  | .shl64 f => execShl64 f s
  | .shr64 f => execShr64 f s
  | .sext f => execSext f s
  | .zext f => execZext f s
  | .fadd f => execFadd f s
  | .fsub f => execFsub f s
  | .fmul f => execFmul f s
  | .ffma f => execFfma f s
  | .fmin f => execFmin f s
  | .fmax f => execFmax f s
  | .fminnum f => execFminnum f s
  | .fmaxnum f => execFmaxnum f s
  | .fclass f => execFclass f s
  | .ffract f => execFfract f s
  | .fldexp f => execFldexp f s
  | .ffrexp f => execFfrexp f s
  | .frcp f => execFrcp f s
  | .frsq f => execFrsq f s
  | .fsqrt f => execFsqrt f s
  | .fexp2 f => execFexp2 f s
  | .flog2 f => execFlog2 f s
  | .fsinpi f => execFsinpi f s
  | .fcospi f => execFcospi f s
  | .ftanh f => execFtanh f s
  | .hadd2 f => execHadd2 f s
  | .hsub2 f => execHsub2 f s
  | .hmul2 f => execHmul2 f s
  | .hfma2 f => execHfma2 f s
  | .hmin2 f => execHmin2 f s
  | .hmax2 f => execHmax2 f s
  | .bfma2 f => execBfma2 f s
  | .icmp cc f => execIcmp cc f s
  | .fcmp cc f => execFcmp cc f s
  | .fround d f => execFround d f s
  | .cvt op f => execCvt op f s
  | .cvtFp8Fp4 op f => execCvtFp8Fp4 op f s
  | _ => .next s

/-- An X-slice wave with one thread, whose `v` rows hold the given words in lane 0. -/
def nodeWave (rows : List (Nat × Word)) (sel : Word) : Wave :=
  let gone : List Thread := List.replicate 32 ⟨0, .absent, 0⟩
  let t : SliceSt := ⟨List.replicate 12 0, List.replicate 12 0, 0, [], gone, []⟩
  let x : SliceSt := { t with m := sel :: List.replicate 11 0, threads := ⟨0, .live, 0⟩ :: List.replicate 31 ⟨0, .absent, 0⟩ }
  { id := 0, wslot := 0, role := .vector, allot := 192, budget := 0, active := true, unblocked := none,
    v := rows.foldl (fun v p => v.setRow p.1 [p.2]) ⟨[], none⟩, o := ⟨[], none⟩, s := ⟨[], none⟩, a := t, x := x,
    run := none, yielding := none, queues := List.replicate 16 none, recs := [], tiles := ⟨[], none⟩, latchA := none, latchB := none,
    cards := List.replicate 4 none, copyTag := 0, copyStatus := [], pmc := List.replicate 8 0, window := none,
    contribs := [], ringArrivals := [], gridA := 0, gridX := 0, gridPending := none, gridArrived := false, helper := 0,
    tags := [], qbound := none, qwaits := false, ended := false }

/-- A state in which the lane form of a node issues for one lane. -/
def nodeState (w : Wave) : State :=
  { State.reset with
    wgs := [{ id := 0, launch := 0, keeper := false, wgid := [0, 0, 0], cg := 0, flat := 0, core := 0, slot := 0,
              scrbase := 0, scratch := ⟨[], none⟩, barriers := [], rings := [], graphs := List.replicate 16 none,
              raster := ⟨[], false, [], [], [], 0, []⟩, waves := [w], status := .resident, request := none,
              arrivedGrid := false, exchangeSince := none, released := 0, saved := none }],
    cur := some ⟨⟨0, 0⟩, .x, 1, 0⟩ }

/-- The result words of a class 0 or 1 node for its source words: those of its lane form, for one lane. -/
def laneNode (n : Node) (ws : List Word) : List Word :=
  match laneShape n with
  | none => []
  | some sh =>
    let at_ (k m base : Nat) : List (Nat × Word) := (List.range m).map fun j => (base + j, laneAt ws (k + j))
    let kC := sh.a + sh.b
    let kD := sh.sources - sh.d
    let rows := at_ 0 sh.a 0 ++ at_ sh.a sh.b 8 ++ at_ kC sh.c 16 ++ at_ kD sh.d 24
    let imm := if sh.imm.isSome then (laneAt ws kC).toNat else 0
    match nodeFields n imm with
    | none => []
    | some (i, _, _) =>
      let s := nodeState (nodeWave rows (if sh.sel && laneAt ws kC != 0#32 then 1 else 0))
      match execNode i s with
      | .next t => (List.range sh.results).map fun j => match t.wave ⟨0, 0⟩ with
          | some w => laneAt (w.vrow (24 + j)) 0
          | none => 0#32
      | _ => []

/-! What the classes need (R364, R365). -/

/-- Sources, results, latency and interval of a node; none when its class, op, fn or another field is not legal. -/
structure NodeKind where
  sources : Nat
  results : Nat
  latency : Nat
  interval : Nat
  /-- The worst case at level 0 minus the latency (R385), and whether the node is of class 2, 3 or 4. -/
  excess : Nat
  memory : Bool
  deriving DecidableEq, Repr

/-- The Lantern bound of R249 at level 0. -/
def lanternWorst : Nat := 1450

def islandNode (fn : Nat) : NodeKind :=
  match fn with
  | 0 => ⟨14, 1, 36, 2, 960, true⟩
  | 1 => ⟨17, 3, 44, 2, 960, true⟩
  | 2 => ⟨16, 3, 44, 2, 960, true⟩
  | _ => ⟨3, 4, 60 + 42, 4, 60 + 960 + lanternWorst - (60 + 42), true⟩

/-- The latency of a lane form of class 0 (R121, R155). -/
def laneLatency (op fn : Nat) : Nat :=
  if op = 0x02 || op = 0x03 || (op = 0x0D && 0 < fn) then 6 else 4

/-- The shape and the timing of a node; none when a field of it is reserved or out of range. `extra` and `slot` must be 0 where a
node of classes 4 and 5 names nothing with them (DEDUCED, log entry 178). -/
def nodeKind (h : GraphHeader) (n : Node) : Option NodeKind :=
  let plain := n.fn = 0 && n.mode == 0#4
  let quiet := plain && n.flags == 0#8
  let scope := (n.flags.extractLsb' 0 3).toNat
  let access := plain && n.op ≤ 2 && n.slot = 0 && n.flags.extractLsb' 3 5 == 0#5 && 2 ≤ scope && scope ≤ 4
  let pool (words : Nat) : Bool := 4 * (n.extra + words) ≤ h.poolbytes
  if n.col ≥ h.columns || n.count != 0 || n.low != 0 then none
  else match n.cls with
    | 0 => if n.extra != 0 then none
      else (laneShape n).map fun sh => ⟨sh.sources, sh.results, laneLatency n.op n.fn, 1, 0, false⟩
    | 1 => if n.extra != 0 || n.slot != 0 then none
      else (laneShape n).map fun sh => ⟨sh.sources, sh.results, 12, 8, 0, false⟩
    | 2 => if access then some ⟨2, 1, 42, 1, lanternWorst - 42, true⟩ else none
    | 3 => if access then some ⟨3, 0, 0, 1, lanternWorst, true⟩ else none
    | 4 =>
      let slotOk := if n.op = 2 then true else if n.op = 4 then n.slot ≤ 3 else n.slot = 0
      let extraOk := if n.op < 3 then n.extra = 0 else n.extra % 2 = 0 && pool 2
      if quiet && n.op ≤ 5 && slotOk && extraOk then some (islandNode n.op) else none
    | 5 =>
      if !quiet || n.slot != 0 then none
      else if n.op < 2 then (if n.extra = 0 then some ⟨9, 1, 8, 1, 0, false⟩ else none)
      else if n.op = 2 && pool 72 then some ⟨8, 8, 24, 1, 0, false⟩ else none
    | 6 => if quiet && n.op < h.nout && n.slot = 0 && n.extra = 0 then some ⟨1, 0, 0, 1, 0, false⟩ else none
    | _ => none

/-! Validity (R366). -/

/-- The node, its kind and its sources; class 7 entries are listed with the node that they follow. -/
structure Placed where
  n : Node
  k : NodeKind
  src : List Src
  deriving DecidableEq, Repr

/-- The class 7 entries that directly follow a node. -/
def listsAfter (rest : List Node) : List Node := rest.takeWhile fun n => n.cls = 7

/-- The sources of a node with the class 7 entries behind it (R363). -/
def sourcesOf (h : GraphHeader) (n : Node) (k : NodeKind) (lists : List Node) : Option (List Src) :=
  if k.sources ≤ 3 then
    if lists.isEmpty && (n.abc.drop k.sources).all (fun x => x = 0) then (n.abc.take k.sources).mapM (srcOf h) else none
  else
    let ok := n.abc.all (fun x => x = 0) && lists.all fun l =>
      1 ≤ l.count && l.count ≤ 6 && l.col = 0 && l.row = 0 && l.slot = 0
    let xs := lists.flatMap Node.listed
    if ok && xs.length = k.sources then xs.mapM (srcOf h) else none

/-- Every entry, in node order: `none` in a class 7 entry; the whole is none when an entry is not legal. -/
def placeNodes (h : GraphHeader) : List Node → Option (List (Option Placed))
  | [] => some []
  | n :: rest =>
    let this : Option (Option Placed) :=
      if n.cls = 7 then some none
      else match nodeKind h n with
        | none => none
        | some k => (sourcesOf h n k (listsAfter rest)).map fun ss => some ⟨n, k, ss⟩
    match this, placeNodes h rest with
    | some p, some ps => some (p :: ps)
    | _, _ => none

/-- The arrival of a result across the mesh (R360). -/
def hops (c1 r1 c2 r2 : Nat) : Nat := (max c1 c2 - min c1 c2) + (max r1 r2 - min r1 r2)

/-- A node's completion, and over the paths to it the worst excess and the most memory nodes. -/
structure NodeTime where
  at_ : Nat
  excess : Nat
  memory : Nat
  deriving DecidableEq, Repr

/-- The times of a node from those before it (R365, R385). -/
def nodeTime (ps : List (Option Placed)) (ts : List NodeTime) (p : Placed) : NodeTime :=
  let arrive (s : Src) : NodeTime := match s with
    | .node j _ => match (ps[j]?).join, ts[j]? with
      | some q, some t => { t with at_ := t.at_ + hops q.n.col q.n.row p.n.col p.n.row }
      | _, _ => ⟨0, 0, 0⟩
    | .input _ => ⟨hops 0 0 p.n.col p.n.row, 0, 0⟩
    | _ => ⟨0, 0, 0⟩
  let all := p.src.map arrive
  let top (f : NodeTime → Nat) : Nat := all.foldl (fun m t => max m (f t)) 0
  ⟨top NodeTime.at_ + p.k.latency, top NodeTime.excess + p.k.excess, top NodeTime.memory + (if p.k.memory then 1 else 0)⟩

def nodeTimes (ps : List (Option Placed)) : List NodeTime :=
  ps.foldl (fun ts p => ts ++ [match p with
    | some q => nodeTime ps ts q
    | none => ⟨0, 0, 0⟩]) []

/-- A source is below its node and names a result that exists. -/
def srcBelow (ps : List (Option Placed)) (i : Nat) (s : Src) : Bool :=
  match s with
  | .node j r => j < i && match (ps[j]?).join with
    | some q => r < q.k.results
    | none => false
  | _ => true

/-- The immediate of a class 0 node is a pool word in its range (R502). -/
def immediateOk (img : List Word) (h : GraphHeader) (p : Placed) : Bool :=
  match (if p.n.cls = 0 then laneShape p.n else none) with
  | some sh => match sh.imm with
    | some top => match p.src[sh.a + sh.b]? with
      | some (.pool k) => (poolWord img h k).toNat ≤ top
      | _ => false
    | none => true
  | none => true

/-- What a node occupies, as a key that no other node may have: an operator slot, or one of the ports that stand once in
a position. -/
def Node.unit (n : Node) : Nat × Nat × Nat × Nat := (n.col, n.row, n.cls, if n.cls = 0 then n.slot else 0)

/-- The units and ports of a set of nodes (R360, R366). -/
def unitsOk (ps : List Placed) : Bool :=
  let keys := (ps.filter fun p => p.n.cls = 0 || p.n.cls = 1 || p.n.cls = 4 || p.n.cls = 5).map fun p => p.n.unit
  let mem := (ps.filter fun p => p.n.cls = 2 || p.n.cls = 3).map fun p => (p.n.col, p.n.row)
  keys.Nodup && mem.all fun x => (mem.filter fun y => y == x).length ≤ 2

/-- The fields of the header (R361, R366). -/
def headerOk (img : List Word) (h : GraphHeader) : Bool :=
  let tableEnd := h.nodeoff + 16 * h.nodes
  laneAt img 0 == 0x47460100#32 && 1 ≤ h.size && h.size ≤ 256 && 1 ≤ h.nodes && h.nodes ≤ 512 && 1 ≤ h.columns &&
  h.columns ≤ 8 && 1 ≤ h.ii && h.ii ≤ 16 && 1 ≤ h.latency && h.latency ≤ 4096 && h.depth = ceilDiv h.latency h.ii &&
  h.depth ≤ 512 && 1 ≤ h.nin && h.nin ≤ 8 && h.nout ≤ 8 && (laneAt img 3).extractLsb' 1 3 == 0#3 && h.nodeoff % 16 = 0 &&
  0x40 ≤ h.nodeoff && tableEnd ≤ 64 * h.size && h.pooloff % 16 = 0 && h.poolbytes ≤ 2044 && h.poolbytes % 4 = 0 &&
  (if h.poolbytes = 0 then h.pooloff = 0 else tableEnd ≤ h.pooloff && h.pooloff + h.poolbytes ≤ 64 * h.size) &&
  laneAt img 7 == 0#32 && (List.range 7).all fun k => laneAt img (9 + k) == 0#32

/-- The sum of the words behind the header. -/
def imageCheck (img : List Word) (h : GraphHeader) : Word :=
  ((img.take (16 * h.size)).drop 16).foldl (fun a w => a + w) 0#32

/-- The largest completion that L counts (R365). -/
def graphLatency (h : GraphHeader) (ps : List (Option Placed)) (ts : List NodeTime) : Nat :=
  let has (c : Nat) : Bool := ps.any fun p => match p with
    | some q => q.n.cls = c
    | none => false
  let all := h.nout = 0 && !has 3
  (ps.zip ts).foldl (fun m x => match x.1 with
    | some q => if all || q.n.cls = 6 || q.n.cls = 3 then max m x.2.at_ else m
    | none => m) 0

/-- The nodes of a valid image; none when R366 does not hold. -/
def imageNodes (img : List Word) : Option (List (Option Placed)) :=
  let h := graphHeader img
  let leading := (graphNodes img h).head?.any fun n => n.cls = 7
  if !headerOk img h || leading || imageCheck img h != laneAt img 8 then none
  else match placeNodes h (graphNodes img h) with
    | none => none
    | some ps =>
      let qs := ps.filterMap id
      let ts := nodeTimes ps
      let below := (ps.zip (List.range ps.length)).all fun x => match x.1 with
        | some q => q.src.all (srcBelow ps x.2)
        | none => true
      let results := (List.range h.nout).all fun k => (qs.filter fun q => q.n.cls = 6 && q.n.op = k).length = 1
      let drain := (ps.zip ts).foldl (fun m x => match x.1 with
        | some q => if q.n.cls = 6 || q.n.cls = 3 then max m x.2.excess else m
        | none => m) 0
      if below && results && qs.all (immediateOk img h) && unitsOk qs && qs.all (fun q => q.k.interval ≤ h.ii) &&
          graphLatency h ps ts = h.latency && ts.all (fun t => t.memory ≤ 6) && h.ii * h.depth + drain ≤ 18000
      then some ps else none

/-! The nodes of a token (R364, R381). -/

/-- The words that a token brings; `base` is the first core of its context's placement, and `cut` holds the channels that
were reset while it was in flight (R356). -/
structure TokenEnv where
  img : List Word
  h : GraphHeader
  inputs : List Word
  param : Word
  base : Nat
  cut : List Nat

def TokenEnv.word (e : TokenEnv) (vals : List (List Word)) : Src → Word
  | .node n r => laneAt ((vals[n]?).getD []) r
  | .input k => laneAt e.inputs k
  | .pool k => poolWord e.img e.h k
  | .param => e.param

/-- What a node does with its source words: results, or the store that it performs when the token leaves; or it stops. -/
inductive NodeStop where
  | blocked
  | mark (c : Cause) (va : DWord)
  deriving DecidableEq, Repr

abbrev NodeOut := Except NodeStop ((List Word × List (DWord × Nat × Word × Nat)) × State)

def ReadStop.toNode : ReadStop → NodeStop
  | .owned => .blocked
  | .cause c va => .mark c va

/-- The address of a memory node. -/
def memAddr (n : Node) (ws : List Word) : DWord :=
  joinWords (laneAt ws 0) (laneAt ws 1) + (BitVec.ofNat 16 n.extra).signExtend 64

/-- `fdot16` of nine words (R323). -/
def dotNode (fmt : Fmt) (ws : List Word) : Word :=
  let v (k j : Nat) : XVal := decodeF fmt (elementAt 8 (ws.drop k) j)
  chunkAdd ((List.range 16).map fun j => (v 0 j).mul (v 4 j)) (decodeF .f32 (laneAt ws 8).toNat)

/-- `mrow.e4m3` (R364): eight results, two chunks each. -/
def mrowNode (block ws : List Word) : List Word :=
  (List.range 8).map fun n =>
    let col := block.drop (8 * n)
    let p (j : Nat) : XVal := (decodeF .e4m3 (elementAt 8 ws j)).mul (decodeF .e4m3 (elementAt 8 col j))
    let low := chunkAdd ((List.range 16).map p) (decodeF .f32 (laneAt block (64 + n)).toNat)
    chunkAdd ((List.range 16).map fun j => p (16 + j)) (decodeF .f32 low.toNat)

/-- One node (R364): `rd` serves its accesses; an island node needs a slot of its position's channel (R330,
R360). -/
def runNode (rd : Reader) (e : TokenEnv) (n : Node) (results : Nat) (ws : List Word) (s : State) : NodeOut :=
  let size := 2 ^ n.op
  let va := memAddr n ws
  let scope := (n.flags.extractLsb' 0 3).toNat
  let out (xs : List Word) (s : State) : NodeOut := .ok ((xs, []), s)
  match n.cls with
  | 0 | 1 => out (laneNode n ws) s
  | 2 =>
    if misaligned va size then .error (.mark .misaligned va)
    else match s.engineRead { rd with scope := scope } va size with
      | (.ok bs, s) => out [BitVec.ofNat 32 (ofBytes bs)] s
      | (.error x, _) => .error x.toNode
  | 3 =>
    if misaligned va size then .error (.mark .misaligned va)
    else match locate s rd.cluster none rd.vi va .store with
      | (.ok _, s) => if s.delayed then .error .blocked else .ok (([], [(va, size, laneAt ws 2, scope)]), s)
      | (.error c, _) => .error (.mark c va)
  | 4 =>
    let obj := joinWords (poolWord e.img e.h n.extra) (poolWord e.img e.h (n.extra + 1))
    let chan := channelOf (fnKind n.op) (e.base + n.col) n.row
    if !s.hasFunction rd.cluster n.op then .error (.mark .islandFn 0)
    else if e.cut.contains chan then out (List.replicate results 0xFFC00001#32) s
    else if (s.channel rd.cluster chan).free = 0 then .error .blocked
    else match islandLane s rd n.op n.slot results obj ws with
      | (.ok xs, s) => out xs s
      | (.error x, _) => .error x.toNode
  | 5 =>
    if n.op = 0 then out [dotNode .e4m3 ws] s
    else if n.op = 1 then out [dotNode .e5m2 ws] s
    else out (mrowNode ((List.range 72).map fun k => poolWord e.img e.h (n.extra + k)) ws) s
  | _ => out [] s

/-- The nodes from number `i` on: the values of those before, the result words and the stores so far. None while an access
must wait. The first mark stops the token, whose stores are then not performed (R381). -/
def runNodes (rd : Reader) (e : TokenEnv) (token : Cause → DWord → Nat → Token) :
    List (Option Placed) → List (List Word) → TokenWork → State → Option (TokenWork × State)
  | [], _, work, s => some (work, s)
  | p :: ps, vals, work, s =>
    match p with
    | none => runNodes rd e token ps (vals ++ [[]]) work s
    | some q =>
      let ws := q.src.map (e.word vals)
      if q.n.cls = 6 then
        runNodes rd e token ps (vals ++ [[]])
          { work with results := updAt (fun _ => laneAt ws 0) work.results q.n.op } s
      else match runNode rd e q.n q.k.results ws s with
        | .ok ((xs, stores), s) =>
          runNodes rd e token ps (vals ++ [xs]) { work with stores := work.stores ++ stores.map fun x => (vals.length, x) } s
        | .error .blocked => none
        | .error (.mark c va) => some ({ work with stores := [], mark := some (token c va vals.length) }, s)

end Sys2Proof.Machine
end

