-- ==== Sys2Proof/Machine/Graph.lean ====
section
/-!
DEFINITION. Spatial mode (15_spatial.md): graph tables and the configuration store (R367 to R370), placement (R371), job
cards (R372 to R377), tokens (R378 to R382) and fabric mode (R359).
-/
namespace Sys2Proof.Machine

open Sys2Proof

/-! Contexts (R367 to R370). -/

def State.context (s : State) (cluster k : Nat) : GraphCtx :=
  ((s.cluster cluster).contexts[k]?).getD ⟨0, 0, 0, [], 0, none, 0, none, 0⟩
def State.updContext (s : State) (cluster k : Nat) (f : GraphCtx → GraphCtx) : State :=
  s.updCluster cluster fun c => { c with contexts := updAt f c.contexts k }
def GraphCtx.header (g : GraphCtx) : GraphHeader := graphHeader g.image

def Workgroup.graph (g : Workgroup) (n : Nat) : Option Nat := (g.graphs[n]?).join

/-- Cards of a context. -/
def State.cardsOf (s : State) (cluster ctx : Nat) : List Card :=
  s.cards.filter fun k => clusterOf k.core == cluster && k.ctx == ctx

/-- The image at an address as words: 64 bytes for the header, then the size that it states. -/
def State.readImage (s : State) (cluster vi : Nat) (va : DWord) : Except ReadStop (List Word) × State :=
  let e : Reader := ⟨cluster, vi, 3, State.isOwned, none⟩
  match s.engineRead e va 64 with
  | (.error e, s) => (.error e, s)
  | (.ok bs, s) =>
    let n := min (graphHeader (wordsOf (ofBytes bs) 16)).size 256
    match readAll e 64 ((List.range n).map fun k => va + BitVec.ofNat 64 (64 * k)) s with
    | (.error e, s) => (.error e, s)
    | (.ok bss, s) => (.ok (bss.flatMap fun bs => wordsOf (ofBytes bs) 16), s)

/-- The context that holds an image under its key (R368). -/
def State.findContext (s : State) (cluster vi : Nat) (va : DWord) (check : Word) : Option Nat :=
  (List.range 16).find? fun k =>
    let g := s.context cluster k
    !g.image.isEmpty && g.vi == vi && g.root == (s.iface (tableVi vi)).root && g.addr == va && laneAt g.image 8 == check

/-- A context that a load may take: it has no reference and no card; an empty one first, else one of the device's
choice. -/
def State.freeContext (s : State) (cluster : Nat) : Option Nat × State :=
  let free := (List.range 16).filter fun k => (s.context cluster k).count = 0 && (s.cardsOf cluster k).isEmpty
  match free.find? fun k => (s.context cluster k).image.isEmpty with
  | some k => (some k, s)
  | none =>
    let (n, t) := s.draw
    (free[n % free.length]?, t)

/-- An image is shared or loaded into a context, whose count grows by one (R368). -/
def State.loadContext (s : State) (cluster vi : Nat) (va : DWord) (img : List Word) : Option Nat × State :=
  match s.findContext cluster vi va (laneAt img 8) with
  | some k => (some k, s.updContext cluster k fun g => { g with count := g.count + 1 })
  | none => match s.freeContext cluster with
    | (none, s) => (none, s)
    | (some k, s) =>
      (some k, s.updContext cluster k fun _ => ⟨vi, (s.iface (tableVi vi)).root, va, img, 1, none, 0, none, s.clock⟩)

/-- One reference of a context ends. -/
def State.dropContext (s : State) (cluster k : Nat) : State :=
  s.updContext cluster k fun g => { g with count := g.count - 1 }

/-- The causes of a `gload` (R8): the lowest of the entry's, the address's, and those that the read of the image meets; none
while its line is owned. -/
def Ctx.gloadFaults (c : Ctx) (n : Nat) (va : DWord) (r : Except ReadStop (List Word)) : Option (List (Cause × Info)) :=
  let entry := if (c.g.graph n).isSome then [(Cause.graphState, noInfo)] else []
  let bad : List (Cause × Info) := [(.graphImage, { addr := va })]
  if misaligned va 64 then match c.s.readFault c.cluster c.vi va 64 with
    | some .owned => none
    | some (.cause k a) => some (entry ++ bad ++ [(k, { addr := a })])
    | none => some (entry ++ bad)
  else match r with
    | .error .owned => none
    | .error (.cause k a) => some (entry ++ [(k, { addr := a })])
    | .ok img => some (entry ++ if (imageNodes img).isNone then bad else [])

/-- `gload` (R369): its checks and reads at issue; D and the flags are written at its completion. -/
def execGload (g : GroupFields) (s : State) : Result :=
  issue (.gload g) (fun c =>
    let n := g.sb.toNat
    let va := c.w.sreg64 g.sa.toNat
    let r := c.s.readImage c.cluster c.vi va
    match (c.gloadFaults n va r.1).map raiseAny, r with
    | none, _ => .error .wait
    | some (.error e), _ => .error e
    | some (.ok ()), (.error _, _) => .error .wait
    | some (.ok ()), (.ok img, t) =>
        let (k, t) := t.loadContext c.cluster c.vi va img
        let t := match k with
          | some x => t.updWg c.g.id fun h => { h with graphs := updAt (fun _ => some x) h.graphs n }
          | none => t
        .ok (c.doneState (.gload g)
          (t.place [c.req t.nextId (.gload g.sd.toNat (if k.isSome then 0#32 else 1#32))] 1))) s

/-- GLOAD_COMPLETE (R369). -/
def execGloadComplete (id : Nat) (s : State) : Result :=
  .next (match s.req id with
    | none => s
    | some r => match r.kind with
      | .gload sd v =>
        ((s.updWave r.w fun w => updFlags r.sl (fun f => f.ofWord v) (w.setS sd v)).writeMade id).endReq id
      | _ => s)

/-- A card slot of the workgroup holds a card of an entry. -/
def State.entryBusy (s : State) (wg entry : Nat) : Bool :=
  s.cards.any fun k => k.w.wg == wg && k.entry == entry && match s.wave k.w with
    | some w => (w.cards[k.slot]?).join == some k.id
    | none => false

/-- `gunload` (R370). -/
def execGunload (g : GroupFields) (s : State) : Result :=
  issue (.gunload g) (fun c =>
    let n := g.sb.toNat
    match c.g.graph n with
    | none => fail .graphState
    | some k =>
      if c.s.entryBusy c.g.id n then fail .graphState
      else
        let t := (c.s.dropContext c.cluster k).updWg c.g.id fun h => { h with graphs := updAt (fun _ => none) h.graphs n }
        .ok (c.doneState (.gunload g) t)) s

/-! Placement (R359, R371). -/

/-- The queue slot of a workgroup's context. -/
def State.slotOf (s : State) (g : Workgroup) : Nat :=
  match s.launch g.launch with
  | some l => l.slot
  | none => 64

/-- The cores of a slot's share in a cluster, first and count. -/
def State.shareRange (s : State) (cluster slot : Nat) : Nat × Nat :=
  match (s.cluster cluster).ranges.find? fun r => r.1 == slot with
  | some r => (r.2.1, r.2.2)
  | none => (0, 0)

/-- A core of the cluster holds a placed context. -/
def State.corePlaced (s : State) (cluster j : Nat) : Bool :=
  (s.cluster cluster).contexts.any fun g => match g.place with
    | some p => p ≤ j && j < p + g.header.columns
    | none => false

/-- The lowest free run of `n` cores in fabric mode in a range. -/
def State.freeRun (s : State) (cluster first cores n : Nat) : Option Nat :=
  ((List.range cores).map fun k => first + k).find? fun p => p + n ≤ first + cores &&
    (List.range n).all fun j => (s.core (8 * cluster + p + j)).fabric && !s.corePlaced cluster (p + j)

/-- A context has a bound card: a card is bound until its slot is free, also after its last token has left (R371; DEDUCED, log
entry 179). -/
def State.hasBound (s : State) (cluster ctx : Nat) : Bool := (s.cardsOf cluster ctx).any fun k => k.bound.isSome

/-- Removes the placed context of a slot's share that has no bound card and has been idle longest. -/
def State.displace (s : State) (cluster slot : Nat) : Option State :=
  let idle := (List.range 16).filter fun k =>
    let g := s.context cluster k
    g.place.isSome && g.owner == slot && !s.hasBound cluster k
  let oldest := idle.foldl (fun best k => match best with
    | none => some k
    | some b => if (s.context cluster k).idle < (s.context cluster b).idle then some k else some b) none
  oldest.map fun k => s.updContext cluster k fun g => { g with place := none, placing := none }

/-- Finds a run for a context, displacing idle ones as long as needed; at most 16 are placed. What is displaced stays so when
no run is found. -/
def makeRoom (cluster slot n : Nat) : Nat → State → Option Nat × State
  | 0, s => (none, s)
  | fuel + 1, s =>
    let r := s.shareRange cluster slot
    match s.freeRun cluster r.1 r.2 n with
    | some p => (some p, s)
    | none => match s.displace cluster slot with
      | some t => makeRoom cluster slot n fuel t
      | none => (none, s)

def State.updCard (s : State) (id : Nat) (f : Card → Card) : State :=
  { s with cards := s.cards.map fun k => if k.id == id then f k else k }
def State.card (s : State) (id : Nat) : Option Card := s.cards.find? fun k => k.id == id

/-- The workgroup of a card runs, or halts since less than 16 cycles (R384). -/
def State.cardOpen (s : State) (k : Card) : Bool :=
  match s.wg k.w.wg with
  | some g => match g.status with
    | .resident => true
    | .halting h => s.clock < h.t + 16
    | _ => false
  | none => false

/-- Binds a card, behind those bound before it. -/
def State.bindCard (s : State) (cluster : Nat) (k : Card) : State :=
  (s.updCard k.id fun c => { c with bound := some (s.cluster cluster).nextSeq }).updCluster cluster fun c =>
    { c with nextSeq := c.nextSeq + 1 }

/-- An earlier card of the wave that reads memory waits for placement: one that reads, too, does not bind ahead of it, so that
their reads can come in program order (R301; R371 lets later cards bind ahead and does not make them; DEDUCED, log entry 168). -/
def State.readsBehind (s : State) (k : Card) : Bool :=
  k.reads && s.cards.any fun o => o.w == k.w && o.id < k.id && o.reads && o.bound.isNone && o.tokens.any CardToken.live

/-- CARD_BIND (R371). -/
def execCardBind (id : Nat) (s : State) : Result :=
  .next (match s.card id with
    | none => s
    | some k =>
      let cluster := clusterOf k.core
      let ctx := s.context cluster k.ctx
      let earlier := s.cards.any fun o => o.arrival < k.arrival && clusterOf o.core == cluster && o.bound.isNone &&
        (s.context cluster o.ctx).place.isNone && s.cardOpen o && o.tokens.any CardToken.live
      if k.bound.isSome || !s.cardOpen k || !k.tokens.any CardToken.live || s.readsBehind k then s
      else if ctx.place.isSome then s.bindCard cluster k
      else if earlier then s
      else
        let slot := match s.wg k.w.wg with
          | some g => s.slotOf g
          | none => 64
        match makeRoom cluster slot ctx.header.columns 17 s with
        | (none, t) => t
        | (some p, t) =>
          (t.updContext cluster k.ctx fun g => { g with place := some p, owner := slot, placing := some s.clock }).bindCard
            cluster k)

/-- GRAPH_PLACEMENT (R371): a context's configuration has been written. -/
def execGraphPlacement (cluster ctx : Nat) (s : State) : Result :=
  .next (if (s.context cluster ctx).placing.isSome then s.updContext cluster ctx fun g => { g with placing := none } else s)

/-- A core holds no wave of a resident workgroup. -/
def State.coreEmpty (s : State) (core : Nat) : Bool :=
  s.wgs.all fun g => g.core != core || g.keeper || match g.status with
    | .saved | .held | .ended => true
    | _ => false

/-- FABRIC_MODE_ENTRY (R359). -/
def execFabricModeEntry (core : Nat) (s : State) : Result :=
  .next (
    let inRange := (s.cluster (clusterOf core)).ranges.any fun r => r.2.1 ≤ core % 8 && core % 8 < r.2.1 + r.2.2
    if inRange && s.coreEmpty core then s.updCore core fun c => { c with fabric := true } else s)

/-! Posting (R373). -/

/-- The checks of `jpost` that need the graph table, and that of a `.q` queue. -/
def Ctx.jobFaults (c : Ctx) (f : LaneFields) (k : Nat) (q : Option Nat) : List (Cause × Info) :=
  (match c.g.graph f.b.toNat with
    | none => [(.graphState, noInfo)]
    | some x =>
      let h := (c.s.context c.cluster x).header
      (if Form.jobIn f = h.nin && Form.jobOut f = h.nout then [] else [(.jobForm, noInfo)]) ++
      (if h.columns ≤ (c.s.shareRange c.cluster (c.s.slotOf c.g)).2 then [] else [(.fabricShare, noInfo)])) ++
  (if ((c.w.cards[k]?).join).isSome then [(.jobSlot, noInfo)] else []) ++
  (match q.bind fun n => c.w.queue n with
    | some u => if u.attach == .none then [] else [(.jobForm, noInfo)]
    | none => [])

/-- A card slot of a wave is set. -/
def setCardSlot (k : Nat) (x : Option Nat) (w : Wave) : Wave := { w with cards := updAt (fun _ => x) w.cards k }

/-- Slot `k` becomes free once every lane of the card has waited for its token or has exited; its queue is then attached
to nothing, and a card without live tokens is gone (R375). Slots that a cut held come first (R384). -/
def State.settleCard (s : State) (k : Card) : State :=
  match s.wave k.w with
  | none => s
  | some w =>
    let done := (k.tokens.all fun t => t.held.isEmpty) &&
      (lanesOf k.lanes).all fun l => k.collected.getLsbD l || !(w.x.thread l).st.isLive
    let mine := (w.cards[k.slot]?).join == some k.id
    let s := if done && mine then s.updWave k.w fun w =>
        let w := setCardSlot k.slot none w
        match k.q.bind fun n => (w.queue n).map fun u => (n, u) with
        | some (n, u) => if u.attach == .card k.id then w.setQueue n (some { u with attach := .none }) else w
        | none => w
      else s
    if done && k.tokens.all (fun t => !t.live) then
      { s with cards := s.cards.filter fun o => o.id != k.id } else s

def State.settleCards (s : State) (r : WaveRef) : State :=
  (s.cards.filter fun k => k.w == r).foldl State.settleCard s

/-- The graph has a node that reads memory: of class 2, or a filter node (R364). -/
def GraphCtx.readsMemory (g : GraphCtx) : Bool :=
  (graphNodes g.image g.header).any fun n => n.cls = 2 || (n.cls = 4 && fnKind n.op == .filter)

/-- `jpost`: the lanes that are no helper lanes form a token each (R373). -/
def postCard (i : Instr) (f : LaneFields) (q : Option Nat) (c : Ctx) : Eff State :=
  let k := (f.mode.extractLsb' 2 2).toNat
  match raiseAny (c.jobFaults f k q), c.g.graph f.b.toNat with
  | .error e, _ => .error e
  | .ok (), none => fail .graphState
  | .ok (), some x =>
    if 64 ≤ (c.s.cards.filter fun o => clusterOf o.core == c.cluster).length then .error .wait
    else
      let id := c.s.nextId
      let tok (l : Nat) : CardToken := ⟨l, c.blockWords f.a (Form.jobIn f) l, .waiting, none, [], []⟩
      let card : Card := ⟨id, id, c.ref, k, c.core, c.vi, c.pc, f.b.toNat, x, Form.jobOut f, f.d.toNat, q,
        if Form.noS f then 0#32 else c.w.sreg f.s.toNat, c.em &&& ~~~c.w.helper, c.covered.map tok, none, false, 0,
        (c.s.context c.cluster x).readsMemory⟩
      let t : State := { c.s with cards := c.s.cards ++ [card], nextId := id + 1 }
      let t := t.updWave c.ref fun w =>
        let w := setCardSlot k (some id) w
        match q.bind fun n => (w.queue n).map fun u => (n, u) with
        | some (n, u) => w.setQueue n (some { u with attach := .card id })
        | none => w
      .ok (c.doneState i (t.settleCard card))

def execJpostR (f : LaneFields) (s : State) : Result := issue (.jpostR f) (postCard (.jpostR f) f none) s
def execJpostQ (f : LaneFields) (s : State) : Result :=
  issue (.jpostQ f) (postCard (.jpostQ f) f (some (Form.qIndex f.d))) s

/-! Waiting (R374). -/

def Wave.cardAt (w : Wave) (s : State) (k : Nat) : Option Card := ((w.cards[k]?).join).bind s.card
def Card.token (k : Card) (l : Nat) : Option CardToken := k.tokens.find? fun t => t.lane == l
/-- The lanes of a set that hold a token that they have not waited for. -/
def Card.holders (k : Card) (em : Lanes) : Lanes := em &&& k.lanes &&& ~~~k.collected
/-- A lane of a set has a live token. -/
def Card.anyLive (k : Card) (m : Lanes) : Bool := k.tokens.any fun t => m.getLsbD t.lane && t.live
/-- The mark of the lowest lane of a set whose token left marked. -/
def Card.markOf (k : Card) (m : Lanes) : Option (Nat × Token) :=
  k.tokens.findSome? fun t => if m.getLsbD t.lane && t.state == .left then
    (t.work.bind TokenWork.mark).map fun x => (t.lane, x) else none
/-- The result words of a lane's token, when it left. -/
def Card.results (k : Card) (l : Nat) : Option (List Word) :=
  match k.token l with
  | some t => if t.state == .left then t.work.map TokenWork.results else none
  | none => none

/-- The results of a `.r` card are written to its block, for the lanes whose token left. -/
def Card.writeResults (k : Card) (m : Lanes) (w : Wave) : Wave :=
  if k.q.isSome then w
  else
    let m' := lanesWhere fun l => m.getLsbD l && (k.results l).isSome
    writeBlock m' (BitVec.ofNat 8 k.d) k.nout (fun l => (k.results l).getD []) w

/-- The scope of a card: that of the widest memory node of its graph, or `.cl` (R382). -/
def GraphCtx.scope (g : GraphCtx) : Nat :=
  ((graphNodes g.image g.header).filter fun n => n.cls = 2 || n.cls = 3).foldl
    (fun m n => max m (n.flags.extractLsb' 0 3).toNat) 2

/-- `jwait` for lanes none of whose tokens is live: the cause of the lowest marked one, or the results, the acquire
(R382), and the lanes go on at `pc`. -/
def State.collect (s : State) (k : Card) (m : Lanes) (pc : Word) : State :=
  match k.markOf m with
  | some (l, x) =>
    takeCause s k.w .x m pc x.cause
      { origin := 2, addr := x.addr, apc := k.pc, detail := x.node, unit := x.unit, lane := some l }
  | none =>
    let s := s.dropCopies k.core (s.context (clusterOf k.core) k.ctx).scope
    let s := s.updWave k.w fun w => (k.writeResults m w).updSlice .x fun t => t.arriveAll false m fun _ => pc + 8#32
    let k := { k with collected := k.collected ||| m }
    (s.updCard k.id fun _ => k).settleCard k

/-- `jwait k`: lanes without a token go on; the others park until none of their tokens is live. -/
def execJwait (f : LaneFields) (s : State) : Result :=
  issue (.jwait f) (fun c =>
    let slot := (f.mode.extractLsb' 2 2).toNat
    match c.w.cardAt c.s slot with
    | none => .ok (c.done (.jwait f) id)
    | some k =>
      let m := k.holders c.em
      let go (s : State) : State :=
        s.updSlice c.ref .x fun t => t.arriveAll false (c.em &&& ~~~m) fun _ => c.pc + 8#32
      if m == 0#32 then .ok (c.done (.jwait f) id)
      else if k.anyLive m then
        .ok ((go c.s).updSlice c.ref .x (SliceSt.parkLanes m (.card slot m)))
      else match k.markOf m with
        | some (l, x) =>
          failAt x.cause
            { origin := 2, addr := x.addr, apc := k.pc, detail := x.node, unit := x.unit, lane := some l }
        | none => .ok ((go c.s).collect k m c.pc)) s

/-- Groups parked at a `jwait` on a card, none of whose tokens is live, go on together. -/
def State.wakeCard (s : State) (id : Nat) : State :=
  match s.card id with
  | none => s
  | some k => match s.wave k.w with
    | none => s
    | some w =>
      let groups := (laneList.filterMap fun l => match (w.x.thread l).st with
        | .parked (.card slot m) => if slot == k.slot && (w.cards[slot]?).join == some id then some (m, (w.x.thread l).pc)
          else none
        | _ => none).eraseDups
      groups.foldl (fun s g => match s.card id with
        | some k => if k.anyLive g.1 then s else s.collect k g.1 g.2
        | none => s) s

/-- `jstat` (R376). -/
def cardStatus (k : Card) : Word :=
  let n (p : CardToken → Bool) : Nat := (k.tokens.filter p).length
  let marked := k.tokens.any fun t => t.state == .left && (t.work.bind TokenWork.mark).isSome
  BitVec.ofNat 32 (2 ^ 31 + (if k.bound.isSome then 2 ^ 30 else 0) + (if marked then 2 ^ 29 else 0) +
    (if k.cancelled then 2 ^ 28 else 0) + n CardToken.live * 2 ^ 16 + n CardToken.waits)

def execJstat (g : GroupFields) (s : State) : Result :=
  issue (.jstat g) (fun c =>
    c.groupWrite (.jstat g) g.sd (match c.w.cardAt c.s g.sa.toNat with
      | some k => cardStatus k
      | none => 0#32) id) s

/-- `jcancel` (R377): tokens not yet admitted are dropped. -/
def execJcancel (g : GroupFields) (s : State) : Result :=
  issue (.jcancel g) (fun c =>
    match c.w.cardAt c.s g.sa.toNat with
    | none => .ok (c.done (.jcancel g) id)
    | some k =>
      let drop (t : CardToken) : CardToken := if t.waits then { t with state := .dropped } else t
      let t := c.s.updCard k.id fun k => { k with cancelled := true, tokens := k.tokens.map drop }
      .ok ((c.doneState (.jcancel g) t).wakeCard k.id)) s

/-! Tokens (R378 to R382). -/

def State.updToken (s : State) (id lane : Nat) (f : CardToken → CardToken) : State :=
  s.updCard id fun k => { k with tokens := k.tokens.map fun t => if t.lane == lane then f t else t }

/-- The nodes of a token read after the store records that the card's slice follows (R275); the lanes of a node share the lines
of host memory (R464). -/
def Card.reader (k : Card) : Reader :=
  ⟨clusterOf k.core, k.vi, 2, fun s p => s.isOwned p || s.seenStore k.w k.id p, some k.id⟩

/-- Runs the nodes of a token, unless an access must wait: its reads come in the program order of the posting slice (R301). -/
def State.runToken (s : State) (k : Card) (t : CardToken) : Option State :=
  let cluster := clusterOf k.core
  let g := s.context cluster k.ctx
  let mark (c : Cause) (va : DWord) (n : Nat) : Token := ⟨c, va, k.pc, BitVec.ofNat 16 n, BitVec.ofNat 8 k.slot⟩
  if k.reads && s.readsBefore k.w k.id true then none
  else match runNodes k.reader ⟨g.image, g.header, t.inputs, k.param, g.place.getD 0, t.cut⟩ mark ((imageNodes g.image).getD []) []
      ⟨List.replicate k.nout 0#32, [], none⟩ s with
  | none => none
  | some (work, s) => some (s.updToken k.id t.lane fun t => { t with work := some work })

/-- The cards of a context in binding order: none before `k` has a token to admit. -/
def State.admitsNext (s : State) (cluster : Nat) (k : Card) : Bool :=
  (s.cardsOf cluster k.ctx).all fun o => o.id == k.id || !o.tokens.any CardToken.waits || match o.bound, k.bound with
    | some a, some b => b < a
    | _, _ => true

/-- Nothing that a cut held is still to be pushed for a card: held pushes come first at the resume (R384). -/
def State.heldFirst (s : State) (k : Card) : Bool :=
  match s.card k.id with
  | some o => o.tokens.all fun t => t.held.isEmpty
  | none => true

/-- The units that the tokens of a context use: the islands of its island nodes and the matrix engines of its matrix nodes
(R360). -/
def State.tokenUnits (s : State) (cluster ctx : Nat) : List Nat :=
  let g := s.context cluster ctx
  let base := g.place.getD 0
  (graphNodes g.image g.header).filterMap fun n =>
    if n.cls = 4 then some (islandUnit (base + n.col) n.op) else if n.cls = 5 then some (4 * (base + n.col) + n.row) else none

/-- TOKEN_ADMIT (R378): the lowest token not yet admitted, after the release of the posting slice (R301, R382); its nodes
may run at once or later, as the device chooses. A gated unit that it uses wakes first (R480). -/
def execTokenAdmit (id : Nat) (s : State) : Result :=
  .next (match s.card id with
    | none => s
    | some k => State.credit (
      let cluster := clusterOf k.core
      let g := s.context cluster k.ctx
      let gated := (s.tokenUnits cluster k.ctx).filter fun u => (s.cluster cluster).gate.gated.contains u
      let flying := (s.cardsOf cluster k.ctx).foldl (fun n o => n + (o.tokens.filter CardToken.inFlight).length) 0
      match k.tokens.find? CardToken.waits with
      | none => s
      | some t =>
        if k.bound.isNone || g.place.isNone || g.placing.isSome || !s.cardOpen k || !s.admitsNext cluster k ||
            g.header.depth ≤ flying || !s.accessesDone k.w .x k.id || !s.heldFirst k then s
        else if !gated.isEmpty then gated.foldl (fun s u => s.wantUnit cluster u) s
        else
          let s := s.releaseAt k.core g.scope
          let u := (s.updToken id t.lane fun t => { t with state := .flight (s.cluster cluster).nextSeq }).updCluster cluster
            fun c => { c with nextSeq := c.nextSeq + 1 }
          let (n, u) := u.draw
          if n % 2 = 0 then u else (u.runToken k t).getD u) k.w.wg)

/-- The column of a token's lane in its card's queue has no room for `n` slots. -/
def State.lacksRoom (s : State) (k : Card) (lane n : Nat) : Bool :=
  match k.q.bind fun q => (s.wave k.w).bind fun w => w.queue q with
  | some u => u.depth < (u.col lane).length + n
  | none => false

/-- A live token waits for room in a queue (R379): its nodes have run and its column is full, or it waits with one that does so, in
an ordered graph behind it, at a context that only such tokens fill, or behind pushes that a cut held. -/
def State.roomWaits (s : State) (k : Card) (t : CardToken) : Bool :=
  let cluster := clusterOf k.core
  let h := (s.context cluster k.ctx).header
  let flying := (s.cardsOf cluster k.ctx).flatMap fun o => (o.tokens.filter CardToken.inFlight).map fun x => (o, x)
  let full (p : Card × CardToken) : Bool := p.2.work.isSome && s.lacksRoom p.1 p.2.lane p.1.nout
  let seq (x : CardToken) : Nat := match x.state with
    | .flight q => q
    | _ => 0
  let waits (p : Card × CardToken) : Bool := full p || (!h.unordered && flying.any fun o => full o && seq o.2 < seq p.2)
  if t.inFlight then waits (k, t)
  else (h.depth ≤ flying.length && flying.all waits) ||
    k.tokens.any fun x => !x.held.isEmpty && s.lacksRoom k x.lane x.held.length

/-- A token admitted before another to an ordered graph has not left. -/
def State.tokenBefore (s : State) (cluster : Nat) (k : Card) (seq : Nat) : Bool :=
  !(s.context cluster k.ctx).header.unordered &&
  (s.cardsOf cluster k.ctx).any fun o => o.tokens.any fun t => match t.state with
    | .flight q => q < seq
    | _ => false

/-- The stores of a token, in node order, at their scopes; they wait while an engine owns a line, and fail at a node. -/
def tokenStores (k : Card) : List (Nat × DWord × Nat × Word × Nat) → State → Except (ReadStop × Nat) State
  | [], s => .ok s
  | (node, va, n, w, scope) :: rest, s =>
    match locate s (clusterOf k.core) none k.vi va .store with
    | (.error c, _) => .error (.cause c va, node)
    | (.ok p, s) =>
      if s.delayed || s.isOwned p then .error (.owned, node)
      else tokenStores k rest (s.contextStore k.w k.core scope p (bytesOf w.toNat n))

/-- The slots that a token pushes for `.q`. -/
def Card.pushes (k : Card) (work : TokenWork) : List QEntry :=
  match work.mark with
  | some t => List.replicate k.nout (.token t)
  | none => (List.range k.nout).map fun j => .ready (laneAt work.results j)

/-- A token that leaves: its slots go to its column, or, while its workgroup is saved, are held when there is no room
(R384). None while it waits for room. -/
def State.deliver (s : State) (k : Card) (lane : Nat) (es : List QEntry) : Option State :=
  match k.q, s.wg k.w.wg with
  | some q, some g => match (g.wave k.w.wave).bind fun w => w.queue q with
    | none => some s
    | some u =>
      if (u.col lane).length + es.length ≤ u.depth then
        some (s.updWave k.w (appendSlots q (1#32 <<< lane) fun _ => es))
      else if g.status == .resident then none
      else some (s.updToken k.id lane fun t => { t with held := es })
  | _, _ => some s

/-- The end of a token's flight. -/
def State.tokenGone (s : State) (id lane : Nat) : State :=
  let s := s.updToken id lane fun t => { t with state := .left }
  match s.card id with
  | none => s
  | some k =>
    let cluster := clusterOf k.core
    let busy := k.tokens.any CardToken.live
    let s := if busy then s else s.updContext cluster k.ctx fun g => { g with idle := s.clock }
    (s.wakeCard id).settleCard ((s.card id).getD k)

/-- A token in flight leaves, with its nodes run. -/
def State.leave (s : State) (k : Card) (lane : Nat) (work : TokenWork) : State :=
  match work.mark with
  | some _ => match s.deliver k lane (k.pushes work) with
    | some t => t.tokenGone k.id lane
    | none => s
  | none => match s.deliver k lane (k.pushes work) with
    | none => s
    | some t => match tokenStores k work.stores t with
      | .ok t => t.tokenGone k.id lane
      | .error (.owned, _) => s
      | .error (.cause c va, n) => s.updToken k.id lane fun t => { t with work := some { work with
          stores := [], mark := some ⟨c, va, k.pc, BitVec.ofNat 16 n, BitVec.ofNat 8 k.slot⟩ } }

/-- TOKEN_LEAVE (R379): also the push of slots that a cut held (R384). -/
def execTokenLeave (id lane : Nat) (s : State) : Result :=
  .next (match s.card id with
    | none => s
    | some k => match k.token lane with
      | none => s
      | some t => match t.state with
        | .flight seq =>
          if s.tokenBefore (clusterOf k.core) k seq then s
          else match t.work with
            | some work => s.leave k lane work
            | none => match (s.runToken k t).map fun u => u.credit k.w.wg with
              | none => s
              | some u => match ((u.card id).bind fun k => k.token lane).bind CardToken.work with
                | some work => u.leave k lane work
                | none => u
        | .left =>
          if t.held.isEmpty || !s.cardOpen k || s.lacksRoom k lane t.held.length then s
          else match s.deliver k lane t.held with
            | some u => (u.updToken id lane fun t => { t with held := [] }).settleCard
                { k with tokens := k.tokens.map fun t => if t.lane == lane then { t with held := [] } else t }
            | none => s
        | _ => s)

/-! Audits of the request channels (R356). -/

/-- The tokens in flight of a cluster's contexts that have an island node on a channel and have not run: any of them, as the
device chooses, has an entry there, which a reset drops (R360). -/
def State.cutTokens (s : State) (cluster chan : Nat) : State :=
  let (n, t) := s.draw
  let uses (ctx : Nat) : Bool :=
    let g := s.context cluster ctx
    (graphNodes g.image g.header).any fun x =>
      x.cls = 4 && channelOf (fnKind x.op) (g.place.getD 0 + x.col) x.row == chan
  let hit (k : Card) (x : CardToken) : Bool := x.inFlight && x.work.isNone && n.testBit (32 * k.id + x.lane)
  let mine := s.cards.filter fun k => clusterOf k.core == cluster && uses k.ctx && k.tokens.any (hit k)
  let cut (k : Card) : Card :=
    if mine.any fun o => o.id == k.id then
      { k with tokens := k.tokens.map fun x => if hit k x then { x with cut := chan :: x.cut } else x }
    else k
  mine.foldl (fun s k => s.stick k.w.wg 2#2) { t with cards := t.cards.map cut }

/-- A channel is reset: its incomplete entries are dropped. -/
def State.resetChannel (s : State) (cluster chan : Nat) : State :=
  let s := ((s.reqs.filter (onChannel cluster chan)).foldl State.dropEntry s).cutTokens cluster chan
  (s.updChannel cluster chan fun _ => ⟨16, false⟩).bumpCounter 9

/-- The difference f − n that an audit gives: of 16 slots the island has not returned those of the entries that it has received,
and n entries follow the last one received, so that it is 16 without the entries whose slot is not returned (R355, R356). -/
def State.freeSlots (s : State) (cluster chan : Nat) : Nat :=
  16 - (s.reqs.filter fun r => onChannel cluster chan r && match r.kind with
    | .island _ _ _ _ _ _ _ _ accepted => !accepted
    | _ => false).length

/-- The audit of a channel: a counter above 16 resets it, and is counted as no mismatch (DESIGN CHOICE, log entry 172). -/
def State.audit (cluster chan : Nat) (s : State) : State :=
  let h := s.channel cluster chan
  let free := s.freeSlots cluster chan
  if 16 < h.free then s.resetChannel cluster chan
  else if h.free = free then s.updChannel cluster chan fun h => { h with bad := false }
  else
    let t := s.bumpCounter 8
    if h.bad then t.resetChannel cluster chan
    else t.updChannel cluster chan fun _ => ⟨free, true⟩

/-- An island sends an audit with this free count f when n entries of the channel follow the last one that it has received. -/
def State.sendsAudit (s : State) (cluster chan f n : Nat) : Bool :=
  cluster < 24 && chan < 128 && f ≤ 16 && f == s.freeSlots cluster chan + n

/-- SLOT_AUDIT (R356); an audit that no island sends does not come. -/
def execSlotAudit (cluster chan free sentSince : Nat) (s : State) : Result :=
  .next (if s.sendsAudit cluster chan free sentSince then s.audit cluster chan else s)

/-- The audits of every channel, 4,096 cycles after the last ones (R356; all in one cycle: DESIGN CHOICE, log entry 172). -/
def execAudits (s : State) : Result :=
  let channels := (List.range 24).flatMap fun c => (List.range 128).map fun k => (c, k)
  let due := channels.filter fun p => s.channel p.1 p.2 != ⟨s.freeSlots p.1 p.2, false⟩
  .next (due.foldl (fun s p => s.audit p.1 p.2) { s with audited := s.audited + 4096 })

end Sys2Proof.Machine
end

