-- ==== Sys2Proof/Machine/Device.lean ====
section
/-!
DEFINITION. The base die: notifications (R483), its untranslated and translated accesses to memory (R451, R464), the
placement of workgroups on cores, fault records (R415, R416, R427) and termination (R417).
-/
namespace Sys2Proof.Machine

open Sys2Proof

/-! Notifications (R483). -/

/-- The vector of a queue slot, at the function that the slot is assigned to. -/
def State.signalSlot (s : State) (k : Nat) : State :=
  match (s.slot k).assigned with
  | some vi => s.signal vi k
  | none => s
/-- The device vector of the physical function. -/
def State.signalDevice (s : State) : State := s.signal 0 65

/-! Accesses of the command processor. -/

/-- The place of a virtual address of an interface. -/
def State.locateBase (s : State) (vi : Nat) (va : DWord) (need : Need) : Except ReadStop Place :=
  if !canonical va then .error (.cause .addrNoncanon va)
  else if walkOwned s vi (va52 va) then .error .owned
  else match walk s vi (va52 va) with
    | .error c => .error (.cause c va)
    | .ok t => match permit need t with
      | some c => .error (.cause c va)
      | none => .ok ⟨t.place.mem, t.place.pa + (va52 va - t.va)⟩

/-- The pieces of a range that lie in one line each; `fuel` bounds their number. -/
def pieces (fuel : Nat) (va : DWord) (n : Nat) : List (DWord × Nat) :=
  match fuel with
  | 0 => []
  | fuel + 1 =>
    if n = 0 then []
    else
      let k := min n (128 - va.toNat % 128)
      (va, k) :: pieces fuel (va + BitVec.ofNat 64 k) (n - k)

/-- Every line of a range. -/
def linesIn (a n : Nat) : List Nat := (List.range (n / 128 + 2)).filterMap fun k =>
  let line := lineOf a + 128 * k
  if line < a + n then some line else none

/-- An engine owns a line of a range (R300). -/
def State.ownedIn (s : State) (a n : Nat) : Bool := (linesIn a n).any fun line => s.owned.any fun o => o.line == line

/-- The host's copies of a range's lines are taken back, with its modified bytes. -/
def State.recallRange (s : State) (a n : Nat) : State := (linesIn a n).foldl State.recallHost s
/-- Of a range the lines in regions in host bias (R460). -/
def State.recallBiased (s : State) (a n : Nat) : State := ((linesIn a n).filter s.inHostBias).foldl State.recallHost s

/-! The directory of the Lantern cache (R459): State holds its fields apart, in `owned`, `hcache`, `hshared` and `reqs`. -/

/-- What the host holds of a line. -/
inductive HostLine where
  | none | shared | modified
  deriving DecidableEq, Repr

/-- The directory entry of a line: the engine that owns it, the host's state, and the reductions of `ared` that wait in its
write queue, each request merged over the lanes of its instruction (R265; log entry 170). -/
structure DirEntry where
  owner : Option Owner
  host : HostLine
  writes : List Req
  deriving DecidableEq, Repr

/-- A reduction at the Lantern cache on a word of a line: an atomic without a result. -/
def Req.reduces (line : Nat) (r : Req) : Bool := match r.kind with
  | .atomic (.rmw _) p _ scope _ _ none _ => p.mem == 0 && lineOf p.pa == line && 3 ≤ scope
  | _ => false

def State.hostLine (s : State) (line : Nat) : HostLine :=
  if s.hcache.any fun c => lineOf c.1 == line then .modified else if s.hshared.contains line then .shared else .none

def State.directory (s : State) (line : Nat) : DirEntry :=
  ⟨(s.owned.find? fun o => o.line == line).map Owned.by_, s.hostLine line, s.reqs.filter (Req.reduces line)⟩

/-- Every line of a range is reached at its bank. -/
def State.reachRange (s : State) (a n : Nat) (write : Bool) : State :=
  { s with reached := (linesIn a n).map (fun l => (l, write)) ++ s.reached }

/-- Bytes of a place at the Lantern cache, at `.sys`. -/
def State.sysBytes (s : State) (p : Place) (n : Nat) : List Byte × State :=
  let t := s.recallBiased p.pa n
  (Mem.read t.dmem p.pa n, t.reachRange p.pa n false)

/-- A read at `.sys` within a line. -/
def State.basePiece (s : State) (vi : Nat) (va : DWord) (n : Nat) : Except ReadStop (List Byte × State) :=
  match s.locateBase vi va .load with
  | .error e => .error e
  | .ok p =>
    if s.isOwned p then .error .owned
    else if p.mem = 0 then .ok (s.sysBytes p n)
    else
      let (bad, t) := s.hostReadFails
      if bad then .error (.cause .hostRead va) else .ok (t.hostRead p.pa n, t)

def basePieces (vi : Nat) : List (DWord × Nat) → State → Except ReadStop (List Byte × State)
  | [], s => .ok ([], s)
  | (va, n) :: rest, s => do
    let (bs, s) ← s.basePiece vi va n
    let (cs, s) ← basePieces vi rest s
    .ok (bs ++ cs, s)

/-- A read at `.sys` through the tables of an interface. -/
def State.baseRead (s : State) (vi : Nat) (va : DWord) (n : Nat) : Except ReadStop (List Byte × State) :=
  basePieces vi (pieces (n / 128 + 2) va n) s

/-- Bytes stored in device memory at the Lantern cache; at `.sys` the host's copies are taken back first. -/
def State.baseStore (s : State) (scope pa : Nat) (bs : List Byte) : State :=
  let t := (if scope = 4 then s.recallBiased pa bs.length else s).unzero pa bs.length
  { t with dmem := Mem.write t.dmem pa bs }.reachRange pa bs.length true

/-- A store within a line at a scope. One to host memory fails over a link that is down, and one through CXL with its
completion. -/
def State.baseWrite (s : State) (vi scope : Nat) (va : DWord) (bs : List Byte) : Except ReadStop State :=
  match s.locateBase vi va .store with
  | .error e => .error e
  | .ok p =>
    if s.isOwned p then .error .owned
    else if p.mem = 0 then .ok (s.baseStore scope p.pa bs)
    else
      let (n, t) := s.draw
      if !t.linkUp || (p.mem = 1 && n % 2 = 1) then .error (.cause .hostRead va)
      else .ok (t.hostPut p.pa bs)

/-- A store of several lines. -/
def State.baseWriteAll (s : State) (vi scope : Nat) (va : DWord) (bs : List Byte) : Except ReadStop State :=
  (pieces (bs.length / 128 + 2) va bs.length).foldlM (fun (t : State) (x : DWord × Nat) =>
    t.baseWrite vi scope x.1 ((bs.drop (x.1 - va).toNat).take x.2)) s

/-! Workgroups on cores. -/

/-- A workgroup stands on its core. -/
def Workgroup.placed (g : Workgroup) : Bool :=
  match g.status with
  | .resident | .halting _ | .saving | .discarding => true
  | .saved | .held | .ended => false

/-- A halt of the workgroup is under way (R413). -/
def Workgroup.halted (g : Workgroup) : Bool :=
  match g.status with
  | .halting _ => true
  | _ => false

/-- The banks that a core holds are those of launches with a workgroup on it (R116). -/
def State.settleBanks (s : State) (core : Nat) : State :=
  s.updCore core fun c => { c with
    banks := c.banks.filter fun l => s.wgs.any fun g => g.core == core && g.launch == l && g.placed }

/-- The islands return the slot of an entry that they drop unaccepted. -/
def State.returnSlot (s : State) (r : Req) : State :=
  match r.kind with
  | .island _ _ chan _ _ _ _ _ false => s.updChannel (clusterOf r.core) chan fun h => { h with free := h.free + 1 }
  | _ => s

/-- A target line that no other workgroup has touched leaves the blend buffer unwritten (R300, R417). -/
def State.dropBlends (s : State) (g : Workgroup) : State :=
  let cluster := clusterOf g.core
  let gone (b : BlendLine) : Bool := b.wgs == [g.id]
  let lines := ((s.cluster cluster).blend.filter gone).map BlendLine.line
  let s : State := { s with owned := s.owned.filter fun o => !(o.by_ == Owner.blend cluster && lines.contains o.line) }
  s.updCluster cluster fun c => { c with blend := (c.blend.filter fun b => !gone b).map fun b =>
      { b with wgs := b.wgs.filter fun i => i != g.id } }

/-- The graph table entries of a workgroup end, with their references. -/
def State.dropGraphs (s : State) (g : Workgroup) : State :=
  (g.graphs.foldl (fun s e => match e with
    | some k => s.dropContext (clusterOf g.core) k
    | none => s) s).updWg g.id fun g => { g with graphs := List.replicate 16 none }

/-- Everything of a workgroup goes: requests, commands with their ownership, cards, references and the workgroup itself. -/
def State.removeWg (s : State) (g : Workgroup) : State :=
  let mine (w : WaveRef) : Bool := w.wg == g.id
  let s := ((s.reqs.filter fun r => mine r.w).foldl State.returnSlot (s.dropGraphs g)).dropBlends g
  let s := (s.cmds.filter fun k => mine k.w).foldl (fun s k => s.dropLines k.id) s
  { s with
    reqs := s.reqs.filter fun r => !mine r.w
    cmds := s.cmds.filter fun k => !mine k.w
    cards := s.cards.filter fun k => !mine k.w
    wgs := s.wgs.filter fun h => h.id != g.id }.settleBanks g.core

/-- The members of a workgroup's cluster group (R39), itself among them. -/
def State.family (s : State) (g : Workgroup) : List Workgroup :=
  s.wgs.filter fun h => h.id == g.id || (h.launch == g.launch && h.cg == g.cg && !h.keeper && !g.keeper)

/-- The workgroups of a slot's context. -/
def State.slotWgs (s : State) (k : Nat) : List Workgroup :=
  s.wgs.filter fun g => !g.keeper && s.slotOf g == k

/-! Fault records. -/

/-- The lowest counter among the live threads of a slice (R416). -/
def SliceSt.lowestPc (t : SliceSt) : Word :=
  (lanesOf t.liveLanes).foldl (fun m i => if (t.thread i).pc < m then (t.thread i).pc else m) 0xFFFFFFFF#32
/-- The live threads of a slice stand at more than one counter. -/
def SliceSt.multi (t : SliceSt) : Bool := (lanesOf t.liveLanes).any fun i => (t.thread i).pc != t.lowestPc
/-- A thread of the slice is parked. -/
def SliceSt.anyParked (t : SliceSt) : Bool := t.liveLanes &&& ~~~t.votable != 0#32

/-- The park of a thread is on a watched object. -/
def parkedAt (o : WatchObj) (pc : Word) (p : Park) : Bool :=
  match o, p with
  | .named _ b, .barrier k => b == k
  | .clusterBar _ _ b, .barrier k => b + 64 == k
  | .ring _ e r sl, .ring e' r' sl' _ _ => e == e' && r == r' && sl == sl'
  | .grid _, .grid => true
  | .mwait _ _ k q, .mwait k' => k == k' && q == pc
  | .loopEnd _ _ k, .loopEnd k' => k == k'
  | _, _ => false

/-- The lanes of a slice parked on a watched object. -/
def SliceSt.watched (t : SliceSt) (o : WatchObj) : Lanes :=
  lanesWhere fun i => match (t.thread i).st with
    | .parked p => parkedAt o (t.thread i).pc p
    | _ => false
/-- The lanes of a wave parked on a watched object: of one slice for an `mwait` or a loop end. -/
def watchedLanes (wg : Nat) (w : Wave) (o : WatchObj) : Lanes :=
  match o with
  | .mwait r sl _ _ | .loopEnd r sl _ => if r == ⟨wg, w.id⟩ then (w.slice sl).watched o else 0#32
  | _ => w.a.watched o ||| w.x.watched o

/-- The waves of a workgroup whose arrival at a watched object has taken effect. -/
def State.arrivedWaves (s : State) (g : Workgroup) (o : WatchObj) : Lanes :=
  match o with
  | .named _ b => match s.barrier g b with
    | some x => lanesWhere fun i => x.arrived.contains (g.id, i)
    | none => 0#32
  | .clusterBar _ _ b => match s.barrier g (b + 64) with
    | some x => lanesWhere fun i => x.arrived.contains (g.id, i)
    | none => 0#32
  | .ring _ e r sl => match (g.ring r).bind fun x => x.side e sl with
    | some x => x.waves
    | none => 0#32
  | .grid _ => waveMask g (s.gridTaken g)
  | _ => 0#32

def bit (b : Bool) (k : Nat) : Nat := if b then 2 ^ k else 0

/-- The entry of a wave (R416). -/
def State.waveEntry (s : State) (g : Workgroup) (h : Halt) (k : Nat) : List Word :=
  match g.wave k with
  | none => [0#32, 0#32, 0#32, 0#32]
  | some w =>
    let skid (sl : Slice) : Nat := match h.skid.find? fun x => x.1 == k && x.2.1 == sl with
      | some x => x.2.2
      | none => 0
    let run := h.skid.find? fun x => x.1 == k
    let own := match h.own.find? fun x => x.1 == k with
      | some x => x.2.code
      | none => 0
    let arrived := match h.watch with
      | some o => (s.arrivedWaves g o).getLsbD k
      | none => false
    let inX : Bool := match run with
      | some x => x.2.1 == .x
      | none => false
    [w.a.lowestPc, w.x.lowestPc,
     BitVec.ofNat 32 (skid .a * 2 ^ 27 + skid .x * 2 ^ 22 + bit inX 16 + own * 2 ^ 8 + bit true 7 + bit w.ended 6 +
       bit arrived 5 + bit w.a.anyParked 4 + bit w.x.anyParked 3 + bit run.isSome 2 + bit w.a.multi 1 + bit w.x.multi 0),
     match h.watch with
     | some o => watchedLanes g.id w o
     | none => 0#32]

/-- Kind, index, ring slot and slice of a watched object (R415). -/
def watchWord : WatchObj → Nat
  | .named _ b => b * 2 ^ 8 + 1
  | .clusterBar _ _ b => b * 2 ^ 8 + 2
  | .ring _ e r sl => sl * 2 ^ 16 + r * 2 ^ 8 + (if e then 4 else 3)
  | .grid _ => 5
  | .mwait _ sl k _ => (if sl = .x then 2 ^ 24 else 0) + k * 2 ^ 8 + 6
  | .loopEnd _ sl k => (if sl = .x then 2 ^ 24 else 0) + k * 2 ^ 8 + 7
/-- The kind and the index alone, for the unit and detail fields. -/
def watchKind (o : WatchObj) : Nat := watchWord o % 256
def watchIndex (o : WatchObj) : Nat := watchWord o / 256 % 256

/-- The waves of each workgroup of a launch. -/
def Kernel.waves (k : Kernel) : Nat := k.roles.foldl (fun n r => n + r.waves) 0

/-- Expected count and arrivals of a watched object. -/
def State.watchCounts (s : State) (g : Workgroup) (o : WatchObj) : Nat × Nat :=
  let ofBar (b : Option Barrier) : Nat × Nat := match b with
    | some x => (x.expected, x.arrivals)
    | none => (0, 0)
  match o with
  | .named _ b => ofBar (s.barrier g b)
  | .clusterBar _ _ b => ofBar (s.barrier g (b + 64))
  | .ring _ e r sl => match g.ring r with
    | some x => (x.expected e, match x.side e sl with
      | some t => t.count
      | none => 0)
    | none => (0, 0)
  | .grid l => match s.launch l with
    | some x => (x.count * x.kernel.waves,
        (s.grid l).foldl (fun n h => n + (h.waves.filter (s.gridTaken h)).length) 0)
    | none => (0, 0)
  | _ => (0, 0)

/-- The words from 0x280 on of a record of origin 3. -/
def State.watchWords (s : State) (g : Workgroup) (o : WatchObj) : List Word :=
  let (expected, arrivals) := s.watchCounts g o
  let value : Word := match o with
    | .mwait r sl k _ => match s.wave r with
      | some w => (w.slice sl).mask k
      | none => 0
    | .loopEnd r sl k => match s.wave r with
      | some w => ((w.slice sl).loop k).lanes
      | none => 0
    | _ => 0
  let (gwaves, gpending) := match o with
    | .grid l => (arrivals, (match s.launch l with
      | some x => x.count - (s.grid l).length
      | none => 0))
    | _ => (0, 0)
  [BitVec.ofNat 32 (watchWord o), BitVec.ofNat 32 expected, BitVec.ofNat 32 arrivals, s.arrivedWaves g o, value,
   BitVec.ofNat 32 gwaves, BitVec.ofNat 32 gpending]

/-- The launch fields of a record: interface and slot, sequence, descriptor. -/
def Launch.head (l : Launch) : List Word :=
  [BitVec.ofNat 32 (l.vi * 2 ^ 28 + l.slot * 2 ^ 22), lowWord l.sequence, highWord l.sequence, lowWord l.descriptor,
   highWord l.descriptor]

/-- The first word of a record (R415). -/
def recordWord (cause : Cause) (origin slice : Nat) (held more : Bool) (number : Nat) : Word :=
  BitVec.ofNat 32 (2 ^ 24 + cause.code * 2 ^ 16 + origin * 2 ^ 12 + slice * 2 ^ 10 + bit held 9 + bit more 8 + number)

/-- 1,024 bytes that start with some words. -/
def recordBytes (ws : List Word) : List Byte :=
  let bs := ws.flatMap fun w => bytesOf w.toNat 4
  bs ++ List.replicate (1024 - bs.length) 0#8

/-- The record of a halt (R415). -/
def State.haltRecord (s : State) (g : Workgroup) (l : Launch) (h : Halt) (more : Bool) : List Byte :=
  let slice := match h.sl with
    | some .a => 0
    | some .x => 1
    | none => 3
  let clock := BitVec.ofNat 64 h.t
  recordBytes (
    recordWord h.cause h.origin slice h.held more h.number.toNat :: l.head ++ g.wgid.take 3 ++
    [BitVec.ofNat 32 ((h.wave.getD 0xFF) * 2 ^ 24 + g.core * 2 ^ 16), h.pc, h.apc, lowWord h.addr, highWord h.addr,
     h.lanes, BitVec.ofNat 32 (h.detail.toNat * 2 ^ 16 + h.unit.toNat * 2 ^ 8 + h.lane), lowWord clock, highWord clock,
     (s.slot l.slot).errsticky.setWidth 32, waveMask g fun w => !w.ended, waveMask g fun w => w.ended] ++
    List.replicate 11 0#32 ++ (List.range 32).flatMap (s.waveEntry g h) ++
    (match h.watch with
      | some o => s.watchWords g o
      | none => []))

/-- The record of a cause that names no wave (R406, R417, R433): slice 3 and wave 0xFF. -/
def State.plainRecord (s : State) (cause : Cause) (origin : Nat) (addr : DWord) (l : List Word) (slot : Nat) : List Byte :=
  let clock := BitVec.ofNat 64 s.clock
  recordBytes (
    recordWord cause origin 3 false false 0 :: l ++ [0#32, 0#32, 0#32, 0xFF000000#32, 0#32, 0#32, lowWord addr,
      highWord addr, 0#32, 0#32, lowWord clock, highWord clock, (s.slot slot).errsticky.setWidth 32])

/-- Without a launch. -/
def State.slotHead (s : State) (k : Nat) : List Word :=
  [BitVec.ofNat 32 ((s.slot k).assigned.getD 0 * 2 ^ 28 + k * 2 ^ 22), 0#32, 0#32, 0#32, 0#32]

/-- A record goes to the fault area of its slot (R427); none while an engine owns a line of it. -/
def State.writeRecord (s : State) (k : Nat) (rec : List Byte) : Option State :=
  let q := s.slot k
  let drop (t : State) : State := t.updSlot k fun q => { q with overflow := true }
  if q.faultcount = 0 || q.faultcount ≤ (q.faultwrite - q.faultread).toNat then some (drop s)
  else
    let va := q.faultbase + BitVec.ofNat 64 (1024 * (q.faultwrite.toNat % q.faultcount))
    match s.baseWriteAll (q.assigned.getD 0) 4 va rec with
    | .error .owned => none
    | .error (.cause _ _) => some ((drop s).signalSlot k)
    | .ok t => some ((t.updSlot k fun q => { q with faultwrite := q.faultwrite + 1 }).signalSlot k)

/-! Shares (R359, R445). -/

/-- A slot's share of a cluster leaves the fabric: its range, with the contexts placed there, whose cards then wait for
placement again (R371), and its cores leave fabric mode. -/
def State.unplaceShare (s : State) (slot cluster : Nat) : State :=
  let mine (k : Nat) : Bool := (s.context cluster k).owner == slot
  let wait (k : Card) : Card := if clusterOf k.core == cluster && mine k.ctx then { k with bound := none } else k
  let s : State := { s with cards := s.cards.map wait }
  let s := s.updCluster cluster fun c => { c with
    ranges := c.ranges.filter fun r => r.1 != slot
    contexts := c.contexts.map fun g => if g.owner == slot then { g with place := none, placing := none } else g }
  let inRange (j : Nat) : Bool := (s.cluster cluster).ranges.any fun r => r.2.1 ≤ j && j < r.2.1 + r.2.2
  (List.range 8).foldl (fun s j =>
    if inRange j then s else s.updCore (8 * cluster + j) fun c => { c with fabric := false }) s

/-- The shares of a context that is no longer resident count no more (R445); they are pending for its next residence. -/
def State.dropShares (s : State) (slot : Nat) : State :=
  let pending := (s.slot slot).pendingShares
  let again := (List.range 24).filterMap fun c =>
    let n := ((s.slot slot).shares[c]?).getD 0
    if n = 0 || pending.any (fun p => p.1 == c) then none else some (c, n, s.nextId)
  let s : State := { s.updSlot slot (fun q => { q with pendingShares := q.pendingShares ++ again }) with
    nextId := s.nextId + 1 }
  (List.range 24).foldl (fun s c =>
    if (s.cluster c).ranges.any fun r => r.1 == slot then s.unplaceShare slot c else s) s

/-! Termination (R417). -/

/-- The context of a slot is terminated. -/
def State.terminate (s : State) (k : Nat) : State :=
  let s := ((s.slotWgs k).foldl State.removeWg s).dropShares k
  let gone (l : Nat) : Bool := s.launches.any fun x => x.id == l && x.slot == k
  let s := { s with
    groups := s.groups.filter fun c => !gone c.launch
    launches := s.launches.filter fun x => x.slot != k }
  (s.updSlot k fun q => { q with terminated := true, stopped := true, waiting := none, starved := none }).signalSlot k

/-- A record of a cause that names no wave, then the termination of the slot's context. -/
def State.failContext (s : State) (k : Nat) (cause : Cause) (origin : Nat) (addr : DWord) (l : List Word) : Option State :=
  (s.writeRecord k (s.plainRecord cause origin addr l k)).map fun t => t.terminate k

end Sys2Proof.Machine
end

