-- ==== Sys2Proof/Machine/System.lean ====
section
/-!
DEFINITION. `exit` (R186, R310), the system instructions (R407 to R412), and the events of wave scheduling and of the
watches (R52, R250, R299, R409, R410).
-/
namespace Sys2Proof.Machine

open Sys2Proof

/-! `exit`. -/

/-- Nothing is outstanding that the exit of a workgroup's last wave waits for (R357, R386, R404). -/
def State.closable (s : State) (wg : Nat) : Bool :=
  s.cmds.all (fun k => k.w.wg != wg) &&
  s.reqs.all (fun r => r.w.wg != wg || match r.kind with
    | .island _ _ _ _ _ _ _ _ _ => false
    | _ => true) &&
  s.cards.all fun k => k.w.wg != wg || k.tokens.all fun t => !t.live && t.held.isEmpty

/-- A workgroup ends: its target lines are written back (R352), its tags and stream, cards and graph table are released
(R357, R386), and its bank may leave the core (R116). -/
def State.endWorkgroup (s : State) (wg : Nat) : State :=
  match s.wg wg with
  | none => s
  | some g =>
    if g.status != .resident then s
    else
      let s := (s.writeBlends g).dropGraphs g
      let s : State := { s with cards := s.cards.filter fun k => k.w.wg != wg }
      let fin (g : Workgroup) : Workgroup :=
        { g with status := .ended, request := none, raster := ⟨[], false, [], [], [], 0, []⟩ }
      (s.updWg wg fin).settleBanks g.core

/-- `exit`: the last one of a wave raises QUEUE_DEADLOCK when a store is unpaired (R250), and the last one of a workgroup
waits for its engines. -/
def execExit (s : State) : Result :=
  issue .exit (fun c =>
    let ends := (c.w.exitGroup c.sl c.em).ended
    let last := ends && c.g.waves.all fun w => w.id == c.w.id || w.ended
    if ends && unpairedStore c.w then failAt .queueDeadlock { origin := 4 }
    else if last && !c.s.closable c.g.id then .error .wait
    else
      let t := (((c.s.updWave c.ref (Wave.exitGroup c.sl c.em)).reevaluate c.g c.ref).settleCards c.ref)
      .ok (if last then t.endWorkgroup c.g.id else t)) s

/-! Traps and masked windows. -/

/-- `trap n` raises TRAP and records n (R408). -/
def execTrap (n : BitVec 8) (s : State) : Result := issue (.trap n) (fun _ => failAt .trap { number := n }) s
/-- `brk` raises BREAK (R408). -/
def execBrk (s : State) : Result := issue .brk (fun _ => fail .brk) s

/-- `pmask` (R409): not ready while a pre-emption request stands. -/
def execPmask (s : State) : Result :=
  issue .pmask (fun c =>
    if c.g.request.isSome then .error .wait
    else if c.w.window.isSome then fail .pmaskState
    else .ok (c.done .pmask fun w => { w with window := some ⟨c.sl, c.s.clock⟩ })) s
def execPunmask (s : State) : Result :=
  issue .punmask (fun c => .ok (c.done .punmask fun w => { w with window := none })) s

/-- PMASK_LONG (R409): a window has been open for 2^16 cycles. -/
def execPmaskLong (r : WaveRef) (s : State) : Result :=
  .next (match s.wg r.wg with
    | none => s
    | some g => match (g.wave r.wave).bind fun w => w.window.map fun x => (w, x) with
      | some (w, x) =>
        if g.placed && x.since + 2 ^ 16 ≤ s.clock then
          takeCause s r x.sl 0#32 (w.slice x.sl).lowestPc .pmaskLong { origin := 5 }
        else s
      | none => s)

/-! `sclk` and `pmc` (R410, R411). -/

/-- `sclk`: the group parks until `CLOCK` reaches the target, at most 2^24 cycles ahead. -/
def execSclk (g : GroupFields) (s : State) : Result :=
  issue (.sclk g) (fun c =>
    let end_ := min (c.gsrc64 g g.sa).toNat (c.s.clock + 2 ^ 24)
    if end_ ≤ c.s.clock then .ok (c.done (.sclk g) id)
    else .ok (c.s.updSlice c.ref c.sl (SliceSt.parkLanes c.em (.clock end_)))) s

/-- The lanes of a slice whose `sclk` has ended. -/
def SliceSt.clockDone (t : SliceSt) (clock : Nat) : Lanes :=
  lanesWhere fun i => match (t.thread i).st with
    | .parked (.clock c) => decide (c ≤ clock)
    | _ => false

/-- SCLK_WAKE (R410). -/
def execSclkWake (r : WaveRef) (sl : Slice) (s : State) : Result :=
  .next (s.updSlice r sl fun t => t.arriveAll false (t.clockDone s.clock) fun i => (t.thread i).pc + 4#32)

/-- `pmc`: half of an event counter. -/
def execPmc (g : GroupFields) (s : State) : Result :=
  issue (.pmc g) (fun c =>
    let n := g.sa.toNat
    let x := BitVec.ofNat 64 ((c.w.pmc[n % 8]?).getD 0)
    c.groupWrite (.pmc g) g.sd (if n < 8 then lowWord x else highWord x) id) s

/-! Keeper instructions (R412). -/

/-- `rfe`: the agent's current event handler ends. -/
def execRfe (s : State) : Result :=
  issue .rfe (fun c => .ok (c.doneState .rfe (c.s.updCore c.core fun k => { k with handler := none }))) s

/-- The ticket claim of R443 at the bank of the block: the first ticket and the state. -/
def State.claim (s : State) (block n : Nat) : Word × State :=
  let first := ofBytes (Mem.read s.dmem block 4)
  let total := ofBytes (Mem.read s.dmem (block + 4) 4)
  (BitVec.ofNat 32 first,
   if first < total then { s with dmem := Mem.write s.dmem block (bytesOf (min (first + n) total) 4) } else s)

/-- The tickets of a launch's block that a claim has taken are the keeper's of a core, to place (R443). -/
def State.keepTickets (s t : State) (block core : Nat) : State :=
  let next (x : State) : Nat := ofBytes (Mem.read x.dmem block 4)
  let new := (List.range (next t - next s)).map fun k => (core, next s + k)
  { t with launches := t.launches.map fun l =>
      if l.state == .released && l.ticketAddr == block then { l with claimed := l.claimed ++ new } else l }

/-- `ktk`: the block's address is a device physical address (R451). -/
def execKtk (g : GroupFields) (s : State) : Result :=
  issue (.ktk g) (fun c =>
    let block := (c.w.sreg64 g.sa.toNat).toNat
    if deviceBytes < block + 64 then .error (.absent block)
    else
      let (first, t) := c.s.claim block g.sb.toNat
      ({ c with s := c.s.keepTickets t block c.core } : Ctx).groupWriteQuiet (.ktk g) g.sd first) s

/-- The workgroup in a slot of a core. -/
def State.atSlot (s : State) (core k : Nat) : Option Workgroup :=
  s.wgs.find? fun g => g.core == core && g.slot == k && g.placed && !g.keeper

/-- R418 permits the discard class. -/
def State.mayDiscard (s : State) (g : Workgroup) : Bool :=
  match s.launch g.launch with
  | some l => l.kernel.idem && l.group = 1 && !g.arrivedGrid &&
      g.waves.all fun w => w.gridPending.isNone && !w.gridArrived
  | none => false

/-- A pre-emption request reaches a workgroup and its whole cluster group (R409, R418). -/
def State.requestCut (s : State) (g : Workgroup) (discard : Bool) : State :=
  let cls := discard && s.mayDiscard g
  (s.family g).foldl (fun s h => s.updWg h.id fun h =>
    if h.status == .resident && h.request.isNone then { h with request := some cls } else h) s

/-- A save-and-restore request, in place of a discard that has not started (R428). -/
def State.requestSave (s : State) (g : Workgroup) : State :=
  (s.family g).foldl (fun s h => s.updWg h.id fun h =>
    if h.status == .resident then { h with request := some false } else h) s

/-- PREEMPTION_REQUEST (R418). -/
def execPreemptionRequest (wg : Nat) (discard : Bool) (s : State) : Result :=
  .next (match s.wg wg with
    | none => s
    | some g => if g.keeper then s else s.requestCut g discard)

/-- `halt`: a save, a discard, a termination with KILLED, or nothing. -/
def execHalt (g : GroupFields) (s : State) : Result :=
  issue (.halt g) (fun c =>
    let a := c.gsrc g g.sa
    match c.s.atSlot c.core (a.extractLsb' 0 6).toNat with
    | none => .ok (c.done (.halt g) id)
    | some h => match (a.extractLsb' 8 2).toNat with
      | 0 => .ok (c.doneState (.halt g) (c.s.requestCut h false))
      | 1 => .ok (c.doneState (.halt g) (c.s.requestCut h true))
      | 2 => match c.s.launch h.launch with
        | none => .ok (c.done (.halt g) id)
        | some l => match c.s.failContext l.slot .killed 7 0 l.head with
          | none => .error .wait
          | some t => .ok (c.doneState (.halt g) t)
      | _ => .ok (c.done (.halt g) id)) s

/-! Wave scheduling (R49, R52). -/

/-- Both waves are resident on one quarter-core. -/
def State.sameQuarter (s : State) (a b : WaveRef) : Bool :=
  match s.wg a.wg, s.wg b.wg with
  | some g, some h => g.core == h.core && g.status == .resident && h.status == .resident && a.wave % 4 == b.wave % 4
  | _, _ => false

/-- The wave is blocked, and outside a run (R52). -/
def Wave.blocked (w : Wave) : Bool := w.run.isNone && w.unblocked.isNone

/-- WAVE_EXCHANGE (R52). -/
def execWaveExchange (out in_ : WaveRef) (s : State) : Result :=
  .next (match s.wave out, s.wg in_.wg with
    | some w, some g =>
      if w.active && w.blocked && s.sameQuarter out in_ && s.earliest g.core w.quarter == some in_ then
        s.exchange out in_ else s
    | _, _ => s)

/-- The waves of the active set of a quarter-core. -/
def State.activeCount (s : State) (core quarter : Nat) : Nat :=
  s.wgs.foldl (fun n g => if g.core == core && g.placed && !g.keeper then
    n + (g.waves.filter fun w => w.active && w.quarter == quarter).length else n) 0

/-- ACTIVE_SET_ENTRY (R52). -/
def execActiveSetEntry (r : WaveRef) (s : State) : Result :=
  .next (match s.wg r.wg with
    | none => s
    | some g =>
      if s.activeCount g.core (r.wave % 4) < 8 && s.earliest g.core (r.wave % 4) == some r then
        s.updWave r fun w => { w with active := true, unblocked := none }
      else s)

/-! Watches (R250, R299). -/

/-- The workgroup that an object belongs to is on its core, and its interface. -/
def State.watchOwner (s : State) (o : WatchObj) : List Workgroup :=
  s.wgs.filter fun g => g.placed && match o with
    | .named wg _ | .ring wg _ _ _ => g.id == wg
    | .clusterBar l cg _ => g.launch == l && g.cg == cg
    | .grid l => g.launch == l
    | .mwait r _ _ _ | .loopEnd r _ _ => g.id == r.wg

/-- The lowest counter among some threads of a slice. -/
def SliceSt.lowestParked (t : SliceSt) (m : Lanes) : Word :=
  (lanesOf m).foldl (fun p i => if (t.thread i).pc < p then (t.thread i).pc else p)
    (t.thread ((lowestLane m).getD 0)).pc

/-- Wave, slice, lanes and counter that the record of a workgroup names for an object (R493): the lowest wave with threads
parked on it, its A-slice before its X-slice. -/
def watchNames (g : Workgroup) (o : WatchObj) : Option Nat × Option Slice × Lanes × Word :=
  match g.waves.find? fun w => watchedLanes g.id w o != 0#32 with
  | none => (none, none, 0#32, 0#32)
  | some w =>
    let both := watchedLanes g.id w o
    let onA := w.a.watched o &&& both
    match o with
    | .mwait _ sl _ _ | .loopEnd _ sl _ => (some w.id, some sl, both, (w.slice sl).lowestParked both)
    | _ =>
      if onA != 0#32 then (some w.id, some .a, onA, w.a.lowestParked onA)
      else (some w.id, some .x, w.x.watched o, w.x.lowestParked (w.x.watched o))

/-- The halt of a workgroup for an object (R413, R493). -/
def watchHalt (s : State) (g : Workgroup) (o : WatchObj) (silent : Bool) : Halt :=
  let (w, sl, lanes, pc) := watchNames g o
  let info : Info := { origin := 3, detail := BitVec.ofNat 16 (watchIndex o), unit := BitVec.ofNat 8 (watchKind o) }
  { haltOf s g w sl lanes pc .barTimeout info with watch := some o, silent := silent }

/-- BAR_TIMEOUT (R299, R413): the workgroups that own the object halt; of a grid the first one records. -/
def execBarTimeout (o : WatchObj) (s : State) : Result :=
  .next (match s.watches.find? fun w => w.1 == o, s.watchOwner o with
    | some (_, since, _), g :: gs =>
      if since + 2 ^ (s.iface (s.viOf g)).beacon ≤ s.clock then
        let grid : Bool := match o with
          | .grid _ => true
          | _ => false
        (g :: gs).foldl (fun s h => s.updWg h.id fun h => haltGroup h (watchHalt s h o (grid && h.id != g.id))) s
      else s
    | _, _ => s)

/-- The store records of a wave that wait for its X-slice: the first without its data, and those behind it (R240). -/
def Wave.unpaired (w : Wave) : List StoreRec := w.recs.dropWhile (recordReady w)

/-- A load that an unpaired store of its wave holds (R242). -/
def State.heldLoad (s : State) (r : Req) : Bool :=
  match r.kind, s.reqPlace r with
  | .load _ _ _ _ _ _ _, some (p, _) | .group _ _ _, some (p, _) => match s.wave r.w with
    | some w => w.unpaired.any fun k => k.id < r.id && !k.flush && k.lanes.any (fun l => sameLine l.place p)
    | none => false
  | _, _ => false

/-- The raster stream of a workgroup has work whose batches a linked queue would receive (R346, R347). -/
def Raster.feeds (r : Raster) (wave : Nat) : Bool :=
  r.links.any (fun l => l.1 == wave) && (!r.items.isEmpty || !r.closed.isEmpty || r.ended)

/-- Some store record holds all its data, behind the data that earlier records of its queue take (R250). -/
def Wave.holdsRecord (w : Wave) : List StoreRec → List StoreRec → Bool
  | _, [] => false
  | before, k :: rest =>
    let taken (l : Nat) : Nat := (before.filter fun b => b.q == k.q && b.lanes.any fun x => x.lane == l).foldl
      (fun n b => n + Form.sizeWords b.size) 0
    let holds (l : LaneStore) : Bool := match w.queue (k.q + 1) with
      | none => false
      | some u =>
        let d := ((u.col l.lane).drop (taken l.lane)).take (Form.sizeWords k.size)
        d.length = Form.sizeWords k.size && d.all fun e => QEntry.settled (some e)
    (!k.flush && k.lanes.all holds) || Wave.holdsRecord w (before ++ [k]) rest

/-- A request is outstanding whose result would place a slot in a queue of the wave (R250): a graph token that waits for room in
its queue is none (R379). -/
def State.fills (s : State) (r : WaveRef) (w : Wave) : Bool :=
  (s.reqs.any fun q => q.w == r && !s.heldLoad q && match q.kind with
    | .load _ _ _ _ _ _ _ => true
    | .atomic _ _ _ _ _ _ k _ => k.isSome
    | .island _ _ _ _ _ _ k _ _ => k.isSome
    | _ => false) ||
  (s.cmds.any fun k => k.w.wg == r.wg && match k.stream with
    | some t => t.wave == r.wave
    | none => false) ||
  (s.cards.any fun k => k.w == r && k.q.isSome && k.tokens.any fun t => t.live && !s.roomWaits k t) ||
  (match s.wg r.wg with
    | some g => g.raster.feeds r.wave
    | none => false) ||
  w.holdsRecord [] w.recs

/-- The threads of a slice at its lowest counter, which vote first (R53), and that counter. -/
def SliceSt.firstGroup (t : SliceSt) : Option (Lanes × Word) :=
  match lanesOf t.votable with
  | [] => none
  | l :: ls =>
    let pc := ls.foldl (fun m i => if (t.thread i).pc < m then (t.thread i).pc else m) (t.thread l).pc
    some (lanesWhere fun i => t.votable.getLsbD i && (t.thread i).pc == pc, pc)

/-- QUEUE_DEADLOCK (R250): the wave has been queue-bound for 2^20 cycles, and nothing that would fill a queue of it is
outstanding. -/
def execQueueDeadlock (r : WaveRef) (s : State) : Result :=
  .next (match s.wave r with
    | none => s
    | some w => match w.qbound with
      | none => s
      | some c =>
        if c + 2 ^ 20 ≤ s.clock && !s.fills r w then
          let sl := if w.x.liveLanes == 0#32 then Slice.a else .x
          match (w.slice sl).firstGroup with
          | some (em, pc) => takeCause s r sl em pc .queueDeadlock { origin := 4 }
          | none => s
        else s)

end Sys2Proof.Machine
end

