-- ==== Sys2Proof/Machine/Place.lean ====
section
/-!
DEFINITION. Placing a workgroup on a core: what a core must have free (R48, R116, R246, R332, R359, R367), the state of a
workgroup at release (R41, R94, R102, R104, R230, R246, R289, R294, R308), and the save region (R458).
-/
namespace Sys2Proof.Machine

open Sys2Proof

/-! What a core holds (R17, R18, R48). -/

/-- The role of each wave (R45). -/
def Kernel.waveRoles (k : Kernel) : List RoleDecl := k.roles.flatMap fun r => List.replicate r.waves r

/-- The sum of a quantity over the waves that stand on quarter-core `q`. -/
def Kernel.tally (k : Kernel) (q : Nat) (f : RoleDecl → Nat) : Nat :=
  ((k.waveRoles.zipIdx).filter fun p => p.2 % 4 == q).foldl (fun n p => n + f p.1) 0

def sumOf {α : Type} (f : α → Nat) (l : List α) : Nat := l.foldl (fun n x => n + f x) 0

/-- Bytes of the vector register file. -/
def Kernel.fileBytes (k : Kernel) : Nat := sumOf (fun r : RoleDecl => r.waves * 32 * r.vregs * 4) k.roles

/-- A core holds workgroups of these kernels together, but for their scratch. -/
def coreHolds (ks : List Kernel) : Bool :=
  ((List.range 4).all fun q =>
    sumOf (fun k : Kernel => k.tally q fun _ => 1) ks ≤ 16 &&
    sumOf (fun k : Kernel => k.tally q RoleDecl.budget) ks ≤ 512 &&
    sumOf (fun k : Kernel => k.tally q fun r => if r.role = .matrix then 1 else 0) ks ≤ 4) &&
  sumOf Kernel.fileBytes ks ≤ 512 * 1024 && sumOf (fun k : Kernel => popBits k.barriers 64) ks ≤ 64

/-- Bytes of a core's scratch and of its constant store (R116, R246). -/
def scratchBytes : Nat := 6 * 32768
def bankBytes : Nat := 128 * 1024

/-- A single workgroup fits an empty core (R433). -/
def Kernel.fitsEmpty (k : Kernel) : Bool := coreHolds [k] && k.scratch ≤ scratchBytes && k.constants ≤ bankBytes

/-- The workgroups on a core with their launches. -/
def State.onCore (s : State) (core : Nat) : List (Workgroup × Launch) :=
  s.wgs.filterMap fun g => if g.core == core && g.placed && !g.keeper then (s.launch g.launch).map fun l => (g, l) else none

/-- The bases at which a range of scratch is free on a core: multiples of 128 (R107, R246). -/
def State.scratchBases (s : State) (core size : Nat) : List Nat :=
  let used := (s.onCore core).map fun p => (p.1.scrbase, p.2.kernel.scratch)
  ((List.range 1537).map fun k => 128 * k).filter fun b => b + size ≤ scratchBytes &&
    used.all fun u => b + size ≤ u.1 || u.1 + u.2 ≤ b

/-- The lowest run of cores for a share that lies in no other share of the cluster (R359). -/
def State.allocShare (s : State) (cluster slot n : Nat) : Option Nat :=
  (List.range (9 - n)).find? fun b => ((s.cluster cluster).ranges.filter fun r => r.1 != slot).all fun r =>
    b + n ≤ r.2.1 || r.2.1 + r.2.2 ≤ b

/-- A slot's context is resident: it may release and resume workgroups, and its shares count (R428, R445). -/
def State.mapped (s : State) (k : Nat) : Bool := (s.slot k).mapped && !(s.slot k).terminated

/-- A core lies in the range of a share, or of a pending one of a resident context (R359). -/
def State.reserved (s : State) (core : Nat) : Bool :=
  let cluster := clusterOf core
  let j := core % 8
  ((s.cluster cluster).ranges.any fun r => r.2.1 ≤ j && j < r.2.1 + r.2.2) ||
  ((List.range 64).any fun k => s.mapped k && (s.slot k).pendingShares.any fun p => p.1 == cluster &&
    match s.allocShare cluster k p.2.1 with
    | some b => b ≤ j && j < b + p.2.1
    | none => false)

/-- The four images of a context are those that the cluster holds (R332). -/
def State.imagesMatch (s : State) (cluster slot : Nat) : Bool :=
  (s.cluster cluster).images == (s.slot slot).images.map some

/-- A workgroup of a launch can stand on a core now. -/
def State.canPlace (s : State) (l : Launch) (core : Nat) : Bool :=
  let here := s.onCore core
  let banks := ((s.core core).banks.filter fun b => b != l.id).filterMap s.launch
  let gate := (s.cluster (clusterOf core)).gate
  core < 192 && here.length < 64 && coreHolds (l.kernel :: here.map fun p => p.2.kernel) &&
  !(s.scratchBases core l.kernel.scratch).isEmpty &&
  l.kernel.constants + sumOf (fun b : Launch => b.kernel.constants) banks ≤ bankBytes &&
  s.imagesMatch (clusterOf core) l.slot && !gate.off && !(s.core core).fabric && !s.reserved core

/-- The lowest free workgroup slot of a core (R412). -/
def State.freeSlot (s : State) (core : Nat) : Nat :=
  ((List.range 64).find? fun k => (s.onCore core).all fun p => p.1.slot != k).getD 0

/-! A fresh workgroup. -/

/-- A slice at release: threads of `lanes` at the entry point, the others as given. -/
def freshSlice (entry : Word) (lanes : Lanes) (other : ThreadState) (absent : Lanes) : SliceSt :=
  ⟨List.replicate 12 0#32, List.replicate 12 0, 0#5, List.replicate 4 ⟨0, false, 0, 0, 0, 0, 0⟩,
    laneList.map fun i => if absent.getLsbD i then ⟨0, .absent, 0⟩ else if lanes.getLsbD i then ⟨entry, .live, 0⟩
      else ⟨0, other, 0⟩, []⟩

/-- The absent lanes of wave `k` of a workgroup of `n` threads (R40). -/
def absentLanes (n k : Nat) : Lanes := lanesWhere fun i => n ≤ 32 * k + i

/-- The queues that a kernel declares for role `r`, bound and empty (R230). -/
def Kernel.boundQueues (k : Kernel) (r : Nat) : List (Option Queue) :=
  (List.range 16).map fun q => (k.queues.find? fun d => d.queue == q && (d.role == none || d.role == some r)).map
    fun d => ⟨d.kind, d.depth, List.replicate waveWidth [], .none⟩

/-- Wave `k` of a launch at release. Its files are draws from `base` on; the argument block is in `s` (R94). -/
def Launch.freshWave (l : Launch) (base k : Nat) (r : RoleDecl) (role : Nat) : Wave :=
  let threads := if l.kernel.implicit then l.wgdim.foldl (fun n d => n * d.toNat) 1 else 32 * l.kernel.waves
  let absent := absentLanes threads k
  let all : Lanes := BitVec.allOnes 32
  let args : List (Nat × List Word) :=
    (List.range (l.kernel.args / 4)).map fun j => (j, [laneAt l.args j])
  { id := k, wslot := 0, role := r.role, allot := r.vregs, budget := r.budget, active := false, unblocked := none,
    v := ⟨[], some (base + 4 * k)⟩, o := ⟨[], some (base + 4 * k + 1)⟩, s := ⟨args, some (base + 4 * k + 2)⟩,
    a := (match r.aEntry with
      | some e => freshSlice e all .exited absent
      | none => freshSlice 0 0 .exited absent)
    x := freshSlice r.xEntry all .exited absent
    run := none, yielding := none, queues := l.kernel.boundQueues role, recs := [], tiles := ⟨[], none⟩, latchA := none, latchB := none,
    cards := List.replicate 4 none, copyTag := 0, copyStatus := [], pmc := List.replicate 8 0, window := none,
    contribs := [], ringArrivals := [], gridA := 0, gridX := 0, gridPending := none, gridArrived := false, helper := 0,
    tags := [], qbound := none, qwaits := false, ended := false }

/-- The waves of a workgroup at release. -/
def Launch.freshWaves (l : Launch) (base : Nat) : List Wave :=
  let roles := (l.kernel.roles.zipIdx).flatMap fun p => List.replicate p.1.waves p
  (roles.zipIdx).map fun p => l.freshWave base p.2 p.1.1 p.1.2

/-- The wave slots of a quarter-core that waves on its core take (R49). -/
def State.takenSlots (s : State) (core quarter : Nat) : List Nat :=
  s.wgs.flatMap fun g => if g.core == core && g.placed && !g.keeper then
    (g.waves.filter fun w => !w.ended && w.quarter == quarter).map Wave.wslot else []

/-- Waves take a free one of the 16 wave slots of their quarter-core, of the device's choice `n` (DESIGN CHOICE, log entry 147);
they enter its active set while that has room, and are pending otherwise (R49), unblocked once the survey of their waits
finds it (R52). -/
def State.seatWaves (s : State) (core n : Nat) (ws : List Wave) : List Wave :=
  ws.foldl (fun (acc : List Wave) w =>
    let mates := acc.filter fun x => !x.ended && x.quarter == w.quarter
    let taken := s.takenSlots core w.quarter ++ mates.map Wave.wslot
    let free := (List.range 16).filter fun k => !taken.contains k
    let w := { w with wslot := (free[n % free.length]?).getD 0 }
    let active := s.activeCount core w.quarter + (mates.filter Wave.active).length
    acc ++ [if w.ended then w else if active < 8 then { w with active := true, unblocked := none }
      else { w with active := false, unblocked := none }]) []

/-- The coordinates of a flat index (R38). -/
def Launch.wgidOf (l : Launch) (flat : Nat) : List Word :=
  let gx := (laneAt l.grid 0).toNat
  let gy := (laneAt l.grid 1).toNat
  [BitVec.ofNat 32 (flat % gx), BitVec.ofNat 32 (flat / gx % gy), BitVec.ofNat 32 (flat / gx / gy)]

/-- The graph contexts of a kernel's declarations, by entry; none when one cannot be loaded (R367). -/
def loadGraphs (cluster vi : Nat) : List GraphDecl → State → List (Option Nat) → Option (List (Option Nat) × State)
  | [], s, acc => some (acc, s)
  | d :: ds, s, acc => match s.readImage cluster vi d.addr with
    | (.error _, _) => none
    | (.ok img, s) => if (imageNodes img).isNone then none else match s.loadContext cluster vi d.addr img with
      | (none, _) => none
      | (some k, s) => loadGraphs cluster vi ds s (updAt (fun _ => some k) acc d.entry)

/-- Named barriers at release: those that the descriptor declares (R289). -/
def Kernel.freshBarriers (k : Kernel) : List Barrier :=
  (List.range 64).map fun b => ⟨if k.barriers.testBit b then k.waves else 0, true, true, 0, [], 0⟩

/-- An event handler of the core's keeper agent for the workgroup in a slot is entered: the agent's `s0`[5:0] receives the
slot (R412). -/
def State.startHandler (s : State) (core slot : Nat) : State :=
  let enter (w : Wave) : Wave := w.setS 0 ((w.sreg 0 &&& ~~~0x3F#32) ||| BitVec.ofNat 32 (slot % 64))
  let s := s.updCore core fun c => { c with handler := some slot }
  { s with wgs := s.wgs.map fun g => if g.keeper && g.core == core then { g with waves := g.waves.map enter } else g }

/-- The scratch way count of a core: the smallest that holds the scratch of every workgroup on it. The lines of ways that turn
from L1 to scratch are written back and dropped (R246). -/
def State.setWays (s : State) (core : Nat) : State :=
  let cluster := clusterOf core
  let ends := (s.onCore core).map fun p => p.1.scrbase + p.2.kernel.scratch
  let n := ceilDiv (ends.foldl max 0) 32768
  let lines := ((s.cluster cluster).l1.filter fun l => homeCore cluster l.line == core && l.way < n).map L1Line.line
  (lines.foldl (fun s line => s.evictLine cluster line) s).updCore core fun c => { c with ways := n }

/-- What a placement changes beside the workgroup: its bank is in the core's store, the core's scratch ways hold its scratch
(R246), the keeper agent handles it (R412), the core acquires at `.dev` (R436), and the slot is not starved and has its base
level again (R441). -/
def State.arriveOn (s : State) (l : Launch) (core slot : Nat) : State :=
  let s := s.updCore core fun c => { c with banks := if c.banks.contains l.id then c.banks else l.id :: c.banks }
  (((s.setWays core).startHandler core slot).dropCopies core 3).updSlot l.slot fun q =>
    { q with starved := none, level := q.priority }

/-- Releases workgroup `flat` of a launch on a core, when it can stand there. -/
def State.release (s : State) (l : Launch) (flat core : Nat) : Option State :=
  let cluster := clusterOf core
  if !s.canPlace l core then none
  else match loadGraphs cluster l.vi l.kernel.graphs s (List.replicate 16 none) with
    | none => none
    | some (graphs, s) =>
      let bases := s.scratchBases core l.kernel.scratch
      let (n, s) := s.draw
      let base := s.fresh
      let slot := s.freeSlot core
      let g : Workgroup := {
        id := s.nextId, launch := l.id, keeper := false, wgid := l.wgidOf flat, cg := flat / l.group, flat := flat,
        core := core, slot := slot, scrbase := (bases[n % bases.length]?).getD 0,
        scratch := ⟨[], some (base + 4 * l.kernel.waves)⟩, barriers := l.kernel.freshBarriers, rings := l.kernel.rings,
        graphs := graphs, raster := ⟨[], false, [], [], [], 0, []⟩,
        waves := s.seatWaves core n (l.freshWaves base), status := .resident, request := none, arrivedGrid := false,
        exchangeSince := none, released := s.nextId, saved := none }
      let s : State := { s with
        wgs := s.wgs ++ [g], nextId := s.nextId + 1, fresh := base + 4 * l.kernel.waves + 1 }
      some (s.arriveOn l core slot)

/-- The members of a cluster group are released on different cores of one cluster (R39). -/
def releaseAll (l : Launch) : List Nat → List Nat → State → Option State
  | [], _, s => some s
  | f :: fs, cores, s => match cores.find? (s.canPlace l) with
    | none => none
    | some c => (s.release l f c).bind (releaseAll l fs (cores.erase c))

/-- The cores of a cluster in an order of the device's choice. -/
def State.coreOrder (s : State) (cluster : Nat) : List Nat × State :=
  let (n, s) := s.draw
  ((List.range 8).map fun k => 8 * cluster + (k + n) % 8, s)

/-- Releases ticket `k` of a launch: one cluster group (R442). On one core for g = 1, on cores of its cluster otherwise. -/
def State.releaseTicket (s : State) (l : Launch) (k core : Nat) : Option State :=
  let flats := (List.range l.group).filterMap fun j => if k * l.group + j < l.count then some (k * l.group + j) else none
  let (cores, s) := if l.group = 1 then ([core], s) else s.coreOrder (clusterOf core)
  let bars : List Barrier := List.replicate 8 ⟨flats.length * l.kernel.waves, true, true, 0, [], 0⟩
  let rest := s.groups.filter fun c => !(c.launch == l.id && c.cg == k)
  releaseAll l flats cores { s with groups := rest ++ [⟨l.id, k, bars, 0⟩] }

/-! The save region (R458). -/

/-- Pages of the region that are pinned. -/
def State.pinnedPages (s : State) : Nat :=
  match s.pins[0]? with
  | some p => if p.on && p.status = 1 then p.pages.toNat else 0
  | none => 0
/-- Pages that saves occupy, in the pinned part or beyond it. -/
def State.savePages (s : State) (pinned : Bool) : Nat :=
  sumOf (fun g : Workgroup => match g.saved with
    | some x => if x.pinned == pinned then x.pages else 0
    | none => 0) s.wgs
/-- Pages that ticket blocks occupy: those of the launches that have started (R442). -/
def State.ticketPages (s : State) : Nat :=
  (((s.launches.filter fun l => l.state == .released).map fun l => l.ticketAddr / 4096).eraseDups).length
/-- The field `used` (R458). -/
def State.usedPages (s : State) : Nat := s.savePages true + s.savePages false + s.ticketPages

/-- Room for a save whose size in pages the device knows: the pinned part first (R458). -/
def State.saveRoom (s : State) : Option SavedWork × State :=
  let (n, t) := s.draw
  let pages := n + 1
  if t.savePages true + t.ticketPages + pages ≤ t.pinnedPages then (some ⟨[], [], [], [], pages, true⟩, t)
  else if t.savePages false + pages ≤ t.savepages.toNat - t.pinnedPages then (some ⟨[], [], [], [], pages, false⟩, t)
  else (none, t)

end Sys2Proof.Machine
end

