-- ==== Sys2Proof/Machine/Halts.lean ====
section
/-!
DEFINITION. The end of a halt (R413 to R417), and save-and-restore and discard pre-emptions (R418 to R421).
-/
namespace Sys2Proof.Machine

open Sys2Proof

/-! The drain (R413, R419). -/

/-- A request waits for a store record of its wave that waits for its data (R242, R270, R275, R280). -/
def State.stuck (s : State) (r : Req) : Bool :=
  s.heldLoad r || match s.wave r.w with
  | none => false
  | some w => match r.kind with
    | .atomic _ p _ scope _ _ _ _ => w.unpaired.any fun k => k.id < r.id &&
        ((!k.flush && k.lanes.any fun l => s.reqMeets r l.place) || (scope ≤ 1 && p.mem == 0 && k.inCore))
    | .icinv _ => w.unpaired.any fun k => k.id < r.id
    | .island _ _ _ _ _ _ _ _ _ => w.unpaired.any fun k => k.before r.id
    | _ => false

/-- The same of a token in flight of a workgroup's cards. -/
def State.stuckToken (s : State) (k : Card) : Bool :=
  k.tokens.any CardToken.inFlight && match s.wave k.w with
  | none => false
  | some w => w.unpaired.any fun x => x.before k.id

/-- A save may stop the issue of a workgroup: none of its requests waits for data that its X-slice must still push, so that every
one of them is performed before the cut (R251, R271, R419; DEDUCED, log entry 73). -/
def State.mayCut (s : State) (g : Workgroup) : Bool :=
  (s.reqs.all fun r => r.w.wg != g.id || !s.stuck r) && s.cards.all fun k => k.w.wg != g.id || !s.stuckToken k

/-- The waves have closed their runs, or issue nothing more; no store record can be performed. -/
def Workgroup.still (g : Workgroup) (stopped : List (Nat × Slice)) : Bool :=
  g.waves.all fun w => (match w.run with
    | some r => stopped.contains (w.id, r.sl)
    | none => true) && match w.recs with
    | k :: _ => !recordReady w k
    | [] => true

/-- Everything that the workgroup has issued is complete or settled, and no scratch line of a copy is half written (R404), but for
requests that may be left: none by a save (R251, R271), and those that wait for the data of an unpaired store by a halt. -/
def State.drained (s : State) (g : Workgroup) (stopped : List (Nat × Slice)) (left : Req → Bool) : Bool :=
  g.still stopped && (s.reqs.all fun r => r.w.wg != g.id || left r) &&
  (s.lateScratch.all fun x => x.w.wg != g.id) && (s.cmds.all fun k => k.w.wg != g.id || !k.todo.any k.midLine) &&
  s.cards.all fun k => k.w.wg != g.id || !k.tokens.any CardToken.inFlight

/-! Saving (R419, R420). -/

/-- What does not outlast the cut: active set, fetch buffers, the queue-bound count and the window. -/
def Wave.cut (w : Wave) : Wave :=
  { w with active := false, unblocked := none, qbound := none, qwaits := false, window := none,
           a := { w.a with fbuf := [] }, x := { w.x with fbuf := [] } }

/-- The workgroup is saved in the room that it has, and its resources are released; the release of R307 is performed. -/
def State.saveWg (s : State) (g : Workgroup) (room : SavedWork) (status : RunStatus) : State :=
  let cluster := clusterOf g.core
  let mine (w : WaveRef) : Bool := w.wg == g.id
  let s := (s.releaseL1 g.core).writeBlends g
  let work : SavedWork := { room with
    graphs := g.graphs.map fun e => e.map (s.context cluster)
    cards := (s.cards.filter fun k => mine k.w).map fun k => { k with bound := none }
    cmds := s.cmds.filter fun k => mine k.w
    reqs := s.reqs.filter fun r => mine r.w }
  let s := work.cmds.foldl (fun s k => s.dropLines k.id) (s.dropGraphs g)
  let s : State := { s with
    cards := s.cards.filter fun k => !mine k.w
    cmds := s.cmds.filter fun k => !mine k.w
    reqs := s.reqs.filter fun r => !mine r.w }
  let away (g : Workgroup) : Workgroup :=
    { g with status := status, saved := some work, request := none, exchangeSince := none, waves := g.waves.map Wave.cut }
  (s.updWg g.id away).settleBanks g.core

/-- No wave of the workgroup has an open masked window (R409). -/
def Workgroup.unmasked (g : Workgroup) : Bool := g.waves.all fun w => w.window.isNone

/-- Room is reserved for every member of a cluster group, and their issue stops; none when a part has no room. -/
def startSave : List Workgroup → State → Option State
  | [], s => some s
  | g :: gs, s => match s.saveRoom with
    | (none, _) => none
    | (some room, s) => startSave gs (s.updWg g.id fun g =>
        { g with status := .saving, saved := some room, request := none })

/-- SAVE_AND_RESTORE (R419): a request that stands is started when no window is open, nothing waits for data that the stop would
withhold, and the region has room; a workgroup whose cluster group is drained is saved with it. -/
def execSaveAndRestore (wg : Nat) (s : State) : Result :=
  .next (match s.wg wg with
    | none => s
    | some g =>
      let fam := (s.family g).filter fun h => h.status != .ended
      match g.status with
      | .resident =>
        if g.request == some false && fam.all (fun h => h.status == .resident && h.unmasked && s.mayCut h) then
          (startSave fam s).getD s
        else s
      | .saving =>
        if fam.all fun h => h.status == .saving && s.drained h [] fun _ => false then
          fam.foldl (fun s h => match h.saved with
            | some room => s.saveWg h room .saved
            | none => s) s
        else s
      | _ => s)

/-! Discarding (R421). -/

/-- Atomics are performed, copy commands have ended, stores are acknowledged, and island requests are complete. -/
def State.discardable (s : State) (g : Workgroup) : Bool :=
  g.waves.all (fun w => w.run.isNone) && s.cmds.all (fun k => k.w.wg != g.id) &&
  s.reqs.all fun r => r.w.wg != g.id || match r.kind with
    | .atomic _ _ _ _ _ _ _ _ => false
    | .ack _ _ => false
    | .island _ _ _ _ _ _ _ _ _ => false
    | _ => true

/-- The store records that lack their data, which the cut drops, and with it what they hold. -/
def Workgroup.dropUnpaired (g : Workgroup) : Workgroup :=
  { g with waves := g.waves.map fun w => { w with recs := w.recs.filter fun k => recordReady w k } }

/-- DISCARD (R421): a request that stands is started when no window is open, as a save when the discard class is no longer
permitted (R418). The workgroup is dropped, with its performed stores released, and requeued under its flat index. -/
def execDiscard (wg : Nat) (s : State) : Result :=
  .next (match s.wg wg with
    | none => s
    | some g => match g.status with
      | .resident =>
        if !(g.request == some true && g.unmasked) then s
        else if s.mayDiscard g then s.updWg wg fun g => { g with status := .discarding, request := none }
        else s.updWg wg fun g => { g with request := some false }
      | .discarding =>
        if s.discardable g then
          (((s.releaseL1 g.core).writeBlends g).removeWg g).updLaunch g.launch fun l =>
            { l with requeued := l.requeued ++ [g.flat] }
        else if g.waves.all fun w => w.run.isNone then s.updWg wg Workgroup.dropUnpaired
        else s
      | _ => s)

/-! Exchange (R444). -/

/-- Every live thread of the workgroup is parked on one of these objects. -/
def Workgroup.parkedAll (p : Park → Bool) (g : Workgroup) : Bool :=
  g.waves.all fun w => [w.a, w.x].all fun t => (lanesOf t.liveLanes).all fun i => match (t.thread i).st with
    | .parked k => p k
    | _ => false

/-- Every live thread waits at `gbar`, a named barrier or a `ring.wait` (R444). -/
def Workgroup.exchangeable (g : Workgroup) : Bool :=
  g.parkedAll fun k => match k with
    | .grid => true
    | .barrier b => b < 64
    | .ring _ _ _ _ _ => true
    | _ => false

/-- A saved workgroup could run: it is not parked on an object still incomplete (R444), or work of its own, which the save
holds, may yet complete that object. -/
def Workgroup.couldRun (g : Workgroup) : Bool :=
  match g.saved with
  | some x => !g.exchangeable || !x.cmds.isEmpty || x.cards.any fun k => k.tokens.any CardToken.live
  | none => false

/-! The end of a halt (R413, R415). -/

/-- The threads of the breaking group go past their `brk` (R408). -/
def Workgroup.pastBreak (h : Halt) (g : Workgroup) : Workgroup :=
  match h.wave, h.sl with
  | some k, some sl => g.updWave k fun w => w.updSlice sl fun t => t.arriveAll false h.lanes fun _ => h.pc + 4#32
  | _, _ => g

/-- A BREAK with the hold bit: the workgroup is saved, its record is written, and it stays held (R408). -/
def State.hold (s : State) (g : Workgroup) (l : Launch) (h : Halt) : Option State :=
  match s.saveRoom with
  | (none, _) => none
  | (some room, s) =>
    let g := g.pastBreak h
    let s := s.updWg g.id fun _ => g
    (s.writeRecord l.slot (s.haltRecord g l h false)).map fun s => s.saveWg g room .held

/-- The halts of the other workgroups of the context that have still to record. -/
def State.halting (s : State) (g : Workgroup) : List Halt :=
  (s.slotWgs (s.slotOf g)).filterMap fun k => if k.id == g.id then none else match k.status with
    | .halting h => if h.held then none else some h
    | _ => none

/-- The copy commands of a workgroup are complete; a `.gq` stream, which waits for room, is suspended (R404, R413). -/
def State.copiesDone (s : State) (g : Workgroup) : Bool := s.cmds.all fun k => k.w.wg != g.id || k.stream.isSome

/-- HALT_COMPLETE (R413): the halt has reached every slice and what was issued is complete and released; the record is written, and the
context is terminated with the last record of the workgroups that halt before the termination reaches them (R417). -/
def execHaltComplete (wg : Nat) (s : State) : Result :=
  .next (match s.wg wg with
    | none => s
    | some g => match g.status, s.launch g.launch with
      | .halting h, some l =>
        if !h.reached || !s.drained g h.stopped s.stuck then s
        else if h.held then (s.hold g l h).getD s
        else if !s.copiesDone g then s
        else
          let others := s.halting g
          let more := others.any fun k => h.watch.isSome && k.watch == h.watch && !k.silent
          let s := s.releaseL1 g.core
          match if h.silent then some s else s.writeRecord l.slot (s.haltRecord g l h more) with
          | none => s
          | some t =>
            if others.isEmpty then t.terminate l.slot
            else (t.updWg wg fun g => { g with status := .ended }).settleBanks g.core
      | _, _ => s)

end Sys2Proof.Machine
end

