-- ==== Sys2Proof/Machine/Security.lean ====
section
/-!
DEFINITION. The security block: envelopes (R474, R475), the identity keys and reports (R477, R478), and bring-up (R484).
-/
namespace Sys2Proof.Machine

open Sys2Proof

/-! Envelopes. -/

/-- What an envelope's header says (R474). -/
structure Envelope where
  kind : Nat
  revision : Nat
  island : Nat
  svn : Nat
  size : Nat
  key : Nat
  identity : Nat
  digest : List Byte
  deriving DecidableEq, Repr

def sliceOf (bs : List Byte) (a n : Nat) : List Byte := (bs.drop a).take n
def allZero (bs : List Byte) : Bool := bs.all fun b => b == 0#8
/-- A little-endian number at an offset. -/
def numAt (bs : List Byte) (a n : Nat) : Nat := ofBytes (sliceOf bs a n)

/-- The header of 4 KiB, when every field is in range and every reserved byte is 0 (R475). -/
def envelopeOf (h : List Byte) : Option Envelope :=
  let e : Envelope := ⟨numAt h 1 1, numAt h 6 2, numAt h 4 1, numAt h 8 4, numAt h 12 4, numAt h 0x12 2 % 4, numAt h 0x10 2,
    sliceOf h 0x40 48⟩
  let island : Bool := if e.kind = 4 then e.island ≤ 3 else e.island = 0 && e.identity = 0
  let revision : Bool := e.revision != 0xFFFF || e.kind = 5
  if numAt h 0 1 = 1 && numAt h 2 2 = 0x4753 && 1 ≤ e.kind && e.kind ≤ 5 && numAt h 5 1 = 0 && island && revision &&
      e.size % 64 = 0 && e.size ≤ (if e.kind = 4 then 196608 else 2 ^ 22) && numAt h 0x12 2 < 4 &&
      allZero (sliceOf h 0x14 0x2C) && allZero (sliceOf h 0x70 0x10) && allZero (sliceOf h 0xDAD 0x253) then some e
  else none

/-- The security block accepts an envelope (R475): both signatures are checked in every case. -/
def accepts (h payload : List Byte) (e : Envelope) : Bool :=
  let msg := sliceOf h 0 0x80
  let sig1 := Config.ed25519Verifies e.key msg (sliceOf h 0x80 64)
  let sig2 := Config.mlDsaVerifies e.key msg (sliceOf h 0xC0 3309)
  !Config.keyRevoked e.key e.kind && Config.keysMatchFuses e.key && sig1 && sig2 && e.digest == Config.sha384 payload &&
    Config.svnMinimum e.kind ≤ e.svn && (e.revision = Config.siliconRevision || (e.kind = 5 && e.revision = 0xFFFF))

/-! Identity and attestation. -/

/-- What a reset does: the identity keys are derived, and the identity certificate that binds their public halves to the
serial number stands in the attestation window (R477). -/
def State.deriveKeys (s : State) : State :=
  { s with boot := { s.boot with keysDerived := true }, attest := { s.attest with certificate := Config.identityCertificate } }

/-- POWER_ON (R484): the security block runs from its ROM, trains the link and derives the keys (R477). -/
def execPowerOn (s : State) : Result :=
  .next ({ s with boot := { s.boot with powered := true }, linkUp := true } : State).deriveKeys

/-- An envelope of the bundle in device memory: its header, when it is good, and whether it is accepted. -/
def State.bundleEnvelope (s : State) (a : Nat) : Option (Envelope × Bool) :=
  let h := Mem.read s.dmem a 4096
  (envelopeOf h).map fun e => (e, accepts h (Mem.read s.dmem (a + 4096) e.size) e)

/-- The digests of the three firmware payloads, of kinds 1 to 3, from the envelopes that follow one another from `a` on,
or the kind of the rejected one. -/
def State.bundle (s : State) : Nat → Nat → List (Nat × List Byte) → Except Nat (List (Nat × List Byte))
  | 0, _, acc => .ok acc
  | n + 1, a, acc => match s.bundleEnvelope a with
    | none => .error (numAt (Mem.read s.dmem a 4) 1 1)
    | some (e, ok) =>
      if ok && e.kind ≤ 3 && !acc.any fun p => p.1 == e.kind then s.bundle n (a + 4096 + e.size) (acc ++ [(e.kind, e.digest)])
      else .error e.kind

/-- FIRMWARE_BUNDLE (R484): a write of the bundle address with bit 0 set; the command processor and the keeper agents
start, or the status says which kind was refused. -/
def execFirmwareBundle (value : DWord) (s : State) : Result :=
  .next (
    let b := s.boot
    if !b.powered || b.status = 1 then s
    else if !value.getLsbD 0 then { s with boot := { b with bundle := value } }
    else match s.bundle 3 (value &&& ~~~1#64).toNat [] with
      | .error kind => { s with boot := { b with bundle := value, status := 2, refused := kind } }
      | .ok ds =>
        let digests := (List.range 3).map fun k => ((ds.find? fun p => p.1 == k + 1).map fun p => p.2).getD []
        { s with boot := { b with bundle := value, status := 1, refused := 0, digests := digests } })

/-- ATTESTATION_REQUEST (R478): ignored while a report is in progress. -/
def execAttestationRequest (s : State) : Result := .next { s with attest := { s.attest with busy := true } }

/-- The items of a report before its signatures (R478): an interface number of 4 bytes, empty digests as zeros, and the
minimums of kinds 1 to 5 as words. -/
def State.reportItems (s : State) : List Byte :=
  let pad (d : List Byte) : List Byte := (List.range 48).map fun k => (d[k]?).getD 0#8
  (s.attest.nonce.flatMap fun w => bytesOf w.toNat 4) ++ bytesOf s.attest.interface 4 ++
    ((List.range 3).flatMap fun k => pad ((s.boot.digests[k]?).getD [])) ++
    ((s.iface s.attest.interface).images.flatMap fun m => pad m.digest) ++
    (List.range 5).flatMap fun k => bytesOf (Config.svnMinimum (k + 1)) 4

/-- ATTESTATION_REPORT_READY (R478). -/
def execAttestationReportReady (s : State) : Result :=
  .next (
    if s.attest.busy then
      let items := s.reportItems
      let report := items ++ Config.deviceSignature 0 items ++ Config.deviceSignature 1 items
      { s with attest := { s.attest with busy := false, report := report } }
    else s)

end Sys2Proof.Machine
end

