-- ==== Sys2Proof/Machine/Commands.lean ====
section
/-!
DEFINITION. Queue slots and packets (18_launch.md): enabling (R428), the doorbell and the ring (R429), the packets NOP,
WAIT, SIGNAL and IMAGES (R431, R437, R476), and LAUNCH with its descriptor (R432, R433, R95 to R98).
-/
namespace Sys2Proof.Machine

open Sys2Proof

/-! Slots (R428). -/

/-- The members of a slot's gang: itself, or the slots of its interface with its gang number (R426). -/
def State.gang (s : State) (k : Nat) : List Nat :=
  let q := s.slot k
  if q.gang = 0 then [k]
  else (List.range 64).filter fun j => j == k || ((s.slot j).gang == q.gang && (s.slot j).assigned == q.assigned)

/-- The effective level of a slot: the highest of its gang (R440). -/
def State.level (s : State) (k : Nat) : Nat := (s.gang k).foldl (fun m j => max m (s.slot j).level) 0

/-- The interface of a slot. -/
def State.slotVi (s : State) (k : Nat) : Nat := (s.slot k).assigned.getD 0

/-- The command processor runs, and issue has not stopped (R24, R28, R36, R484). -/
def State.running (s : State) : Bool := s.boot.status = 1 && !s.ctl.stopped && s.ctl.changing.isNone

/-- The slot executes packets. -/
def State.serves (s : State) (k : Nat) : Bool :=
  let q := s.slot k
  s.running && q.enable && q.mapped && !q.stopped && !q.terminated

/-- The slot stops with an error, and its interface is signalled (R429, R431). -/
def State.stopSlot (s : State) (k error : Nat) : State :=
  (s.updSlot k fun q => { q with stopped := true, error := error }).signalSlot k

/-- A mapped slot starts a fresh context, or resumes the saved one. After a termination the packets that the context had not
executed are skipped. -/
def QSlot.map (q : QSlot) : QSlot :=
  if q.mapped && !q.terminated then q
  else if q.context && !q.terminated then { q with mapped := true, level := q.priority }
  else { q with
    head := if q.terminated then q.tail else q.head, buf := if q.terminated then [] else q.buf
    mapped := true, context := true, terminated := false, errsticky := 0, clears := [], level := q.priority, starved := none
    waiting := none, images := List.replicate 4 IslandImage.base, badImage := false, signals := [] }

/-- Enable changes from 0 to 1: stopped and error are cleared; after an error or a termination the packets not executed
are skipped. -/
def QSlot.enableBit (q : QSlot) : QSlot :=
  let skip := q.error != 0 || q.terminated
  { q with enable := true, stopped := false, error := 0, ringFailed := false
           buf := if skip then [] else q.buf
           head := if skip then q.tail else q.head }

/-- SLOT_ENABLE (R428): a write of enable = 1; of a gang, when every member has it. Ignored until the device runs
(R484). -/
def execSlotEnable (k : Nat) (s : State) : Result :=
  .next (
    if s.boot.status != 1 || (s.slot k).enable then s
    else
      let s := s.updSlot k QSlot.enableBit
      if (s.gang k).all fun j => (s.slot j).enable then (s.gang k).foldl (fun s j => s.updSlot j QSlot.map) s else s)

/-- SLOT_DISABLE (R428): the slot and its gang are unmapped, their resident workgroups are cut by save-and-restore, and their
shares count no more (R445). -/
def execSlotDisable (k : Nat) (s : State) : Result :=
  .next (
    if !(s.slot k).enable then s
    else
      let gang := s.gang k
      let s := s.updSlot k fun q => { q with enable := false }
      gang.foldl (fun s j =>
        let s := s.updSlot j fun q => { q with mapped := false, waiting := none }
        ((s.slotWgs j).foldl State.requestSave s).dropShares j) s)

/-! The ring (R429). -/

/-- DOORBELL (R429). -/
def execDoorbell (k : Nat) (value : Word) (s : State) : Result :=
  .next (
    let q := s.slot k
    if value.extractLsb' 0 3 == 0#3 && (value - q.head).toNat ≤ 2 ^ q.ringlog then s.updSlot k fun q => { q with tail := value }
    else s.stopSlot k 1)

/-! Packets (R431). -/

/-- A packet: type, length in words of 8 bytes, info and its words. -/
structure Packet where
  type : Nat
  length : Nat
  info : Nat
  words : List Word
  deriving DecidableEq, Repr

/-- The length that a type states. -/
def statedLength (type info : Nat) : Option Nat :=
  match type with
  | 2 => some (16 + 2 * bits info 15 12)
  | 3 | 4 => some 3
  | 5 => some 5
  | 6 => some 2
  | _ => none

/-- Word `k` of a packet, and the 64-bit value there. -/
def Packet.w (p : Packet) (k : Nat) : Word := laneAt p.words k
def Packet.d (p : Packet) (k : Nat) : DWord := joinWords (p.w k) (p.w (k + 1))

/-- A reserved field, value or a misaligned address of a packet that is no LAUNCH (error 5). -/
def Packet.reserved (p : Packet) : Bool :=
  match p.type with
  | 1 => p.info != 0
  | 3 => bits p.info 15 2 != 0 || bits p.info 1 0 = 3 || p.w 1 != 0#32 || (p.d 2).toNat % 8 != 0
  | 4 => bits p.info 7 3 != 0 || bits p.info 15 9 != 0 || !(bits p.info 2 0 = 3 || bits p.info 2 0 = 4) || p.w 1 != 0#32 ||
      (p.d 2).toNat % 8 != 0
  | 5 | 6 => p.info != 0 || p.w 1 != 0#32
  | _ => false

/-- The packet at the head of a buffer, when all its bytes are there; an error code when it is bad. -/
def QSlot.packet (q : QSlot) : Option (Except Nat Packet) :=
  if q.buf.length < 8 then none
  else
    let h := numAt q.buf 0 4
    let type := bits h 31 24
    let length := bits h 23 16
    let info := bits h 15 0
    if !(1 ≤ type && type ≤ 6) then some (.error 2)
    else if type = 1 && length = 0 then some (.error 3)
    else if type != 1 && statedLength type info != some length then some (.error 3)
    else if q.buf.length < 8 * length then none
    else
      let p : Packet := ⟨type, length, info, wordsOf (ofBytes (q.buf.take (8 * length))) (2 * length)⟩
      if p.reserved then some (.error 5) else some (.ok p)

/-- The packet has been taken from the buffer. -/
def State.consume (s : State) (k : Nat) (p : Packet) : State :=
  s.updSlot k fun q => { q with buf := q.buf.drop (8 * p.length), waiting := none }

/-- RING_BYTE_COPY (R429): the next 8 bytes go to the slot's buffer of 16 KiB, when it has room. A failed read stops the slot
once no whole packet is left before it in the buffer (R431). -/
def execRingByteCopy (k : Nat) (s : State) : Result :=
  .next (
    let q := s.slot k
    if !s.serves k then s
    else if q.ringFailed then (if q.packet.isNone then s.stopSlot k 4 else s)
    else if q.head == q.tail || 16 * 1024 < q.buf.length + 8 then s
    else match s.baseRead (s.slotVi k) (q.ringbase + BitVec.ofNat 64 (q.head.toNat % 2 ^ q.ringlog)) 8 with
      | .error .owned => s
      | .error (.cause _ _) => if q.packet.isNone then s.stopSlot k 4 else s.updSlot k fun q => { q with ringFailed := true }
      | .ok (bs, t) => t.updSlot k fun q => { q with buf := q.buf ++ bs, head := q.head + 8 })

/-- A packet event: it acts on a good packet of its type; a bad packet stops the slot. -/
def packetEvent (k type : Nat) (act : Packet → State → State) (s : State) : Result :=
  .next (
    if !s.serves k then s
    else match (s.slot k).packet with
      | none => s
      | some (.error e) => s.stopSlot k e
      | some (.ok p) => if p.type = type then act p s else s)

/-- The launches of a slot that are in flight: taken, and not yet complete with their completion store. -/
def State.inFlight (s : State) (k : Nat) : List Launch := s.launches.filter fun l => l.slot == k

/-- NOP_PACKET (R431). -/
def execNopPacket (k : Nat) (s : State) : Result := packetEvent k 1 (fun p s => s.consume k p) s

/-- The test of a WAIT. -/
def waitPasses (test : Nat) (x value : DWord) : Bool :=
  match test with
  | 0 => decide (value.toNat ≤ x.toNat)
  | 1 => x == value
  | _ => x != value

/-- The word is read at `.sys`; the packet is left when it fails the test, and read again within 4,096 cycles (R437). -/
def pollWait (k : Nat) (p : Packet) (s : State) : State :=
  match s.baseRead (s.slotVi k) (p.d 2) 8 with
  | .error .owned => s
  | .error (.cause _ _) => s.stopSlot k 4
  | .ok (bs, t) =>
    if waitPasses (bits p.info 1 0) (BitVec.ofNat 64 (ofBytes bs)) (p.d 4) then t.consume k p
    else t.updSlot k fun q => { q with waiting := some (t.clock + 4096) }

/-- WAIT (R437): the first read. -/
def execWait (k : Nat) (s : State) : Result :=
  packetEvent k 3 (fun p s => if (s.slot k).waiting.isNone then pollWait k p s else s) s
/-- WAIT_POLL (R437): a further read. -/
def execWaitPoll (k : Nat) (s : State) : Result :=
  packetEvent k 3 (fun p s => if (s.slot k).waiting.isSome then pollWait k p s else s) s

/-- The first SIGNAL that waits, when every launch before it has performed its completion store: its release store. A
failed one terminates the context (R437, R439). -/
def State.performSignal (s : State) (k : Nat) : Option State :=
  match (s.slot k).signals with
  | [] => none
  | x :: rest =>
    if (s.inFlight k).any fun l => l.id < x.before then none
    else match s.baseWrite (s.slotVi k) x.scope x.addr (bytesOf x.value.toNat 8) with
      | .error .owned => none
      | .error (.cause c va) => s.failContext k c 2 va (s.slotHead k)
      | .ok t =>
        let t := t.updSlot k fun q => { q with signals := rest }
        some (if x.notify then t.signalSlot k else t)

/-- SIGNAL (R437): a packet is taken and waits for the launches before it, without holding later packets; or one that
waits is performed, also when a later packet has stopped the slot (R431). -/
def execSignal (k : Nat) (s : State) : Result :=
  match if s.running && s.mapped k then s.performSignal k else none with
  | some t => .next t
  | none => packetEvent k 4 (fun p s => (s.consume k p).updSlot k fun q =>
      { q with signals := q.signals ++ [⟨s.nextId, bits p.info 2 0, p.info.testBit 8, p.d 2, p.d 4⟩] }) s

/-- The image that an address names for a kind: the base image for 0; none when its envelope is rejected or cannot be read
(R476). The outer none waits for a line. -/
def readEnvelope (k kind : Nat) (va : DWord) (s : State) : Option (Option IslandImage × State) :=
  if va == 0#64 then some (some IslandImage.base, s)
  else match s.baseRead (s.slotVi k) va 4096 with
    | .error .owned => none
    | .error (.cause _ _) => some (none, s)
    | .ok (h, s) => match envelopeOf h with
      | none => some (none, s)
      | some e => match s.baseRead (s.slotVi k) (va + 4096) e.size with
        | .error .owned => none
        | .error (.cause _ _) => some (none, s)
        | .ok (payload, s) =>
          let ok := accepts h payload e && e.kind = 4 && e.island = kind
          some (if ok then some ⟨e.identity, e.digest⟩ else none, s)

/-- The four images of an IMAGES packet. -/
def readEnvelopes (k : Nat) : List (Nat × DWord) → State → Option (List (Option IslandImage) × State)
  | [], s => some ([], s)
  | (kind, va) :: rest, s => match readEnvelope k kind va s with
    | none => none
    | some (m, s) => (readEnvelopes k rest s).map fun p => (m :: p.1, p.2)

/-- IMAGES (R476): once every earlier launch has completed, the accepted images are named for the context; a rejection is
reported at the slot's next LAUNCH. -/
def execImages (k : Nat) (s : State) : Result :=
  packetEvent k 5 (fun p s =>
    if !(s.inFlight k).isEmpty then s
    else match readEnvelopes k [(0, p.d 2), (1, p.d 4), (2, p.d 6), (3, p.d 8)] s with
      | none => s
      | some (ms, t) =>
        let named (old : List IslandImage) : List IslandImage :=
          (List.range 4).map fun j => ((ms[j]?).join).getD ((old[j]?).getD IslandImage.base)
        let t := (t.consume k p).updSlot k fun q =>
          { q with images := named q.images, badImage := q.badImage || ms.any Option.isNone }
        t.updIface (s.slotVi k) fun f => { f with images := named f.images }) s

/-! The kernel descriptor (R95 to R98). -/

/-- A role entry of 16 bytes; none when a field is outside its range. `implicit` marks that of the implicit role. -/
def roleOf (implicit : Bool) (waves : Nat) (w : Nat → Word) : Option RoleDecl :=
  let x := (w 0).toNat
  let kind := bits x 31 30
  let n := bits x 29 24
  let vregs := bits x 23 16
  let budget := bits x 8 0
  let a := (w 2).toNat
  if kind != 3 && bits x 15 9 = 0 && 8 ≤ vregs && vregs ≤ 192 && vregs % 8 = 0 && budget ≤ 256 && w 1 == 0#32 &&
      (a % 4 = 0 || a = 0xFFFFFFFF) && (w 3).toNat % 4 = 0 && (if implicit then n = 0 else 1 ≤ n && n ≤ 32) then
    some ⟨if implicit then .vector else if kind = 0 then .feeder else if kind = 1 then .matrix else .vector,
      if implicit then waves else n, vregs, budget, if a = 0xFFFFFFFF then none else some (w 2), w 3⟩
  else none

/-- A declaration (R97): what the bytes of one entry declare. -/
inductive Decl where
  | queue (d : QueueDecl)
  | ring (r : Ring)
  | graph (g : GraphDecl)
  deriving DecidableEq, Repr

def kindOf : Nat → Option QKind
  | 1 => some .load
  | 2 => some .back
  | 3 => some .staddr
  | 4 => some .stdata
  | 5 => some .result
  | _ => none

/-- Queue (R230), ring (R294) and graph (R367) declarations; none for a field outside its range. -/
def declOf (roles : Nat) (bs : List Byte) : Option Decl :=
  let b (k : Nat) : Nat := numAt bs k 1
  match b 0 with
  | 1 => match kindOf (b 3) with
    | none => none
    | some kind =>
      if (b 1 = 0xFF || b 1 < roles) && b 2 < 16 && 2 ≤ b 4 && b 4 ≤ 16 && allZero (bs.drop 5) then
        some (.queue ⟨if b 1 = 0xFF then none else some (b 1), b 2, kind, b 4⟩)
      else none
  | 2 =>
    let size := numAt bs 4 2
    let offset := numAt bs 6 2
    let side : List RingSide := List.replicate (b 3) ⟨false, 0, 0⟩
    if b 1 = 0xFF && b 2 < 16 && 1 ≤ b 3 && b 3 ≤ 16 && 1 ≤ size && size ≤ 1536 && offset ≤ 1535 && 1 ≤ b 8 && 1 ≤ b 9 &&
        allZero (bs.drop 10) then
      some (.ring ⟨b 2, b 3, 128 * size, 128 * offset, b 8, b 9, side, side⟩)
    else none
  | 3 =>
    if b 1 = 0xFF && b 2 < 16 && allZero (sliceOf bs 3 5) then
      some (.graph ⟨b 2, BitVec.ofNat 64 (numAt bs 8 8)⟩)
    else none
  | _ => none

/-- The type of a declaration (R97). -/
def Decl.type : Decl → Nat
  | .queue _ => 1
  | .ring _ => 2
  | .graph _ => 3

/-- The declarations for a role name no queue twice, pair each staddr queue (R229), and fit its budget (R98). -/
def queuesOk (ds : List QueueDecl) (p : RoleDecl × Nat) : Bool :=
  let mine := ds.filter fun d => d.role == none || d.role == some p.2
  (mine.map fun d => d.queue).Nodup && sumOf QueueDecl.depth mine ≤ p.1.budget &&
  mine.all fun d => d.kind != .staddr || (d.queue % 2 = 0 && mine.any fun e => e.queue == d.queue + 1 && e.kind == .stdata)

/-- The descriptor's counts: graphs, rings and queues. -/
def declCounts (w : Nat → Word) : Nat × Nat × Nat :=
  let x := (w 24).toNat
  (bits x 31 24, bits x 23 16, bits x 15 8)

/-- A kernel from the words of its descriptor and its declarations; none when R98 rejects it. `waves` is the wave count of
the implicit role. Every scratch size is accepted (DEDUCED, log entry 139). -/
def kernelOf (w : Nat → Word) (decls : List (List Byte)) (waves : Nat) : Option Kernel :=
  let n (k : Nat) : Nat := (w k).toNat
  let count := bits (n 1) 8 7
  let implicit := decide (count = 0)
  let used := max count 1
  let roles := (List.range used).mapM fun r => roleOf implicit waves fun k => w (8 + 4 * r + k)
  let blank := (List.range (4 * (3 - used))).all fun k => w (8 + 4 * used + k) == 0#32
  let (graphs, rings, queues) := declCounts w
  let scratch := bits (n 2) 17 0
  let heads := bits (n 0) 31 24 = 1 && bits (n 0) 23 16 ≤ 2 && bits (n 0) 15 0 = 0x80 && bits (n 1) 31 9 = 0 &&
    bits (n 1) 3 0 = 0 && bits (n 2) 31 18 = 0 && n 3 ≤ 64 && n 3 % 4 = 0 && n 4 ≤ 65536 && n 4 % 4 = 0 && n 5 = 0 &&
    n 20 % 128 = 0 && n 22 % 16 = 0 && bits (n 24) 7 0 = 0 && (List.range 7).all (fun k => w (25 + k) == 0#32) &&
    (n 1).testBit 6 == decide (0 < graphs) && (joinWords (w 22) (w 23) == 0#64) == decide (graphs + rings + queues = 0)
  match roles, decls.mapM (declOf used) with
  | some rs, some ds =>
    let qs := ds.filterMap fun d => match d with
      | .queue q => some q
      | _ => none
    let gs := ds.filterMap fun d => match d with
      | .graph g => some g
      | _ => none
    let is := ds.filterMap fun d => match d with
      | .ring r => some r
      | _ => none
    let types := List.replicate queues 1 ++ List.replicate rings 2 ++ List.replicate graphs 3
    let limits := (rs.map fun r => r.role).Nodup && sumOf RoleDecl.waves rs ≤ 32 &&
      sumOf (fun r : RoleDecl => if r.role = .matrix then r.waves else 0) rs ≤ 16
    if heads && blank && limits && ds.map Decl.type == types && rs.zipIdx.all (queuesOk qs) &&
        (is.map fun r => r.index).Nodup && (gs.map fun g => g.entry).Nodup &&
        is.all (fun r => r.offset + r.slots * r.bytes ≤ scratch) then
      some { codeBase := joinWords (w 20) (w 21), roles := rs, implicit := implicit, idem := (n 1).testBit 5,
             regroup := (n 1).testBit 4, scratch := scratch, args := n 3, constants := n 4,
             barriers := n 6 + 2 ^ 32 * n 7, queues := qs, rings := is, graphs := gs }
    else none
  | _, _ => none

/-! LAUNCH (R432, R433). -/

/-- A declared range of a packet; none when a field is outside its range. -/
def rangeOf (p : Packet) (j : Nat) : Option Range :=
  let base := p.d (32 + 4 * j)
  let size := (p.w (34 + 4 * j)).toNat
  let flags := (p.w (35 + 4 * j)).toNat
  if canonical base && 1 ≤ size && bits flags 31 1 = 0 then some ⟨base.toNat, size, flags.testBit 0⟩ else none

/-- The product of `GRIDDIM`. -/
def dimProduct (ds : List Word) : Nat := ds.foldl (fun n d => n * d.toNat) 1

/-- The launch that a packet and a kernel form; none when a field of the packet is outside R432. -/
def launchOf (s : State) (k : Nat) (p : Packet) (kernel : Kernel) : Option Launch :=
  let n := bits p.info 15 12
  let scope := bits p.info 7 5
  let bank := p.d 4
  let grid := [p.w 6, p.w 7, p.w 8]
  let wg : List Word := [(p.w 9) &&& 0xFFFF#32, (p.w 9) >>> 16, (p.w 10) &&& 0xFFFF#32]
  let dims : Bool := if kernel.implicit then wg.all (fun d => d != 0#32) && dimProduct wg ≤ 1024 else wg.all fun d => d == 0#32
  match (List.range n).mapM (rangeOf p) with
  | none => none
  | some ranges =>
    if n ≤ 8 && (scope = 3 || scope = 4) && bits p.info 4 0 = 0 && p.w 1 == 0#32 && (p.d 2).toNat % 128 = 0 &&
        bank.toNat % 128 = 0 && (bank == 0#64) == decide (kernel.constants = 0) && dimProduct grid < 2 ^ 32 && dims &&
        bits (p.w 10).toNat 31 16 = 0 && p.w 11 == 0#32 && (p.d 14).toNat % 8 = 0 then
      some { id := s.nextId, slot := k, vi := s.slotVi k, kernel := kernel, descriptor := p.d 2, bankAddr := bank, bank := []
             grid := grid, wgdim := if kernel.implicit then wg else [BitVec.ofNat 32 (32 * kernel.waves), 1#32, 1#32]
             group := bits p.info 11 9 + 1, hold := p.info.testBit 8, scope := scope, sequence := p.d 12
             completion := p.d 14, args := (List.range 16).map fun j => p.w (16 + j), ranges := ranges
             state := .waiting, ticketAddr := 0, requeued := [], claimed := [], gridPhase := 0, resumes := 0 }
    else none

/-- The graph images that declarations name, read and checked: whether all are good (R366). -/
def readGraphs (vi : Nat) : List (List Byte) → State → Except ReadStop (Bool × State)
  | [], s => .ok (true, s)
  | d :: ds, s => do
    if numAt d 0 1 != 3 then readGraphs vi ds s
    else
      let va := BitVec.ofNat 64 (numAt d 8 8)
      let (h, s) ← s.baseRead vi va 64
      let (img, s) ← s.baseRead vi va (64 * min (graphHeader (wordsOf (ofBytes h) 16)).size 256)
      let (ok, s) ← readGraphs vi ds s
      .ok (ok && va.toNat % 64 = 0 && (imageNodes (wordsOf (ofBytes img) (img.length / 4))).isSome, s)

/-- What the command processor reads for a launch: the descriptor's words, its declarations, whether its graph images are
good, and the bank, of which only a failing read counts here (R434). Address 0 names no table and no bank. -/
def readKernel (vi : Nat) (va bank : DWord) (s : State) :
    Except ReadStop ((List Word × List (List Byte) × Bool) × State) := do
  let (d, s) ← s.baseRead vi va 128
  let ws := wordsOf (ofBytes d) 32
  let (g, r, q) := declCounts (laneAt ws)
  let table := joinWords (laneAt ws 22) (laneAt ws 23)
  let n := if table == 0#64 then 0 else g + r + q
  let (t, s) ← s.baseRead vi table (16 * n)
  let ds := (List.range n).map fun j => sliceOf t (16 * j) 16
  let (_, s) ← s.baseRead vi bank (if bank == 0#64 then 0 else min (laneAt ws 4).toNat 65536)
  let (ok, s) ← readGraphs vi ds s
  .ok ((ws, ds, ok), s)

/-- The fields of a rejected packet's record: interface and slot, sequence, descriptor (R433). -/
def State.packetHead (s : State) (k : Nat) (p : Packet) : List Word :=
  [laneAt (s.slotHead k) 0, p.w 12, p.w 13, p.w 2, p.w 3]

/-- LAUNCH (R433): the packet is taken, or rejected with the first cause that applies; a rejection terminates the
context. -/
def execLaunch (k : Nat) (s : State) : Result :=
  packetEvent k 2 (fun p s =>
    let reject (c : Cause) (va : DWord) : State := (s.failContext k c 2 va (s.packetHead k p)).getD s
    match readKernel (s.slotVi k) (p.d 2) (p.d 4) s with
    | .error .owned => s
    | .error (.cause c va) => reject c va
    | .ok ((ws, ds, good), t) =>
      let threads := dimProduct [(p.w 9) &&& 0xFFFF#32, (p.w 9) >>> 16, (p.w 10) &&& 0xFFFF#32]
      match (kernelOf (laneAt ws) ds (ceilDiv threads 32)).bind (launchOf t k p) with
      | none => reject .launchDesc 0
      | some l =>
        if !l.kernel.fitsEmpty then reject .launchFit 0
        else if !good || (t.slot k).badImage then reject .launchImage 0
        else
          let t := t.consume k p
          { t with launches := t.launches ++ [l], nextId := t.nextId + 1 }) s

end Sys2Proof.Machine
end

