-- ==== Sys2Proof/Machine/CrossLane.lean ====
section
/-!
DEFINITION. Cross-lane and quad instructions (09_crosslane.md, R209 to R224).
-/
namespace Sys2Proof.Machine

open Sys2Proof

/-- The value of A that source lane `k` supplies (R209): an absent lane, or a lane outside `EM` when A is a queue,
supplies an unpredictable value, free word `k` of this instruction's draw. -/
def Ctx.supplied (c : Ctx) (f : LaneFields) (k : Nat) : Word :=
  if (c.slice.thread k).st == .absent || (Form.isQ f.a && !c.em.getLsbD k) then Config.freeWord c.s.fresh k
  else c.srcA f .int32 k

/-- A state after one more draw of free words. -/
def State.drawn (s : State) : State := { s with fresh := s.fresh + 1 }

/-- Copies to lane i the value of lane `src i` (R216 to R218). -/
def moveLanes (i : Instr) (f : LaneFields) (src : Ctx → Nat → Nat) (c : Ctx) : Eff State :=
  match c.write1 i f fun l => c.supplied f (src c l) with
  | .error e => .error e
  | .ok s => .ok s.drawn

/-- The source lane of a shuffle (R216). -/
def shuffleSource (op : ShflOp) (code : Nat) (b i : Nat) : Nat :=
  let w := if code = 0 then waveWidth else 2 ^ code
  let base := i - i % w
  let j := i % w
  match op with
  | .idx => base + b % w
  | .up => if b ≤ j then base + j - b else i
  | .dn => if j + b < w then base + j + b else i
  | .xor => base + (j ^^^ (b % w))

def execShfl (op : ShflOp) (f : LaneFields) (s : State) : Result :=
  issue (.shfl op f) (moveLanes (.shfl op f) f fun c l => shuffleSource op f.c.toNat (c.srcB f .int32 l).toNat l) s

/-- `lbc` (R217): B of the lowest lane of `EM`. -/
def execLbc (f : LaneFields) (s : State) : Result :=
  issue (.lbc f) (moveLanes (.lbc f) f fun c _ =>
    (c.srcB f .int32 ((lowestLane c.em).getD 0)).toNat % waveWidth) s

def QswpOp.flip : QswpOp → Nat
  | .h => 1
  | .v => 2
  | .d => 3

def execQswp (op : QswpOp) (f : LaneFields) (s : State) : Result :=
  issue (.qswp op f) (moveLanes (.qswp op f) f fun _ l => l ^^^ QswpOp.flip op) s
def execQbc (f : LaneFields) (s : State) : Result :=
  issue (.qbc f) (moveLanes (.qbc f) f fun _ l => l / 4 * 4 + f.c.toNat) s

/-! Reductions and scans. -/

/-- The lane set of R214. -/
def Ctx.laneSet (c : Ctx) (f : LaneFields) : Lanes := c.em &&& c.maskC f 0xFFFFFFFF#32

def RedOp.isFloat : RedOp → Bool
  | .fadd | .fmin | .fmax => true
  | _ => false

/-- The identities of R219. -/
def RedOp.identity : RedOp → Word
  | .add | .or | .xor => 0#32
  | .min => 0x7FFFFFFF#32
  | .max => 0x80000000#32
  | .and => 0xFFFFFFFF#32
  | .fadd => 0x80000000#32
  | .fmin => 0x7F800000#32
  | .fmax => 0xFF800000#32

/-- An integer operation over a list, exact and then wrapped or saturated once (R219). -/
def reduceInt (op : RedOp) (sat : Bool) (xs : List Word) : Word :=
  match op with
  | .add => signedResult 32 sat (xs.foldl (fun t x => t + x.toInt) 0)
  | .min => xs.foldl minS (RedOp.identity op)
  | .max => xs.foldl maxS (RedOp.identity op)
  | .and => xs.foldl (fun t x => t &&& x) (RedOp.identity op)
  | .or => xs.foldl (fun t x => t ||| x) (RedOp.identity op)
  | _ => xs.foldl (fun t x => t ^^^ x) (RedOp.identity op)

/-- One step of the float networks, rounded to nearest even (R219). -/
def floatStep (op : RedOp) (a b : Word) : Word :=
  let x := decodeF .f32 a.toNat
  let y := decodeF .f32 b.toNat
  f32Bits (match op with
    | .fadd => x.add false y
    | .fmin => fminX x y
    | _ => fmaxX x y)

/-- The tree of R219 at distances 1, 2, 4, 8, 16. -/
def floatTree (op : RedOp) (t : List Word) : Word :=
  laneAt ([1, 2, 4, 8, 16].foldl (fun t d => laneList.map fun p =>
    if p % (2 * d) = 0 then floatStep op (laneAt t p) (laneAt t (p + d)) else laneAt t p) t) 0

/-- The network of R221. -/
def floatScan (op : RedOp) (t : List Word) : List Word :=
  [1, 2, 4, 8, 16].foldl (fun t d => laneList.map fun p =>
    if d ≤ p then floatStep op (laneAt t (p - d)) (laneAt t p) else laneAt t p) t

/-- A value entering a float network; a NaN enters canonical. -/
def floatEntry (x : Word) : Word := f32Bits (decodeF .f32 x.toNat)

/-- The values of A over a lane set, with the identity elsewhere. -/
def Ctx.entries (c : Ctx) (f : LaneFields) (op : RedOp) (m : Lanes) : List Word :=
  laneList.map fun p => if m.getLsbD p then floatEntry (c.srcA f .f32 p) else RedOp.identity op

/-- The reduction over a lane set (R219). -/
def Ctx.reduce (c : Ctx) (f : LaneFields) (op : RedOp) (m : Lanes) : Word :=
  if RedOp.isFloat op then floatTree op (c.entries f op m)
  else reduceInt op (isSat f) ((lanesOf m).map fun p => c.srcA f .int32 p)

/-- Writes a group destination and the flags of R220. -/
def Ctx.laneToGroup (c : Ctx) (i : Instr) (f : LaneFields) (m : Lanes) (x : Word) : Eff State :=
  match c.gate (usesOf i) [] with
  | .error e => .error e
  | .ok () =>
    .ok (c.done i fun w => updFlags c.sl (fun t => { t.ofWord x with e := m == 0#32 })
      (writeGroup c.sl (f.d.extractLsb' 0 7) x (popAll c.em (usesOf i) w)))

def execLred (op : RedOp) (f : LaneFields) (s : State) : Result :=
  issue (.lred op f) (fun c => c.laneToGroup (.lred op f) f (c.laneSet f) (c.reduce f op (c.laneSet f))) s

/-- The lanes below `i`, and with `i` itself when `incl`. -/
def lanesBelow (i : Nat) (incl : Bool) : Lanes := lanesWhere fun j => decide (j < i) || (incl && j == i)

/-- The value that a scan gives lane `i`, and its total (R221). -/
def Ctx.scanAt (c : Ctx) (f : LaneFields) (op : RedOp) (excl : Bool) (m : Lanes) : List Word × Word :=
  if RedOp.isFloat op then
    let t := c.entries f op m
    let incl := floatScan op t
    (if excl then floatScan op (RedOp.identity op :: t.take 31) else incl, laneAt incl 31)
  else
    let fold (k : Lanes) : Word := reduceInt op (isSat f) ((lanesOf (m &&& k)).map fun p => c.srcA f .int32 p)
    (laneList.map fun i => fold (lanesBelow i (!excl)), fold 0xFFFFFFFF#32)

/-- Scans (R221, R222): only the lanes of L receive a value, or push one. -/
def execLscan (excl : Bool) (op : RedOp) (f : LaneFields) (s : State) : Result :=
  let i : Instr := .lscan excl op f
  issue i (fun c =>
    let m := c.laneSet f
    let r := c.scanAt f op excl m
    if !({ c with em := m } : Ctx).roomFor (usesOf i) then .error .wait
    else match c.gate ((usesOf i).filter fun
        | .rd _ _ => true
        | _ => false) [] with
    | .error e => .error e
    | .ok () =>
      .ok (c.done i fun w =>
        let w := writeBlock m f.d 1 (fun l => [laneAt r.1 l]) (popAll c.em (usesOf i) w)
        let w := updFlags c.sl (fun t => { t.ofWord r.2 with e := m == 0#32 }) w
        if Form.noS f then w else w.setS f.s.toNat r.2)) s

/-! Votes (R223). -/

/-- The lanes of L that hold a nonzero value. -/
def Ctx.trueLanes (c : Ctx) (f : LaneFields) : Lanes :=
  c.laneSet f &&& lanesWhere fun l => c.em.getLsbD l && c.srcA f .int32 l != 0#32

def execLvoteAny (f : LaneFields) (s : State) : Result :=
  issue (.lvoteAny f) (fun c =>
    c.laneToGroup (.lvoteAny f) f (c.laneSet f) (boolWord (c.trueLanes f != 0#32))) s
def execLvoteAll (f : LaneFields) (s : State) : Result :=
  issue (.lvoteAll f) (fun c =>
    c.laneToGroup (.lvoteAll f) f (c.laneSet f) (boolWord (c.trueLanes f == c.laneSet f))) s
def execLvoteBal (f : LaneFields) (s : State) : Result :=
  issue (.lvoteBal f) (fun c => c.laneToGroup (.lvoteBal f) f (c.laneSet f) (c.trueLanes f)) s
def execLfirst (f : LaneFields) (s : State) : Result :=
  issue (.lfirst f) (fun c =>
    c.laneToGroup (.lfirst f) f (c.laneSet f)
      (match lowestLane (c.laneSet f) with
        | some l => c.srcA f .int32 l
        | none => 0#32)) s

end Sys2Proof.Machine
end

