-- ==== Sys2Proof/Machine/Group.lean ====
section
/-!
DEFINITION. Scalar integer instructions, the constant bank and special registers (04_group.md, R108 to R119).
-/
namespace Sys2Proof.Machine

open Sys2Proof

/-- A form with sources A and B that sets Z and N. -/
def groupBin (i : Instr) (g : GroupFields) (op : Word → Word → Word) (c : Ctx) : Eff State :=
  c.groupWrite i g.sd (op (c.gsrc g g.sa) (c.gsrc g g.sb)) id
def groupUn (i : Instr) (g : GroupFields) (op : Word → Word) (c : Ctx) : Eff State :=
  c.groupWrite i g.sd (op (c.gsrc g g.sa)) id

/-- C and V of a sum and a difference at a width (R111). -/
def addFlags {n : Nat} (a b : BitVec n) (f : Flags) : Flags :=
  { f with c := carryAdd a b, v := outside n (a.toInt + b.toInt) }
def subFlags {n : Nat} (a b : BitVec n) (f : Flags) : Flags :=
  { f with c := noBorrow a b, v := outside n (a.toInt - b.toInt) }
/-- V of `sabs` and `sneg` (R111). -/
def mostNegative (a : Word) (f : Flags) : Flags := { f with v := a == 0x80000000#32 }

def execSadd (g : GroupFields) (s : State) : Result :=
  issue (.sadd g) (fun c =>
    let a := c.gsrc g g.sa
    let b := c.gsrc g g.sb
    c.groupWrite (.sadd g) g.sd (a + b) (addFlags a b)) s
def execSsub (g : GroupFields) (s : State) : Result :=
  issue (.ssub g) (fun c =>
    let a := c.gsrc g g.sa
    let b := c.gsrc g g.sb
    c.groupWrite (.ssub g) g.sd (a - b) (subFlags a b)) s
def execSmul (g : GroupFields) (s : State) : Result := issue (.smul g) (groupBin (.smul g) g fun a b => a * b) s
def execSmulhi (g : GroupFields) (s : State) : Result := issue (.smulhi g) (groupBin (.smulhi g) g mulHigh) s
def execSmulhu (g : GroupFields) (s : State) : Result := issue (.smulhu g) (groupBin (.smulhu g) g mulHighU) s
def execSand (g : GroupFields) (s : State) : Result := issue (.sand g) (groupBin (.sand g) g fun a b => a &&& b) s
def execSor (g : GroupFields) (s : State) : Result := issue (.sor g) (groupBin (.sor g) g fun a b => a ||| b) s
def execSxor (g : GroupFields) (s : State) : Result := issue (.sxor g) (groupBin (.sxor g) g fun a b => a ^^^ b) s
def execSandn (g : GroupFields) (s : State) : Result :=
  issue (.sandn g) (groupBin (.sandn g) g fun a b => a &&& ~~~b) s
def execSnot (g : GroupFields) (s : State) : Result := issue (.snot g) (groupUn (.snot g) g fun a => ~~~a) s
def execSshl (g : GroupFields) (s : State) : Result := issue (.sshl g) (groupBin (.sshl g) g shiftLeft) s
def execSshr (g : GroupFields) (s : State) : Result := issue (.sshr g) (groupBin (.sshr g) g shiftRight) s
def execSsar (g : GroupFields) (s : State) : Result := issue (.ssar g) (groupBin (.ssar g) g shiftArith) s
def execSmin (g : GroupFields) (s : State) : Result := issue (.smin g) (groupBin (.smin g) g minS) s
def execSmax (g : GroupFields) (s : State) : Result := issue (.smax g) (groupBin (.smax g) g maxS) s
def execSminu (g : GroupFields) (s : State) : Result := issue (.sminu g) (groupBin (.sminu g) g minU) s
def execSmaxu (g : GroupFields) (s : State) : Result := issue (.smaxu g) (groupBin (.smaxu g) g maxU) s
def execSabs (g : GroupFields) (s : State) : Result :=
  issue (.sabs g) (fun c =>
    let a := c.gsrc g g.sa
    c.groupWrite (.sabs g) g.sd (BitVec.ofInt 32 a.toInt.natAbs) (mostNegative a)) s
def execSneg (g : GroupFields) (s : State) : Result :=
  issue (.sneg g) (fun c =>
    let a := c.gsrc g g.sa
    c.groupWrite (.sneg g) g.sd (-a) (mostNegative a)) s
def execScmp (cc : IntCond) (g : GroupFields) (s : State) : Result :=
  issue (.scmp cc g) (groupBin (.scmp cc g) g fun a b => boolWord (intHolds cc a b)) s
/-- `ssel` reads Z of the issuing slice before it is written (R111). -/
def execSsel (g : GroupFields) (s : State) : Result :=
  issue (.ssel g) (fun c => groupBin (.ssel g) g (fun a b => if c.slice.gf.getLsbD 0 then b else a) c) s
def execSmov (g : GroupFields) (s : State) : Result := issue (.smov g) (groupUn (.smov g) g id) s
def execSli (sd : BitVec 7) (imm : BitVec 14) (s : State) : Result :=
  issue (.sli sd imm) (fun c => c.groupWrite (.sli sd imm) sd (imm.signExtend 32) id) s
def execSbfe (g : GroupFields) (s : State) : Result := issue (.sbfe g) (groupBin (.sbfe g) g extractU) s
/-- `sbfi` reads D as the base (R112). -/
def execSbfi (g : GroupFields) (s : State) : Result :=
  issue (.sbfi g) (fun c => groupBin (.sbfi g) g (fun a b => insertBits a b (c.w.sreg g.sd.toNat)) c) s
def execSpopc (g : GroupFields) (s : State) : Result :=
  issue (.spopc g) (groupUn (.spopc g) g fun a => BitVec.ofNat 32 (popcount a)) s
def execSclz (g : GroupFields) (s : State) : Result :=
  issue (.sclz g) (groupUn (.sclz g) g fun a => BitVec.ofNat 32 (leadingZeros a)) s
def execSctz (g : GroupFields) (s : State) : Result :=
  issue (.sctz g) (groupUn (.sctz g) g fun a => BitVec.ofNat 32 (trailingZeros a)) s
def execSadd64 (g : GroupFields) (s : State) : Result :=
  issue (.sadd64 g) (fun c =>
    let a := c.gsrc64 g g.sa
    let b := c.gsrc64 g g.sb
    c.groupWrite64 (.sadd64 g) g.sd (a + b) (addFlags a b)) s
def execSsub64 (g : GroupFields) (s : State) : Result :=
  issue (.ssub64 g) (fun c =>
    let a := c.gsrc64 g g.sa
    let b := c.gsrc64 g g.sb
    c.groupWrite64 (.ssub64 g) g.sd (a - b) (subFlags a b)) s
def execSmul64 (g : GroupFields) (s : State) : Result :=
  issue (.smul64 g) (fun c => c.groupWrite64 (.smul64 g) g.sd (c.gsrc64 g g.sa * c.gsrc64 g g.sb) id) s

/-! The constant bank (R117). -/

/-- The exact byte address: the base plus the immediate, or plus the signed literal. -/
def bankAddr (c : Ctx) (g : GroupFields) : Int :=
  (c.gsrc g g.sa).toNat + (if Form.gLit g.sb then litInt g.lit else 4 * (g.sb.toNat : Int))

/-- A word of the launch's bank. -/
def bankWord (l : Launch) (a : Nat) : Word := BitVec.ofNat 32 (ofBytes ((l.bank.drop a).take 4))

/-- Reading the constant bank of the workgroup's launch: MISALIGNED before CONST_RANGE (R8, R117). A keeper agent, which has
no launch, has no bank (DESIGN CHOICE, log entry 140). -/
def readBank (c : Ctx) (addr : Int) : Eff Word :=
  if addr % 4 != 0 then fail .misaligned
  else match c.launch with
    | none => fail .constRange
    | some l => if addr < 0 || (l.kernel.constants : Int) < addr + 4 then fail .constRange else .ok (bankWord l addr.toNat)

def execSldk (g : GroupFields) (s : State) : Result :=
  issue (.sldk g) (fun c => match readBank c (bankAddr c g) with
    | .error e => .error e
    | .ok x => c.groupWriteQuiet (.sldk g) g.sd x) s

/-! Special registers. -/

/-- `sget` (R118): no flag; `CLOCK` goes whole to the pair. -/
def execSget (g : GroupFields) (s : State) : Result :=
  issue (.sget g) (fun c =>
    let x := c.special g.sa.toNat
    .ok (c.done (.sget g) fun w =>
      let w := writeGroup c.sl g.sd (lowWord x) w
      if g.sa.toNat == 0x1B then w.setS (g.sd.toNat + 1) (highWord x) else w)) s

/-- `sset` (R119): `GF` of the slice, or a clear of `ERRSTICKY` bits of the context, which takes effect two cycles later
(`QSlot.settleClears`). -/
def execSset (g : GroupFields) (s : State) : Result :=
  issue (.sset g) (fun c =>
    let a := c.gsrc g g.sa
    if g.sd.toNat == 0x14 then
      .ok (c.done (.sset g) (fun w => w.updSlice c.sl fun t => { t with gf := a.extractLsb' 0 5 }))
    else
      let s := match c.launch with
        | some l => c.s.updSlot l.slot fun q =>
          { q with clears := q.clears ++ [⟨c.ref, c.sl, a.extractLsb' 0 2, c.s.clock + 2⟩] }
        | none => c.s
      .ok (c.doneState (.sset g) s)) s

end Sys2Proof.Machine
end

