-- ==== Sys2Proof/Machine/Launching.lean ====
section
/-!
DEFINITION. From a launch to its completion (18_launch.md): order within a slot (R435), tickets (R442, R443), the resume
(R422), levels, pre-emption and ageing (R440, R441), exchange (R444) and completion (R438).
-/
namespace Sys2Proof.Machine

open Sys2Proof

/-! Order within a slot (R435). -/

/-- The span of a range: its first byte and the one past its last. -/
def Range.span (r : Range) : Nat × Nat := (r.base / 256 * 256, ((r.base + 256 * r.size - 1) / 256 + 1) * 256)
/-- Two launches conflict. -/
def Launch.conflicts (a b : Launch) : Bool :=
  a.ranges.isEmpty || b.ranges.isEmpty || a.ranges.any fun x => b.ranges.any fun y =>
    (x.write || y.write) && x.span.1 < y.span.2 && y.span.1 < x.span.2

/-- Every earlier launch of the slot that a waiting launch conflicts with has completed (R435). -/
def State.mayStart (s : State) (l : Launch) : Bool :=
  l.state == .waiting && s.mapped l.slot && !(s.inFlight l.slot).any fun o => o.id < l.id && o.conflicts l

/-! The start (R434, R442). -/

/-- The tickets of a launch. -/
def Launch.tickets (l : Launch) : Nat := ceilDiv l.count l.group

/-- The 64 bytes of a ticket block (R442). -/
def Launch.block (l : Launch) (level : Nat) : List Byte :=
  bytesOf 0 4 ++ bytesOf l.tickets 4 ++ bytesOf l.descriptor.toNat 8 ++ bytesOf l.count 4 ++
  bytesOf (l.vi * 2 ^ 12 + l.slot * 2 ^ 6 + level * 2 ^ 3 + (l.group - 1)) 4 ++ bytesOf l.sequence.toNat 8 ++
  List.replicate 32 0#8

/-- A free place for a ticket block in the pinned part of the save region, of the command processor's choice. -/
def State.ticketPlace (s : State) : Option Nat × State :=
  let blocks := 64 * (s.pinnedPages - s.savePages true)
  let (n, t) := s.draw
  let base := s.savebase.toNat
  let free := ((List.range (s.launches.length + 1)).map fun i => base + 64 * ((n + i) % blocks)).filter fun a =>
    s.launches.all fun l => l.state != .released || l.ticketAddr != a
  (if blocks = 0 then none else free.head?, t)

/-- LAUNCH_START (R434, R435): the bank is copied and the ticket block written once every conflicting earlier launch of the
slot has completed. -/
def execLaunchStart (id : Nat) (s : State) : Result :=
  .next (match s.launch id with
    | none => s
    | some l =>
      if !s.mayStart l || !s.running then s
      else match s.baseRead l.vi l.bankAddr (if l.count = 0 then 0 else l.kernel.constants) with
        | .error .owned => s
        | .error (.cause c va) => (s.failContext l.slot c 2 va l.head).getD s
        | .ok (bank, t) => match t.ticketPlace with
          | (none, _) => s
          | (some a, t) =>
            let t : State := { t with dmem := Mem.write t.dmem a (l.block (t.slot l.slot).priority) }
            t.updLaunch id fun l => { l with state := .released, bank := bank, ticketAddr := a })

/-! Placement (R443). -/

/-- The next ticket and the total of a launch's block. -/
def State.ticketCounts (s : State) (l : Launch) : Nat × Nat :=
  (ofBytes (Mem.read s.dmem l.ticketAddr 4), ofBytes (Mem.read s.dmem (l.ticketAddr + 4) 4))
/-- A ticket of the launch is not claimed. -/
def State.unclaimed (s : State) (l : Launch) : Bool :=
  l.state == .released && (s.ticketCounts l).1 < (s.ticketCounts l).2

/-- The members of a workgroup's cluster group that are saved. -/
def State.savedMates (s : State) (g : Workgroup) : List Workgroup := (s.family g).filter fun h => h.status == .saved
/-- A saved workgroup may be resumed, with its cluster group: a member of it could run (R444). -/
def State.resumable (s : State) (g : Workgroup) : Bool :=
  g.status == .saved && !(s.family g).any Workgroup.placed && (s.savedMates g).any Workgroup.couldRun
/-- A saved workgroup of a launch may be resumed. -/
def State.readySaved (s : State) (l : Launch) : Bool := s.wgs.any fun g => g.launch == l.id && s.resumable g

/-- A launch may release or resume a workgroup. -/
def State.hasWork (s : State) (l : Launch) : Bool :=
  l.state == .released && (s.unclaimed l || !l.requeued.isEmpty || !l.claimed.isEmpty || s.readySaved l)

/-- A slot has work that R435 allows to be released, or a workgroup to resume (R441). -/
def State.slotWork (s : State) (k : Nat) : Bool :=
  s.mapped k && (s.inFlight k).any fun l => s.hasWork l || (s.mayStart l && l.count != 0)

/-- The highest effective level among slots with launches that may release or resume workgroups, started or not (R435, R440). -/
def State.topLevel (s : State) : Nat := s.launches.foldl (fun m l =>
  if s.mapped l.slot && (s.hasWork l || (s.mayStart l && l.count != 0)) then max m (s.level l.slot) else m) 0

/-- The tickets that the keeper of a core has claimed and not placed. -/
def Launch.held (l : Launch) (core : Nat) : List Nat :=
  (l.claimed.filter fun p => p.1 == core).map fun p => p.2

/-- WORKGROUP_PLACE (R443): a requeued workgroup, or the next ticket when nothing requeued or saved of its level is ready: one
that `ktk` has claimed for the core, in ascending order, or a new one. A keeper claims only what it can place; for g > 1 it is
that of the lowest core of a cluster. -/
def execWorkgroupPlace (launch core : Nat) (s : State) : Result :=
  .next (match s.launch launch with
    | none => s
    | some l =>
      if !s.running || l.state != .released || !s.mapped l.slot || s.level l.slot != s.topLevel then s
      else match l.requeued with
        | f :: rest =>
          ((s.releaseTicket l f core).map fun t => t.updLaunch launch fun l => { l with requeued := rest }).getD s
        | [] =>
          let before := s.launches.any fun o => s.mapped o.slot && s.level o.slot == s.level l.slot &&
            o.state == .released && (!o.requeued.isEmpty || s.readySaved o)
          if before then s
          else match (l.held core).min? with
            | some k =>
              ((s.releaseTicket l k core).map fun t => t.updLaunch launch fun l =>
                { l with claimed := l.claimed.filter fun p => p != (core, k) }).getD s
            | none =>
              if !s.unclaimed l || (l.group != 1 && core % 8 != 0) then s
              else
                let (first, t) := s.claim l.ticketAddr 1
                (t.releaseTicket l first.toNat core).getD s)

/-! Resuming (R422). -/

/-- The saved contexts are shared or loaded again at the new cluster (R367). -/
def restoreGraphs (cluster : Nat) : List (Option GraphCtx) → State → Option (List (Option Nat) × State)
  | [], s => some ([], s)
  | none :: rest, s => (restoreGraphs cluster rest s).map fun p => (none :: p.1, p.2)
  | some c :: rest, s => match s.loadContext cluster c.vi c.addr c.image with
    | (none, _) => none
    | (some k, s) => (restoreGraphs cluster rest s).map fun p => (some k :: p.1, p.2)

/-- The saved workgroup stands on a core again: its cards re-enter the arbiter (R384), its commands take their remaining
lines again (R404), the layout cache is empty (R420), and the core acquires (R307). -/
def State.restore (s : State) (l : Launch) (g : Workgroup) (core : Nat) : Option State :=
  match g.saved with
  | none => none
  | some work =>
    if !s.canPlace l core then none
    else match restoreGraphs (clusterOf core) work.graphs s with
      | none => none
      | some (graphs, s) =>
        let bases := s.scratchBases core l.kernel.scratch
        let (n, s) := s.draw
        let slot := s.freeSlot core
        let ctxOf (k : Card) : Nat := ((graphs[k.entry]?).join).getD k.ctx
        let cards := (work.cards.zipIdx).map fun p =>
          { p.1 with core := core, ctx := ctxOf p.1, arrival := s.nextId + p.2 }
        let cmds := work.cmds.map fun k => { k with core := core }
        let s : State := { s with
          cards := s.cards ++ cards, cmds := s.cmds ++ cmds
          reqs := s.reqs ++ work.reqs.map fun r => { r with core := core } }
        let waves := s.seatWaves core n g.waves
        let back (g : Workgroup) : Workgroup :=
          { g with core := core, slot := slot, graphs := graphs, waves := waves, status := .resident, saved := none,
                   scrbase := (bases[n % bases.length]?).getD 0 }
        let s := (s.updWg g.id back).updLaunch l.id fun l => { l with resumes := l.resumes + 1 }
        let s : State := { s with groups := s.groups.map fun c =>
            if c.launch == g.launch && c.cg == g.cg then { c with resumes := c.resumes + 1 } else c }
        let s := s.updCluster (clusterOf core) fun c => { c with layouts := [] }
        let s := (cmds.foldl State.takeLines { s with nextId := s.nextId + cards.length }).arriveOn l core slot
        some (cards.foldl (fun s k => s.wakeCard k.id) s)

/-- The saved members of a cluster group are restored on different cores of one cluster. -/
def restoreAll (l : Launch) : List Workgroup → List Nat → State → Option State
  | [], _, s => some s
  | g :: gs, cores, s => match cores.find? (s.canPlace l) with
    | none => none
    | some c => (s.restore l g c).bind (restoreAll l gs (cores.erase c))

/-- RESUME (R422): the saved members of a cluster group together, on one core or on cores of their cluster, of the highest
level (R440). A held workgroup is resumed by system software alone, beside the members of its group that run on other cores of
the cluster (R39, R408). -/
def execResume (wg core : Nat) (s : State) : Result :=
  .next (match s.wg wg with
    | none => s
    | some g => match s.launch g.launch with
      | none => s
      | some l =>
        let fam := s.family g
        let here := fam.filter Workgroup.placed
        let back := fam.filter fun h => h.status == .saved || (h.status == .held && h.id == wg)
        let cluster := match here with
          | h :: _ => clusterOf h.core
          | [] => clusterOf core
        let ready := g.status == .held || (s.resumable g && s.level l.slot == s.topLevel)
        if !s.running || !s.mapped l.slot || !ready then s
        else
          let (cores, t) := if l.group = 1 then ([core], s) else s.coreOrder cluster
          (restoreAll l back (cores.filter fun c => here.all fun h => h.core != c) t).getD s)

/-! Levels, pre-emption and ageing (R440, R441). -/

/-- The workgroups of a ticket (R442): the last one may be short. -/
def Launch.ticketSize (l : Launch) (k : Nat) : Nat := ((List.range l.group).filter fun j => k * l.group + j < l.count).length
/-- The cores that the launch's next work asks for, in one cluster: a requeued workgroup, a saved cluster group, or a ticket (R443). -/
def State.nextCores (s : State) (l : Launch) : Nat :=
  match l.requeued, s.wgs.find? fun g => g.launch == l.id && s.resumable g, (l.claimed.map fun p => p.2).min? with
  | _ :: _, _, _ => 1
  | [], some g, _ => (s.savedMates g).length
  | [], none, some k => l.ticketSize k
  | [], none, none => l.ticketSize (s.ticketCounts l).1
/-- The cores of a cluster can take the launch's next work. -/
def State.canPlaceTicket (s : State) (l : Launch) : Bool :=
  (List.range 24).any fun c => s.nextCores l ≤ ((List.range 8).filter fun j => s.canPlace l (8 * c + j)).length

/-- The workgroup that a pre-emption cuts: of the lowest level below `level`, the most recently released. -/
def State.victim (s : State) (level : Nat) : Option Workgroup :=
  let below := s.wgs.filter fun g => g.status == .resident && !g.keeper && s.level (s.slotOf g) < level
  below.foldl (fun best g => match best with
    | none => some g
    | some b =>
      let lg := s.level (s.slotOf g)
      let lb := s.level (s.slotOf b)
      if lg < lb || (lg = lb && b.released < g.released) then some g else some b) none

/-- PRIORITY_PREEMPT (R440): no core can hold the work of the highest level, and no cut is under way. -/
def execPriorityPreempt (k : Nat) (s : State) : Result :=
  .next (
    let level := s.level k
    let cutting := s.wgs.any fun g => g.request.isSome || g.status == .saving || g.status == .discarding
    let stuckWork := (s.inFlight k).any fun l => s.hasWork l && !s.canPlaceTicket l
    if !s.running || !s.mapped k || level != s.topLevel || !stuckWork || cutting then s
    else match s.victim level with
      | none => s
      | some g => s.requestCut g true)

/-- AGEING_PERIOD (R441). -/
def execAgeingPeriod (k : Nat) (s : State) : Result :=
  .next (match (s.slot k).starved with
    | none => s
    | some c =>
      if c + s.ctl.ageing ≤ s.clock && s.slotWork k then
        s.updSlot k fun q => { q with
          level := if q.priority = 7 then 7 else if q.level < 6 then q.level + 1 else q.level, starved := some s.clock }
      else s)

/-! Exchange (R444). -/

/-- A workgroup is exchangeable while its launch has another that could run. -/
def State.mayExchange (s : State) (g : Workgroup) : Bool :=
  g.status == .resident && !g.keeper && (s.family g).all (fun h => h.status == .ended || h.exchangeable) &&
  match s.launch g.launch with
  | some l => s.hasWork l
  | none => false

/-- EXCHANGE_PERIOD (R444): after one period the workgroup is cut by save-and-restore. -/
def execExchangePeriod (wg : Nat) (s : State) : Result :=
  .next (match s.wg wg with
    | none => s
    | some g => match g.exchangeSince with
      | none => s
      | some c =>
        if c + (s.slot (s.slotOf g)).slice ≤ s.clock && s.mayExchange g then
          (s.requestCut g false).startHandler g.core g.slot
        else s)

/-! Completion (R438, R439). -/

/-- Every ticket has been claimed and placed, every workgroup has ended and what it issued is complete, no halt of the context
is under way, and every earlier launch of the slot has performed its completion store. -/
def State.launchDone (s : State) (l : Launch) : Bool :=
  l.state == .released && !s.unclaimed l && l.requeued.isEmpty && l.claimed.isEmpty &&
  (s.inFlight l.slot).all (fun o => l.id ≤ o.id) &&
  (s.slotWgs l.slot).all (fun g => match g.status with
    | .halting _ => false
    | _ => true) &&
  (s.wgs.all fun g => g.launch != l.id || g.keeper ||
    (g.status == .ended && g.waves.all fun w => w.recs.isEmpty && w.ringArrivals.isEmpty)) &&
  s.reqs.all fun r => match s.wg r.w.wg with
    | some g => g.launch != l.id || g.keeper
    | none => true

/-- The release of a launch's stores (R438). -/
def State.releaseLaunch (s : State) (l : Launch) : State :=
  (s.wgs.filter fun g => g.launch == l.id).foldl (fun s g => s.releaseL1 g.core) s

/-- LAUNCH_COMPLETION (R438): the release store of the sequence value, and `done`; a failed store terminates the context
(R439). -/
def execLaunchCompletion (id : Nat) (s : State) : Result :=
  .next (match s.launch id with
    | none => s
    | some l =>
      if !s.launchDone l || !s.running then s
      else
        let s := s.releaseLaunch l
        match if l.completion == 0#64 then .ok s else s.baseWrite l.vi l.scope l.completion (bytesOf l.sequence.toNat 8) with
        | .error .owned => s
        | .error (.cause c va) => (s.failContext l.slot c 2 va l.head).getD s
        | .ok t =>
          let t : State := { t with
            wgs := t.wgs.filter fun g => g.launch != id || g.keeper
            groups := t.groups.filter fun g => g.launch != id
            launches := t.launches.filter fun o => o.id != id }
          t.updSlot l.slot fun q => { q with done := l.sequence })

end Sys2Proof.Machine
end

