-- ==== Sys2Proof/Machine/Mask.lean ====
section
/-!
DEFINITION. Mask instructions (R114, R115).
-/
namespace Sys2Proof.Machine

open Sys2Proof

def maskBin (i : Instr) (g : GroupFields) (op : Word → Word → Word) (c : Ctx) : Eff State :=
  c.groupWrite i g.sd (op (c.gsrc g g.sa) (c.gsrc g g.sb)) id

def execMand (g : GroupFields) (s : State) : Result := issue (.mand g) (maskBin (.mand g) g fun a b => a &&& b) s
def execMor (g : GroupFields) (s : State) : Result := issue (.mor g) (maskBin (.mor g) g fun a b => a ||| b) s
def execMxor (g : GroupFields) (s : State) : Result := issue (.mxor g) (maskBin (.mxor g) g fun a b => a ^^^ b) s
def execMandn (g : GroupFields) (s : State) : Result := issue (.mandn g) (maskBin (.mandn g) g fun a b => a &&& ~~~b) s
def execMnot (g : GroupFields) (s : State) : Result :=
  issue (.mnot g) (fun c => c.groupWrite (.mnot g) g.sd (~~~(c.gsrc g g.sa)) id) s
def execMmov (g : GroupFields) (s : State) : Result :=
  issue (.mmov g) (fun c => c.groupWrite (.mmov g) g.sd (c.gsrc g g.sa) id) s

/-- E of a mask source (R114). -/
def emptyFlag (a : Word) (f : Flags) : Flags := { f with e := a == 0#32 }

def execMpopc (g : GroupFields) (s : State) : Result :=
  issue (.mpopc g) (fun c =>
    let a := c.gsrc g g.sa
    c.groupWrite (.mpopc g) g.sd (BitVec.ofNat 32 (popcount a)) (emptyFlag a)) s
def execMffs (g : GroupFields) (s : State) : Result :=
  issue (.mffs g) (fun c =>
    let a := c.gsrc g g.sa
    c.groupWrite (.mffs g) g.sd (if a == 0#32 then 0xFFFFFFFF#32 else BitVec.ofNat 32 (trailingZeros a))
      (emptyFlag a)) s
def execMtos (g : GroupFields) (s : State) : Result :=
  issue (.mtos g) (fun c => c.groupWrite (.mtos g) g.sd (c.gsrc g g.sa) id) s
def execStom (g : GroupFields) (s : State) : Result :=
  issue (.stom g) (fun c => c.groupWrite (.stom g) g.sd (c.gsrc g g.sa) id) s
def execMclr (g : GroupFields) (s : State) : Result :=
  issue (.mclr g) (fun c => c.groupWrite (.mclr g) g.sd 0#32 id) s
def execMset (g : GroupFields) (s : State) : Result :=
  issue (.mset g) (fun c => c.groupWrite (.mset g) g.sd 0xFFFFFFFF#32 id) s

/-- Bits a to a + b − 1, those above 31 dropped (R114). -/
def laneRun (a b : Word) : Word := lanesWhere fun k => decide (a.toNat ≤ k ∧ k < a.toNat + b.toNat)

def execMlane (g : GroupFields) (s : State) : Result := issue (.mlane g) (maskBin (.mlane g) g laneRun) s

end Sys2Proof.Machine
end

