-- ==== Sys2Proof/Machine/Mooring.lean ====
section
/-!
DEFINITION. Mooring points (R445, R446), placement hints (R461, R462) with the invalidation of translations that a move
makes, and the clock modes (R24).
-/
namespace Sys2Proof.Machine

open Sys2Proof

/-! Shares (R359, R445). -/

/-- Cores of a cluster that the shares of other slots hold, whose contexts are resident. -/
def State.otherShares (s : State) (cluster slot : Nat) : Nat :=
  sumOf (fun r : Nat × Nat × Nat => r.2.2) ((s.cluster cluster).ranges.filter fun r => r.1 != slot)

/-- A pending share of a slot takes effect at a cluster: its old placements leave the fabric, its range is the lowest free
run, and workgroups on the range's cores are cut. -/
def State.setShare (s : State) (slot cluster n base : Nat) : State :=
  let s := s.updSlot slot fun q => { q with shares := updAt (fun _ => n) q.shares cluster }
  let s := (s.unplaceShare slot cluster).updCluster cluster fun c => { c with
    ranges := c.ranges ++ (if n = 0 then [] else [(slot, base, n)]) }
  (s.wgs.filter fun g => clusterOf g.core == cluster && g.status == .resident && !g.keeper &&
    base ≤ g.core % 8 && g.core % 8 < base + n).foldl (fun s g => s.requestCut g false) s

/-- The share of another resident context for a cluster was written before `order` and is still pending. -/
def State.earlierShare (s : State) (slot cluster order : Nat) : Bool :=
  (List.range 64).any fun k => k != slot && s.mapped k && (s.slot k).pendingShares.any fun p => p.1 == cluster && p.2.2 < order

/-- The pending shares of a slot, in the order in which they were written; one that does not fit waits, and so does one
behind an earlier one of another slot. -/
def State.applyShares (s : State) (slot : Nat) : State :=
  (s.slot slot).pendingShares.foldl (fun s p =>
    if 8 < s.otherShares p.1 slot + p.2.1 || s.earlierShare slot p.1 p.2.2 then s
    else match s.allocShare p.1 slot p.2.1 with
      | none => s
      | some base => (s.setShare slot p.1 p.2.1 base).updSlot slot fun q => { q with
          pendingShares := q.pendingShares.filter fun x => x.1 != p.1 }) s

/-- Nothing of the slot is in flight: no launch, no SIGNAL, no card, no resident workgroup (R446). -/
def State.slotIdle (s : State) (k : Nat) : Bool :=
  (s.inFlight k).isEmpty && (s.slot k).signals.isEmpty && (s.slotWgs k).all fun g => !g.placed

/-- A resident context is at a mooring point: its slot is idle and the buffer is empty too. -/
def State.moored (s : State) (k : Nat) : Bool := s.running && s.mapped k && s.slotIdle k && (s.slot k).buf.isEmpty

/-- A pending share of the slot can take effect. -/
def State.shareReady (s : State) (k : Nat) : Bool :=
  (s.slot k).pendingShares.any fun p =>
    s.otherShares p.1 k + p.2.1 ≤ 8 && !s.earlierShare k p.1 p.2.2 && (s.allocShare p.1 k p.2.1).isSome

/-- MOORING_POINT (R446). -/
def execMooringPoint (k : Nat) (s : State) : Result := .next (if s.moored k then s.applyShares k else s)

/-! Invalidation of translations (R454). -/

/-- A translation maps a byte of the range. -/
def Tlb.meets (t : Tlb) (vi va n : Nat) : Bool := t.vi == vi && t.va < va + n && va < t.va + t.size
/-- Every translation cache drops the interface's translations of a range, and the walkers their entries. -/
def State.dropTranslations (s : State) (vi va n : Nat) : State :=
  { s with
    cores := s.cores.map fun c => { c with tlb := c.tlb.filter fun t => !t.meets vi va n }
    clusters := s.clusters.map fun c => { c with tlb := c.tlb.filter fun t => !t.meets vi va n }
    walkCache := s.walkCache.filter fun w => w.1 != vi }

/-! The hint list (R461, R462). -/

/-- The leaf of a virtual address: the address of its entry, and its translation. -/
def leafEntry (s : State) (vi va : Nat) : Option (Nat × Tlb) :=
  match walk s vi va with
  | .error _ => none
  | .ok t =>
    let root := bits (s.iface vi).root.toNat 51 12 * 4096
    let path := walkPath s vi root va [(51, 44), (43, 35), (34, 29), (28, 21)]
    match path.getLast? with
    | none => none
    | some (a, e) => some (if e.testBit 1 then bits e 51 12 * 4096 + 8 * bits va 20 12 else a, t)

/-- The leaves of a range, one for each page. -/
def leavesOf (s : State) (vi va size : Nat) (n : Nat) : Option (List (Nat × Tlb)) :=
  (List.range n).mapM fun k => leafEntry s vi (va + size * k)

/-- Bytes of a place at `.sys`, in device or host memory. -/
def State.placeBytes (s : State) (p : Place) (n : Nat) : List Byte × State :=
  if p.mem = 0 then s.sysBytes p n else (s.hostRead p.pa n, s)
def State.putBytes (s : State) (p : Place) (bs : List Byte) : State :=
  if p.mem = 0 then s.baseStore 4 p.pa bs else s.hostPut p.pa bs

/-- One page is copied and its leaf rewritten: addr and mem change, the other bits stay. The 16 entries of a 64 KiB page
are all rewritten. -/
def State.movePage (s : State) (x : Nat × Tlb) (dst : Place) : State :=
  let (entry, t) := x
  let (bs, s) := s.placeBytes t.place t.size
  let s := s.putBytes dst bs
  let many := if t.size = 65536 then 16 else 1
  let first := if t.size = 65536 then entry / 128 * 128 else entry
  (List.range many).foldl (fun (s : State) k =>
    let a := first + 8 * k
    let e := ofBytes (Mem.read s.dmem a 8)
    let new := bits e 63 52 * 2 ^ 52 + dst.pa / 4096 * 4096 + bits e 11 8 * 2 ^ 8 + dst.mem * 2 ^ 6 + bits e 5 0
    s.baseStore 3 a (bytesOf new 8)) s

/-- A move of pages; none when the entry breaks its conditions. -/
def State.moveRange (s : State) (vi va pages dest mem : Nat) : Option State :=
  match leafEntry s vi va with
  | none => none
  | some (_, t) =>
    let size := t.size
    let n := pages * 4096 / size
    if pages * 4096 % size != 0 || va % size != 0 || dest % size != 0 || 2 < mem ||
        (mem = 0 && deviceBytes < dest + pages * 4096) || 2 ^ 52 < dest + pages * 4096 || (!s.linkUp && (mem != 0 || t.place.mem != 0)) then none
    else match leavesOf s vi va size n with
      | none => none
      | some ls =>
        if ls.all fun x => x.2.size == size then
          let moved := (ls.zipIdx).foldl (fun (s : State) p => s.movePage p.1 ⟨mem, dest + size * p.2⟩) s
          some (moved.dropTranslations vi va (pages * 4096))
        else none

/-- A bias change: the range covers whole regions of 2 MiB of device memory. -/
def State.biasRange (s : State) (vi va pages : Nat) (host : Bool) : Option State :=
  match leavesOf s vi va 4096 pages with
  | none => none
  | some ls =>
    let frames := (ls.zipIdx).map fun p => (p.1.2.place.pa + (va + 4096 * p.2 - p.1.2.va)) / 4096
    let regions := (frames.map fun f => f / 512).eraseDups
    let whole := regions.all fun r => (List.range 512).all fun k => frames.contains (512 * r + k)
    if !ls.all (fun x => x.2.place.mem == 0) || !whole then none
    else if host then some { s with hostBias := s.hostBias ++ regions.filter fun r => !s.hostBias.contains r }
    else
      let held := (s.hcache.map Prod.fst ++ s.hshared).filter fun a => regions.contains (a / 2 ^ 21)
      let back := held.foldl State.recallHost s
      some { back with hostBias := back.hostBias.filter fun r => !regions.contains r }

/-- A page of an entry meets a line that an engine owns: its walk, its leaf, and for a move its bytes (R300). -/
def State.hintWaits (s : State) (vi : Nat) (bs : List Byte) : Bool :=
  let move := numAt bs 12 1 = 1
  (List.range (numAt bs 8 4)).any fun k =>
    let va := va52 (BitVec.ofNat 64 (numAt bs 0 8)) + 4096 * k
    walkOwned s vi va || (move && ((numAt bs 24 4 = 0 && s.ownedIn (numAt bs 16 8 + 4096 * k) 4096) ||
      match leafEntry s vi va with
      | some (a, t) => s.ownedIn a 8 || (t.place.mem == 0 && s.ownedIn (t.place.pa + (va - t.va)) 4096)
      | none => false))

/-- An entry of 32 bytes (R461); none when it is skipped. -/
def State.hintEntry (s : State) (vi : Nat) (bs : List Byte) : Option State :=
  let va := BitVec.ofNat 64 (numAt bs 0 8)
  let pages := numAt bs 8 4
  let action := numAt bs 12 1
  let mem := numAt bs 24 4
  let last := va.toNat + 4096 * pages - 1
  if va.toNat % 4096 != 0 || !canonical va || !canonical (BitVec.ofNat 64 last) || 2 ^ 64 ≤ last || pages = 0 ||
      numAt bs 13 3 != 0 || 2 < mem || numAt bs 28 4 != 0 then none
  else match action with
    | 1 => s.moveRange vi (va52 va) pages (numAt bs 16 8) mem
    | 2 => s.biasRange vi (va52 va) pages false
    | 3 => s.biasRange vi (va52 va) pages true
    | _ => none

/-- Entries are skipped and counted. -/
def State.skipHints (s : State) (vi n : Nat) : State :=
  s.updIface vi fun f => { f with hintskip := f.hintskip + BitVec.ofNat 32 n }

/-- The entries from `va` on, in order; one that cannot be read is skipped. None waits for a line. -/
def hintEntries (vi : Nat) : Nat → DWord → State → Option State
  | 0, _, s => some s
  | n + 1, va, s => match s.baseRead vi va 32 with
    | .error .owned => none
    | .error (.cause _ _) => hintEntries vi n (va + 32) (s.skipHints vi 1)
    | .ok (bs, t) =>
      if t.hintWaits vi bs then none else hintEntries vi n (va + 32) ((t.hintEntry vi bs).getD (t.skipHints vi 1))

/-- The hint list at an address: a bad header, or one that cannot be read, is skipped as one entry. -/
def State.hintList (s : State) (vi : Nat) (va : DWord) : Option State :=
  if va == 0#64 then some s
  else match s.baseRead vi va 16 with
    | .error .owned => none
    | .error (.cause _ _) => some (s.skipHints vi 1)
    | .ok (bs, t) =>
      if 4096 < numAt bs 0 4 || !allZero (bs.drop 4) then some (t.skipHints vi 1)
      else hintEntries vi (numAt bs 0 4) (va + 16) t

/-- MOOR (R446): once every earlier launch has completed, the shares and the hint list are applied. -/
def execMoor (k : Nat) (s : State) : Result :=
  packetEvent k 6 (fun p s =>
    if !s.slotIdle k then s
    else ((s.applyShares k).hintList (s.slotVi k) (p.d 2)).elim s fun t => t.consume k p) s

/-! Clock modes (R24). -/

/-- No kernel runs on any interface. -/
def State.noKernel (s : State) : Bool :=
  (s.launches.all fun l => l.state != .released) && s.wgs.all fun g => g.keeper || !g.placed

/-- CLOCK_MODE_CHANGE (R24): at a device-wide mooring point issue stops, for 40 µs at the new frequency. -/
def execClockModeChange (s : State) : Result :=
  .next (
    if s.ctl.mode != s.ctl.current && s.ctl.changing.isNone && s.noKernel then
      { s with ctl := { s.ctl with
          current := s.ctl.mode, changing := some (s.clock + if s.ctl.mode then 48000 else 96000) } }
    else s)

/-- CLOCK_MODE_RESUME (R24): issue resumes when `CLOCK` has advanced by the count of the new mode; `moded` is set. -/
def execClockModeResume (s : State) : Result :=
  .next (match s.ctl.changing with
    | none => s
    | some end_ =>
      ({ s with clock := max s.clock end_, ctl := { s.ctl with changing := none, moded := true } } : State).signalDevice)

end Sys2Proof.Machine
end

