-- ==== Sys2Proof/Machine/Registers.lean ====
section
/-!
DEFINITION. The host's side: its accesses and AtomicOps to device memory (R460, R466), the link (R467), and the register
blocks that it writes (R426, R447, R454, R457, R458, R468, R478, R482, R483).
-/
namespace Sys2Proof.Machine

open Sys2Proof

/-! Accesses of the host. -/

/-- The host holds bytes modified in its caches. -/
def State.hostKeeps (s : State) (a : Nat) : List Byte → State
  | [] => s
  | b :: bs => ({ s with hcache := setPair a b s.hcache } : State).hostKeeps (a + 1) bs

/-- The host holds the lines of a range unmodified in its caches, or with modified bytes (R459). -/
def State.hostShares (s : State) (a n : Nat) : State :=
  { s with hshared := (linesIn a n).filter (fun l => !s.hshared.contains l) ++ s.hshared }

/-- HOST_ACCESS (R460): in a region in host bias a cached access leaves its lines, and its bytes, with the host; any other
access is performed at the Lantern cache, after the host's own modified bytes. It is delayed while an engine owns a line of it
(R300). An access of the host to its own memory changes that memory (R303). -/
def execHostAccess (h : HostAccess) (s : State) : Result :=
  if h.own then
    .next (match h.write with
      | none => s
      | some bs => { s with hmem := Mem.write s.hmem h.addr (bs.take h.size) })
  else if deviceBytes < h.addr + h.size then .fault (.noDeviceMemory h.addr)
  else .next (
    if s.ownedIn h.addr h.size then { s with delayed := true }
    else
      let cached := h.cached && (linesIn h.addr h.size).all s.inHostBias
      match h.write with
      | none =>
        if cached then (s.hostShares h.addr h.size).reachRange h.addr h.size false
        else (s.recallRange h.addr h.size).reachRange h.addr h.size false
      | some bs =>
        let bs := bs.take h.size
        if cached then (s.hostShares h.addr h.size).hostKeeps h.addr bs
        else (s.recallRange h.addr h.size).baseStore 3 h.addr bs)

/-- The new value of an AtomicOp. -/
def hostNew (h : HostAtomic) (old : Nat) : Nat :=
  match h.op with
  | .fetchAdd => (old + h.operand) % 2 ^ (8 * h.size)
  | .swap => h.operand % 2 ^ (8 * h.size)
  | .cas => if old = h.compare % 2 ^ (8 * h.size) then h.operand % 2 ^ (8 * h.size) else old

/-- An AtomicOp of 32 or 64 bits, or a CAS of 128, at a multiple of its size. -/
def hostOk (h : HostAtomic) : Bool :=
  (h.size = 4 || h.size = 8 || (h.size = 16 && h.op == .cas)) && h.addr % h.size = 0

/-- HOST_ATOMICOP (R466): performed at the Lantern bank, as a `.sys` atomic is; delayed while an engine owns its line (R300).
On its own memory the host performs it there. -/
def execHostAtomicop (h : HostAtomic) (s : State) : Result :=
  if h.own then
    .next (if !hostOk h then s
      else
        let old := ofBytes (Mem.read s.hmem h.addr h.size)
        { s with hmem := Mem.write s.hmem h.addr (bytesOf (hostNew h old) h.size) })
  else if deviceBytes < h.addr + h.size then .fault (.noDeviceMemory h.addr)
  else .next (
    if !hostOk h then s
    else if s.ownedIn h.addr h.size then { s with delayed := true }
    else
      let (bs, t) := s.sysBytes ⟨0, h.addr⟩ h.size
      t.baseStore 4 h.addr (bytesOf (hostNew h (ofBytes bs)) h.size))

/-! The link (R467). -/

/-- LINK_DOWN (R467): every outstanding read and atomic to host memory fails. A store performed from now on is dropped. -/
def execLinkDown (s : State) : Result :=
  .next ((s.reqs.map Req.id).foldl failHost { s with linkUp := false })

/-! Memory blocks (R447, R454). -/

/-- A slot of an interface is enabled. -/
def State.ifaceEnabled (s : State) (vi : Nat) : Bool := s.slots.any fun q => q.enable && q.assigned == some vi
/-- A slot is enabled. -/
def State.anyEnabled (s : State) : Bool := s.slots.any QSlot.enable

/-- INVALIDATE_START (R454): every translation cache drops the interface's translations of the range, and every later walk
reads the tables; ignored while an invalidation is in progress. -/
def execInvalidateStart (vi : Nat) (s : State) : Result :=
  .next (
    let f := s.iface vi
    if f.busy.isSome then s
    else
      let all := f.invpages == BitVec.allOnes 32
      let va := if all then 0 else va52 f.invaddr
      let n := if all then 2 ^ 52 else 4096 * f.invpages.toNat
      let t : State := if n = 0 then { s with walkCache := s.walkCache.filter fun w => w.1 != vi }
        else s.dropTranslations vi va n
      t.updIface vi fun f => { f with busy := some (s.nextId, va, n) })

/-- An access in progress with a name below `id` may use a translation of the range: one whose address lies outside
does not. The accesses of ended and of saved workgroups count too. -/
def State.usesRange (s : State) (vi id va n : Nat) : Bool :=
  let inside (x : DWord) : Bool := va ≤ va52 x && va52 x < va + n
  let saved : List Req := s.wgs.flatMap fun g => match g.saved with
    | some x => x.reqs
    | none => []
  n != 0 && (
    ((s.reqs ++ saved).any fun r => tableVi r.vi == vi && r.id < id && match r.kind with
      | .load _ _ x _ _ _ _ => inside x
      | .atomic _ _ x _ _ _ _ _ => inside x
      | .gload _ _ | .icinv _ => false
      | _ => true) ||
    (s.wgs.any fun g => s.viOf g == vi && g.waves.any fun w => w.recs.any fun r =>
      r.id < id && r.lanes.any fun l => inside l.va) ||
    (s.cmds.any fun k => tableVi k.vi == vi && k.id < id) || s.cards.any fun k => tableVi k.vi == vi && k.id < id)

/-- INVALIDATE_COMPLETE (R454): busy returns to 0 once every access that used a dropped translation has been performed and
acknowledged. -/
def execInvalidateComplete (vi : Nat) (s : State) : Result :=
  .next (match (s.iface vi).busy with
    | none => s
    | some (id, va, n) => if s.usesRange vi id va n then s else s.updIface vi fun f => { f with busy := none })

/-- A field of bits `hi` down to `lo` of a 64-bit register, the other bits 0. -/
def fieldOf (x : DWord) (hi lo : Nat) : DWord := BitVec.ofNat 64 (bits x.toNat hi lo * 2 ^ lo)

/-- ROOT_WRITE (R447, R305): the table root; ignored while a slot of the interface is enabled. Every instruction cache drops
the interface's lines. -/
def execRootWrite (vi : Nat) (value : DWord) (s : State) : Result :=
  .next (
    if s.ifaceEnabled vi then s
    else ({ s with cores := s.cores.map fun c => { c with icache := c.icache.filter fun l => l.vi != vi } } : State).updIface vi
      fun f => { f with root := fieldOf value 51 12 })

/-! Pins (R457, R458). -/

/-- The parts of intervals that lie outside one more. -/
def cutOut (a n : Nat) (l : List (Nat × Nat)) : List (Nat × Nat) :=
  (l.flatMap fun p => [(p.1, min (p.1 + p.2) a - p.1), (max p.1 (a + n), p.1 + p.2 - max p.1 (a + n))]).filter
    fun p => p.2 != 0
/-- The bytes that a list of ranges covers. -/
def covered : List (Nat × Nat) → Nat
  | [] => 0
  | p :: rest => sumOf Prod.snd (rest.foldl (fun l q => cutOut q.1 q.2 l) [p]) + covered rest

/-- The range of a pin register. -/
def Pin.range (p : Pin) : Nat × Nat := (p.base.toNat, 4096 * p.pages.toNat)
/-- The ranges that the other registers pin. -/
def State.pinnedRanges (s : State) (k : Nat) : List (Nat × Nat) :=
  (s.pins.zipIdx).filterMap fun p => if p.2 != k && (p.1.status = 1 || p.1.status = 3) then some p.1.range else none

/-- Some set of the Lantern cache would hold more than 16 lines of the ranges (R457). -/
def overfullSet (ranges : List (Nat × Nat)) : Bool :=
  let lines := (ranges.flatMap fun r => linesIn r.1 r.2).eraseDups
  lines.any fun l => 16 < (lines.filter fun m => Config.lanternSet m == Config.lanternSet l).length

/-- Pin register 0 breaks what R458 asks of it. -/
def State.breaksSave (s : State) (p : Pin) : Bool := p.base != s.savebase || s.savepages.toNat < p.pages.toNat

/-- The fill of a range is refused: over 256 MiB, or a set with over 16 lines, or a save region that is not the one R458
names. -/
def State.refusesPin (s : State) (k : Nat) (p : Pin) : Bool :=
  256 * 2 ^ 20 < covered (p.range :: s.pinnedRanges k) || deviceBytes < p.range.1 + p.range.2 ||
  (k = 0 && s.breaksSave p) || overfullSet (p.range :: s.pinnedRanges k)

/-- Pin register k takes a value: with on = 1 its range is filled, or the fill is refused; with on = 0 it is unpinned. -/
def State.setPin (s : State) (k : Nat) (p : Pin) : State :=
  let status := if !p.on then 0 else if s.refusesPin k p then 2 else 3
  { s with pins := updAt (fun _ => { p with status := status }) s.pins k }

/-- Pin register 0 after a write of a field of the save region: refused when it no longer fits (R458). -/
def State.recheckSave (s : State) : State :=
  { s with pins := updAt (fun p => if p.on && s.breaksSave p then { p with status := 2 } else p) s.pins 0 }

/-- Writes to a pin register are ignored: its fill is in progress, or it is the save region and a slot is enabled. -/
def State.pinLocked (s : State) (k : Nat) : Bool :=
  (k = 0 && s.anyEnabled) || match s.pins[k]? with
    | some p => p.status = 3
    | none => true

/-- PIN_WRITE (R457): with on = 1 the range is filled; with on = 0 it is unpinned. -/
def execPinWrite (k : Nat) (base : DWord) (pages : Word) (s : State) : Result :=
  .next (
    if s.pinLocked k then s
    else s.setPin k ⟨fieldOf base 51 12, base.getLsbD 0, pages, 0⟩)

/-- The lines of a range come into the Lantern cache, where pinned lines stay (R456, R457). -/
def State.fillPinned (s : State) (r : Nat × Nat) : State :=
  s.allocateLines 0 ((linesIn r.1 r.2).map fun l => (l, false))

/-- PIN_FILL_COMPLETE (R457): every line of the range has been filled. -/
def execPinFillComplete (k : Nat) (s : State) : Result :=
  .next (match s.pins[k]? with
    | some p =>
      if p.status = 3 then
        ({ s with pins := updAt (fun p => { p with status := 1 }) s.pins k } : State).fillPinned p.range
      else s
    | none => s)

/-! Register writes (R426). A value out of a field's range leaves the field. -/

/-- The view may write a field of a slot's block; `pf` marks the fields of the physical function. -/
def State.slotView (s : State) (v : RegView) (pf : Bool) (k : Nat) : Bool :=
  match v with
  | .physical => true
  | .interface vi => !pf && (s.slot k).assigned == some vi
/-- The same for the memory block of an interface. -/
def viView (v : RegView) (pf : Bool) (k : Nat) : Bool :=
  match v with
  | .physical => true
  | .interface vi => !pf && vi == k

/-- A field of a slot is written when a test of the slot holds. -/
def State.writeSlot (s : State) (v : RegView) (pf : Bool) (k : Nat) (ok : QSlot → Bool) (f : QSlot → QSlot) : State :=
  if s.slotView v pf k && ok (s.slot k) then s.updSlot k f else s
/-- The same for an interface. -/
def State.writeIface (s : State) (v : RegView) (pf : Bool) (k : Nat) (ok : Bool) (f : VIface → VIface) : State :=
  if viView v pf k && ok then s.updIface k f else s
/-- A field of the physical function's device block. -/
def State.writeDevice (s : State) (v : RegView) (ok : Bool) (f : State → State) : State :=
  if v == .physical && ok then f s else s
def State.updCtl (s : State) (f : Ctl → Ctl) : State := { s with ctl := f s.ctl }

/-- A new base level; the effective level follows unless the slot has aged (R441). -/
def QSlot.withPriority (q : QSlot) (p : Nat) : QSlot :=
  { q with priority := p, level := if q.level = q.priority || q.level < p then p else q.level }

/-- A pending share of a cluster (R445); it takes the place of an earlier one. -/
def State.pendShare (s : State) (k cluster n : Nat) : State :=
  { s.updSlot k (fun q => { q with
      pendingShares := (q.pendingShares.filter fun p => p.1 != cluster) ++ [(cluster, n, s.nextId)] }) with
    nextId := s.nextId + 1 }

/-- The fields of a slot's block. -/
def State.writeSlotField (s : State) (view : RegView) (reg : RegName) (value : DWord) : State :=
  let v := value.toNat
  match reg with
  | .slotRingbase k => s.writeSlot view false k (fun q => !q.enable && v % 4096 = 0) fun q => { q with ringbase := value }
  | .slotPriority k => s.writeSlot view true k (fun _ => v < 8) fun q => q.withPriority v
  | .slotGang k => s.writeSlot view false k (fun q => !q.enable && v < 16) fun q => { q with gang := v }
  | .slotRinglog k => s.writeSlot view false k (fun q => !q.enable && 12 ≤ v && v ≤ 24) fun q => { q with ringlog := v }
  | .slotFaultbase k => s.writeSlot view false k (fun q => !q.enable && v % 1024 = 0) fun q => { q with faultbase := value }
  | .slotFaultcount k => s.writeSlot view false k (fun _ => v ≤ 4096) fun q => { q with faultcount := v }
  | .slotFaultread k => s.writeSlot view false k (fun _ => true) fun q => { q with faultread := lowWord value }
  | .slotOverflow k => s.writeSlot view false k (fun _ => value.getLsbD 0) fun q => { q with overflow := false }
  | .slotSlice k => s.writeSlot view true k (fun _ => 2 ^ 14 ≤ v && v ≤ 2 ^ 24) fun q => { q with slice := v }
  | .slotShare k c => if s.slotView view true k && v ≤ 8 && c < 24 then s.pendShare k c v else s
  | .slotAssign k =>
    s.writeSlot view true k (fun q => !q.enable && v ≤ 16) fun q => { q with assigned := if v < 16 then some v else none }
  | _ => s

/-- The fields of an interface's memory block. -/
def State.writeIfaceField (s : State) (view : RegView) (reg : RegName) (value : DWord) : State :=
  let v := value.toNat
  match reg with
  | .viOn k => s.writeIface view false k (!s.ifaceEnabled k && v < 2) fun f => { f with on := value.getLsbD 0 }
  | .viInvaddr k => s.writeIface view false k (v % 4096 = 0) fun f => { f with invaddr := value }
  | .viInvpages k => s.writeIface view false k (v < 2 ^ 32) fun f => { f with invpages := lowWord value }
  | .viWays k => s.writeIface view true k (0 < v && v < 2 ^ 24) fun f => { f with ways := value.extractLsb' 0 24 }
  | .viCtimeout k => s.writeIface view true k (50 ≤ v && v < 2 ^ 16) fun f => { f with ctimeout := v }
  | .viBeacon k => s.writeIface view true k (20 ≤ v && v ≤ 40) fun f => { f with beacon := v }
  | _ => s

/-- The fields of the physical function's device block. -/
def State.writeDeviceField (s : State) (view : RegView) (reg : RegName) (value : DWord) : State :=
  let v := value.toNat
  match reg with
  | .devMode => s.writeDevice view (v < 2) (State.updCtl · fun c => { c with mode := value.getLsbD 0 })
  | .devAgeing => s.writeDevice view (65536 ≤ v && v ≤ 2 ^ 30) (State.updCtl · fun c => { c with ageing := v })
  | .devWarn => s.writeDevice view (60 ≤ v && v ≤ 105) (State.updCtl · fun c => { c with warn := v })
  | .devEvents => s.writeDevice view true (State.updCtl · fun c => { c with
      thermal := c.thermal && !value.getLsbD 0, moded := c.moded && !value.getLsbD 1
      shutdown := c.shutdown && !value.getLsbD 2, error := c.error && !value.getLsbD 3 })
  | .devShutaddr => s.writeDevice view true (State.updCtl · fun c => { c with shutaddr := v / 1024 * 1024 })
  | .counter k => s.writeDevice view (v < 2 ^ 32) fun s =>
      { s with counters := { s.counters with counts := updAt (fun _ => lowWord value) s.counters.counts k.val } }
  | .savebase => s.writeDevice view (!s.anyEnabled) fun s => { s with savebase := fieldOf value 51 12 }.recheckSave
  | .savepages => s.writeDevice view (!s.anyEnabled && v < 2 ^ 32) fun s =>
      { s with savepages := lowWord value }.recheckSave
  | .pinBase k => s.writeDevice view (!s.pinLocked k) fun s => match s.pins[k]? with
    | some p => s.setPin k { p with base := fieldOf value 51 12, on := value.getLsbD 0 }
    | none => s
  | .pinPages k => s.writeDevice view (!s.pinLocked k && v < 2 ^ 32) fun s => match s.pins[k]? with
    | some p => s.setPin k { p with pages := lowWord value }
    | none => s
  | .attestNonce k => s.writeDevice view (v < 2 ^ 32) fun s =>
      { s with attest := { s.attest with nonce := updAt (fun _ => lowWord value) s.attest.nonce k } }
  | .attestInterface => s.writeDevice view (v < 16) fun s => { s with attest := { s.attest with interface := v } }
  | _ => s

/-- A vector is unmasked; a pending bit signals (R483). -/
def Vec.unmask (v : Vec) : Vec :=
  if v.pending then ⟨false, false, v.signals + 1⟩ else { v with masked := false }

/-- The mask bit of a vector of the view's own function. -/
def State.writeMask (s : State) (view : RegView) (fn vec : Nat) (value : DWord) : State :=
  let own := match view with
    | .physical => fn == 0
    | .interface vi => fn == vi
  if own then s.updVec fn vec (if value.getLsbD 0 then fun v => { v with masked := true } else Vec.unmask) else s

/-- REGISTER_WRITE (R426). -/
def execRegisterWrite (view : RegView) (reg : RegName) (value : DWord) (s : State) : Result :=
  .next (match reg with
    | .slotRingbase _ | .slotPriority _ | .slotGang _ | .slotRinglog _ | .slotFaultbase _ | .slotFaultcount _
    | .slotFaultread _ | .slotOverflow _ | .slotSlice _ | .slotShare _ _ | .slotAssign _ => s.writeSlotField view reg value
    | .viOn _ | .viInvaddr _ | .viInvpages _ | .viWays _ | .viCtimeout _ | .viBeacon _ => s.writeIfaceField view reg value
    | .vectorMask fn vec => s.writeMask view fn vec value
    | _ => s.writeDeviceField view reg value)

/-- VECTOR_UNMASK (R483). -/
def execVectorUnmask (fn vec : Nat) (s : State) : Result := .next (s.updVec fn vec Vec.unmask)

/-- TABLE_WALK (R450, R452): a walk for a miss of a core of the cluster, or of its engines, fills the caches; a walk that
ends with a cause leaves nothing. -/
def execTableWalk (cluster core vi : Nat) (va : DWord) (s : State) : Result :=
  .next (if !canonical va || 24 ≤ cluster then s
    else (translate s cluster (if clusterOf core = cluster then some core else none) vi va).2)

end Sys2Proof.Machine
end

