-- ==== Sys2Proof/Machine/Power.lean ====
section
/-!
DEFINITION. Power gating (R479 to R481), temperature and shutdown (R28, R482), storage errors (R33 to R36, R468, R469),
reset (R477, R484), and the causes that an issue group meets before any instruction (R88, R180).
-/
namespace Sys2Proof.Machine

open Sys2Proof

/-! Gates. -/

/-- The number of a unit within its cluster, but for the cluster itself. -/
def unitNumber : UnitRef → Option Nat
  | .matrix _ core quarter => if core < 8 && quarter < 4 then some (4 * core + quarter) else none
  | .island _ k => if k < 6 then some (32 + k) else none
  | .copy _ => some 38
  | .cluster _ => none
/-- The cluster of a unit. -/
def unitCluster : UnitRef → Nat
  | .matrix c _ _ | .island c _ | .copy c | .cluster c => c

/-- The gate bit of a unit. -/
def Gate.bit (g : Gate) (u : Nat) : Bool :=
  if u < 32 then g.mgate.getLsbD u else if u < 38 then g.igate.getLsbD (u - 32) else u = 38 && g.kgate

/-- A unit holds no request, command or token. A matrix engine has finished when its instruction has issued. -/
def State.unitIdle (s : State) (cluster u : Nat) : Bool :=
  let served : Bool := s.reqs.any fun r => clusterOf r.core == cluster && match r.kind with
    | .island fn _ _ _ _ _ _ _ _ => islandUnit r.core fn == u
    | _ => false
  let stream : Bool := u = 32 && s.wgs.any fun g => clusterOf g.core == cluster && g.placed &&
    !(g.raster.items.isEmpty && g.raster.batch.isEmpty && g.raster.closed.isEmpty)
  let tokens : Bool := s.cards.any fun k => clusterOf k.core == cluster && k.tokens.any CardToken.inFlight &&
    (s.tokenUnits cluster k.ctx).contains u
  let commands : Bool := u = 38 && s.cmds.any fun k => clusterOf k.core == cluster
  !served && !stream && !tokens && !commands

/-- New gate bits: a unit whose bit is clear runs. -/
def Gate.settle (g : Gate) : Gate :=
  { g with
    gated := g.gated.filter g.bit
    wanted := g.wanted.filter g.bit
    woken := g.woken.filter fun p => g.bit p.1 }
def State.updGate (s : State) (cluster : Nat) (f : Gate → Gate) : State :=
  s.updCluster cluster fun c => { c with gate := f c.gate }

/-- MATRIX_GATE, ISLAND_GATE and COPY_GATE (R479): writes of the gate bits. -/
def execMatrixGate (cluster : Nat) (value : Word) (s : State) : Result :=
  .next (s.updGate cluster fun g => ({ g with mgate := value } : Gate).settle)
def execIslandGate (cluster : Nat) (value : BitVec 6) (s : State) : Result :=
  .next (s.updGate cluster fun g => ({ g with igate := value } : Gate).settle)
def execCopyGate (cluster : Nat) (value : Bool) (s : State) : Result :=
  .next (s.updGate cluster fun g => ({ g with kgate := value } : Gate).settle)
/-- CLUSTER_GATE (R480): a write of `cgate`; the gate itself and the wake are events of their own. -/
def execClusterGate (cluster : Nat) (value : Bool) (s : State) : Result :=
  .next (s.updGate cluster fun g => { g with cgate := value })

/-- A unit stops, when its bit is set and it is idle. -/
def State.gateUnit (s : State) (cluster u : Nat) : State :=
  let g := (s.cluster cluster).gate
  if g.bit u && !g.gated.contains u && s.unitIdle cluster u then
    s.updGate cluster fun g => { g with gated := u :: g.gated, woken := g.woken.filter fun p => p.1 != u }
  else s

/-- The cluster holds no workgroup, card, placed context or open `.gq` stream. -/
def State.clusterEmpty (s : State) (cluster : Nat) : Bool :=
  (s.wgs.all fun g => !(clusterOf g.core == cluster && g.placed)) &&
  (s.cards.all fun k => clusterOf k.core != cluster) && (s.cmds.all fun k => clusterOf k.core != cluster) &&
  (s.cluster cluster).contexts.all fun g => g.place.isNone

/-- The L1 is written back; the configuration store and the island images are lost. -/
def State.gateCluster (s : State) (cluster : Nat) : State :=
  let g := (s.cluster cluster).gate
  if g.cgate && !g.off && s.clusterEmpty cluster then
    let s := (((s.cluster cluster).blend.map BlendLine.line).foldl (fun s l => s.writeBlend cluster l) s).flushL1 cluster
    s.updCluster cluster fun c => { c with
      gate := { c.gate with off := true }
      contexts := Cluster.reset.contexts
      images := List.replicate 4 none }
  else s

/-- GATE_TAKE_EFFECT (R480). A unit that has been woken gates again by IDLE_REGATE. -/
def execGateTakeEffect (u : UnitRef) (s : State) : Result :=
  .next (match unitNumber u with
    | none => match u with
      | .cluster c => s.gateCluster c
      | _ => s
    | some n =>
      if (s.cluster (unitCluster u)).gate.woken.any fun p => p.1 == n then s else s.gateUnit (unitCluster u) n)

/-- UNIT_WAKE (R480, R481): a gated unit that a request has reached runs again, its bit stays set; a gated cluster wakes
when `cgate` is clear. -/
def execUnitWake (u : UnitRef) (s : State) : Result :=
  .next (match unitNumber u with
    | none => match u with
      | .cluster c => s.updGate c fun g => if g.cgate then g else { g with off := false }
      | _ => s
    | some n => s.updGate (unitCluster u) fun g =>
      if g.gated.contains n && g.wanted.contains n then
        { g with
          gated := g.gated.filter fun x => x != n
          wanted := g.wanted.filter fun x => x != n
          woken := (n, s.clock) :: g.woken.filter fun p => p.1 != n }
      else g)

/-- IDLE_REGATE (R480): after 2^16 idle cycles. -/
def execIdleRegate (u : UnitRef) (s : State) : Result :=
  .next (match unitNumber u with
    | none => s
    | some n =>
      if (s.cluster (unitCluster u)).gate.woken.any fun p => p.1 == n && p.2 + 2 ^ 16 ≤ s.clock then
        s.gateUnit (unitCluster u) n
      else s)

/-- The idle time of the woken units that are busy, or that `used` names, restarts. -/
def State.restartIdle (s : State) (used : Option (Nat × Nat)) : State :=
  let again (k : Nat) (x : Nat × Nat) : Nat × Nat :=
    if used == some (k, x.1) || !s.unitIdle k x.1 then (x.1, s.clock) else x
  let settle (k : Nat) (c : Cluster) : Cluster :=
    if c.gate.woken.isEmpty then c else { c with gate := { c.gate with woken := c.gate.woken.map (again k) } }
  { s with clusters := (s.clusters.zipIdx).map fun p => settle p.2 p.1 }

/-! Temperature (R28, R482). -/

def State.setTemp (s : State) (die : Nat) (temp : Byte) : State :=
  s.updCtl fun c => { c with temps := updAt (fun _ => temp) c.temps die }
/-- The thermal bit of a die may be set. -/
def Ctl.isArmed (c : Ctl) (die : Nat) : Bool := c.armed[die]? == some true

/-- TEMPERATURE_FALL_BELOW_WARN (R482): 5 °C below `warn`. -/
def execTemperatureFallBelowWarn (die : Nat) (temp : Byte) (s : State) : Result :=
  .next (
    let t := s.setTemp die temp
    if temp.toNat + 5 ≤ s.ctl.warn then t.updCtl fun c => { c with armed := updAt (fun _ => true) c.armed die } else t)

/-- The shutdown record (R482). -/
def State.shutdownRecord (s : State) : List Byte :=
  let clock := BitVec.ofNat 64 s.clock
  recordBytes (recordWord .shutdown 8 3 false false 0 :: List.replicate 8 0#32 ++ [0xFF000000#32] ++
    List.replicate 6 0#32 ++ [lowWord clock, highWord clock])

/-- Every context is abandoned without a save. -/
def State.abandonAll (s : State) : State :=
  { s with
    reqs := []
    cmds := []
    cards := []
    wgs := []
    groups := []
    launches := []
    owned := []
    watches := []
    turns := []
    late := []
    lateScratch := []
    cur := none
    second := none
    clusters := s.clusters.map fun c => { c with blend := [] }
    slots := s.slots.map fun q =>
      { q with context := false, mapped := false, waiting := none, signals := [], starved := none, clears := [] } }

/-- The shutdown at 110 °C: issue stops, every context is abandoned, the record is written at the shutdown address, and the
shutdown bit is set (R28). -/
def State.shutDown (s : State) : State :=
  let t := if s.ctl.shutaddr = 0 || deviceBytes < s.ctl.shutaddr + 1024 then s
    else s.baseStore 4 s.ctl.shutaddr s.shutdownRecord
  (t.abandonAll.updCtl fun c => { c with stopped := true, shutdown := true }).signalDevice

/-- A die's temperature rises (R28): at `warn` the thermal bit is set, and again only after a fall; at 110 °C the device
shuts down. -/
def State.heat (s : State) (die : Nat) (temp : Byte) : State :=
  let t := s.setTemp die temp
  let t := if s.ctl.warn ≤ temp.toNat && s.ctl.isArmed die then
      (t.updCtl fun c => { c with thermal := true, armed := updAt (fun _ => false) c.armed die }).signalDevice
    else t
  if temp.toNat < 110 || 2 ≤ die || s.ctl.shutdown then t else t.shutDown

/-- THERMAL_WARNING (R28): a die has reached a temperature. -/
def execThermalWarning (die : Nat) (temp : Byte) (s : State) : Result := .next (s.heat die temp)
/-- SHUTDOWN (R28): the same at 110 °C. -/
def execShutdown (die : Nat) (temp : Byte) (s : State) : Result := .next (s.heat die temp)

/-! Storage errors. -/

/-- A parity error drops what the device refetches from memory, of its choice: a line of an instruction cache, or a record of
a layout cache. An island's image is refetched from the private copy, which is the same (R33). -/
def State.parityDrop (s : State) : State :=
  let (n, t) := s.draw
  let k := n / 576
  match n / 192 % 3 with
  | 0 => t.updCore (n % 192) fun c => { c with icache := c.icache.eraseIdx (k % (c.icache.length + 1)) }
  | 1 => t.updCluster (n % 24) fun c => { c with layouts := c.layouts.eraseIdx (k % (c.layouts.length + 1)) }
  | _ => t

/-- CORRECTED_ERROR (R34, R468): the count of the unit grows; a parity error, counter 2, is corrected by a refetch (R33). -/
def execCorrectedError (counter : Fin 8) (s : State) : Result :=
  .next (if counter = 2 then (s.bumpCounter 2).parityDrop else s.bumpCounter counter.val)

/-- A word of a workgroup's context has been replaced. -/
def State.wordLost (s : State) (wg : Nat) : State :=
  let s := s.stick wg 1#2
  match s.wg wg with
  | some g => s.noteError (s.viOf g)
  | none => s

/-- A table of an interface, with the count of its entries and the page size of its leaves for each level, maps a page that
holds a physical address (R448). -/
def State.mapsPage (s : State) (table pa : Nat) : List (Nat × Nat) → Bool
  | [] => false
  | (n, size) :: rest => (List.range n).any fun k =>
    let e := ofBytes (Mem.read s.dmem (table + 8 * k) 8)
    let page := if e.testBit 5 then 65536 else size
    let addr := bits e 51 12 * 4096
    e.testBit 0 && if e.testBit 1 then s.mapsPage addr pa rest
      else size != 0 && bits e 7 6 == 0 && addr ≤ pa && pa < addr + page

/-- The interfaces that own the page of a physical address: those whose tables map it (R469). -/
def State.pageOwners (s : State) (pa : Nat) : List Nat :=
  (List.range 16).filter fun vi => (s.iface vi).on && s.mapsPage (bits (s.iface vi).root.toNat 51 12 * 4096) pa
    [(256, 0), (512, 2 ^ 35), (64, 2 ^ 29), (256, 2 ^ 21), (512, 4096)]

/-- A 64-bit word was replaced by zeros: it is counted, and one interface that owns its page is notified (R35, R469). -/
def State.noteLost (s : State) (pa : Nat) : State :=
  let (n, t) := s.draw
  let owners := s.pageOwners pa
  let t := t.bumpCounter 10
  match owners[n % owners.length]? with
  | none => t
  | some vi => (t.noteError vi).updIface vi fun f => { f with erraddr := BitVec.ofNat 64 pa }

/-- The 64-bit word at an address of device memory is replaced by zeros. -/
def State.memoryLost (s : State) (pa : Nat) : State :=
  State.noteLost { s with
    dmem := Mem.write s.dmem pa (List.replicate 8 0#8)
    zeroed := ((List.range 8).map fun k => pa + k) ++ s.zeroed.filter fun a => a < pa || pa + 8 ≤ a } pa

/-- The word in a cluster's dirty copy of its line becomes 0. -/
def State.zeroDirty (s : State) (cluster pa : Nat) : State :=
  s.updCluster cluster fun c => match c.l1Line (lineOf pa) with
    | none => c
    | some l =>
      let m := lineMask (pa % 128) 8
      c.l1Put { l with
        data := spliceBytes l.data (pa % 128) (List.replicate 8 0#8), valid := l.valid ||| m, dirty := l.dirty ||| m
        lost := l.lost ||| m }

/-- The word in a blend island's buffered line becomes 0. -/
def State.zeroBlend (s : State) (cluster pa : Nat) : State :=
  let zero (b : BlendLine) : BlendLine :=
    if b.line == lineOf pa then
      { b with
        data := spliceBytes b.data (pa % 128) (List.replicate 8 0#8)
        lost := ((List.range 8).map fun k => pa % 128 + k) ++ b.lost }
    else b
  s.updCluster cluster fun c => { c with blend := c.blend.map zero }

/-- Where a dirty copy of a line stands: a cluster's L1, its blend buffer, or the Lantern cache. -/
inductive DirtyCopy where
  | l1 (cluster : Nat)
  | blend (cluster : Nat)
  | lantern
  deriving DecidableEq, Repr

/-- A copy of a line is dirty there. -/
def State.isDirty (s : State) (pa : Nat) : DirtyCopy → Bool
  | .l1 c => match (s.cluster c).l1Line (lineOf pa) with
    | some l => l.dirty != 0
    | none => false
  | .blend c => (s.cluster c).blend.any fun b => b.line == lineOf pa
  | .lantern => s.lantern.any fun l => l.line == lineOf pa && l.dirty

/-- The dirty copies of a line. -/
def State.dirtyCopies (s : State) (pa : Nat) : List DirtyCopy :=
  ((List.range 24).map DirtyCopy.l1 ++ (List.range 24).map DirtyCopy.blend ++ [DirtyCopy.lantern]).filter (s.isDirty pa)

/-- One cache of the device's choice drops its clean copy of a line: a read buffer, an L1 slice, an instruction cache or a
layout cache, which hold lines by virtual address, or the Lantern cache. -/
def State.dropClean (s : State) (pa : Nat) : State :=
  let (n, t) := s.draw
  let core := n % 192
  let k := n / 960
  match n / 192 % 5 with
  | 0 => t.updCore core fun c => { c with rbuf := c.rbuf.filter fun p => p.line != lineOf pa }
  | 1 => t.updCluster (clusterOf core) fun c => { c with l1 := c.l1.filter fun l => l.line != lineOf pa || l.dirty != 0 }
  | 2 => t.updCore core fun c => { c with icache := c.icache.eraseIdx (k % (c.icache.length + 1)) }
  | 3 => t.updCluster (clusterOf core) fun c => { c with layouts := c.layouts.eraseIdx (k % (c.layouts.length + 1)) }
  | _ => { t with lantern := t.lantern.filter fun l => l.line != lineOf pa || l.dirty }

/-- A word of a row becomes 0. -/
def zeroRow (n row k : Nat) (f : RegFile) : RegFile := f.setRow row (updAt (fun _ => 0#32) (f.row n row) k)
/-- The word of a queue slot becomes 0; a slot that holds none stays. -/
def QEntry.zeroed : QEntry → QEntry
  | .ready _ => .ready 0#32
  | .pixel _ p h c => .pixel 0#32 p h c
  | e => e

/-- A word of a wave is replaced by 0 (R35). -/
def State.zeroWord (s : State) (r : WaveRef) (f : Wave → Wave) : State :=
  if (s.wave r).isSome then (s.updWave r f).wordLost r.wg else s

/-- The context of a slot is terminated with CTX_ERROR; none while its record must wait. -/
def State.ctxError (s : State) (k : Nat) : Option State :=
  if !(s.slot k).context || (s.slot k).terminated then some s
  else (s.failContext k .ctxError 6 0 (s.slotHead k)).map fun t => t.bumpCounter 11

/-- The slots whose contexts have a graph table that names a graph context. -/
def State.namers (s : State) (cluster ctx : Nat) : List Nat :=
  (List.range 64).filter fun k => (s.slotWgs k).any fun g =>
    clusterOf g.core == cluster && g.placed && g.graphs.any fun e => e == some ctx

/-- Every context that names a graph context is terminated; its image is gone. -/
def State.storeError (s : State) (cluster ctx : Nat) : Option State :=
  ((s.namers cluster ctx).foldlM State.ctxError s).map fun t =>
    t.updContext cluster ctx fun g => { g with image := [], place := none, placing := none }

/-- A termination whose record must wait for an owned line is delayed with its event (R300). -/
def State.orDelay (s : State) (t : Option State) : State := t.getD { s with delayed := true }

/-- UNCORRECTABLE_ERROR (R33, R35, R469), by the place of the data. Of several dirty copies of a line the free values say which
one the error strikes (log entry 173). -/
def execUncorrectableError (place : ErrPlace) (s : State) : Result :=
  .next (match place with
    | .cleanLine pa => s.dropClean pa
    | .dirtyLine pa =>
      let word := pa / 8 * 8
      if deviceBytes ≤ pa then s
      else
        let copies := s.dirtyCopies word
        let (n, t) := s.draw
        match copies[n % copies.length]? with
        | none => s.memoryLost word
        | some .lantern => t.memoryLost word
        | some (.l1 c) => (t.zeroDirty c word).noteLost word
        | some (.blend c) => (t.zeroBlend c word).noteLost word
    | .dram pa => if deviceBytes ≤ pa then s else s.memoryLost (pa / 8 * 8)
    | .freeSlots cluster chan =>
      let (n, t) := s.draw
      t.updChannel cluster chan fun h => { h with free := n }
    | .vReg r reg lane => s.zeroWord r fun w => { w with v := zeroRow 32 reg lane w.v }
    | .oReg r reg lane => s.zeroWord r fun w => { w with o := zeroRow 32 reg lane w.o }
    | .sReg r reg => s.zeroWord r fun w => w.setS reg 0#32
    | .mReg r sl reg => s.zeroWord r fun w => w.updSlice sl fun t => t.setMask reg 0#32
    | .queueSlot r q lane pos => s.zeroWord r fun w => match w.queue q with
      | some u => w.setQueue q (some (u.setCol lane (updAt QEntry.zeroed (u.col lane) pos)))
      | none => w
    | .accumulator r k => s.zeroWord r fun w => { w with tiles := zeroRow 32 (k / 32) (k % 32) w.tiles }
    | .control k => s.orDelay (s.ctxError k)
    | .configStore cluster ctx => s.orDelay (s.storeError cluster ctx))

/-- DEVICE_ERROR_STOP (R36, R468, R482): issue stops, the error record and the error bit are set, and the host is
signalled. -/
def execDeviceErrorStop (securityBlock : Bool) (location : DWord) (s : State) : Result :=
  .next (({ s with
      counters := { s.counters with valid := true, unit := if securityBlock then 2 else 1, location := location } } : State).updCtl
    fun c => { c with stopped := true, error := true }).signalDevice

/-- DEVICE_RESET (R477, R36): the state after reset, with the keys derived again. The memories, the temperatures and what
R36 lets software read after a reset stay: the counters with the error record, and the sticky words. -/
def execDeviceReset (s : State) : Result :=
  .next { State.reset with
    dmem := s.dmem
    hmem := s.hmem
    posted := s.posted
    zeroed := s.zeroed
    counters := s.counters
    slots := (State.reset.slots.zip s.slots).map fun p => { p.1 with errsticky := p.2.errsticky }
    ctl := { State.reset.ctl with temps := s.ctl.temps }
    boot := { State.reset.boot with powered := true, keysDerived := true }
    attest := { State.reset.attest with certificate := Config.identityCertificate }
    fresh := s.fresh
    nextId := s.nextId }

/-! Causes before any instruction. -/

/-- A cause at the counter of the current issue group. -/
def causeHere (cause : Cause) (info : Info) (s : State) : Result :=
  .next (match s.cur with
    | some u => takeCause s u.w u.sl u.em u.pc cause info
    | none => s)

/-- UNASSIGNED_ENCODING (R88): precise, with no other effect. -/
def execUnassignedEncoding (cause : Cause) (s : State) : Result := causeHere cause noInfo s
/-- INSTRUCTION_FETCH_FAULT (R180): precise at the fetching address. -/
def execInstructionFetchFault (cause : Cause) (address : DWord) (s : State) : Result :=
  causeHere cause { addr := address } s

end Sys2Proof.Machine
end

