-- ==== Sys2Proof/Machine/Dispatch.lean ====
section
/-!
DEFINITION. One arm per constructor of `Instr`: the meaning that each row of the opcode table has.
-/
namespace Sys2Proof.Machine

def exec (i : Instr) (s : State) : Host.Outcome State Fault Refusal :=
  match i with
  | .iadd f => Sys2Proof.Machine.execIadd f s
  | .isub f => Sys2Proof.Machine.execIsub f s
  | .imul f => Sys2Proof.Machine.execImul f s
  | .imulhi f => Sys2Proof.Machine.execImulhi f s
  | .imulhu f => Sys2Proof.Machine.execImulhu f s
  | .imad f => Sys2Proof.Machine.execImad f s
  | .and f => Sys2Proof.Machine.execAnd f s
  | .or f => Sys2Proof.Machine.execOr f s
  | .xor f => Sys2Proof.Machine.execXor f s
  | .andn f => Sys2Proof.Machine.execAndn f s
  | .not f => Sys2Proof.Machine.execNot f s
  | .shl f => Sys2Proof.Machine.execShl f s
  | .shr f => Sys2Proof.Machine.execShr f s
  | .sar f => Sys2Proof.Machine.execSar f s
  | .rotl f => Sys2Proof.Machine.execRotl f s
  | .bfe f => Sys2Proof.Machine.execBfe f s
  | .bfeu f => Sys2Proof.Machine.execBfeu f s
  | .bfi f => Sys2Proof.Machine.execBfi f s
  | .bfrev f => Sys2Proof.Machine.execBfrev f s
  | .popc f => Sys2Proof.Machine.execPopc f s
  | .clz f => Sys2Proof.Machine.execClz f s
  | .ctz f => Sys2Proof.Machine.execCtz f s
  | .imin f => Sys2Proof.Machine.execImin f s
  | .imax f => Sys2Proof.Machine.execImax f s
  | .uimin f => Sys2Proof.Machine.execUimin f s
  | .uimax f => Sys2Proof.Machine.execUimax f s
  | .iabs f => Sys2Proof.Machine.execIabs f s
  | .ineg f => Sys2Proof.Machine.execIneg f s
  | .icmp cc f => Sys2Proof.Machine.execIcmp cc f s
  | .mov f => Sys2Proof.Machine.execMov f s
  | .movs f => Sys2Proof.Machine.execMovs f s
  | .sel f => Sys2Proof.Machine.execSel f s
  | .prmt f => Sys2Proof.Machine.execPrmt f s
  | .lea f => Sys2Proof.Machine.execLea f s
  | .sad8 f => Sys2Proof.Machine.execSad8 f s
  | .idot4 f => Sys2Proof.Machine.execIdot4 f s
  | .idot2 f => Sys2Proof.Machine.execIdot2 f s
  | .iadd64 f => Sys2Proof.Machine.execIadd64 f s
  | .isub64 f => Sys2Proof.Machine.execIsub64 f s
  | .imul64 f => Sys2Proof.Machine.execImul64 f s
  | .shl64 f => Sys2Proof.Machine.execShl64 f s
  | .shr64 f => Sys2Proof.Machine.execShr64 f s
  | .sext f => Sys2Proof.Machine.execSext f s
  | .zext f => Sys2Proof.Machine.execZext f s
  | .fadd f => Sys2Proof.Machine.execFadd f s
  | .fsub f => Sys2Proof.Machine.execFsub f s
  | .fmul f => Sys2Proof.Machine.execFmul f s
  | .ffma f => Sys2Proof.Machine.execFfma f s
  | .fmin f => Sys2Proof.Machine.execFmin f s
  | .fmax f => Sys2Proof.Machine.execFmax f s
  | .fminnum f => Sys2Proof.Machine.execFminnum f s
  | .fmaxnum f => Sys2Proof.Machine.execFmaxnum f s
  | .fcmp cc f => Sys2Proof.Machine.execFcmp cc f s
  | .fclass f => Sys2Proof.Machine.execFclass f s
  | .ffract f => Sys2Proof.Machine.execFfract f s
  | .fldexp f => Sys2Proof.Machine.execFldexp f s
  | .ffrexp f => Sys2Proof.Machine.execFfrexp f s
  | .fround dir f => Sys2Proof.Machine.execFround dir f s
  | .frcp f => Sys2Proof.Machine.execFrcp f s
  | .frsq f => Sys2Proof.Machine.execFrsq f s
  | .fsqrt f => Sys2Proof.Machine.execFsqrt f s
  | .fexp2 f => Sys2Proof.Machine.execFexp2 f s
  | .flog2 f => Sys2Proof.Machine.execFlog2 f s
  | .fsinpi f => Sys2Proof.Machine.execFsinpi f s
  | .fcospi f => Sys2Proof.Machine.execFcospi f s
  | .ftanh f => Sys2Proof.Machine.execFtanh f s
  | .hadd2 f => Sys2Proof.Machine.execHadd2 f s
  | .hsub2 f => Sys2Proof.Machine.execHsub2 f s
  | .hmul2 f => Sys2Proof.Machine.execHmul2 f s
  | .hfma2 f => Sys2Proof.Machine.execHfma2 f s
  | .hmin2 f => Sys2Proof.Machine.execHmin2 f s
  | .hmax2 f => Sys2Proof.Machine.execHmax2 f s
  | .bfma2 f => Sys2Proof.Machine.execBfma2 f s
  | .dadd f => Sys2Proof.Machine.execDadd f s
  | .dmul f => Sys2Proof.Machine.execDmul f s
  | .dfma f => Sys2Proof.Machine.execDfma f s
  | .cvt op f => Sys2Proof.Machine.execCvt op f s
  | .cvtFp8Fp4 op f => Sys2Proof.Machine.execCvtFp8Fp4 op f s
  | .shfl op f => Sys2Proof.Machine.execShfl op f s
  | .qswp op f => Sys2Proof.Machine.execQswp op f s
  | .qbc f => Sys2Proof.Machine.execQbc f s
  | .lred op f => Sys2Proof.Machine.execLred op f s
  | .lscan excl op f => Sys2Proof.Machine.execLscan excl op f s
  | .lvoteAny f => Sys2Proof.Machine.execLvoteAny f s
  | .lvoteAll f => Sys2Proof.Machine.execLvoteAll f s
  | .lvoteBal f => Sys2Proof.Machine.execLvoteBal f s
  | .lbc f => Sys2Proof.Machine.execLbc f s
  | .lfirst f => Sys2Proof.Machine.execLfirst f s
  | .jmp off => Sys2Proof.Machine.execJmp off s
  | .call d off => Sys2Proof.Machine.execCall d off s
  | .bz c off => Sys2Proof.Machine.execBz c off s
  | .bnz c off => Sys2Proof.Machine.execBnz c off s
  | .blt c off => Sys2Proof.Machine.execBlt c off s
  | .bge c off => Sys2Proof.Machine.execBge c off s
  | .brx a => Sys2Proof.Machine.execBrx a s
  | .callx d a => Sys2Proof.Machine.execCallx d a s
  | .ret a => Sys2Proof.Machine.execRet a s
  | .nop => Sys2Proof.Machine.execNop s
  | .exit => Sys2Proof.Machine.execExit s
  | .ald sz f => Sys2Proof.Machine.execAld sz f s
  | .ast sz f => Sys2Proof.Machine.execAst sz f s
  | .apf f => Sys2Proof.Machine.execApf f s
  | .aflush f => Sys2Proof.Machine.execAflush f s
  | .ainv f => Sys2Proof.Machine.execAinv f s
  | .qpush f => Sys2Proof.Machine.execQpush f s
  | .qpop f => Sys2Proof.Machine.execQpop f s
  | .qpeek f => Sys2Proof.Machine.execQpeek f s
  | .qdrop f => Sys2Proof.Machine.execQdrop f s
  | .qwait f => Sys2Proof.Machine.execQwait f s
  | .qstat f => Sys2Proof.Machine.execQstat f s
  | .qbind f => Sys2Proof.Machine.execQbind f s
  | .qunbind f => Sys2Proof.Machine.execQunbind f s
  | .lds sz f => Sys2Proof.Machine.execLds sz f s
  | .sts sz f => Sys2Proof.Machine.execSts sz f s
  | .aatom op f => Sys2Proof.Machine.execAatom op f s
  | .acas sz f => Sys2Proof.Machine.execAcas sz f s
  | .ared op f => Sys2Proof.Machine.execAred op f s
  | .aenq f => Sys2Proof.Machine.execAenq f s
  | .adeq f => Sys2Proof.Machine.execAdeq f s
  | .mma fmt f => Sys2Proof.Machine.execMma fmt f s
  | .mmasp fmt f => Sys2Proof.Machine.execMmasp fmt f s
  | .fdot16 fmt f => Sys2Proof.Machine.execFdot16 fmt f s
  | .aclr f => Sys2Proof.Machine.execAclr f s
  | .amovVa f => Sys2Proof.Machine.execAmovVa f s
  | .amovAv f => Sys2Proof.Machine.execAmovAv f s
  | .ibox f => Sys2Proof.Machine.execIbox f s
  | .itri f => Sys2Proof.Machine.execItri f s
  | .iprim f => Sys2Proof.Machine.execIprim f s
  | .tsmp f => Sys2Proof.Machine.execTsmp f s
  | .tgth f => Sys2Proof.Machine.execTgth f s
  | .tfch f => Sys2Proof.Machine.execTfch f s
  | .rtri f => Sys2Proof.Machine.execRtri f s
  | .bpx f => Sys2Proof.Machine.execBpx f s
  | .ilink f => Sys2Proof.Machine.execIlink f s
  | .ist f => Sys2Proof.Machine.execIst f s
  | .cpyGth f => Sys2Proof.Machine.execCpyGth f s
  | .cpySct f => Sys2Proof.Machine.execCpySct f s
  | .jpostR f => Sys2Proof.Machine.execJpostR f s
  | .jpostQ f => Sys2Proof.Machine.execJpostQ f s
  | .jwait f => Sys2Proof.Machine.execJwait f s
  | .trap n => Sys2Proof.Machine.execTrap n s
  | .brk => Sys2Proof.Machine.execBrk s
  | .sadd g => Sys2Proof.Machine.execSadd g s
  | .ssub g => Sys2Proof.Machine.execSsub g s
  | .smul g => Sys2Proof.Machine.execSmul g s
  | .smulhi g => Sys2Proof.Machine.execSmulhi g s
  | .smulhu g => Sys2Proof.Machine.execSmulhu g s
  | .sand g => Sys2Proof.Machine.execSand g s
  | .sor g => Sys2Proof.Machine.execSor g s
  | .sxor g => Sys2Proof.Machine.execSxor g s
  | .sandn g => Sys2Proof.Machine.execSandn g s
  | .snot g => Sys2Proof.Machine.execSnot g s
  | .sshl g => Sys2Proof.Machine.execSshl g s
  | .sshr g => Sys2Proof.Machine.execSshr g s
  | .ssar g => Sys2Proof.Machine.execSsar g s
  | .smin g => Sys2Proof.Machine.execSmin g s
  | .smax g => Sys2Proof.Machine.execSmax g s
  | .sminu g => Sys2Proof.Machine.execSminu g s
  | .smaxu g => Sys2Proof.Machine.execSmaxu g s
  | .sabs g => Sys2Proof.Machine.execSabs g s
  | .sneg g => Sys2Proof.Machine.execSneg g s
  | .scmp cc g => Sys2Proof.Machine.execScmp cc g s
  | .ssel g => Sys2Proof.Machine.execSsel g s
  | .smov g => Sys2Proof.Machine.execSmov g s
  | .sli sd imm => Sys2Proof.Machine.execSli sd imm s
  | .sbfe g => Sys2Proof.Machine.execSbfe g s
  | .sbfi g => Sys2Proof.Machine.execSbfi g s
  | .spopc g => Sys2Proof.Machine.execSpopc g s
  | .sclz g => Sys2Proof.Machine.execSclz g s
  | .sctz g => Sys2Proof.Machine.execSctz g s
  | .sadd64 g => Sys2Proof.Machine.execSadd64 g s
  | .ssub64 g => Sys2Proof.Machine.execSsub64 g s
  | .smul64 g => Sys2Proof.Machine.execSmul64 g s
  | .sldk g => Sys2Proof.Machine.execSldk g s
  | .sget g => Sys2Proof.Machine.execSget g s
  | .sset g => Sys2Proof.Machine.execSset g s
  | .mand g => Sys2Proof.Machine.execMand g s
  | .mor g => Sys2Proof.Machine.execMor g s
  | .mxor g => Sys2Proof.Machine.execMxor g s
  | .mandn g => Sys2Proof.Machine.execMandn g s
  | .mnot g => Sys2Proof.Machine.execMnot g s
  | .mmov g => Sys2Proof.Machine.execMmov g s
  | .mpopc g => Sys2Proof.Machine.execMpopc g s
  | .mffs g => Sys2Proof.Machine.execMffs g s
  | .mtos g => Sys2Proof.Machine.execMtos g s
  | .stom g => Sys2Proof.Machine.execStom g s
  | .mclr g => Sys2Proof.Machine.execMclr g s
  | .mset g => Sys2Proof.Machine.execMset g s
  | .mlane g => Sys2Proof.Machine.execMlane g s
  | .sbr cond g => Sys2Proof.Machine.execSbr cond g s
  | .join g => Sys2Proof.Machine.execJoin g s
  | .leave g => Sys2Proof.Machine.execLeave g s
  | .mwait g => Sys2Proof.Machine.execMwait g s
  | .loop g => Sys2Proof.Machine.execLoop g s
  | .lbrk g => Sys2Proof.Machine.execLbrk g s
  | .run g => Sys2Proof.Machine.execRun g s
  | .endrun => Sys2Proof.Machine.execEndrun s
  | .endrunHinted hints => Sys2Proof.Machine.execEndrunHinted hints s
  | .yield => Sys2Proof.Machine.execYield s
  | .fence kind g => Sys2Proof.Machine.execFence kind g s
  | .barSync g => Sys2Proof.Machine.execBarSync g s
  | .barArr g => Sys2Proof.Machine.execBarArr g s
  | .barWait g => Sys2Proof.Machine.execBarWait g s
  | .barInit g => Sys2Proof.Machine.execBarInit g s
  | .ringArr g => Sys2Proof.Machine.execRingArr g s
  | .ringWait g => Sys2Proof.Machine.execRingWait g s
  | .gbar => Sys2Proof.Machine.execGbar s
  | .tfence => Sys2Proof.Machine.execTfence s
  | .icinv g => Sys2Proof.Machine.execIcinv g s
  | .ifence => Sys2Proof.Machine.execIfence s
  | .aldu sz g => Sys2Proof.Machine.execAldu sz g s
  | .cpyTile dir g => Sys2Proof.Machine.execCpyTile dir g s
  | .cpyLin dir g => Sys2Proof.Machine.execCpyLin dir g s
  | .lrec g => Sys2Proof.Machine.execLrec g s
  | .cpyStat g => Sys2Proof.Machine.execCpyStat g s
  | .jstat g => Sys2Proof.Machine.execJstat g s
  | .jcancel g => Sys2Proof.Machine.execJcancel g s
  | .gload g => Sys2Proof.Machine.execGload g s
  | .gunload g => Sys2Proof.Machine.execGunload g s
  | .pmask => Sys2Proof.Machine.execPmask s
  | .punmask => Sys2Proof.Machine.execPunmask s
  | .sclk g => Sys2Proof.Machine.execSclk g s
  | .pmc g => Sys2Proof.Machine.execPmc g s
  | .rfe => Sys2Proof.Machine.execRfe s
  | .ktk g => Sys2Proof.Machine.execKtk g s
  | .halt g => Sys2Proof.Machine.execHalt g s
  | .waveExchange outW inW => Sys2Proof.Machine.execWaveExchange outW inW s
  | .activeSetEntry w => Sys2Proof.Machine.execActiveSetEntry w s
  | .mwaitRelease w sl k pc => Sys2Proof.Machine.execMwaitRelease w sl k pc s
  | .loopEndReached w sl k => Sys2Proof.Machine.execLoopEndReached w sl k s
  | .barrierArrivalEffect w bar => Sys2Proof.Machine.execBarrierArrivalEffect w bar s
  | .ringArrivalEffect wg empty ring slot => Sys2Proof.Machine.execRingArrivalEffect wg empty ring slot s
  | .gridPhaseComplete launch => Sys2Proof.Machine.execGridPhaseComplete launch s
  | .sclkWake w sl => Sys2Proof.Machine.execSclkWake w sl s
  | .barTimeout obj => Sys2Proof.Machine.execBarTimeout obj s
  | .queueDeadlock w => Sys2Proof.Machine.execQueueDeadlock w s
  | .pmaskLong w => Sys2Proof.Machine.execPmaskLong w s
  | .loadCompletion id => Sys2Proof.Machine.execLoadCompletion id s
  | .storeRecordPerform w => Sys2Proof.Machine.execStoreRecordPerform w s
  | .storeAcknowledge id => Sys2Proof.Machine.execStoreAcknowledge id s
  | .atomicPerform id => Sys2Proof.Machine.execAtomicPerform id s
  | .hostAtomicCompletion id success => Sys2Proof.Machine.execHostAtomicCompletion id success s
  | .hostCompletionTimeout id => Sys2Proof.Machine.execHostCompletionTimeout id s
  | .tableWalk cluster core vi va => Sys2Proof.Machine.execTableWalk cluster core vi va s
  | .directoryRecall cluster line => Sys2Proof.Machine.execDirectoryRecall cluster line s
  | .hostAccess acc => Sys2Proof.Machine.execHostAccess acc s
  | .hostAtomicop op => Sys2Proof.Machine.execHostAtomicop op s
  | .linkDown => Sys2Proof.Machine.execLinkDown s
  | .islandRequestComplete id => Sys2Proof.Machine.execIslandRequestComplete id s
  | .channelSlotReturn id => Sys2Proof.Machine.execChannelSlotReturn id s
  | .slotAudit cluster chan free sentSince => Sys2Proof.Machine.execSlotAudit cluster chan free sentSince s
  | .rasterQuadEmit wg => Sys2Proof.Machine.execRasterQuadEmit wg s
  | .rasterBatchPlace wg => Sys2Proof.Machine.execRasterBatchPlace wg s
  | .blendApply id => Sys2Proof.Machine.execBlendApply id s
  | .blendWriteback cluster line => Sys2Proof.Machine.execBlendWriteback cluster line s
  | .islandImageLoad cluster kind slot => Sys2Proof.Machine.execIslandImageLoad cluster kind slot s
  | .gloadComplete id => Sys2Proof.Machine.execGloadComplete id s
  | .cardBind card => Sys2Proof.Machine.execCardBind card s
  | .graphPlacement cluster ctx => Sys2Proof.Machine.execGraphPlacement cluster ctx s
  | .tokenAdmit card => Sys2Proof.Machine.execTokenAdmit card s
  | .tokenLeave card lane => Sys2Proof.Machine.execTokenLeave card lane s
  | .fabricModeEntry core => Sys2Proof.Machine.execFabricModeEntry core s
  | .copyEngineServe cluster => Sys2Proof.Machine.execCopyEngineServe cluster s
  | .copyQueueWordPlace cmd => Sys2Proof.Machine.execCopyQueueWordPlace cmd s
  | .copyCommandComplete cmd => Sys2Proof.Machine.execCopyCommandComplete cmd s
  | .copyDataFailure cmd => Sys2Proof.Machine.execCopyDataFailure cmd s
  | .haltComplete wg => Sys2Proof.Machine.execHaltComplete wg s
  | .preemptionRequest wg discard => Sys2Proof.Machine.execPreemptionRequest wg discard s
  | .saveAndRestore wg => Sys2Proof.Machine.execSaveAndRestore wg s
  | .discard wg => Sys2Proof.Machine.execDiscard wg s
  | .resume wg core => Sys2Proof.Machine.execResume wg core s
  | .workgroupPlace launch core => Sys2Proof.Machine.execWorkgroupPlace launch core s
  | .priorityPreempt slot => Sys2Proof.Machine.execPriorityPreempt slot s
  | .ageingPeriod slot => Sys2Proof.Machine.execAgeingPeriod slot s
  | .exchangePeriod wg => Sys2Proof.Machine.execExchangePeriod wg s
  | .doorbell slot value => Sys2Proof.Machine.execDoorbell slot value s
  | .ringByteCopy slot => Sys2Proof.Machine.execRingByteCopy slot s
  | .slotEnable slot => Sys2Proof.Machine.execSlotEnable slot s
  | .slotDisable slot => Sys2Proof.Machine.execSlotDisable slot s
  | .nopPacket slot => Sys2Proof.Machine.execNopPacket slot s
  | .launch slot => Sys2Proof.Machine.execLaunch slot s
  | .launchStart launch => Sys2Proof.Machine.execLaunchStart launch s
  | .wait slot => Sys2Proof.Machine.execWait slot s
  | .waitPoll slot => Sys2Proof.Machine.execWaitPoll slot s
  | .signal slot => Sys2Proof.Machine.execSignal slot s
  | .images slot => Sys2Proof.Machine.execImages slot s
  | .moor slot => Sys2Proof.Machine.execMoor slot s
  | .launchCompletion launch => Sys2Proof.Machine.execLaunchCompletion launch s
  | .mooringPoint slot => Sys2Proof.Machine.execMooringPoint slot s
  | .clockModeChange => Sys2Proof.Machine.execClockModeChange s
  | .clockModeResume => Sys2Proof.Machine.execClockModeResume s
  | .invalidateStart vi => Sys2Proof.Machine.execInvalidateStart vi s
  | .invalidateComplete vi => Sys2Proof.Machine.execInvalidateComplete vi s
  | .rootWrite vi value => Sys2Proof.Machine.execRootWrite vi value s
  | .pinWrite k base pages => Sys2Proof.Machine.execPinWrite k base pages s
  | .pinFillComplete k => Sys2Proof.Machine.execPinFillComplete k s
  | .attestationRequest => Sys2Proof.Machine.execAttestationRequest s
  | .attestationReportReady => Sys2Proof.Machine.execAttestationReportReady s
  | .powerOn => Sys2Proof.Machine.execPowerOn s
  | .firmwareBundle value => Sys2Proof.Machine.execFirmwareBundle value s
  | .matrixGate cluster value => Sys2Proof.Machine.execMatrixGate cluster value s
  | .islandGate cluster value => Sys2Proof.Machine.execIslandGate cluster value s
  | .copyGate cluster value => Sys2Proof.Machine.execCopyGate cluster value s
  | .clusterGate cluster value => Sys2Proof.Machine.execClusterGate cluster value s
  | .gateTakeEffect u => Sys2Proof.Machine.execGateTakeEffect u s
  | .unitWake u => Sys2Proof.Machine.execUnitWake u s
  | .idleRegate u => Sys2Proof.Machine.execIdleRegate u s
  | .thermalWarning die temp => Sys2Proof.Machine.execThermalWarning die temp s
  | .shutdown die temp => Sys2Proof.Machine.execShutdown die temp s
  | .correctedError counter => Sys2Proof.Machine.execCorrectedError counter s
  | .uncorrectableError place => Sys2Proof.Machine.execUncorrectableError place s
  | .deviceErrorStop securityBlock location => Sys2Proof.Machine.execDeviceErrorStop securityBlock location s
  | .deviceReset => Sys2Proof.Machine.execDeviceReset s
  | .registerWrite view reg value => Sys2Proof.Machine.execRegisterWrite view reg value s
  | .unassignedEncoding cause => Sys2Proof.Machine.execUnassignedEncoding cause s
  | .instructionFetchFault cause address => Sys2Proof.Machine.execInstructionFetchFault cause address s
  | .icinvComplete id => Sys2Proof.Machine.execIcinvComplete id s
  | .vectorUnmask fn vec => Sys2Proof.Machine.execVectorUnmask fn vec s
  | .temperatureFallBelowWarn die temp => Sys2Proof.Machine.execTemperatureFallBelowWarn die temp s

end Sys2Proof.Machine
end

