-- ==== Sys2Proof/Machine/Schedule.lean ====
section
/-!
DEFINITION. Fetching an instruction (R180, R304, R305), the threads that vote with their skip counts (R53, R56, R201), and
which slices may issue (R49, R50, R413, R419).
-/
namespace Sys2Proof.Machine

open Sys2Proof

/-! Fetch. -/

/-- Why a word is not fetched: its line is owned by an engine, or a cause at its address. -/
inductive FetchStop where
  | wait
  | cause (c : Cause) (va : DWord)
  deriving DecidableEq, Repr

/-- The code base of a workgroup's kernel (R180). A keeper agent's code is untranslated, from address 0. -/
def State.codeBase (s : State) (g : Workgroup) : DWord :=
  match s.launch g.launch with
  | some l => l.kernel.codeBase
  | none => 0

/-- Bytes of a line of instructions as words. -/
def lineWords (bs : List Byte) : List Word := wordsOf (ofBytes bs) 32

/-- The instruction cache of 512 lines takes a line (R17); when full it gives up one of the device's choice. -/
def CoreSt.keepLine (c : CoreSt) (n : Nat) (l : ILine) : CoreSt :=
  { c with icache := l :: (if c.icache.length < 512 then c.icache else c.icache.eraseIdx (n % c.icache.length)) }

/-- The word at a virtual address, through the instruction cache, which holds lines by 52-bit address. Host lines are kept in no
cache (R464). -/
def State.fetchAt (s : State) (core vi : Nat) (va : DWord) : Except FetchStop (Word × State) :=
  let line := va52 va / 128 * 128
  let given (w : Word) (lost : BitVec 128) (s : State) : State := s.noteLostCopy lost (va.toNat % 128) (bytesOf w.toNat 4)
  match (s.core core).icache.find? fun l => canonical va && l.vi == vi && l.line == line with
  | some l =>
    let w := laneAt l.words (va.toNat % 128 / 4)
    .ok (w, given w l.lost s)
  | none => match locate s (clusterOf core) (some core) vi va .fetch with
    | (.error c, _) => .error (.cause c va)
    | (.ok p, t) =>
      if t.delayed || t.isOwned p then .error .wait
      else if p.mem = 0 then
        let (n, t) := (t.reach (lineOf p.pa) false).draw
        let lost := t.lostBits (lineOf p.pa)
        let w := BitVec.ofNat 32 (ofBytes (Mem.read t.dmem p.pa 4))
        .ok (w, given w lost (t.updCore core fun c =>
          c.keepLine n ⟨vi, line, lineWords (Mem.read t.dmem (lineOf p.pa) 128), lost⟩))
      else
        let (bad, t) := t.hostReadFails
        if bad then .error (.cause .hostRead va) else .ok (BitVec.ofNat 32 (ofBytes (t.hostRead p.pa 4)), t)

/-- The word at a counter of a slice: from its fetch buffer, or fetched. -/
def State.fetchWord (s : State) (g : Workgroup) (w : Wave) (sl : Slice) (pc : Word) : Except FetchStop (Word × State) :=
  match (w.slice sl).fbuf.find? fun e => e.1 == pc.toNat with
  | some e => .ok (e.2, s)
  | none =>
    if g.keeper then .ok (BitVec.ofNat 32 (ofBytes (Mem.read s.dmem pc.toNat 4)), s)
    else s.fetchAt g.core (s.viOf g) (s.codeBase g + pc.setWidth 64)

/-- What stands at a counter: an instruction, a decode cause, or a failed fetch. -/
inductive Fetched where
  | wait
  | fault (c : Cause) (va : DWord)
  | illegal (c : Cause)
  | instr (i : Instr)
  deriving DecidableEq, Repr

/-- The words at a counter are fetched one after another until they decode (R65); the words read and the state. -/
def State.fetchFrom (s : State) (g : Workgroup) (w : Wave) (sl : Slice) (pc : Word) (words : List Word) :
    Nat → Fetched × List Word × State
  | 0 => (.illegal .unassignedOp, words, s)
  | n + 1 => match s.fetchWord g w sl (pc + BitVec.ofNat 32 (4 * words.length)) with
    | .error .wait => (.wait, words, s)
    | .error (.cause c va) => (.fault c va, words, s)
    | .ok (x, t) => match decode (words ++ [x]) with
      | .more => t.fetchFrom g w sl pc (words ++ [x]) n
      | .illegal c => (.illegal c, words ++ [x], t)
      | .instr i => (.instr i, words ++ [x], t)

/-- The fetch buffer of a slice keeps words, or does not, as the device chooses (R304). -/
def State.keepWords (s : State) (r : WaveRef) (sl : Slice) (pc : Word) (words : List Word) : State :=
  let (n, t) := s.draw
  let new : List (Nat × Word) := (words.zipIdx).map fun p => (pc.toNat + 4 * p.2, p.1)
  t.updSlice r sl fun x => { x with
    fbuf := if n % 2 = 0 then x.fbuf else (new ++ x.fbuf.filter fun e => !new.any fun f => f.1 == e.1).take 64 }

/-- The instruction at the counter of an issue group. -/
def State.fetchInstr (s : State) (g : Workgroup) (w : Wave) (sl : Slice) (pc : Word) : Fetched × State :=
  let (x, words, t) := s.fetchFrom g w sl pc [] 3
  (x, (t.keepWords ⟨g.id, w.id⟩ sl pc words).credit g.id)

/-! Who votes (R53, R56). -/

/-- The lowest counter among the threads of a set. -/
def SliceSt.lowestOf (t : SliceSt) (m : Lanes) : Option Word :=
  (lanesOf m).foldl (fun best i =>
    let pc := (t.thread i).pc
    match best with
    | none => some pc
    | some b => some (if pc < b then pc else b)) none
/-- The threads of a set at a counter. -/
def SliceSt.atCounter (t : SliceSt) (m : Lanes) (pc : Word) : Lanes :=
  lanesWhere fun i => m.getLsbD i && (t.thread i).pc == pc
/-- The overdue threads of a set. -/
def SliceSt.overdue (t : SliceSt) (m : Lanes) : Lanes := lanesWhere fun i => m.getLsbD i && 64 ≤ (t.thread i).skip

/-- The threads that take part in the vote of a slice: of an open run only its lanes (R201). -/
def Wave.voters (w : Wave) (sl : Slice) : Lanes :=
  let t := w.slice sl
  match w.run with
  | some r => if r.sl == sl then t.votable &&& r.lanes else t.votable
  | none => t.votable

/-- The skip counts after an issue of a group (R56, R201): none changes while the slice has a run open. -/
def Wave.countSkips (before : Wave) (sl : Slice) (em : Lanes) (w : Wave) : Wave :=
  if before.inRun sl then w
  else
    let voted := (before.slice sl).votable
    w.updSlice sl fun t => t.updLanes voted fun i h => { h with skip := if em.getLsbD i then 0 else h.skip + 1 }
/-- The second group of a pair has issued too. -/
def Wave.clearSkips (sl : Slice) (em : Lanes) (w : Wave) : Wave :=
  w.updSlice sl fun t => t.updLanes em fun _ h => { h with skip := 0 }

/-! Candidates (R50). -/

/-- A slice of a workgroup's wave may issue now. -/
def State.mayIssue (s : State) (g : Workgroup) (w : Wave) (sl : Slice) : Bool :=
  let inRun := w.inRun sl
  (g.keeper || w.active) && match g.status with
  | .resident => true
  | .halting h => !h.stopped.contains (w.id, sl) && (inRun || s.clock < h.t + 4)
  | .saving | .discarding => inRun
  | .saved | .held | .ended => false

/-- The candidates: every slice that may issue and has a thread that votes. -/
def State.candidates (s : State) : List (WaveRef × Slice) :=
  if s.ctl.stopped then []
  else s.wgs.flatMap fun g => g.waves.flatMap fun w => [Slice.a, .x].filterMap fun sl =>
    if s.mayIssue g w sl && w.voters sl != 0#32 then some (⟨g.id, w.id⟩, sl) else none

end Sys2Proof.Machine
end

