-- ==== Sys2Proof/Machine/Waits.lean ====
section
/-!
DEFINITION. What an instruction that does not issue waits for, as far as scheduling asks: queue slots and room (R51, R52),
request slots and held loads (R250), and the hints of an `endrun` (R205).
-/
namespace Sys2Proof.Machine

open Sys2Proof

/-- Slots and room of the queues that an instruction names without popping or pushing are there: slots that `qpeek`, `qwait`
and `qdrop` look at, room for the slots that it allocates, and for a store record. -/
def Ctx.namedReady (c : Ctx) (i : Instr) : Bool :=
  (usesOf i).all fun u => match u with
    | .names code .look n =>
      let q := Form.qIndex code
      c.lanes.all fun l => match i with
        | .qpeek _ => (spanSlots c.w q l (n - 1) 1).all QEntry.settled
        | .qdrop _ => (spanSlots c.w q l 0 n).all Option.isSome
        | _ => (spanSlots c.w q l 0 n).all QEntry.settled
    | .names code .records _ => match c.w.queue (Form.qIndex code) with
      | some q => c.covered.all fun l => recordCount c.w (Form.qIndex code) l < q.depth
      | none => true
    | .names code .loads n | .names code .bound n => c.room (Form.qIndex code) n
    | _ => true

/-- The voted group waits on a queue entry that is not ready or on a full queue (R52). -/
def Ctx.queueWait (c : Ctx) (i : Instr) : Bool :=
  !c.popsReady (usesOf i) || !c.roomFor (usesOf i) || !c.namedReady i

/-- The island kind whose request slots an instruction takes (R355). -/
def islandOf (i : Instr) : Option IslandKind :=
  match i with
  | .ibox _ | .itri _ | .iprim _ => some .intersection
  | .tsmp _ | .tgth _ | .tfch _ => some .filter
  | .rtri _ => some .raster
  | .bpx _ | .ist _ => some .blend
  | _ => none

/-- No request slot of its quarter-core's channel is free (R355). -/
def Ctx.slotWait (c : Ctx) (i : Instr) : Bool :=
  match islandOf i with
  | some k => (c.s.channel c.cluster (channelOf k c.core c.w.quarter)).free == 0
  | none => false

/-- An `aldu` that a store record of its wave holds has the result that the instruction needs, and nothing else is pending
(R242, R250). -/
def Ctx.heldResult (c : Ctx) (i : Instr) : Bool :=
  c.pendingResult i &&
    !({ c with s := { c.s with reqs := c.s.reqs.filter fun r => !c.s.heldLoad r } } : Ctx).pendingResult i

/-- An `aldu` of host memory that a store record of its wave holds (R242, R250). -/
def Ctx.heldHost (c : Ctx) (i : Instr) : Bool :=
  match i with
  | .aldu _ g => match (locate c.s c.cluster (some c.core) c.vi (alduAddr c g) .load).1 with
    | .ok p => p.mem != 0 && c.s.held c.ref c.s.nextId p
    | .error _ => false
  | _ => false

/-- The voted group is not ready only because it waits on a queue (R250, R411). -/
def Ctx.queueBound (c : Ctx) (i : Instr) : Bool :=
  (staticCauses c i).isEmpty && (c.s.wakes c.g c.w i).isNone &&
    if c.pendingResult i then c.heldResult i else c.queueWait i || c.slotWait i || c.heldHost i

/-- An arriving instruction of a thread that has already contributed waits until the phase of its barrier completes (R291). -/
def Ctx.barrierWait (c : Ctx) (i : Instr) : Bool :=
  match i with
  | .barSync g | .barArr g => match c.s.barrier c.g g.sd.toNat with
    | some b => alreadyIn b (c.w.contrib g.sd.toNat) c.sl c.em
    | none => false
  | _ => false

/-- The voted group waits on a queue or on a barrier, in the sense of the blocked wave (R52). -/
def Ctx.waitBlocked (c : Ctx) (i : Instr) : Bool :=
  (staticCauses c i).isEmpty && !c.pendingResult i && (c.queueWait i || c.barrierWait i)

/-! Turns (R50, R63, R205). -/

/-- What the arbitration holds of a slice; one that has never issued holds nothing yet. -/
def State.turn (s : State) (r : WaveRef) (sl : Slice) : Turn :=
  (s.turns.find? fun t => t.w == r && t.sl == sl).getD ⟨r, sl, none, 0, [], []⟩
def State.updTurn (s : State) (r : WaveRef) (sl : Slice) (f : Turn → Turn) : State :=
  { s with turns := f (s.turn r sl) :: s.turns.filter fun t => !(t.w == r && t.sl == sl) }

/-- A candidate comes before another in the arbitration: its last issue lies further back, one that has never issued furthest;
ties go to the lower wave slot, then to the A-slice (R50). -/
def Turn.ahead (a b : Turn) (wa wb : Nat) : Bool :=
  match a.issued, b.issued with
  | none, some _ => true
  | some _, none => false
  | some x, some y => x < y || (x == y && (wa < wb || (wa == wb && a.sl == .a && b.sl == .x)))
  | none, none => wa < wb || (wa == wb && a.sl == .a && b.sl == .x)

/-! Late writes (R103, R125). -/

/-- A register that the last hints of a slice name has a write pending in its scoreboard (R205, R206). -/
def Turn.hinted (t : Turn) : Bool := t.busy.any fun b => t.hints.contains b.1
/-- The register codes that the hints of an `endrun` name (R204). -/
def hintsOf (i : Instr) : List (BitVec 8) :=
  match i with
  | .endrunHinted h => ((List.range 3).map (hintByte h)).filter fun c => c != 0xFF#8
  | _ => []
/-- The codes of the `v` and `o` registers that an instruction writes. -/
def writtenCodes (i : Instr) : List (BitVec 8) :=
  (usesOf i).flatMap fun u => match u with
    | .wr code n => if Form.isQ code then [] else (List.range n).map fun k => code + BitVec.ofNat 8 k
    | _ => []

/-- The registers that an instruction writes: `v` rows (true) and `s` registers, by number. -/
def writtenRegs (i : Instr) : List (Bool × Nat) :=
  (usesOf i).flatMap fun u => match u with
    | .wr code n => if Form.isV code then (List.range n).map fun k => (true, code.toNat + k) else []
    | .gwr code n => (sRange code n).map fun k => (false, k)
    | _ => []

/-- The slots that an instruction removes from a column of each queue: queue and count. -/
def removedSlots (i : Instr) : List (Nat × Nat) :=
  match i with
  | .qdrop f => [(Form.qIndex f.a, Form.countC f)]
  | _ => (popSpans (usesOf i)).map fun p => (p.1, p.2.2)
def removedFrom (i : Instr) (q : Nat) : Nat :=
  (removedSlots i).foldl (fun n p => if p.1 == q then n + p.2 else n) 0

/-- The first slot that an instruction places in each column: queue, lane, and how many slots must go until it is popped. A
`.gq` command of the wave places its words later, after the slots that are there. -/
def placedSlots (i : Instr) (em : Lanes) (before after : Wave) (streams : List Nat) : List (Nat × Nat × Nat) :=
  (List.range 16).flatMap fun q => laneList.filterMap fun l =>
    let len (w : Wave) : Nat := match w.queue q with
      | some u => (u.col l).length
      | none => 0
    let left := len before - (if em.getLsbD l then removedFrom i q else 0)
    if left < len after || streams.contains q then some (q, l, left + 1) else none

/-- The slots that order something of one slice before the other slice, by queue and lane up to each: after an issue of the
other slice, which has popped slots; none once one of them is gone. -/
def poppedSlots (i : Instr) (em : Lanes) (slots : List (Nat × Nat × Nat)) : Option (List (Nat × Nat × Nat)) :=
  let gone (p : Nat × Nat × Nat) : Nat := if em.getLsbD p.2.1 then removedFrom i p.1 else 0
  if slots.any fun p => p.2.2 ≤ gone p then none else some (slots.map fun p => (p.1, p.2.1, p.2.2 - gone p))
/-- The same after a later issue of its own slice, which has placed slots. -/
def addSlots (new slots : List (Nat × Nat × Nat)) : List (Nat × Nat × Nat) :=
  slots ++ new.filter fun p => !slots.any fun q => q.1 == p.1 && q.2.1 == p.2.1

/-- A late write after an issue of the other slice: none once a slot that orders it is gone, but one that is still to be made is
ordered from then on. -/
def LateWrite.popped (i : Instr) (em : Lanes) (x : LateWrite) : Option LateWrite :=
  match poppedSlots i em x.until_ with
  | some slots => some { x with until_ := slots }
  | none => if x.req.isSome then some { x with until_ := [], ordered := true } else none

/-- A late write after a later issue of its own slice, which has placed slots. -/
def LateWrite.placed (new : List (Nat × Nat × Nat)) (x : LateWrite) : LateWrite := { x with until_ := addSlots new x.until_ }

/-- A store record after an issue of the X-slice, whose accesses from name `next` on follow it once a slot is gone (R275). -/
def StoreRec.popped (i : Instr) (em : Lanes) (next : Nat) (k : StoreRec) : StoreRec :=
  match poppedSlots i em k.slots with
  | some slots => { k with slots := slots }
  | none => { k with slots := [], seen := k.seen.or (some next) }

/-- A late write of the other slice to a row that a slice has now written as `new`: one of the two is the last (R125). When
it is the late one, the slice may read its own value until then; otherwise those lanes are late no more. -/
def LateWrite.overwritten (last : Bool) (em : Lanes) (new : List Word) (x : LateWrite) : LateWrite :=
  if last then { x with old := mergeLanes (x.lanes &&& em) x.old (laneAt new) } else { x with lanes := x.lanes &&& ~~~em }

/-- The rows that a slice has written over late writes of the other slice, between two states (R125). -/
def State.bothWrote (s t : State) (u : Issue) (i : Instr) : State :=
  let rows := (writtenRegs i).filterMap fun p => if p.1 then some p.2 else none
  let meets (x : LateWrite) : Bool := x.w == u.w && x.sl != u.sl && x.vector && rows.contains x.k && x.lanes &&& u.em != 0#32
  match s.wave u.w, t.wave u.w with
  | some w, some v =>
    if t.late.any meets then
      let (n, t) := t.draw
      let both := t.late.filter meets
      let one (x : LateWrite) : LateWrite := if meets x then x.overwritten (n.testBit 0) u.em (v.vrow x.k) else x
      let t : State := { t with late := t.late.map one }
      let back (v : Wave) (x : LateWrite) : Wave :=
        { v with v := v.v.setRow x.k (mergeLanes (x.lanes &&& u.em) (v.vrow x.k) (laneAt (w.vrow x.k))) }
      if n.testBit 0 then t.updWave u.w fun v => both.foldl back v else t
    else t
  | _, _ => t

/-- The request of a slice that an instruction has placed for `s` registers, which it writes when it completes. -/
def State.writerReq (s t : State) (u : Issue) : Option Nat :=
  (t.reqs.find? fun r => r.w == u.w && r.sl == u.sl && s.nextId ≤ r.id && match r.kind with
    | .group _ _ _ | .gload _ _ => true
    | _ => false).map Req.id

/-- The late writes after an instruction of a slice has issued: what it has written is late for the other slice, what it has
placed orders its earlier writes, and what it has popped makes the other slice's writes visible (R103, R125). -/
def State.noteWrites (s t : State) (u : Issue) (i : Instr) (w : Wave) (new : List (Nat × Nat × Nat)) : State :=
  let old := t.late.filterMap fun x =>
    if x.w != u.w then some x else if x.sl == u.sl then some (x.placed new) else x.popped i u.em
  let req := s.writerReq t u
  let one (p : Bool × Nat) : LateWrite :=
    if p.1 then ⟨u.w, u.sl, true, p.2, u.em, w.vrow p.2, [], none, false⟩
    else ⟨u.w, u.sl, false, p.2, BitVec.allOnes 32, [w.sreg p.2], [], req, false⟩
  let wrote := if (w.slice (otherSlice u.sl)).liveLanes == 0#32 then [] else (writtenRegs i).map one
  { t with late := old ++ wrote }

/-- The same of memory: what the slice has placed orders its earlier store records and scratch stores before the other slice's
later accesses (R275), and what it has popped makes the other slice's scratch stores visible, and its accesses follow the records. -/
def State.noteStores (t : State) (u : Issue) (i : Instr) (new : List (Nat × Nat × Nat)) : State :=
  let rec_ (k : StoreRec) : StoreRec :=
    if u.sl == .a then { k with slots := addSlots new k.slots } else k.popped i u.em t.nextId
  let gone (x : LateStore) : Bool := x.w == u.w && x.sl != u.sl && (poppedSlots i u.em x.slots).isNone
  let t := (t.updWave u.w fun w => { w with recs := w.recs.map rec_ }).landScratch fun _ x => gone x
  let one (x : LateStore) : LateStore :=
    if x.w != u.w then x else { x with slots := if x.sl == u.sl then addSlots new x.slots
      else (poppedSlots i u.em x.slots).getD [] }
  { t with lateScratch := t.lateScratch.map one }

/-- What the other slice of the wave may not see yet after an instruction of a slice has issued. -/
def State.noteLate (s t : State) (u : Issue) (i : Instr) : State :=
  let t := s.bothWrote t u i
  match s.wave u.w, t.wave u.w with
  | some w, some v =>
    let streams := t.cmds.filterMap fun k => if s.nextId ≤ k.id && k.w.wg == u.w.wg then
      (k.stream.filter fun x => x.wave == u.w.wave).map Stream.q else none
    let new := placedSlots i u.em w v streams
    (s.noteWrites t u i w new).noteStores u i new
  | _, _ => t

end Sys2Proof.Machine
end

