-- ==== Sys2Proof/Machine/Offers.lean ====
section
/-!
DEFINITION. The events that the device may take next of its own accord, those that are due at once, and what passes with every
step: time, watches, halts and the caches' own choices. An event that is offered too early changes nothing.
-/
namespace Sys2Proof.Machine

open Sys2Proof

/-! What the device may do next. -/

/-- An event of the device, as what it does. -/
abbrev Action := State → Result

/-- Every core and every cluster. -/
def coreList : List Nat := List.range 192
def clusterList : List Nat := List.range 24

/-- What becomes of what a wave has issued, whatever its workgroup does. -/
def issuedOffers (g : Workgroup) (w : Wave) : List Action :=
  if w.recs.isEmpty then [] else [execStoreRecordPerform ⟨g.id, w.id⟩]

/-- The events of a workgroup. -/
def wgOffers (g : Workgroup) : List Action :=
  let issued := g.waves.flatMap (issuedOffers g) ++ [execRasterQuadEmit g.id, execRasterBatchPlace g.id]
  match g.status with
  | .resident => issued ++ [execSaveAndRestore g.id, execDiscard g.id]
  | .halting _ => issued ++ [execHaltComplete g.id]
  | .saving => issued ++ [execSaveAndRestore g.id]
  | .discarding => issued ++ [execDiscard g.id]
  | .saved => coreList.map (execResume g.id)
  | .ended => issued
  | .held => []

/-- The events of a request. -/
def reqOffers (r : Req) : List Action :=
  match r.kind with
  | .load _ _ _ _ _ _ _ => [execLoadCompletion r.id, execHostCompletionTimeout r.id]
  | .group _ _ _ => [execLoadCompletion r.id]
  | .ack _ _ => [execStoreAcknowledge r.id]
  | .atomic _ p _ _ _ _ _ _ =>
    if p.mem = 0 then [execAtomicPerform r.id]
    else [execHostAtomicCompletion r.id true, execHostAtomicCompletion r.id false, execHostCompletionTimeout r.id]
  | .island _ _ _ _ _ _ _ _ _ => [execIslandRequestComplete r.id, execChannelSlotReturn r.id, execBlendApply r.id]
  | .gload _ _ => [execGloadComplete r.id]
  | .icinv _ => [execIcinvComplete r.id]

/-- The events of a slot. -/
def slotOffers (k : Nat) : List Action :=
  [execRingByteCopy k, execNopPacket k, execLaunch k, execWait k, execWaitPoll k, execSignal k, execImages k,
   execMoor k, execMooringPoint k, execPriorityPreempt k]

/-- The events of a launch. -/
def launchOffers (l : Launch) : List Action :=
  [execLaunchStart l.id, execGridPhaseComplete l.id, execLaunchCompletion l.id] ++ coreList.map (execWorkgroupPlace l.id)

/-- The units of a cluster whose gating may change. -/
def gateOffers (c : Nat) (g : Gate) : List Action :=
  let units : List UnitRef := (List.range 32).map (fun u => UnitRef.matrix c (u / 4) (u % 4)) ++
    (List.range 6).map (UnitRef.island c) ++ [.copy c]
  (if g.mgate == 0 && g.igate == 0 && !g.kgate then []
    else units.flatMap fun u => [execGateTakeEffect u, execUnitWake u, execIdleRegate u]) ++
  (if g.cgate || g.off then [execGateTakeEffect (.cluster c), execUnitWake (.cluster c)] else [])

/-- The events of a cluster. -/
def State.clusterOffers (s : State) (c : Nat) : List Action :=
  let x := s.cluster c
  [execCopyEngineServe c] ++ (x.blend.map fun b => execBlendWriteback c b.line) ++ gateOffers c x.gate ++
  ((List.range 16).filterMap fun k => match x.contexts[k]? with
    | some g => if g.placing.isSome then some (execGraphPlacement c k) else none
    | none => none) ++
  (if s.clusterBusy c then [] else s.launches.flatMap fun l =>
    [IslandKind.raster, .intersection, .filter, .blend].map fun i => execIslandImageLoad c i l.slot)

/-- Everything that the device may do next of its own accord, beside issuing. -/
def State.offers (s : State) : List Action :=
  s.wgs.flatMap wgOffers ++ s.reqs.flatMap reqOffers ++ s.launches.flatMap launchOffers ++
  (((List.range 64).filter fun k => (s.slot k).enable || !(s.slot k).pendingShares.isEmpty).flatMap slotOffers) ++
  clusterList.flatMap s.clusterOffers ++
  (s.cmds.flatMap fun k => [execCopyQueueWordPlace k.id, execCopyCommandComplete k.id, execCopyDataFailure k.id]) ++
  (s.cards.flatMap fun k => [execCardBind k.id, execTokenAdmit k.id] ++ k.tokens.map fun t => execTokenLeave k.id t.lane) ++
  (s.owned.map fun o => execDirectoryRecall 0 o.line) ++
  (coreList.filterMap fun k => if s.reserved k && !(s.core k).fabric then some (execFabricModeEntry k) else none) ++
  ((List.range 16).flatMap fun k => (if (s.iface k).busy.isSome then [execInvalidateComplete k] else []) ++
    match s.pins[k]? with
    | some p => if p.status = 3 then [execPinFillComplete k] else []
    | none => []) ++
  (if s.attest.busy then [execAttestationReportReady] else [])

/-! What must happen before any other step, in the same cycle: a release whose condition holds (R191, R196, R410), an arrival
whose release is complete (R291, R297), an exchange of waves (R52, R63), and what a limit of time brings. -/

/-- The releases of a slice. -/
def SliceSt.releases (t : SliceSt) (r : WaveRef) (sl : Slice) (clock : Nat) : List Instr :=
  let waits := (laneList.filterMap fun i => match (t.thread i).st with
    | .parked (.mwait k) => if t.mwaitReady k (t.thread i).pc then some (Instr.mwaitRelease r sl k (t.thread i).pc) else none
    | _ => none).eraseDups
  let ends := (List.range 4).filterMap fun k => if t.loopEndReady k then some (Instr.loopEndReached r sl k) else none
  waits ++ ends ++ (if t.clockDone clock != 0#32 then [.sclkWake r sl] else [])

/-- The arrivals of a wave that take effect now. -/
def State.arrivals (s : State) (g : Workgroup) (w : Wave) : List Instr :=
  (w.contribs.filter fun c => s.arrivalReady g w c.bar).map (fun c => .barrierArrivalEffect ⟨g.id, w.id⟩ c.bar) ++
  (w.ringArrivals.filter fun a => s.released ⟨g.id, w.id⟩ a.sl a.upto).map fun a =>
    .ringArrivalEffect g.id a.empty a.ring a.slot

/-- The waves of the active set of a quarter-core that are blocked outside a run (R52). -/
def State.blockedWaves (s : State) (core quarter : Nat) : List WaveRef :=
  s.wgs.flatMap fun g => if g.core == core && g.status == .resident && !g.keeper then
    (g.waves.filter fun w => w.active && w.quarter == quarter && w.blocked).map fun w => ⟨g.id, w.id⟩ else []

/-- The pending wave of a quarter-core that became unblocked earliest enters the active set: in room, or in the place of a
blocked wave, of the device's choice `n` (R52, R63). -/
def State.entries (s : State) (n core quarter : Nat) : List Instr :=
  match s.earliest core quarter with
  | none => []
  | some r =>
    if s.activeCount core quarter < 8 then [.activeSetEntry r]
    else
      let out := s.blockedWaves core quarter
      match out[n % out.length]? with
      | some o => [.waveExchange o r]
      | none => []

/-- The quarter-cores on which workgroups stand. -/
def State.quarters (s : State) : List (Nat × Nat) :=
  ((s.wgs.filter fun g => g.status == .resident && !g.keeper).flatMap fun g =>
    g.waves.map fun w => (g.core, w.quarter)).eraseDups

/-- A wave of a workgroup on its core that is not halting has reached a limit of time: of its window (R409), or of a time
without an issue (R250). -/
def State.waveLimits (s : State) (g : Workgroup) (w : Wave) : List Instr :=
  let late (c : Option Nat) (n : Nat) : Bool := match c with
    | some c => c + n ≤ s.clock
    | none => false
  if g.halted then []
  else
    (if late (w.window.map Window.since) (2 ^ 16) then [.pmaskLong ⟨g.id, w.id⟩] else []) ++
    (if g.status == .resident && late w.qbound (2 ^ 20) then [.queueDeadlock ⟨g.id, w.id⟩] else [])

/-- The watched objects whose count has reached the beacon limit, while an owner does not halt yet (R299). -/
def State.watchLimits (s : State) : List Instr :=
  s.watches.filterMap fun w =>
    let owners := s.watchOwner w.1
    match owners.head? with
    | some g => if w.2.1 + 2 ^ (s.iface (s.viOf g)).beacon ≤ s.clock && owners.any (fun h => !h.halted) then
        some (.barTimeout w.1) else none
    | none => none

/-- What must happen before any choice of the device: a change of the clock mode at a device-wide mooring point (R24), the events
for periods of exchange, of ageing and of audits that have passed (R356, R441, R444), and for mooring points at which a pending share takes effect
(R446). -/
def State.periods (s : State) : List Action :=
  (if s.ctl.mode != s.ctl.current && s.ctl.changing.isNone && s.noKernel then [execClockModeChange] else []) ++
  (if s.audited + 4096 ≤ s.clock then [execAudits] else []) ++
  (s.wgs.filterMap fun g => match g.exchangeSince with
    | some c => if c + (s.slot (s.slotOf g)).slice ≤ s.clock && s.mayExchange g && g.request.isNone then
        some (execExchangePeriod g.id) else none
    | none => none) ++
  ((List.range 64).flatMap fun k =>
    (match (s.slot k).starved with
      | some c => if c + s.ctl.ageing ≤ s.clock && s.slotWork k then [execAgeingPeriod k] else []
      | none => []) ++
    (if s.moored k && s.shareReady k then [execMooringPoint k] else []))

/-- Everything that comes onto the agenda now; `n` is a draw. -/
def State.releases (s : State) (n : Nat) : List Instr :=
  (s.wgs.flatMap fun g => g.waves.flatMap fun w =>
    (if g.placed then w.a.releases ⟨g.id, w.id⟩ .a s.clock ++ w.x.releases ⟨g.id, w.id⟩ .x s.clock else []) ++
    (if g.placed || g.status == .ended then s.arrivals g w else []) ++
    (if g.placed then s.waveLimits g w else [])) ++
  (s.quarters.flatMap fun q => s.entries n q.1 q.2) ++ s.watchLimits

/-! Watches (R299). -/

/-- The object on which a parked thread waits. -/
def watchOf (g : Workgroup) (r : WaveRef) (sl : Slice) (h : Thread) : Option WatchObj :=
  match h.st with
  | .parked (.mwait k) => some (.mwait r sl k h.pc)
  | .parked (.loopEnd k) => some (.loopEnd r sl k)
  | .parked (.barrier b) => some (if b < 64 then .named g.id b else .clusterBar g.launch g.cg (b - 64))
  | .parked (.ring e k j _ _) => some (.ring g.id e k j)
  | .parked .grid => some (.grid g.launch)
  | _ => none

/-- What restarts the count of an object when it changes: its arrivals, and the resumes of the workgroups that share it; one that is
alone with it is not watched while it is saved. -/
def State.signature (s : State) (g : Workgroup) (o : WatchObj) : List Nat :=
  let ofBar (b : Option Barrier) : List Nat := match b with
    | some x => [x.phase, x.arrivals]
    | none => []
  match o with
  | .named _ b => ofBar (s.barrier g b)
  | .clusterBar _ _ b => ((s.clusterGroup g).map ClusterGroup.resumes).getD 0 :: ofBar (s.barrier g (b + 64))
  | .ring _ e k j => match (g.ring k).bind fun x => x.side e j with
    | some t => [t.count, if t.phase then 1 else 0]
    | none => []
  | .grid l => [((s.launch l).map Launch.gridPhase).getD 0, (s.watchCounts g o).2, ((s.launch l).map Launch.resumes).getD 0]
  | .mwait r sl k pc => match s.wave r with
    | some w => [(((w.slice sl).mgen)[k]?).getD 0, ((w.slice sl).mwaiters k pc).toNat]
    | none => []
  | .loopEnd r sl k => match s.wave r with
    | some w => [((w.slice sl).parkedOn (.loopEnd k)).toNat, ((w.slice sl).loop k).lanes.toNat,
        ((w.slice sl).loop k).count.toNat]
    | none => []

/-- The watched objects now, each with its first workgroup. -/
def State.watched (s : State) : List (WatchObj × Workgroup) :=
  let all := s.wgs.flatMap fun g => if !g.placed then [] else g.waves.flatMap fun w => [Slice.a, .x].flatMap fun sl =>
    (w.slice sl).threads.filterMap fun h => (watchOf g ⟨g.id, w.id⟩ sl h).map fun o => (o, g)
  all.foldl (fun l p => if l.any fun q => q.1 == p.1 then l else l ++ [p]) []

/-- Every watched object, with its count's start. -/
def State.watchAgain (s : State) : State :=
  { s with watches := s.watched.map fun p =>
      let sig := s.signature p.2 p.1
      match s.watches.find? fun w => w.1 == p.1 with
      | some (_, since, old) => (p.1, if old == sig then since else s.clock, sig)
      | none => (p.1, s.clock, sig) }

/-! Time. -/

/-- The cycles at which something is due: the end of an `sclk`, a limit of a window, of a watch or of a time without an issue,
and the end of a period. -/
def State.limits (s : State) : List Nat :=
  (s.wgs.flatMap fun g => if !g.placed then [] else
    ((g.exchangeSince.map fun c => c + (s.slot (s.slotOf g)).slice).toList) ++ g.waves.flatMap fun w =>
      (w.window.map fun x => x.since + 2 ^ 16).toList ++ (w.qbound.map fun c => c + 2 ^ 20).toList ++
      [w.a, w.x].flatMap fun t => laneList.filterMap fun i => match (t.thread i).st with
        | .parked (.clock c) => some c
        | _ => none) ++
  (s.watches.flatMap fun w => ((s.watchOwner w.1).head?.map fun g => w.2.1 + 2 ^ (s.iface (s.viOf g)).beacon).toList) ++
  (s.slots.flatMap fun q => (q.starved.map fun c => c + s.ctl.ageing).toList) ++ [s.audited + 4096]

/-- The cycles that pass: at least one, and never past something that is due. During a change of the clock mode none passes
beyond its end (R24). -/
def State.nextClock (s : State) (n : Nat) : Nat :=
  let next := (s.limits.filter fun c => s.clock < c).foldl min (s.clock + 1 + n)
  match s.ctl.changing with
  | some c => if c ≤ s.clock then s.clock else min next c
  | none => next

/-- What passes for a resident wave in `d` cycles: its counters (R411). -/
def Wave.pass (d : Nat) (w : Wave) : Wave :=
  if w.ended then w
  else
    let pmc := updAt (· + d) w.pmc 0
    let pmc := if w.active then updAt (· + d) pmc 3 else pmc
    { w with pmc := if w.qwaits then updAt (· + d) pmc 4 else pmc }

/-- The halt of a workgroup reaches its other slices four cycles after the fault (R413): the open runs go on. -/
def Workgroup.reach (clock : Nat) (g : Workgroup) : Workgroup :=
  match g.status with
  | .halting h =>
    let now := !h.reached && h.t + 4 ≤ clock
    let runs := g.waves.filterMap fun w => w.run.map fun r => (w.id, r.sl, 0)
    { g with status := .halting { h with reached := h.reached || now, skid := if now then runs else h.skid } }
  | _ => g

/-- A body instruction issued after the halt counts for its slice's skid (R413). -/
def Workgroup.countSkid (k : Nat) (sl : Slice) (g : Workgroup) : Workgroup :=
  match g.status with
  | .halting h => { g with status := .halting { h with skid := h.skid.map fun x =>
      if x.1 == k && x.2.1 == sl then (x.1, x.2.1, x.2.2 + 1) else x } }
  | _ => g

/-- The clears of `ERRSTICKY` that are due by a cycle take effect (R119). -/
def QSlot.settleClears (clock : Nat) (q : QSlot) : QSlot :=
  { q with
    errsticky := q.clears.foldl (fun x k => if k.due ≤ clock then x &&& ~~~k.bits else x) q.errsticky
    clears := q.clears.filter fun k => clock < k.due }

/-- Time passes: the clock, and what the cycles change in every placed workgroup. -/
def State.pass (s : State) : State :=
  let (n, s) := s.draw
  let clock := s.nextClock n
  let d := clock - s.clock
  let s := { s with clock := clock }
  let one (g : Workgroup) : Workgroup :=
    if !g.placed then g
    else
      let g := g.reach clock
      let since := if s.mayExchange g then some (g.exchangeSince.getD clock) else none
      { g with waves := g.waves.map (Wave.pass d), exchangeSince := since }
  let age (p : QSlot × Nat) : QSlot :=
    { p.1 with starved := if s.slotWork p.2 then some (p.1.starved.getD clock) else none }.settleClears clock
  { s with wgs := s.wgs.map one, slots := (s.slots.zipIdx).map age }

/-- A list without the entry of the device's choice, when it chooses to give one up. -/
def giveUp {α : Type} (b : Bool) (n : Nat) (l : List α) : List α := if b then l.eraseIdx (n % (l.length + 1)) else l

/-- The fetch buffers of a wave give up a word. -/
def Wave.forget (b : Bool) (n : Nat) (w : Wave) : Wave :=
  { w with a := { w.a with fbuf := giveUp b n w.a.fbuf }, x := { w.x with fbuf := giveUp b (n / 64) w.x.fbuf } }

/-- Stores that the host link has accepted reach host memory as the free values say (R303). What is still late: writes of waves
on their cores, but one that may become visible, scratch stores of fewer than 8 cycles, but those that do, and pending results of fewer cycles than their bound, but one that may be there (R103, R205, R248). -/
def State.settleLate (s : State) (n : Nat) : State :=
  let here (r : WaveRef) : Bool := match s.wg r.wg with
    | some g => g.placed
    | none => false
  let s := (s.landPosted fun k => (n / 2 ^ 16).testBit (2 * k + 1)).landScratch fun k x => x.until_ ≤ s.clock || (n / 2 ^ 16).testBit (2 * k)
  { s with
    late := giveUp (n.testBit 0) (n / 4) (s.late.filter fun x => here x.w)
    lateScratch := s.lateScratch.filter fun x => here x.w
    turns := (s.turns.filter fun t => here t.w).map fun t => { t with
      busy := giveUp (n.testBit 1) (n / 4) (t.busy.filter fun b => s.clock < b.2) } }

/-- The caches give up what they choose: at most one entry of each kind, of one core and its cluster. -/
def State.forget (s : State) : State :=
  let (n, s) := s.draw
  let (m, s) := s.draw
  let core := n % 192
  let k := m / 2 ^ 16
  let e := if m.testBit 0 then s.evictSome (clusterOf core) else s
  let core' (c : CoreSt) : CoreSt :=
    { c with
      rbuf := giveUp (m.testBit 1) k c.rbuf
      icache := giveUp (m.testBit 2) k c.icache
      tlb := giveUp (m.testBit 3) k c.tlb }
  let cluster' (c : Cluster) : Cluster :=
    { c with tlb := giveUp (m.testBit 4) k c.tlb, layouts := giveUp (m.testBit 5) k c.layouts }
  let wg (g : Workgroup) : Workgroup :=
    { g with waves := g.waves.map (Wave.forget (m.testBit 6 && g.core == core) k) }
  { e with
    fresh := s.fresh + 1
    cores := updAt core' e.cores core
    clusters := updAt cluster' e.clusters (clusterOf core)
    wgs := e.wgs.map wg
    walkCache := giveUp (m.testBit 7) k e.walkCache
    lantern := (e.lantern.filter fun l => e.pinnedLine l.line) ++
      giveUp (m.testBit 8) k (e.lantern.filter fun l => !e.pinnedLine l.line) }

end Sys2Proof.Machine
end

