-- ==== Sys2Proof/Machine/Run.lean ====
section
/-!
DEFINITION. The issue of a group, the vote with its pairs (R53 to R56, R68, R201), what an issue leaves behind (R50, R103,
R205, R413), and what follows every step: which waves are blocked (R52, R250), what is due, and time.
-/
namespace Sys2Proof.Machine

open Sys2Proof

/-- A group issues: the instruction at its counter is fetched, decoded and executed; a failed fetch and an encoding without
an instruction raise their causes there. -/
def State.issueGroup (s : State) (u : Issue) : Result :=
  match s.wg u.w.wg with
  | none => .next s
  | some g => match g.wave u.w.wave with
    | none => .next s
    | some w => match s.fetchInstr g w u.sl u.pc with
      | (.wait, t) => .next t.stall
      | (.fault c va, t) => execInstructionFetchFault c va { t with cur := some u }
      | (.illegal c, t) => execUnassignedEncoding c { t with cur := some u }
      | (.instr i, t) => exec i { t with cur := some u }

/-- A workgroup has met a cause between two states. -/
def raised (s t : State) (wg : Nat) : Bool :=
  match (s.wg wg).map Workgroup.status, (t.wg wg).map Workgroup.status with
  | some a, some (.halting h) => a != .halting h
  | _, _ => false

/-- The gated unit that a group's instruction needs, while units of its cluster are woken. -/
def State.usedUnit (s : State) (u : Issue) : Option (Nat × Nat) :=
  match s.wg u.w.wg with
  | none => none
  | some g =>
    let cluster := clusterOf g.core
    if (s.cluster cluster).gate.woken.isEmpty then none
    else match g.wave u.w.wave with
      | none => none
      | some w => match (s.fetchInstr g w u.sl u.pc).1 with
        | .instr i => (unitNeeded g w i).map fun n => (cluster, n)
        | _ => none

/-! The vote (R53 to R56, R68, R201). -/

/-- A group would raise a cause if it issued now (R68). -/
def State.raises (s : State) (u : Issue) : Bool :=
  match s.issueGroup u with
  | .next t => raised s t u.w.wg
  | _ => false

/-- A group of a slice may pair: its instruction is of a class that pairs, and would raise no cause (R54, R68). -/
def State.mayPair (s : State) (g : Workgroup) (w : Wave) (u : Issue) : Bool :=
  match (s.fetchInstr g w u.sl u.pc).1 with
  | .instr i => i.layout.pairable && !s.raises u
  | _ => false

/-- Two groups of a slice can issue together: outside a run. -/
def State.canPair (s : State) (g : Workgroup) (w : Wave) (u v : Issue) : Bool :=
  !w.inRun u.sl && s.mayPair g w u && s.mayPair g w v

/-- The groups that the vote of a slice gives: the first, and the second when they pair. -/
def State.vote (s : State) (g : Workgroup) (w : Wave) (sl : Slice) : Option (Issue × Option Issue) :=
  let t := w.slice sl
  let m := w.voters sl
  let group (pc : Word) : Issue := ⟨⟨g.id, w.id⟩, sl, t.atCounter m pc, pc⟩
  match t.lowestOf m with
  | none => none
  | some p1 =>
    let p2 := t.lowestOf (m &&& ~~~t.atCounter m p1)
    let with2 : Option Issue := p2.bind fun q => if s.canPair g w (group p1) (group q) then some (group q) else none
    some (match t.lowestOf (t.overdue m) with
      | none => (group p1, with2)
      | some o =>
        if o == p1 then (group p1, with2)
        else if s.canPair g w (group p1) (group o) then (group p1, some (group o))
        else (group o, none))

/-! What an issue leaves behind. -/

/-- The turn of a slice that has issued at a port (R50). -/
def State.takeTurn (s : State) (u : Issue) : State :=
  s.updTurn u.w u.sl fun x => { x with issued := some s.clock, passed := 0 }

/-- What an instruction leaves to its slice's scoreboard: the registers whose write may still be pending, for at most 144 cycles,
and the hints of an `endrun` (R205, R206). -/
def State.noteHints (s : State) (u : Issue) (i : Instr) : State :=
  let wrote := writtenCodes i
  s.updTurn u.w u.sl fun x => { x with
    hints := hintsOf i
    busy := wrote.map (fun c => (c, s.clock + 144)) ++ x.busy.filter fun b => !wrote.contains b.1 }

/-- What an issue leaves behind: skip counts, the skid of a run, the slice's turn, and the writes that are late. -/
def State.countIssued (s : State) (u : Issue) (t : State) : State :=
  match s.wg u.w.wg, s.wave u.w with
  | some g, some w =>
    let i := match (s.fetchInstr g w u.sl u.pc).1 with
      | .instr i => some i
      | _ => none
    let t := (t.updWave u.w (w.countSkips u.sl u.em)).takeTurn u
    let t := match i with
      | some i => (s.noteLate t u i).noteHints u i
      | none => t
    let body : Bool := w.inRun u.sl && match t.wave u.w with
      | some v => v.inRun u.sl
      | none => false
    if body then t.updWg u.w.wg (Workgroup.countSkid u.w.wave u.sl) else t
  | _, _ => t

/-! Which waves are blocked. -/

/-- The instruction of the first group that the vote of a slice gives has a property. -/
def State.votedIs (s : State) (g : Workgroup) (w : Wave) (sl : Slice) (p : Ctx → Instr → Bool) : Bool :=
  match s.vote g w sl with
  | none => false
  | some (u, _) => match s.fetchInstr g w sl u.pc with
    | (.instr i, t) => p ⟨t, g, w, sl, u.em, u.pc⟩ i
    | _ => false

/-- Each slice of a wave that has a live thread is not ready only because its voted group waits on a queue (R250, R411). -/
def State.waitsOnQueues (s : State) (g : Workgroup) (w : Wave) : Bool :=
  [Slice.a, .x].all fun sl => (w.slice sl).liveLanes == 0#32 || s.votedIs g w sl Ctx.queueBound

/-- A slice of a wave has exited, has no thread that votes, or has its voted group waiting on a queue, a barrier or the registers
of a hint (R52). -/
def State.sliceBlocked (s : State) (g : Workgroup) (w : Wave) (sl : Slice) : Bool :=
  (w.slice sl).votable == 0#32 || (s.turn ⟨g.id, w.id⟩ sl).hinted || s.votedIs g w sl Ctx.waitBlocked

/-- What a wave's slices wait for now: since when it has been queue-bound, and since when it has not been blocked. A pending
wave that has become unblocked stays so (R52, R188, R250). -/
def State.surveyWave (s : State) (g : Workgroup) (w : Wave) : Wave :=
  if w.ended then w
  else
    let waits := s.waitsOnQueues g w
    let blocked := s.sliceBlocked g w .a && s.sliceBlocked g w .x
    { w with
      qwaits := waits
      qbound := if waits && !s.fills ⟨g.id, w.id⟩ w then w.qbound.or (some s.clock) else none
      unblocked := if !blocked then w.unblocked.or (some s.clock) else if w.active then none else w.unblocked }

/-- The same for every wave of the resident workgroups. -/
def State.survey (s : State) : State :=
  { s with wgs := s.wgs.map fun g =>
      if g.status == .resident && !g.keeper then { g with waves := g.waves.map (s.surveyWave g) } else g }

/-- What follows every step. The waves' waits and the watches are looked at, and what is due comes onto the agenda, in the same
cycle; with nothing due, time passes and the caches forget. `used` is the unit that the step's instruction needed. -/
def State.settle (s : State) (used : Option (Nat × Nat)) : State :=
  let s := ({ s with cur := none, second := none, stalled := false, touched := false, delayed := false } : State).allocateAll 0
  let (n, s) := (((s.restartIdle used).survey).watchAgain.markSent).draw
  let due (s : State) : List Instr := (s.releases n).filter fun e => !s.agenda.contains e
  if !s.agenda.isEmpty || !(due s).isEmpty || !s.periods.isEmpty then { s with agenda := s.agenda ++ due s }
  else
    let t := (s.pass.forget.settleLate n).allocateAll 0
    { t with agenda := due t }

/-! The halves of an issue. -/

/-- The first group of an issue; a second one goes next, unless this one waited or raised a cause (R55, R68). -/
def State.firstHalf (s : State) (u : Issue) : Result :=
  match s.issueGroup u with
  | .next t =>
    if t.stalled || raised s t u.w.wg then .next (t.settle none)
    else if s.second.isSome then .next { s.countIssued u t with cur := none, second := s.second }
    else .next ((s.countIssued u t).settle (s.usedUnit u))
  | .fault r => .fault r
  | .refused r => .refused r

/-- The second group of a pair, in the same cycle; one that waits or would raise a cause does not issue (R55, R68). -/
def State.secondHalf (s : State) (u : Issue) : Result :=
  match s.issueGroup u with
  | .next t =>
    if t.stalled || raised s t u.w.wg then .next (s.settle none)
    else .next (((match s.wg u.w.wg, s.wave u.w with
      | some g, some w => match (s.fetchInstr g w u.sl u.pc).1 with
        | .instr i => (s.noteLate t u i).noteHints u i
        | _ => t
      | _, _ => t).updWave u.w (Wave.clearSkips u.sl u.em)).settle (s.usedUnit u))
  | .fault r => .fault r
  | .refused r => .refused r

end Sys2Proof.Machine
end

