-- ==== Sys2Proof/Machine/Arbiter.lean ====
section
/-!
DEFINITION. One step: the second half of a pair, an event that is due or comes from outside, the issue group that is set, or a
choice of the device among the candidates that may win their ports and its events (R50, R63, R64).
-/
namespace Sys2Proof.Machine

open Sys2Proof

/-! Events. -/

/-- An access of the host to memory. -/
def isHostAccess : Instr → Bool
  | .hostAccess _ | .hostAtomicop _ => true
  | _ => false

/-- An event, and what follows it; one that meets a line that an engine owns, on a table walk or as the host's access, is delayed
without effect: an event from the agenda, `late`, stays until the line is written (R300). -/
def State.settled (s : State) (late : List Instr) (r : Result) : Result :=
  match r with
  | .next t => .next (if t.delayed then ({ s with deferred := late ++ s.deferred } : State).settle none else t.settle none)
  | .fault r => .fault r
  | .refused r => .refused r

/-- An event from the agenda. A host access waits behind those that are delayed; an error whose record meets an owned line is
acted on once the line is written (R33, R35, R300). -/
def State.takeEvent (s : State) (e : Instr) (rest : List Instr) : Result :=
  let s : State := { s with agenda := rest }
  if isHostAccess e && s.deferred.any isHostAccess then .next (({ s with deferred := s.deferred ++ [e] } : State).settle none)
  else s.settled [e] (exec e s)

/-- The oldest event that a recall delays (R300). -/
def State.takeDeferred (s : State) : Result :=
  match s.deferred with
  | [] => .next (s.settle none)
  | e :: rest => ({ s with deferred := rest } : State).settled [e] (exec e { s with deferred := rest })

/-! Arbitration (R50, R63). -/

/-- A candidate that is ready: the groups of its vote, its quarter-core and port, its wave slot and its turn. -/
structure Ready where
  u : Issue
  second : Option Issue
  core : Nat
  quarter : Nat
  group : Bool
  wslot : Nat
  turn : Turn
  deriving DecidableEq, Repr

/-- The instruction at a group's counter is of the group set: it issues at the group pipe (R50). -/
def Fetched.isGroup : Fetched → Bool
  | .instr i => match i.layout.key with
    | some (true, _, _) => true
    | _ => false
  | _ => false

/-- A candidate, when its voted group would issue or raise its cause now (R51). -/
def State.readyOne (s : State) (c : WaveRef × Slice) : Option Ready :=
  match s.wg c.1.wg with
  | none => none
  | some g => match g.wave c.1.wave with
    | none => none
    | some w => match s.vote g w c.2 with
      | none => none
      | some (u, second) =>
        let port := (s.fetchInstr g w c.2 u.pc).1.isGroup
        let waits := match s.issueGroup u with
          | .next t => t.stalled
          | _ => false
        if waits then none else some ⟨u, second, g.core, w.quarter, port, w.wslot, s.turn c.1 c.2⟩

/-- Two ready candidates compete for one port; a keeper agent competes with no wave (R49). -/
def State.rivals (s : State) (a b : Ready) : Bool :=
  let keeper (r : Ready) : Bool := match s.wg r.u.w.wg with
    | some g => g.keeper
    | none => false
  a.core == b.core && a.quarter == b.quarter && a.group == b.group && keeper a == keeper b

/-- How often a ready candidate is passed over at most before its port must be served: each issue of the device passes all
others over, so that this leaves room for its events too (R63). -/
def passLimit (ready : List Ready) : Nat := 64 + 4 * ready.length

/-- A candidate wins its port: every rival before it is late, since its operands or its unit are not ready yet in this cycle, of
which the device knows by draw `n`. It passes a late one over only below the limit (R50, R63). -/
def State.wins (s : State) (n : Nat) (ready : List Ready) (x : Ready) : Bool :=
  (ready.zipIdx).all fun p => !(s.rivals p.1 x && p.1.turn.ahead x.turn p.1.wslot x.wslot) ||
    (n.testBit p.2 && p.1.turn.passed < passLimit ready)

/-- The ready candidates that the device does not take now have been passed over once more. -/
def State.passOver (s : State) (ready : List Ready) (taken : Option Issue) : State :=
  ready.foldl (fun s r =>
    if taken == some r.u then s else s.updTurn r.u.w r.u.sl fun t => { t with passed := t.passed + 1 }) s

/-- A ready candidate issues. -/
def State.issueReady (s : State) (r : Ready) : Result := ({ s with second := r.second } : State).firstHalf r.u

/-- Of the ready candidates that have been passed over as often as the limit, the one most often passed over. -/
def mostPassed (ready : List Ready) : Option Ready :=
  (ready.filter fun r => passLimit ready ≤ r.turn.passed).foldl (fun best r => match best with
    | none => some r
    | some b => if b.turn.passed < r.turn.passed then some r else some b) none

/-- The candidates that the device may take, and whether it must take one: that most often passed over, or a rival of it that
wins its port, at the limit (R63). -/
def State.contenders (s : State) (n : Nat) (ready : List Ready) : List Ready × Bool :=
  let winners := ready.filter (s.wins n ready)
  match mostPassed ready with
  | none => (winners, false)
  | some r => (winners.filter (s.rivals r), true)

/-- The device's own choice: an issue, an event, or a cycle in which nothing happens. -/
def State.choose (s : State) : Result :=
  let (n, t) := s.draw
  let (m, t) := t.draw
  let ready := s.candidates.filterMap s.readyOne
  let (xs, must) := s.contenders m ready
  let fs := if must then [] else s.offers ++ (if s.deferred.isEmpty then [] else [State.takeDeferred])
  let k := n % (xs.length + fs.length + (if must then 0 else 1))
  match xs[k]? with
  | some x => (t.passOver ready (some x.u)).issueReady x
  | none =>
    let t := t.passOver ready none
    match fs[k - xs.length]? with
    | some f => t.settled [] (f t)
    | none => .next (t.settle none)

/-- One step. During a change of the clock mode only its end is left (R24). -/
def State.advance (s : State) : Result :=
  match s.second with
  | some u => ({ s with second := none } : State).secondHalf u
  | none => match s.agenda with
    | e :: rest => s.takeEvent e rest
    | [] => match s.cur with
      | some u => s.firstHalf u
      | none =>
        if s.ctl.changing.isSome then s.settled [] (execClockModeResume s)
        else match s.periods with
          | f :: _ => s.settled [] (f s)
          | [] => s.choose

end Sys2Proof.Machine
end

