-- ==== Sys2Proof/Machine/Loader.lean ====
section
/-!
DEFINITION. A program brought into the machine from outside: what the queue, the command processor and a keeper agent would
have made of it (R428 to R443), with its code at address 0x100000 and one wave whose issue comes next.
-/
namespace Sys2Proof.Machine

open Sys2Proof

/-- Where the code of the loaded program stands, as a virtual and as a physical address. -/
def loadBase : Nat := 0x100000

/-- The words of an instruction of the opcode table, zeros after its bits. -/
def tableWords (nbits w : Nat) : List Word := wordsOf (w % 2 ^ nbits) 3

/-- The instruction that three words start with. -/
def wordsInstr (ws : List Word) : Option Instr :=
  let at_ (n : Nat) : Decoded := decode (ws.take n)
  match at_ 1, at_ 2, at_ 3 with
  | .instr i, _, _ => some i
  | .more, .instr i, _ => some i
  | .more, .more, .instr i => some i
  | _, _, _ => none

/-- The role that an instruction may issue from (R46). -/
def loadRole (i : Option Instr) : Role :=
  match i with
  | none => .vector
  | some i => if i.layout.needsMatrix then .matrix else if i.layout.needsFeeder then .feeder else .vector
/-- The slice that it may issue from (R43), and that owns its group destination (R102). -/
def loadSlice (i : Option Instr) : Slice :=
  match i with
  | none => .x
  | some i =>
    let low := (usesOf i).any fun u => match u with
      | .gwr c _ => c.toNat < 48
      | _ => false
    if !i.layout.sliceOk .x || (low && i.layout.sliceOk .a) then .a else .x
/-- It issues from a keeper slot only (R87). -/
def loadKeeper (i : Option Instr) : Bool := i.elim false fun i => i.layout.needsKeeper

/-- The kernel of the loaded program: one role with one wave. -/
def loadKernel (role : Role) (sl : Slice) : Kernel where
  codeBase := BitVec.ofNat 64 loadBase
  roles := [⟨role, 1, 192, 0, if sl == .a then some 0 else none, 0⟩]
  implicit := false
  idem := false
  regroup := false
  scratch := 0
  args := 0
  constants := 0
  barriers := 0
  queues := []
  rings := []
  graphs := []

/-- Its launch, of one workgroup, in slot 0. -/
def loadLaunch (id : Nat) (k : Kernel) : Launch where
  id := id
  slot := 0
  vi := 0
  kernel := k
  descriptor := 0
  bankAddr := 0
  bank := []
  grid := [1, 1, 1]
  wgdim := [32, 1, 1]
  group := 1
  hold := false
  scope := 3
  sequence := 0
  completion := 0
  args := []
  ranges := []
  state := .released
  ticketAddr := 0
  requeued := []
  claimed := []
  gridPhase := 0
  resumes := 0

/-- Its wave: every thread at counter `pc` of the slice, registers 0. -/
def loadWave (role : Role) (sl : Slice) (pc : Word) : Wave :=
  let all : Lanes := BitVec.allOnes 32
  let on : SliceSt := freshSlice pc all .exited 0
  let off : SliceSt := freshSlice 0 0 .exited 0
  { id := 0, wslot := 0, role := role, allot := 192, budget := 0, active := true, unblocked := none,
    v := ⟨[], none⟩, o := ⟨[], none⟩, s := ⟨[], none⟩,
    a := (if sl == .a then on else off), x := (if sl == .x then on else off),
    run := none, yielding := none, queues := List.replicate 16 none, recs := [], tiles := ⟨[], none⟩, latchA := none, latchB := none,
    cards := List.replicate 4 none, copyTag := 0, copyStatus := [], pmc := List.replicate 8 0, window := none,
    contribs := [], ringArrivals := [], gridA := 0, gridX := 0, gridPending := none, gridArrived := false, helper := 0,
    tags := [], qbound := none, qwaits := false, ended := false }

/-- Its workgroup, on core 0; a keeper agent's belongs to no launch. -/
def loadGroup (id launch : Nat) (keeper : Bool) (w : Wave) : Workgroup where
  id := id
  launch := if keeper then 2 ^ 64 else launch
  keeper := keeper
  wgid := [0, 0, 0]
  cg := 0
  flat := 0
  core := 0
  slot := 0
  scrbase := 0
  scratch := ⟨[], none⟩
  barriers := List.replicate 64 ⟨0, true, true, 0, [], 0⟩
  rings := []
  graphs := List.replicate 16 none
  raster := ⟨[], false, [], [], [], 0, []⟩
  waves := [w]
  status := .resident
  request := none
  arrivedGrid := false
  exchangeSince := none
  released := id
  saved := none

/-- The state with the words of an instruction as a loaded program whose wave issues next. -/
def State.loadWords (s : State) (ws : List Word) : State :=
  let n := s.nextId
  let i := wordsInstr ws
  let keeper := loadKeeper i
  let role := loadRole i
  let sl := loadSlice i
  let pc : Word := if keeper then BitVec.ofNat 32 loadBase else 0#32
  let code := ws.flatMap fun w => bytesOf w.toNat 4
  let page : Tlb := ⟨0, loadBase, 4096, ⟨0, loadBase⟩, true, true, true⟩
  { s with
    dmem := Mem.write s.dmem loadBase code
    cores := updAt (fun c => { c with
      icache := c.icache.filter fun l => l.line != loadBase
      tlb := page :: c.tlb }) s.cores 0
    slots := updAt (fun q => { q with assigned := some 0, enable := true, mapped := true, context := true }) s.slots 0
    launches := s.launches ++ (if keeper then [] else [loadLaunch n (loadKernel role sl)])
    wgs := loadGroup (n + 1) n keeper (loadWave role sl pc) :: s.wgs
    agenda := []
    cur := some ⟨⟨n + 1, 0⟩, sl, BitVec.allOnes 32, pc⟩
    second := none
    nextId := n + 2 }

end Sys2Proof.Machine
end

