-- ==== Sys2Proof/Machine/Step.lean ====
section
/-!
DEFINITION. The step of the machine, and the placing of one instruction where the next step issues it.
-/
namespace Sys2Proof.Machine

open Sys2Proof

/-- One step of the machine (R50 to R56, R64, R180). -/
def step (s : State) : Host.Outcome State Fault Refusal := s.advance

/-- The state in which the next step fetches and issues the given instruction: its bits as the opcode table numbers
them, as the code of a loaded program (log entry 78). -/
def State.withFetchWord (s : State) (nbits w : Nat) : State :=
  s.loadWords (tableWords nbits w)

end Sys2Proof.Machine
end

