-- ==== Sys2Proof/Safety.lean ====
section
/-!
DEFINITION. What counts as a safe run, in the terms that the statements use.
-/
namespace Sys2Proof.Safety

open Sys2Proof Sys2Proof.Machine

/-- Both memories stand in their canonical form. -/
def memoriesCanonical (s : State) : Bool := Mem.wf s.dmem && Mem.wf s.hmem

/-- Every object on which a thread of a placed workgroup is parked is watched, and nothing else is (R299). -/
def watchesComplete (s : State) : Bool := (s.watches.map fun w => w.1) == s.watched.map fun p => p.1

/-- Every release whose condition holds comes before any further issue (R191, R196, R410), with the waves that enter the
active set by some choice of the device (R52). -/
def releasesDue (s : State) : Prop := ∃ n, ∀ e ∈ s.releases n, e ∈ s.agenda

/-- Between two steps, unless the second half of a pair is to come, no issue is set, nothing has waited, was delayed or is left
to credit, every parked object is watched and every release that holds is due. -/
def Between (s : State) : Prop :=
  s.second = none → s.cur = none ∧ s.stalled = false ∧ s.touched = false ∧ s.delayed = false ∧ s.reached = [] ∧
    watchesComplete s = true ∧ releasesDue s

/-- `t` is reached from `s` by steps that each give a next state. -/
inductive Reaches (s : State) : State → Prop where
  | refl : Reaches s s
  | step {t u : State} : Reaches s t → step t = .next u → Reaches s u

/-- A run from `s` never stops: no state that it reaches answers a fault or a refusal. -/
def Safe (s : State) : Prop := ∀ t, Reaches s t → ∃ u, step t = .next u

/-! Where an instruction has its own effect. -/

/-- The instruction `i` is that of the current issue group of `c`, and nothing keeps it from its own effect: no cause that
does not depend on operand values (R67, R68), no pending result that it would touch (R206), no gated unit (R480). The slice
sees its wave's registers as they are: of a late write of the other slice the device gives it the new contents (R103, R125).
In this step no byte that R35 replaced by zeros has been returned, no line has been reached and no walk delayed. -/
structure Issues (i : Instr) (c : Ctx) : Prop where
  cur : c.s.cur = some ⟨c.ref, c.sl, c.em, c.pc⟩
  wg : c.s.wg c.g.id = some c.g
  wave : c.g.wave c.w.id = some c.w
  noCause : staticCauses c i = []
  noPending : c.pendingResult i = false
  powered : c.s.wakes c.g c.w i = none
  seen : c.s.seenWave c.w c.ref c.sl = c.w
  quiet : c.s.touched = false
  unreached : c.s.reached = []
  onTime : c.s.delayed = false

/-- Every slot that the instruction pops is ready and holds no fault token, and every column that it pushes to has room
(R227, R500). -/
structure Flows (i : Instr) (c : Ctx) : Prop where
  ready : c.popsReady (usesOf i) = true
  room : c.roomFor (usesOf i) = true
  noToken : c.tokenMet (usesOf i) = none

/-- The slots that the spans of an instruction take from each column of queue `k` (R77). -/
def popped (spans : List (Nat × Nat × Nat)) (k : Nat) : Nat :=
  spans.foldr (fun p n => if p.1 = k then p.2.2 + n else n) 0

/-- Nothing of the state differs but the wave of the group, which becomes `w`: both memories, every cache, every register
outside the wave and every other wave are as before. -/
structure OnlyWave (c : Ctx) (t : State) (w : Wave) : Prop where
  state : t = { c.s with wgs := t.wgs }
  otherGroups : ∀ k, k ≠ c.g.id → t.wg k = c.s.wg k
  group : ∃ g, t.wg c.g.id = some g ∧ g = { c.g with waves := g.waves } ∧ g.wave c.w.id = some w ∧
    ∀ k, k ≠ c.w.id → g.wave k = c.g.wave k

/-- What a lane instruction leaves of its wave: `val l` holds the `n` words that lane `l` of `EM` writes to D, and `mask` the
mask that it writes, with each lane's bit. A `v` or `o` code of D names registers (R76, R124); a `q` code pushes, except the
store data of a helper lane (R62, R77). Every register, queue slot, mask, flag and accumulator that it does not name is as
before. -/
structure LaneEffect (i : Instr) (c : Ctx) (d : BitVec 8) (n : Nat) (val : Nat → List Word)
    (mask : Option (Nat × (Nat → Bool))) (w : Wave) : Prop where
  vRows : ∀ r l, l < 32 → laneAt (w.vrow r) l =
    if Form.isV d ∧ d.toNat ≤ r ∧ r < d.toNat + n ∧ c.em.getLsbD l then laneAt (val l) (r - d.toNat)
    else laneAt (c.w.vrow r) l
  oRows : ∀ r l, l < 32 → laneAt (w.orow r) l =
    if Form.isO d ∧ Form.oIndex d ≤ r ∧ r < Form.oIndex d + n ∧ c.em.getLsbD l then laneAt (val l) (r - Form.oIndex d)
    else laneAt (c.w.orow r) l
  queues : ∀ k, (c.w.queue k = none → w.queue k = none) ∧ ∀ q, c.w.queue k = some q → ∃ p, w.queue k = some p ∧
    p.kind = q.kind ∧ p.depth = q.depth ∧ p.attach = q.attach ∧ ∀ l, l < 32 →
      p.col l = (if c.em.getLsbD l then (q.col l).drop (popped (popSpans (usesOf i)) k) else q.col l) ++
        if Form.isQ d ∧ Form.qIndex d = k ∧ c.em.getLsbD l ∧ ¬(q.kind = .stdata ∧ w.helper.getLsbD l) then
          (val l).map QEntry.ready else []
  batches : popSpans (usesOf i) = [] → w.helper = c.w.helper ∧ w.tags = c.w.tags
  masks : ∀ k l, k < c.slice.m.length → l < 32 → ((w.slice c.sl).mask k).getLsbD l =
    match mask with
    | some (j, p) => if k = j ∧ c.em.getLsbD l then p l else (c.slice.mask k).getLsbD l
    | none => (c.slice.mask k).getLsbD l
  slice : w.slice c.sl = { c.slice with
    threads := (w.slice c.sl).threads, m := (w.slice c.sl).m, mgen := (w.slice c.sl).mgen }
  counters : ∀ l, l < 32 → l < c.slice.threads.length → ((w.slice c.sl).thread l).pc =
    if c.em.getLsbD l then c.pc + stepBytes i else (c.slice.thread l).pc
  otherSlice : w.slice (otherSlice c.sl) = c.w.slice (otherSlice c.sl)
  run : w.run = c.w.run.map fun r => if r.sl = c.sl then { r with pos := r.pos + 1 } else r
  rest : w = { c.w with
    v := w.v, o := w.o, queues := w.queues, helper := w.helper, tags := w.tags
    a := w.a, x := w.x, run := w.run, pmc := (countIssue i c.w).pmc, qbound := none }

/-- What a group instruction leaves of its wave: the `s` registers that it writes with their words, the mask of its slice that
it writes, and the flags of its slice (R102, R104, R105). Every other register, mask and flag is as before. -/
structure GroupEffect (i : Instr) (c : Ctx) (sregs : List (Nat × Word)) (mask : Option (Nat × Word)) (gf : BitVec 5)
    (w : Wave) : Prop where
  sRegs : ∀ k, w.sreg k = (sregs.lookup k).getD (c.w.sreg k)
  masks : ∀ k, k < c.slice.m.length → (w.slice c.sl).mask k =
    match mask with
    | some (j, x) => if k = j then x else c.slice.mask k
    | none => c.slice.mask k
  flags : (w.slice c.sl).gf = gf
  slice : w.slice c.sl = { c.slice with
    threads := (w.slice c.sl).threads, m := (w.slice c.sl).m, mgen := (w.slice c.sl).mgen, gf := gf }
  counters : ∀ l, l < 32 → l < c.slice.threads.length → ((w.slice c.sl).thread l).pc =
    if c.em.getLsbD l then c.pc + stepBytes i else (c.slice.thread l).pc
  otherSlice : w.slice (otherSlice c.sl) = c.w.slice (otherSlice c.sl)
  run : w.run = c.w.run.map fun r => if r.sl = c.sl then { r with pos := r.pos + 1 } else r
  rest : w = { c.w with
    s := w.s, a := w.a, x := w.x, run := w.run, pmc := (countIssue i c.w).pmc, qbound := none }

/-- What a cross-lane form with a group destination, or a scan, leaves of its wave: the lanes of `EM` pop; the lanes of the
set `m` receive `val` in D, or push it; the `s` registers, the mask and the flags are those of a group write. Everything else
is as before. -/
structure CrossEffect (i : Instr) (c : Ctx) (d : BitVec 8) (m : Lanes) (val : Nat → Word) (sregs : List (Nat × Word))
    (mask : Option (Nat × Word)) (gf : BitVec 5) (w : Wave) : Prop where
  vRows : ∀ r l, l < 32 → laneAt (w.vrow r) l =
    if Form.isV d ∧ d.toNat = r ∧ m.getLsbD l then val l else laneAt (c.w.vrow r) l
  oRows : ∀ r l, l < 32 → laneAt (w.orow r) l =
    if Form.isO d ∧ Form.oIndex d = r ∧ m.getLsbD l then val l else laneAt (c.w.orow r) l
  queues : ∀ k, (c.w.queue k = none → w.queue k = none) ∧ ∀ q, c.w.queue k = some q → ∃ p, w.queue k = some p ∧
    p.kind = q.kind ∧ p.depth = q.depth ∧ p.attach = q.attach ∧ ∀ l, l < 32 →
      p.col l = (if c.em.getLsbD l then (q.col l).drop (popped (popSpans (usesOf i)) k) else q.col l) ++
        if Form.isQ d ∧ Form.qIndex d = k ∧ m.getLsbD l ∧ ¬(q.kind = .stdata ∧ w.helper.getLsbD l) then
          [QEntry.ready (val l)] else []
  batches : popSpans (usesOf i) = [] → w.helper = c.w.helper ∧ w.tags = c.w.tags
  sRegs : ∀ k, w.sreg k = (sregs.lookup k).getD (c.w.sreg k)
  masks : ∀ k, k < c.slice.m.length → (w.slice c.sl).mask k =
    match mask with
    | some (j, x) => if k = j then x else c.slice.mask k
    | none => c.slice.mask k
  slice : w.slice c.sl = { c.slice with
    threads := (w.slice c.sl).threads, m := (w.slice c.sl).m, mgen := (w.slice c.sl).mgen, gf := gf }
  counters : ∀ l, l < 32 → l < c.slice.threads.length → ((w.slice c.sl).thread l).pc =
    if c.em.getLsbD l then c.pc + stepBytes i else (c.slice.thread l).pc
  otherSlice : w.slice (otherSlice c.sl) = c.w.slice (otherSlice c.sl)
  run : w.run = c.w.run.map fun r => if r.sl = c.sl then { r with pos := r.pos + 1 } else r
  rest : w = { c.w with
    v := w.v, o := w.o, s := w.s, queues := w.queues, helper := w.helper, tags := w.tags
    a := w.a, x := w.x, run := w.run, pmc := (countIssue i c.w).pmc, qbound := none }

/-- The group instruction `i` completes with that effect. -/
def GroupCompletes (i : Instr) (c : Ctx) (sregs : List (Nat × Word)) (mask : Option (Nat × Word)) (gf : BitVec 5) : Prop :=
  ∃ t w, exec i c.s = .next t ∧ OnlyWave c t w ∧ GroupEffect i c sregs mask gf w

/-- The lane instruction `i` completes with that effect. -/
def LaneCompletes (i : Instr) (c : Ctx) (d : BitVec 8) (n : Nat) (val : Nat → List Word)
    (mask : Option (Nat × (Nat → Bool))) : Prop :=
  ∃ t w, exec i c.s = .next t ∧ OnlyWave c t w ∧ LaneEffect i c d n val mask w

/-- The cross-lane instruction `i` completes with that effect. -/
def CrossCompletes (i : Instr) (c : Ctx) (d : BitVec 8) (m : Lanes) (val : Nat → Word) (sregs : List (Nat × Word))
    (mask : Option (Nat × Word)) (gf : BitVec 5) : Prop :=
  ∃ t w, exec i c.s = .next t ∧ OnlyWave c t w ∧ CrossEffect i c d m val sregs mask gf w

/-- The lane instruction `i` completes with that effect and one more draw of free words (R209). -/
def DrawCompletes (i : Instr) (c : Ctx) (d : BitVec 8) (val : Nat → Word) : Prop :=
  ∃ t w, exec i c.s = .next t ∧ t.fresh = c.s.fresh + 1 ∧ OnlyWave c { t with fresh := c.s.fresh } w ∧
    LaneEffect i c d 1 (fun l => [val l]) none w

/-- A thread of a slice that comes to a counter: it parks there when that is the end of its innermost loop (R196). -/
def comesTo (t : SliceSt) (l : Nat) (pc : Word) : Thread :=
  { t.thread l with
    pc := pc
    st := match t.innermost l with
      | some k => if (t.loop k).stop = pc then .parked (.loopEnd k) else .live
      | none => .live }

/-- Each thread of a lane set comes to its own counter, and the others stay as they were. -/
def Arrives (t : SliceSt) (m : Lanes) (pc : Nat → Word) (u : SliceSt) : Prop :=
  ∀ l, l < 32 → l < t.threads.length → u.thread l = if m.getLsbD l then comesTo t l (pc l) else t.thread l

/-- What a branch leaves of its wave: it pops `spans`, writes `val` to the register that D names, if any, and brings each
lane of `EM` to its target. Everything else is as before. -/
structure BranchEffect (i : Instr) (c : Ctx) (spans : List (Nat × Nat × Nat)) (d : Option (BitVec 8)) (val : Word)
    (target : Nat → Word) (w : Wave) : Prop where
  vRows : ∀ r l, l < 32 → laneAt (w.vrow r) l =
    if (∃ k, d = some k ∧ Form.isV k ∧ k.toNat = r) ∧ c.em.getLsbD l then val else laneAt (c.w.vrow r) l
  queues : ∀ k, (c.w.queue k = none → w.queue k = none) ∧ ∀ q, c.w.queue k = some q → ∃ p, w.queue k = some p ∧
    p.kind = q.kind ∧ p.depth = q.depth ∧ p.attach = q.attach ∧ ∀ l, l < 32 →
      p.col l = if c.em.getLsbD l then (q.col l).drop (popped spans k) else q.col l
  batches : spans = [] → w.helper = c.w.helper ∧ w.tags = c.w.tags
  threads : Arrives c.slice c.em target (w.slice c.sl)
  slice : w.slice c.sl = { c.slice with threads := (w.slice c.sl).threads }
  otherSlice : w.slice (otherSlice c.sl) = c.w.slice (otherSlice c.sl)
  rest : w = { c.w with
    v := w.v, queues := w.queues, helper := w.helper, tags := w.tags, a := w.a, x := w.x
    pmc := (countIssue i c.w).pmc, qbound := none }

/-- The branch `i` completes with that effect. -/
def BranchCompletes (i : Instr) (c : Ctx) (spans : List (Nat × Nat × Nat)) (d : Option (BitVec 8)) (val : Word)
    (target : Nat → Word) : Prop :=
  ∃ t w, exec i c.s = .next t ∧ OnlyWave c t w ∧ BranchEffect i c spans d val target w

/-- The state after an instruction whose effect gave `x`: its threads go past it, an open run counts it, a replaced word that
was returned is noted in its context (R469), the lines that it reached are allocated (R456), and its issue is counted (R181, R201, R411). -/
def After (i : Instr) (c : Ctx) (x : State) : State :=
  ((x.updWave c.ref (advanceWave c i)).credit c.g.id).updWave c.ref (countIssue i)

/-- The instruction waits: it does not issue, and nothing changes (R51, R227). -/
def Waits (i : Instr) (c : Ctx) : Prop := exec i c.s = .next c.s.stall

/-- The instruction raises a cause precisely, before any effect of its own (R8, R413). -/
def Raises (i : Instr) (c : Ctx) (k : Cause) (info : Info) : Prop :=
  exec i c.s = .next (takeCause c.s c.ref c.sl c.em c.pc k info)

/-- A slice instruction changes its wave alone, and in it, beside the counts of its issue, its own slice alone. -/
structure SliceEffect (i : Instr) (c : Ctx) (t : State) (w : Wave) : Prop where
  only : OnlyWave c t w
  otherSlice : w.slice (otherSlice c.sl) = c.w.slice (otherSlice c.sl)
  rest : w = { c.w with a := w.a, x := w.x, pmc := (countIssue i c.w).pmc, qbound := none }

/-- A thread that parks at its counter (R42). -/
def parksOn (t : SliceSt) (l : Nat) (p : Park) : Thread := { t.thread l with st := .parked p, skip := 0 }

/-- The threads of a slice after those of a lane set have parked. -/
def Parks (t : SliceSt) (m : Lanes) (p : Park) (u : SliceSt) : Prop :=
  u = { t with threads := u.threads } ∧
    ∀ l, l < 32 → u.thread l = if m.getLsbD l then parksOn t l p else t.thread l

/-- The wave of an event whose context is a wave of a workgroup. -/
def AtWave (c : Ctx) : Prop := c.s.wg c.g.id = some c.g ∧ c.g.wave c.w.id = some c.w

end Sys2Proof.Safety
end

