-- ==== Sys2Proof/Certificates/Slice0/Obligations.lean ====
section
/-!
DEFINITION. The statements. `Obligations.<Name>` are those that OBLIGATIONS.json lists; the definitions of
`Sys2Proof.Claims` are their parts, and the vocabulary that they are written in. A statement says of an instruction that `exec`
answers a next state for every state and operands that meet its hypotheses, and what that state holds; what it does not name is
as before.
-/
namespace Sys2Proof.Claims
end Sys2Proof.Claims

section Statements
open Sys2Proof Sys2Proof.Machine Sys2Proof.Safety Sys2Proof.Claims

/-! Lane integer instructions (05_lane_integer.md). -/

namespace Sys2Proof.Claims

/-- The offset and the length of the field that b names (R112, R132), cut at bit 31. -/
def bitField (b : Word) : Nat × Nat :=
  (b.toNat % 32, min (min (b.toNat / 2 ^ 8 % 2 ^ 6) 32) (32 - b.toNat % 32))

/-- Bits k of a word that a test admits. -/
def wordOf (p : Nat → Bool) : Word := lanesWhere p

/-- The count of the 1 bits of a word, of its leading 0 bits and of its trailing 0 bits (R111, R130). -/
def countOnes (a : Word) : Word := BitVec.ofNat 32 (laneList.filter fun k => a.getLsbD k).length

def countLeading (a : Word) : Word := BitVec.ofNat 32 (laneList.takeWhile fun k => !a.getLsbD (31 - k)).length

def countTrailing (a : Word) : Word := BitVec.ofNat 32 (laneList.takeWhile fun k => !a.getLsbD k).length

/-- Wrapped to 32 bits, or saturated under `.sat` (R7, R128). -/
def wrapOrSat (f : LaneFields) (x : Int) : Word := BitVec.ofInt 32 (if f.mode.getLsbD 3 then satS x 32 else x)

/-- Byte and half k of a word. -/
def byteOf (x : Word) (k : Nat) : Nat := x.toNat / 2 ^ (8 * k) % 2 ^ 8

def signedField (n : Nat) (x : Nat) : Int := (BitVec.ofNat n x).toInt

/-- One byte of `prmt`: the steps of R135 in their order. -/
def prmtByte (a b sel : Nat) : Nat :=
  let src (k : Nat) : Nat := if k < 4 then a / 2 ^ (8 * k) % 256 else b / 2 ^ (8 * (k - 4)) % 256
  let v := src (sel % 8)
  let v := if sel.testBit 4 then (if v.testBit 7 then 0xFF else 0) else v
  let v := if sel.testBit 5 then 255 - v else v
  if sel.testBit 6 then 0 else v

/-- The instructions of R130, R132 and R135 that write one word, with the word that they give for the operands a, b and c. -/
def wordForms : List ((LaneFields → Instr) × (LaneFields → Word → Word → Word → Word)) :=
  [(.imul, fun _ a b _ => a * b),
   (.imulhi, fun _ a b _ => BitVec.ofInt 32 (a.toInt * b.toInt / 2 ^ 32)),
   (.imulhu, fun _ a b _ => BitVec.ofNat 32 (a.toNat * b.toNat / 2 ^ 32)),
   (.imad, fun f a b c => wrapOrSat f (a.toInt * b.toInt + c.toInt)),
   (.and, fun _ a b _ => a &&& b),
   (.or, fun _ a b _ => a ||| b),
   (.xor, fun _ a b _ => a ^^^ b),
   (.andn, fun _ a b _ => a &&& ~~~b),
   (.not, fun _ a _ _ => ~~~a),
   (.shl, fun _ a b _ => if 32 ≤ b.toNat then 0 else a <<< b.toNat),
   (.shr, fun _ a b _ => if 32 ≤ b.toNat then 0 else a >>> b.toNat),
   (.sar, fun _ a b _ => BitVec.ofInt 32 (a.toInt / 2 ^ min b.toNat 31)),
   (.rotl, fun _ a b _ => (a <<< (b.toNat % 32)) ||| (a >>> (32 - b.toNat % 32))),
   (.bfe, fun _ a b _ => let (off, n) := bitField b; if n = 0 then 0 else (a.extractLsb' off n).signExtend 32),
   (.bfeu, fun _ a b _ => let (off, n) := bitField b; if n = 0 then 0 else (a.extractLsb' off n).setWidth 32),
   (.bfi, fun _ a b c =>
      let (off, n) := bitField b
      wordOf fun k => if off ≤ k ∧ k < off + n then a.getLsbD (k - off) else c.getLsbD k),
   (.bfrev, fun _ a _ _ => wordOf fun k => a.getLsbD (31 - k)),
   (.popc, fun _ a _ _ => countOnes a),
   (.clz, fun _ a _ _ => countLeading a),
   (.ctz, fun _ a _ _ => countTrailing a),
   (.imin, fun _ a b _ => BitVec.ofInt 32 (min a.toInt b.toInt)),
   (.imax, fun _ a b _ => BitVec.ofInt 32 (max a.toInt b.toInt)),
   (.uimin, fun _ a b _ => BitVec.ofNat 32 (min a.toNat b.toNat)),
   (.uimax, fun _ a b _ => BitVec.ofNat 32 (max a.toNat b.toNat)),
   (.iabs, fun f a _ _ => wrapOrSat f a.toInt.natAbs),
   (.ineg, fun f a _ _ => wrapOrSat f (-a.toInt)),
   (.mov, fun _ a _ _ => a),
   (.lea, fun f a b _ => a + (b <<< f.c.toNat)),
   (.prmt, fun _ a b c => BitVec.ofNat 32 (
      prmtByte a.toNat b.toNat (byteOf c 0) + 2 ^ 8 * prmtByte a.toNat b.toNat (byteOf c 1) +
      2 ^ 16 * prmtByte a.toNat b.toNat (byteOf c 2) + 2 ^ 24 * prmtByte a.toNat b.toNat (byteOf c 3))),
   (.sad8, fun f a b c =>
      let x : Int := c.toNat + ((byteOf a 0 : Int) - byteOf b 0).natAbs + ((byteOf a 1 : Int) - byteOf b 1).natAbs +
        ((byteOf a 2 : Int) - byteOf b 2).natAbs + ((byteOf a 3 : Int) - byteOf b 3).natAbs
      BitVec.ofInt 32 (if f.mode.getLsbD 3 then satU x 32 else x)),
   (.idot4, fun f a b c =>
      let p (k : Nat) : Int := signedField 8 (byteOf a k) * signedField 8 (byteOf b k)
      wrapOrSat f (c.toInt + p 0 + p 1 + p 2 + p 3)),
   (.idot2, fun f a b c =>
      let p (k : Nat) : Int := signedField 16 (a.toNat / 2 ^ (16 * k)) * signedField 16 (b.toNat / 2 ^ (16 * k))
      wrapOrSat f (c.toInt + p 0 + p 1))]

end Sys2Proof.Claims

/-- R127, R128, R130, R132, R134 and R135. -/
def Obligations.IntegerWordForms : Prop := ∀ p ∈ wordForms, ∀ c f, Issues (p.1 f) c → Flows (p.1 f) c →
  LaneCompletes (p.1 f) c f.d 1 (fun l => [p.2 f (c.srcA f .int32 l) (c.srcB f .int32 l) (c.srcC f .int32 l)]) none

namespace Sys2Proof.Claims

/-- The mask that the selector C of a `.c` form names, with a bit for each lane (R129, R131). -/
def maskTo (f : LaneFields) (p : Nat → Bool) : Option (Nat × (Nat → Bool)) :=
  if f.c = 0#8 then none else some (f.c.toNat - 0x80, p)

/-- `iadd` and `isub` with their carry: the carry out of a + b, and of a + ¬b + 1 (R131). -/
def IntegerCarryForms : Prop := ∀ c f,
  (Issues (.iadd f) c → Flows (.iadd f) c → LaneCompletes (.iadd f) c f.d 1
    (fun l => [wrapOrSat f ((c.srcA f .int32 l).toInt + (c.srcB f .int32 l).toInt)])
    (maskTo f fun l => decide (2 ^ 32 ≤ (c.srcA f .int32 l).toNat + (c.srcB f .int32 l).toNat))) ∧
  (Issues (.isub f) c → Flows (.isub f) c → LaneCompletes (.isub f) c f.d 1
    (fun l => [wrapOrSat f ((c.srcA f .int32 l).toInt - (c.srcB f .int32 l).toInt)])
    (maskTo f fun l => decide (2 ^ 32 ≤ (c.srcA f .int32 l).toNat + (~~~(c.srcB f .int32 l)).toNat + 1)))

/-- The words of a pair (R136). -/
def wordsOf (x : DWord) : List Word := [x.setWidth 32, (x >>> 32).setWidth 32]

def wrapOrSat64 (f : LaneFields) (x : Int) : DWord := BitVec.ofInt 64 (if f.mode.getLsbD 3 then satS x 64 else x)

/-- The low `n` bits of a word as a number and as a signed number. -/
def lowPart (n : Nat) (a : Word) : Nat := a.toNat % 2 ^ n

/-- R136, R137. -/
def IntegerPairForms : Prop := ∀ c f,
  let a (l : Nat) : DWord := c.pairA f .int64 l
  let b (l : Nat) : DWord := c.pairB f .int64 l
  let x (l : Nat) : Word := c.srcA f .int32 l
  let n (l : Nat) : Nat := (c.srcB f .int32 l).toNat
  (Issues (.iadd64 f) c → Flows (.iadd64 f) c → LaneCompletes (.iadd64 f) c f.d 2
    (fun l => wordsOf (wrapOrSat64 f ((a l).toInt + (b l).toInt)))
    (maskTo f fun l => decide (2 ^ 64 ≤ (a l).toNat + (b l).toNat))) ∧
  (Issues (.isub64 f) c → Flows (.isub64 f) c → LaneCompletes (.isub64 f) c f.d 2
    (fun l => wordsOf (wrapOrSat64 f ((a l).toInt - (b l).toInt)))
    (maskTo f fun l => decide (2 ^ 64 ≤ (a l).toNat + (~~~(b l)).toNat + 1))) ∧
  (Issues (.imul64 f) c → Flows (.imul64 f) c →
    LaneCompletes (.imul64 f) c f.d 2 (fun l => wordsOf (BitVec.ofNat 64 ((a l).toNat * (b l).toNat))) none) ∧
  (Issues (.shl64 f) c → Flows (.shl64 f) c →
    LaneCompletes (.shl64 f) c f.d 2 (fun l => wordsOf (if 64 ≤ n l then 0 else BitVec.ofNat 64 ((a l).toNat * 2 ^ n l))) none) ∧
  (Issues (.shr64 f) c → Flows (.shr64 f) c →
    LaneCompletes (.shr64 f) c f.d 2 (fun l => wordsOf (if 64 ≤ n l then 0 else BitVec.ofNat 64 ((a l).toNat / 2 ^ n l))) none) ∧
  (Issues (.sext f) c → Flows (.sext f) c → LaneCompletes (.sext f) c f.d 2
    (fun l => wordsOf (if n l = 0 then 0 else ((x l).extractLsb' 0 (min (n l) 32)).signExtend 64)) none) ∧
  (Issues (.zext f) c → Flows (.zext f) c → LaneCompletes (.zext f) c f.d 2
    (fun l => wordsOf (BitVec.ofNat 64 (lowPart (min (n l) 32) (x l)))) none)

/-- The integer conditions of R111 on two words. -/
def intCondition : IntCond → Word → Word → Prop
  | .eq, a, b => a = b
  | .ne, a, b => a ≠ b
  | .lt, a, b => a.toInt < b.toInt
  | .le, a, b => a.toInt ≤ b.toInt
  | .ltu, a, b => a.toNat < b.toNat
  | .leu, a, b => a.toNat ≤ b.toNat

/-- A lane's truth value goes to the mask that C names, and with C = 0x00 D becomes 1 or 0 (R133, R164). -/
def CompareCompletes (i : Instr) (c : Ctx) (f : LaneFields) (p : Nat → Bool) : Prop :=
  if f.c = 0#8 then LaneCompletes i c f.d 1 (fun l => [if p l then 1#32 else 0#32]) none
  else LaneCompletes i c 0#8 0 (fun _ => []) (some (f.c.toNat - 0x80, p))

def IntegerCompareSelect : Prop := ∀ c f,
  (∀ cc, Issues (.icmp cc f) c → Flows (.icmp cc f) c → ∀ p : Nat → Bool,
    (∀ l, p l = true ↔ intCondition cc (c.srcA f .int32 l) (c.srcB f .int32 l)) → CompareCompletes (.icmp cc f) c f p) ∧
  (Issues (.sel f) c → Flows (.sel f) c → LaneCompletes (.sel f) c f.d 1
    (fun l => [if f.c ≠ 0#8 ∧ (c.slice.mask (f.c.toNat - 0x80)).getLsbD l then c.srcA f .int32 l
      else c.srcB f .int32 l]) none) ∧
  (Issues (.movs f) c → Flows (.movs f) c → LaneCompletes (.movs f) c f.d 1
    (fun l => [if f.a = 0#8 then BitVec.ofNat 32 l else if f.a = 1#8 then BitVec.ofNat 32 (l / 4)
      else (c.special f.a.toNat).setWidth 32]) none)

end Sys2Proof.Claims

/-- iadd, isub, the 64-bit forms, compares, sel and movs: results, masks and frame. -/
def Obligations.IntegerPairsComparesCarries : Prop := Sys2Proof.Claims.IntegerCarryForms ∧ Sys2Proof.Claims.IntegerPairForms ∧ Sys2Proof.Claims.IntegerCompareSelect

/-! Number formats and lane floating-point instructions (06_number_formats.md, 07_lane_float.md). -/

namespace Sys2Proof.Claims

/-- The magnitude of the finite value with an encoding of a format, as an integer multiple of the format's smallest
subnormal value (R140, R141). -/
def gridValue (f : Fmt) (b : Nat) : Nat := if b < 2 ^ f.man then b else (2 ^ f.man + b % 2 ^ f.man) * 2 ^ (b / 2 ^ f.man - 1)

/-- A magnitude num/den lies below, at or above the value of an encoding: num and den × value on one scale. -/
def scaledTo (f : Fmt) (num den : Nat) : Nat × Nat := (num * 2 ^ (f.bias + f.man - 1), den)

/-- The largest finite value and the infinity of a format, as magnitudes of their encodings (R140). -/
def largest : Fmt → Nat
  | .f64 => 0x7FEFFFFFFFFFFFFF
  | .f32 => 0x7F7FFFFF
  | .f16 => 0x7BFF
  | .bf16 => 0x7F7F
  | .e5m2 => 0x7B
  | .e4m3 => 0x7E
  | .e2m1 => 0x7

/-- The magnitude of a result beyond the largest finite value, `inf` when the mode gives the infinity (R149): E4M3 and E2M1
have none. -/
def beyond (f : Fmt) (inf : Bool) : Nat := if f = .e4m3 ∨ f = .e2m1 ∨ inf = false then largest f else largest f + 1

/-- R147 to R149, R151: `lo` is the grid value next to x towards zero and `lo + 1` the next one, on the grid without a bound
above. Every mode gives x itself when it is exact; otherwise `rz` gives `lo`, `rp` and `rm` the one on their side, `rn` the
nearer, or the even one of a tie, and `sr`, on the formats that have it, `lo + 1` when the draw is below the fraction of
65,536. A magnitude that then exceeds the largest finite value becomes that value or the infinity, as the mode says. -/
def RoundingToTheGrid : Prop := ∀ (f : Fmt) (m : Nat) (e : Int) (lo : Nat),
  let p := XVal.ratio m e
  let (n, d) := scaledTo f p.1 p.2
  gridValue f lo * d ≤ n → n < gridValue f (lo + 1) * d →
  let exact : Bool := n == gridValue f lo * d
  let twice := gridValue f lo * d + gridValue f (lo + 1) * d
  let nearest := if 2 * n < twice then lo else if twice < 2 * n then lo + 1 else if lo % 2 = 0 then lo else lo + 1
  let step := (gridValue f (lo + 1) - gridValue f lo) * d
  let result (neg inf : Bool) (b : Nat) : Nat :=
    (if neg then f.signBit else 0) + if largest f < b then beyond f inf else b
  ∀ neg,
    roundX f .rz (.fin neg m e) = result neg false lo ∧
    roundX f .rn (.fin neg m e) = result neg true (if exact then lo else nearest) ∧
    roundX f .rp (.fin neg m e) = result neg (!neg) (if exact || neg then lo else lo + 1) ∧
    roundX f .rm (.fin neg m e) = result neg neg (if exact || !neg then lo else lo + 1) ∧
    (f = .e4m3 ∨ f = .e5m2 ∨ f = .e2m1 → ∀ rnd, roundX f (.sr rnd) (.fin neg m e) =
      result neg false (if !exact && decide (rnd * step < (n - gridValue f lo * d) * 65536) then lo + 1 else lo))

/-- R149, R150: what rounding gives for infinities, NaN and zeros, and the cases that the two rules print; R151: the draws of
its worked example, and the function that gives a draw. -/
def RoundingOfSpecialValues : Prop :=
  (∀ f mode neg e, roundX f mode (.fin neg 0 e) = (if neg then f.signBit else 0) ∧
    roundX f mode .nan = (match f with
      | .f64 => 0x7FF8000000000000
      | .f32 => 0x7FC00000
      | .f16 => 0x7E00
      | .bf16 => 0x7FC0
      | .e5m2 => 0x7E
      | .e4m3 => 0x7F
      | .e2m1 => 0) ∧
    roundX f mode (.inf neg) = if f = .e4m3 then 0x7F
      else (if neg then f.signBit else 0) + if f = .e2m1 then 7 else largest f + 1) ∧
  ([(Fmt.e4m3, XVal.fin false 300 0), (.e4m3, .fin true 300 0), (.e4m3, .fin false 460 0), (.e5m2, .fin false 70000 0),
      (.e2m1, .fin false 5 (-1)), (.e2m1, .fin false 5 0), (.e2m1, .fin false 3602879701896397 (-54))].map fun p =>
      [RMode.rn, .rz, .rp, .rm].map fun mode => roundX p.1 mode p.2) =
    [[0x79, 0x79, 0x7A, 0x79], [0xF9, 0xF9, 0xF9, 0xFA], [0x7E, 0x7E, 0x7E, 0x7E], [0x7C, 0x7B, 0x7C, 0x7B], [4, 4, 5, 4],
      [6, 6, 7, 6], [0, 0, 1, 0]] ∧
  (∀ rnd, roundX .e4m3 (.sr rnd) (decodeF .f32 0x3F8CCCCD) = if rnd ≤ 52428 then 0x39 else 0x38) ∧
  ∀ seed lane k,
    let h := seed ^^^ BitVec.ofNat 32 (lane * 2 ^ 24) ^^^ BitVec.ofNat 32 (k * 2 ^ 16)
    let h := (h ^^^ (h >>> 16)) * 0x7FEB352D#32
    let h := (h ^^^ (h >>> 15)) * 0x846CA68B#32
    srBits seed lane k = (h ^^^ (h >>> 16)).toNat % 2 ^ 16

/-- R163: −0 is smaller than +0. -/
def ZeroMinima : Prop := ∀ e k,
  let m : XVal := .fin true 0 e
  let p : XVal := .fin false 0 k
  fminX m p = m ∧ fminX p m = m ∧ fmaxX m p = p ∧ fmaxX p m = p ∧
  fminnumX m p = m ∧ fminnumX p m = m ∧ fmaxnumX m p = p ∧ fmaxnumX p m = p

/-- R142, R162, R163, R168: the results for NaN, infinite and zero operands. -/
def SpecialOperands : Prop :=
  (∀ down (a : XVal), XVal.add down .nan a = .nan ∧ XVal.add down a .nan = .nan ∧ XVal.mul .nan a = .nan ∧
    XVal.mul a .nan = .nan ∧ fminnumX .nan a = a ∧ fminnumX a .nan = a ∧ fmaxnumX .nan a = a ∧ fmaxnumX a .nan = a ∧
    fminX a .nan = .nan ∧ fmaxX .nan a = .nan) ∧
  (∀ down x n b e (c : XVal), fmaX down (.inf x) (.fin n 0 e) c = .nan ∧ fmaX down (.fin n 0 e) (.inf x) c = .nan ∧
    XVal.add down (.inf b) (.inf !b) = .nan ∧ XVal.add down (.inf b) (.inf b) = .inf b) ∧
  (∀ down n m e, XVal.add down (.fin n m e) (.fin (!n) m e) = .zero down) ∧
  (∀ m ftz clamp, finishF .f32 m ftz clamp .nan = if clamp then 0 else 0x7FC00000) ∧
  ([0xFF800000#32, 0x80000000, 0x00000000, 0x7F800000, 0x7FC00001].map fun x =>
      (List.range 8).map fun k => transcend k false false false false false x) =
    [[0x80000000, 0x7FC00000, 0x7FC00000, 0x00000000, 0x7FC00000, 0x7FC00000, 0x7FC00000, 0xBF800000],
     [0xFF800000, 0xFF800000, 0x80000000, 0x3F800000, 0xFF800000, 0x80000000, 0x3F800000, 0x80000000],
     [0x7F800000, 0x7F800000, 0x00000000, 0x3F800000, 0xFF800000, 0x00000000, 0x3F800000, 0x00000000],
     [0x00000000, 0x00000000, 0x7F800000, 0x7F800000, 0x7F800000, 0x7FC00000, 0x7FC00000, 0x3F800000],
     List.replicate 8 0x7FC00000]

end Sys2Proof.Claims

/-- Each rounding mode, `sr` among them, chooses the neighbour on its grid, and each format its result beyond the largest finite
value; results for NaN, infinite and zero operands. -/
def Obligations.RoundingAndSpecialOperands : Prop :=
  Sys2Proof.Claims.RoundingToTheGrid ∧ Sys2Proof.Claims.RoundingOfSpecialValues ∧ Sys2Proof.Claims.ZeroMinima ∧
    Sys2Proof.Claims.SpecialOperands

namespace Sys2Proof.Claims

/-- The FP32 forms that finish one exact value in the mode of the instruction (R161, R163, R166). -/
def floatForms : List ((LaneFields → Instr) × (Bool → XVal → XVal → XVal → XVal)) :=
  [(.fadd, fun down a b _ => a.add down b), (.fsub, fun down a b _ => a.add down b.neg), (.fmul, fun _ a b _ => a.mul b),
   (.ffma, fun down a b c => (a.mul b).add down c),
   (.fmin, fun _ a b _ => if a.isNan || b.isNan then .nan else a.minOf b),
   (.fmax, fun _ a b _ => if a.isNan || b.isNan then .nan else a.maxOf b),
   (.fminnum, fun _ a b _ => if a.isNan then b else if b.isNan then a else a.minOf b),
   (.fmaxnum, fun _ a b _ => if a.isNan then b else if b.isNan then a else a.maxOf b)]

/-- The packed forms: the format of a half, the presentation of constants, and the exact value (R170). -/
def packedForms : List ((LaneFields → Instr) × Fmt × Want × (Bool → XVal → XVal → XVal → XVal)) :=
  [(.hadd2, .f16, .f16x2, fun down a b _ => a.add down b), (.hsub2, .f16, .f16x2, fun down a b _ => a.add down b.neg),
   (.hmul2, .f16, .f16x2, fun _ a b _ => a.mul b), (.hfma2, .f16, .f16x2, fun down a b c => (a.mul b).add down c),
   (.hmin2, .f16, .f16x2, fun _ a b _ => if a.isNan || b.isNan then .nan else a.minOf b),
   (.hmax2, .f16, .f16x2, fun _ a b _ => if a.isNan || b.isNan then .nan else a.maxOf b),
   (.bfma2, .bf16, .bf16x2, fun down a b c => (a.mul b).add down c)]

/-- The FP64 forms (R171). -/
def doubleForms : List ((LaneFields → Instr) × (Bool → XVal → XVal → XVal → XVal)) :=
  [(.dadd, fun down a b _ => a.add down b), (.dmul, fun _ a b _ => a.mul b), (.dfma, fun down a b c => (a.mul b).add down c)]

end Sys2Proof.Claims

/-- R159 to R163, R170, R171: prepared sources, one exact value, one rounding. -/
def Obligations.FloatArithmetic : Prop :=
  (∀ p ∈ floatForms, ∀ c f, Issues (p.1 f) c → Flows (p.1 f) c → LaneCompletes (p.1 f) c f.d 1
    (fun l => [BitVec.ofNat 32 (finishOf .f32 f (p.2 (downOf f) (c.fa f l) (c.fb f l) (c.fc f l)))]) none) ∧
  (∀ p ∈ packedForms, ∀ c f, Issues (p.1 f) c → Flows (p.1 f) c → LaneCompletes (p.1 f) c f.d 1
    (fun l =>
      let half (k : Nat) : Nat := finishOf p.2.1 f (p.2.2.2 (downOf f)
        (prepA p.2.1 f ((c.srcA f p.2.2.1 l).toNat / 2 ^ (16 * k) % 2 ^ 16))
        (prepB p.2.1 f ((c.srcB f p.2.2.1 l).toNat / 2 ^ (16 * k) % 2 ^ 16))
        (prepC p.2.1 f ((c.srcC f p.2.2.1 l).toNat / 2 ^ (16 * k) % 2 ^ 16)))
      [BitVec.ofNat 32 (half 0 + 2 ^ 16 * half 1)]) none) ∧
  (∀ p ∈ doubleForms, ∀ c f, Issues (p.1 f) c → Flows (p.1 f) c → LaneCompletes (p.1 f) c f.d 2
    (fun l => wordsOf (BitVec.ofNat 64 (finishOf .f64 f (p.2 (downOf f) (c.da f l) (c.db f l) (c.dc f l))))) none)

namespace Sys2Proof.Claims

/-- The float conditions (R164). -/
def floatCondition : FloatCond → XVal → XVal → Bool
  | .eq, a, b => a.eq b
  | .ne, a, b => !a.eq b
  | .lt, a, b => a.lt b
  | .le, a, b => a.lt b || a.eq b
  | .un, a, b => a.isNan || b.isNan
  | .ord, a, b => !a.isNan && !b.isNan

/-- The bit of `fclass` for a value (R165): `normal` says that its magnitude is at least 2^−126. -/
def classOf (normal : Bool) : XVal → Nat
  | .inf true => 0
  | .fin true m _ => if m = 0 then 3 else if normal then 1 else 2
  | .fin false m _ => if m = 0 then 4 else if normal then 6 else 5
  | .inf false => 7
  | .nan => 8

def isNormal : XVal → Bool
  | .fin _ m e => let p := XVal.ratio m e; decide (p.2 ≤ p.1 * 2 ^ 126)
  | _ => false

end Sys2Proof.Claims

/-- R164 to R166. -/
def Obligations.FloatTestsAndSplits : Prop := ∀ c f,
  (∀ cc, Issues (.fcmp cc f) c → Flows (.fcmp cc f) c →
    CompareCompletes (.fcmp cc f) c f fun l => floatCondition cc (c.fa f l) (c.fb f l)) ∧
  (Issues (.fclass f) c → Flows (.fclass f) c → LaneCompletes (.fclass f) c f.d 1
    (fun l => [BitVec.ofNat 32 (2 ^ classOf (isNormal (c.fa f l)) (c.fa f l))]) none) ∧
  (∀ dir, Issues (.fround dir f) c → Flows (.fround dir f) c → LaneCompletes (.fround dir f) c f.d 1
    (fun l => [BitVec.ofNat 32 (finishF .f32 .rn (isFtz f) (isClamp f) (match c.fa f l with
      | .fin n m e => let p := XVal.ratio m e
          .fin n (match dir with
            | .rn => if 2 * (p.1 % p.2) < p.2 ∨ 2 * (p.1 % p.2) = p.2 ∧ p.1 / p.2 % 2 = 0 then p.1 / p.2 else p.1 / p.2 + 1
            | .rz => p.1 / p.2
            | .rp => if n then p.1 / p.2 else (p.1 + p.2 - 1) / p.2
            | .rm => if n then (p.1 + p.2 - 1) / p.2 else p.1 / p.2) 0
      | x => x))]) none) ∧
  (Issues (.ffract f) c → Flows (.ffract f) c → LaneCompletes (.ffract f) c f.d 1 (fun l => [match c.fa f l with
    | .fin n m e =>
      let p := XVal.ratio m e
      let floor : XVal := .fin n (if n then (p.1 + p.2 - 1) / p.2 else p.1 / p.2) 0
      let r := finishF .f32 .rn (isFtz f) false ((XVal.fin n m e).add false floor.neg)
      if r = 0x3F800000 then 0x3F7FFFFF else BitVec.ofNat 32 r
    | _ => 0x7FC00000]) none) ∧
  (Issues (.fldexp f) c → Flows (.fldexp f) c → LaneCompletes (.fldexp f) c f.d 1
    (fun l => [BitVec.ofNat 32 (finishOf .f32 f ((c.fa f l).scale (max (min (c.srcB f .int32 l).toInt 1000) (-1000))))])
    none) ∧
  (Issues (.ffrexp f) c → Flows (.ffrexp f) c → LaneCompletes (.ffrexp f) c f.d 2
    (fun l => match c.fa f l with
      | .fin n m e => if m = 0 then [BitVec.ofNat 32 (finishOf .f32 f (.zero n)), 0]
          else [BitVec.ofNat 32 (finishOf .f32 f (.fin n m (-(m.log2 : Int) - 1))), BitVec.ofInt 32 (e + m.log2 + 1)]
      | x => [BitVec.ofNat 32 (finishOf .f32 f x), 0]) none)

namespace Sys2Proof.Claims

/-- The forms of R167 with their function values. -/
def transForms : List ((LaneFields → Instr) × Nat) :=
  [(.frcp, 0), (.frsq, 1), (.fsqrt, 2), (.fexp2, 3), (.flog2, 4), (.fsinpi, 5), (.fcospi, 6), (.ftanh, 7)]

end Sys2Proof.Claims

/-- R167 to R169: each of `frcp`, `frsq`, `fsqrt`, `fexp2`, `flog2`, `fsinpi`, `fcospi` and `ftanh` answers a next state whenever it
issues and its operands flow, whatever its operands hold; and each gives one function of its prepared operand, `.ftz` and `.clamp`, the same for every lane, wave and core. Where R167 and R168 state the result, it
is that one. Elsewhere it is a free value, finished under `.ftz` and `.clamp`, that lies within R167's bound of every value in
an enclosure of the exact one, or is that enclosure's value rounded to nearest (log entry 12). -/
def Obligations.Transcendentals : Prop :=
  (∀ c f, ∀ i ∈ [Instr.frcp f, .frsq f, .fsqrt f, .fexp2 f, .flog2 f, .fsinpi f, .fcospi f, .ftanh f],
    Issues i c → Flows i c → ∃ t, exec i c.s = .next t) ∧
  ∃ r : Nat → XVal → Bool → Bool → Word,
  (∀ p ∈ transForms, ∀ c f, Issues (p.1 f) c → Flows (p.1 f) c →
    LaneCompletes (p.1 f) c f.d 1 (fun l => [r p.2 (c.fa f l) (isFtz f) (isClamp f)]) none) ∧
  (∀ fn x ftz clamp y, transExact fn x = some y → r fn x ftz clamp = BitVec.ofNat 32 (finishF .f32 .rn ftz clamp y)) ∧
  ∀ fn neg m e ftz clamp, transExact fn (.fin neg m e) = none →
    let (y, units, q) := transEnclosure fn neg m e
    ∃ b, r fn (.fin neg m e) ftz clamp = BitVec.ofNat 32 (finishBits .f32 ftz clamp b) ∧
      (within y (decodeF .f32 b) units (q.getD (ulpExp y.num y.den)) = true ∨ b = roundRatio .f32 .rn y.neg y.num y.den)

namespace Sys2Proof.Claims

/-- An integer of n bits that a float rounds to (R173): saturated, 0 for NaN. -/
def intOfFloat (n : Nat) (signed : Bool) (mode : RMode) : XVal → BitVec n
  | .nan => 0
  | .inf neg => if signed then (if neg then BitVec.intMin n else BitVec.intMax n) else if neg then 0 else BitVec.allOnes n
  | .fin neg m e =>
    let p := XVal.ratio m e
    let k : Int := (if neg then -1 else 1) * (roundInt mode neg p.1 p.2 : Int)
    BitVec.ofInt n (if signed then satS k n else satU k n)

/-- The words that a wide conversion writes (R172). -/
def wideWords (c : Ctx) (f : LaneFields) (l : Nat) : CvtOp → List Word
  | .f32F64 => [BitVec.ofNat 32 (finishOf .f32 f (c.da f l))]
  | .f64F32 => wordsOf (BitVec.ofNat 64 (finishOf .f64 f (c.fa f l)))
  | .f16F32 => [BitVec.ofNat 32 (finishOf .f16 f (c.fa f l) + 2 ^ 16 * finishOf .f16 f (c.fb f l))]
  | .bf16F32 => [BitVec.ofNat 32 (finishOf .bf16 f (c.fa f l) + 2 ^ 16 * finishOf .bf16 f (c.fb f l))]
  | .f32F16Lo => [BitVec.ofNat 32 (finishOf .f32 f (prepA .f16 f ((c.srcA f .f16x2 l).toNat % 2 ^ 16)))]
  | .f32F16Hi => [BitVec.ofNat 32 (finishOf .f32 f (prepA .f16 f ((c.srcA f .f16x2 l).toNat / 2 ^ 16)))]
  | .f32Bf16Lo => [BitVec.ofNat 32 (finishOf .f32 f (prepA .bf16 f ((c.srcA f .bf16x2 l).toNat % 2 ^ 16)))]
  | .f32Bf16Hi => [BitVec.ofNat 32 (finishOf .f32 f (prepA .bf16 f ((c.srcA f .bf16x2 l).toNat / 2 ^ 16)))]
  | .i32F32 => [intOfFloat 32 true (rmode0 f) (c.fa f l)]
  | .ui32F32 => [intOfFloat 32 false (rmode0 f) (c.fa f l)]
  | .f32I32 => [BitVec.ofNat 32 (finishOf .f32 f (.ofInt (c.srcA f .int32 l).toInt))]
  | .f32Ui32 => [BitVec.ofNat 32 (finishOf .f32 f (.ofInt (c.srcA f .int32 l).toNat))]
  | .i32F64 => [intOfFloat 32 true (rmode0 f) (c.da f l)]
  | .ui32F64 => [intOfFloat 32 false (rmode0 f) (c.da f l)]
  | .f64I32 => wordsOf (BitVec.ofNat 64 (finishOf .f64 f (.ofInt (c.srcA f .int32 l).toInt)))
  | .f64Ui32 => wordsOf (BitVec.ofNat 64 (finishOf .f64 f (.ofInt (c.srcA f .int32 l).toNat)))
  | .i64F64 => wordsOf (intOfFloat 64 true (rmode0 f) (c.da f l))
  | .ui64F64 => wordsOf (intOfFloat 64 false (rmode0 f) (c.da f l))
  | .f64I64 => wordsOf (BitVec.ofNat 64 (finishOf .f64 f (.ofInt (c.pairA f .int64 l).toInt)))
  | .f64Ui64 => wordsOf (BitVec.ofNat 64 (finishOf .f64 f (.ofInt (c.pairA f .int64 l).toNat)))

/-- Element k of the n-bit elements of a word (R144). -/
def element (n k : Nat) (x : Word) : Nat := x.toNat / 2 ^ (n * k) % 2 ^ n

/-- The word with elements 2k and 2k + 1 replaced (R174). -/
def withTwo (n k : Nat) (old : Word) (x y : Nat) : Word :=
  wordOf fun j => if j / n = 2 * k then x.testBit (j % n) else if j / n = 2 * k + 1 then y.testBit (j % n) else old.getLsbD j

/-- Two values rounded into elements 2k and 2k + 1 of D, each with the draw of its own position under `sr` (R175). -/
def packedWord (c : Ctx) (f : LaneFields) (l : Nat) (fmt : Fmt) (k : Nat) (x y : XVal) : Word :=
  let r (pos : Nat) (v : XVal) : Nat :=
    finishF fmt (rmode f (srBits (c.w.sreg f.s.toNat) l pos)) (f.mode.getLsbD 3) false v
  withTwo fmt.width k (codeWord c.w f.d 0 l) (r (2 * k) x) (r (2 * k + 1) y)

/-- Source B of a pack: S does not replace it under `sr` (R175). -/
def secondElement (c : Ctx) (f : LaneFields) (l : Nat) : XVal := prepB .f32 f (srcBSeed c f .f32 l).toNat

/-- A value under the scale that a byte gives, and divided by it (R146, R177). -/
def timesScale (s : Nat) (x : XVal) : XVal := if s = 0xFF then .nan else x.scale ((s : Int) - 127)

def overScale (s : Nat) (x : XVal) : XVal := if s = 0xFF then .nan else x.scale (127 - (s : Int))

/-- The word that a conversion of FP8, FP4 or scale elements writes (R174, R176 to R178). -/
def smallWord (c : Ctx) (f : LaneFields) (l : Nat) : CvtSmallOp → Word :=
  let k := f.c.toNat
  let half (j : Nat) : XVal := prepA .f16 f (element 16 j (c.srcA f .f16x2 l))
  let unpacked (fmt : Fmt) (k : Nat) : XVal := prepA fmt f (element fmt.width k (c.srcA f .int32 l))
  let f32 (x : XVal) : Word := BitVec.ofNat 32 (finishOf .f32 f x)
  let halves (fmt : Fmt) : Word := BitVec.ofNat 32 (
    finishOf .f16 f (unpacked fmt (2 * k)) + 2 ^ 16 * finishOf .f16 f (unpacked fmt (2 * k + 1)))
  let scale (emax : Int) : Word := match c.fa f l with
    | .fin _ m e => if m = 0 then 0x7F else BitVec.ofInt 32 (min (max ((m.log2 : Int) + e - emax + 127) 0) 254)
    | _ => 0xFF
  let bs (fmt : Fmt) (k : Nat) : Word :=
    let s := (srcScale c f l).toNat % 2 ^ 8
    packedWord c f l fmt k (overScale s (c.fa f l)) (overScale s (secondElement c f l))
  fun
  | .e4m3F32 => packedWord c f l .e4m3 k (c.fa f l) (secondElement c f l)
  | .e5m2F32 => packedWord c f l .e5m2 k (c.fa f l) (secondElement c f l)
  | .e2m1F32 => packedWord c f l .e2m1 k (c.fa f l) (secondElement c f l)
  | .e4m3F16 => packedWord c f l .e4m3 k (half 0) (half 1)
  | .e5m2F16 => packedWord c f l .e5m2 k (half 0) (half 1)
  | .f32E4m3 => f32 (unpacked .e4m3 k)
  | .f32E5m2 => f32 (unpacked .e5m2 k)
  | .f32E2m1 => f32 (unpacked .e2m1 k)
  | .f16E4m3 => halves .e4m3
  | .f16E5m2 => halves .e5m2
  | .scaleE4m3 => scale 8
  | .scaleE2m1 => scale 2
  | .bs4e4m3K0 => bs .e4m3 0
  | .bs4e4m3K1 => bs .e4m3 1
  | .bs4e2m1K0 => bs .e2m1 0
  | .bs4e2m1K1 => bs .e2m1 1
  | .bs4e2m1K2 => bs .e2m1 2
  | .bs4e2m1K3 => bs .e2m1 3
  | .f32Bs4e4m3 => f32 (timesScale (element 8 0 (c.srcB f .int32 l)) (unpacked .e4m3 k))
  | .f32Bs4e2m1 => f32 (timesScale (element 8 (k / 4) (c.srcB f .int32 l)) (unpacked .e2m1 k))

end Sys2Proof.Claims

/-- R172 to R178. That the FP8 and FP4 sources are read as 32-bit words, an inline constant too, is DEDUCED (log entry 17). -/
def Obligations.Conversions : Prop := ∀ c f,
  (∀ op, Issues (.cvt op f) c → Flows (.cvt op f) c →
    LaneCompletes (.cvt op f) c f.d (wideWords c f 0 op).length (fun l => wideWords c f l op) none) ∧
  (∀ op, Issues (.cvtFp8Fp4 op f) c → Flows (.cvtFp8Fp4 op f) c →
    LaneCompletes (.cvtFp8Fp4 op f) c f.d 1 (fun l => [smallWord c f l op]) none)

/-! Cross-lane and group instructions (09_crosslane.md, 04_group.md). -/

namespace Sys2Proof.Claims

/-- `GF` with Z and N of a result, and C, V and E where the instruction writes them (R105, R106). -/
def gfOf (old : BitVec 5) (z n : Bool) (c v e : Option Bool) : BitVec 5 :=
  BitVec.ofNat 5 (z.toNat + 2 * n.toNat + 4 * (c.getD (old.getLsbD 2)).toNat + 8 * (v.getD (old.getLsbD 3)).toNat +
    16 * (e.getD (old.getLsbD 4)).toNat)

def gfWord32 (old : BitVec 5) (x : Word) (c v e : Option Bool) : BitVec 5 := gfOf old (decide (x = 0)) (x.getLsbD 31) c v e

def gfWord64 (old : BitVec 5) (x : DWord) (c v : Option Bool) : BitVec 5 := gfOf old (decide (x = 0)) (x.getLsbD 63) c v none

/-- The register, and the mask, that a group destination code names (R82, R213). -/
def toReg (code : BitVec 7) (x : Word) : List (Nat × Word) := if code.toNat < 0x60 then [(code.toNat, x)] else []

def toMask (code : BitVec 7) (x : Word) : Option (Nat × Word) :=
  if code.toNat < 0x60 then none else some (code.toNat - 0x60, x)

/-- The source lanes of the moves (R216 to R218). -/
def shuffleFrom (op : ShflOp) (width b i : Nat) : Nat :=
  let j := i % width
  match op with
  | .idx => i - j + b % width
  | .up => if b ≤ j then i - b else i
  | .dn => if j + b < width then i + b else i
  | .xor => i - j + (j ^^^ (b % width))

def quadFrom : QswpOp → Nat → Nat
  | .h, i => i ^^^ 1
  | .v, i => i ^^^ 2
  | .d, i => i ^^^ 3

/-- What lane k supplies (R209): a free word for an absent lane, and for a lane outside `EM` when A is a queue. -/
def fromLane (c : Ctx) (f : LaneFields) (k : Nat) : Word :=
  if (c.slice.thread k).st = .absent ∨ (Form.isQ f.a ∧ ¬c.em.getLsbD k) then Config.freeWord c.s.fresh k
  else c.srcA f .int32 k

end Sys2Proof.Claims

/-- R209, R216 to R218. -/
def Obligations.CrossLaneMoves : Prop := ∀ c f,
  (∀ op, Issues (.shfl op f) c → Flows (.shfl op f) c → DrawCompletes (.shfl op f) c f.d fun i =>
    fromLane c f (shuffleFrom op (if f.c = 0#8 then 32 else 2 ^ f.c.toNat) (c.srcB f .int32 i).toNat i)) ∧
  (Issues (.lbc f) c → Flows (.lbc f) c → DrawCompletes (.lbc f) c f.d fun _ =>
    fromLane c f ((c.srcB f .int32 ((lowestLane c.em).getD 0)).toNat % 32)) ∧
  (∀ op, Issues (.qswp op f) c → Flows (.qswp op f) c → DrawCompletes (.qswp op f) c f.d fun i =>
    fromLane c f (quadFrom op i)) ∧
  (Issues (.qbc f) c → Flows (.qbc f) c → DrawCompletes (.qbc f) c f.d fun i =>
    fromLane c f (4 * (i / 4) + f.c.toNat))

namespace Sys2Proof.Claims

/-- The lane set L of R214. -/
def setL (c : Ctx) (f : LaneFields) : Lanes := if f.c = 0#8 then c.em else c.em &&& c.slice.mask (f.c.toNat - 0x80)

/-- The values of A over the lanes of a set, ascending. -/
def valuesOf (c : Ctx) (f : LaneFields) (m : Lanes) : List Word :=
  (laneList.filter fun l => m.getLsbD l).map fun l => c.srcA f .int32 l

/-- An integer reduction (R219): the sum is exact before it is wrapped or saturated once. -/
def reduced (f : LaneFields) : RedOp → List Word → Word
  | .add, xs => wrapOrSat f (xs.map BitVec.toInt).sum
  | .min, xs => xs.foldr (fun x y => if x.toInt ≤ y.toInt then x else y) 0x7FFFFFFF
  | .max, xs => xs.foldr (fun x y => if x.toInt ≤ y.toInt then y else x) 0x80000000
  | .and, xs => xs.foldr (· &&& ·) 0xFFFFFFFF
  | .or, xs => xs.foldr (· ||| ·) 0
  | _, xs => xs.foldr (· ^^^ ·) 0

/-- One step of the float networks (R219, R221). -/
def bits32 (x : XVal) : Word := BitVec.ofNat 32 (roundX .f32 .rn x)

def netStep (op : RedOp) (a b : Word) : Word :=
  let x := decodeF .f32 a.toNat
  let y := decodeF .f32 b.toNat
  bits32 (match op with
    | .fadd => x.add false y
    | .fmin => if x.isNan || y.isNan then .nan else x.minOf y
    | _ => if x.isNan || y.isNan then .nan else x.maxOf y)

/-- Position p before the first step: A of lane `p` (`p` − 1 for an exclusive scan) in L, a NaN canonical, else the
identity. -/
def netInput (c : Ctx) (f : LaneFields) (op : RedOp) (excl : Bool) (p : Nat) : Word :=
  let identity : Word := match op with
    | .fadd => 0x80000000
    | .fmin => 0x7F800000
    | _ => 0xFF800000
  if excl ∧ p = 0 then identity
  else
    let u := if excl then p - 1 else p
    if (setL c f).getLsbD u then bits32 (decodeF .f32 (c.srcA f .f32 u).toNat) else identity

/-- The tree and the scan network after `k` of the distances 1, 2, 4, 8 and 16. -/
def treeAt (op : RedOp) (t : Nat → Word) : Nat → Nat → Word
  | 0, p => t p
  | k + 1, p => netStep op (treeAt op t k p) (treeAt op t k (p + 2 ^ k))

def scanNet (op : RedOp) (t : Nat → Word) : Nat → Nat → Word
  | 0, p => t p
  | k + 1, p => if 2 ^ k ≤ p then netStep op (scanNet op t k (p - 2 ^ k)) (scanNet op t k p) else scanNet op t k p

/-- The results of R219 and R221. -/
def redResult (c : Ctx) (f : LaneFields) (op : RedOp) : Word :=
  if RedOp.isFloat op then treeAt op (netInput c f op false) 5 0 else reduced f op (valuesOf c f (setL c f))

def scanResult (c : Ctx) (f : LaneFields) (op : RedOp) (excl : Bool) (i : Nat) : Word :=
  if RedOp.isFloat op then scanNet op (netInput c f op excl) 5 i
  else reduced f op (valuesOf c f (setL c f &&& wordOf fun j => decide (j < i) || (!excl && j == i)))

def scanTotal (c : Ctx) (f : LaneFields) (op : RedOp) : Word :=
  if RedOp.isFloat op then scanNet op (netInput c f op false) 5 31 else reduced f op (valuesOf c f (setL c f))

/-- A cross-lane form writes its group destination, and E, Z and N from the value (R220, R223). -/
def GathersTo (i : Instr) (c : Ctx) (f : LaneFields) (x : Word) : Prop :=
  let d : BitVec 7 := f.d.setWidth 7
  CrossCompletes i c f.d 0 (fun _ => 0) (toReg d x) (toMask d x)
    (gfWord32 c.slice.gf x none none (some (decide (setL c f = 0))))

end Sys2Proof.Claims

/-- R214, R219 to R223. A scan pushes, and needs room, only in the lanes of L. -/
def Obligations.ReductionsScansVotes : Prop := ∀ c f,
  (∀ op, Issues (.lred op f) c → Flows (.lred op f) c → GathersTo (.lred op f) c f (redResult c f op)) ∧
  (∀ excl op, let i : Instr := .lscan excl op f
    Issues i c → c.popsReady (usesOf i) = true → c.tokenMet (usesOf i) = none →
    ({ c with em := setL c f } : Ctx).roomFor (usesOf i) = true →
    CrossCompletes i c f.d (setL c f) (scanResult c f op excl)
      (if f.s = 0x7F#7 then [] else [(f.s.toNat, scanTotal c f op)]) none
      (gfWord32 c.slice.gf (scanTotal c f op) none none (some (decide (setL c f = 0))))) ∧
  (let yes : Lanes := wordOf fun l => (setL c f).getLsbD l && decide (c.srcA f .int32 l ≠ 0);
    (Issues (.lvoteAny f) c → Flows (.lvoteAny f) c → GathersTo (.lvoteAny f) c f (if yes = 0 then 0 else 1)) ∧
    (Issues (.lvoteAll f) c → Flows (.lvoteAll f) c → GathersTo (.lvoteAll f) c f (if yes = setL c f then 1 else 0)) ∧
    (Issues (.lvoteBal f) c → Flows (.lvoteBal f) c → GathersTo (.lvoteBal f) c f yes)) ∧
  (Issues (.lfirst f) c → Flows (.lfirst f) c →
    GathersTo (.lfirst f) c f (((valuesOf c f (setL c f)).head?).getD 0))

namespace Sys2Proof.Claims

/-- The one-word group forms with their results for the sources a and b, and C, V and E where they write them (R111, R112,
R114). -/
def groupForms : List ((GroupFields → Instr) × (Word → Word → Word) × (Word → Word → Option Bool × Option Bool × Option Bool)) :=
  let zn (_ _ : Word) : Option Bool × Option Bool × Option Bool := (none, none, none)
  let e (a _ : Word) : Option Bool × Option Bool × Option Bool := (none, none, some (decide (a = 0)))
  let most (a _ : Word) : Option Bool × Option Bool × Option Bool := (none, some (decide (a = 0x80000000)), none)
  let out (x : Int) : Bool := decide (x < -2 ^ 31 ∨ 2 ^ 31 ≤ x)
  [(.sadd, fun a b => BitVec.ofNat 32 (a.toNat + b.toNat),
     fun a b => (some (decide (2 ^ 32 ≤ a.toNat + b.toNat)), some (out (a.toInt + b.toInt)), none)),
   (.ssub, fun a b => BitVec.ofInt 32 (a.toInt - b.toInt),
     fun a b => (some (decide (b.toNat ≤ a.toNat)), some (out (a.toInt - b.toInt)), none)),
   (.smul, fun a b => BitVec.ofInt 32 (a.toInt * b.toInt), zn),
   (.smulhi, fun a b => BitVec.ofInt 32 (a.toInt * b.toInt / 2 ^ 32), zn),
   (.smulhu, fun a b => BitVec.ofNat 32 (a.toNat * b.toNat / 2 ^ 32), zn),
   (.sand, fun a b => a &&& b, zn), (.sor, fun a b => a ||| b, zn), (.sxor, fun a b => a ^^^ b, zn),
   (.sandn, fun a b => a &&& ~~~b, zn), (.snot, fun a _ => ~~~a, zn),
   (.sshl, fun a b => if 32 ≤ b.toNat then 0 else BitVec.ofNat 32 (a.toNat * 2 ^ b.toNat), zn),
   (.sshr, fun a b => if 32 ≤ b.toNat then 0 else BitVec.ofNat 32 (a.toNat / 2 ^ b.toNat), zn),
   (.ssar, fun a b => BitVec.ofInt 32 (a.toInt / 2 ^ min b.toNat 31), zn),
   (.smin, fun a b => BitVec.ofInt 32 (min a.toInt b.toInt), zn),
   (.smax, fun a b => BitVec.ofInt 32 (max a.toInt b.toInt), zn),
   (.sminu, fun a b => BitVec.ofNat 32 (min a.toNat b.toNat), zn),
   (.smaxu, fun a b => BitVec.ofNat 32 (max a.toNat b.toNat), zn),
   (.sabs, fun a _ => BitVec.ofInt 32 a.toInt.natAbs, most), (.sneg, fun a _ => BitVec.ofInt 32 (-a.toInt), most),
   (.smov, fun a _ => a, zn),
   (.sbfe, fun a b => wordOf (fun k => decide (k < (bitField b).2) && a.getLsbD ((bitField b).1 + k)), zn),
   (.spopc, fun a _ => countOnes a, zn), (.sclz, fun a _ => countLeading a, zn), (.sctz, fun a _ => countTrailing a, zn),
   (.mand, fun a b => a &&& b, zn), (.mor, fun a b => a ||| b, zn), (.mxor, fun a b => a ^^^ b, zn),
   (.mandn, fun a b => a &&& ~~~b, zn), (.mnot, fun a _ => ~~~a, zn), (.mmov, fun a _ => a, zn),
   (.mpopc, fun a _ => countOnes a, e), (.mffs, fun a _ => if a = 0 then 0xFFFFFFFF else countTrailing a, e),
   (.mtos, fun a _ => a, zn), (.stom, fun a _ => a, zn), (.mclr, fun _ _ => 0, zn), (.mset, fun _ _ => 0xFFFFFFFF, zn),
   (.mlane, fun a b => wordOf (fun k => decide (a.toNat ≤ k ∧ k < a.toNat + b.toNat)), zn)]

/-- R102, R104 to R106, R111, R112, R114. -/
def GroupWordForms : Prop := ∀ p ∈ groupForms, ∀ c g, Issues (p.1 g) c →
  let a := c.gsrc g g.sa
  let b := c.gsrc g g.sb
  let x := p.2.1 a b
  let fl := p.2.2 a b
  GroupCompletes (p.1 g) c (toReg g.sd x) (toMask g.sd x) (gfWord32 c.slice.gf x fl.1 fl.2.1 fl.2.2)

/-- Compares, selects, immediates and the insert (R111, R112), and the pair forms (R110, R111). -/
def GroupSelectAndPairs : Prop := ∀ c g,
  let a := c.gsrc g g.sa
  let b := c.gsrc g g.sb
  let old := c.slice.gf
  let word (i : Instr) (sd : BitVec 7) (x : Word) : Prop :=
    Issues i c → GroupCompletes i c (toReg sd x) (toMask sd x) (gfWord32 old x none none none)
  let a64 := c.gsrc64 g g.sa
  let b64 := c.gsrc64 g g.sb
  let pair (i : Instr) (x : DWord) (cf vf : Option Bool) : Prop :=
    Issues i c → GroupCompletes i c [(g.sd.toNat + 1, (x >>> 32).setWidth 32), (g.sd.toNat, x.setWidth 32)] none
      (gfWord64 old x cf vf)
  let out (x : Int) : Bool := decide (x < -2 ^ 63 ∨ 2 ^ 63 ≤ x)
  (∀ cc (p : Bool), (p = true ↔ intCondition cc a b) → word (.scmp cc g) g.sd (if p then 1 else 0)) ∧
  word (.ssel g) g.sd (if old.getLsbD 0 then b else a) ∧
  (∀ sd imm, word (.sli sd imm) sd (BitVec.ofInt 32 imm.toInt)) ∧
  word (.sbfi g) g.sd (let (off, n) := bitField b
    wordOf fun k => if off ≤ k ∧ k < off + n then a.getLsbD (k - off) else (c.w.sreg g.sd.toNat).getLsbD k) ∧
  pair (.sadd64 g) (BitVec.ofNat 64 (a64.toNat + b64.toNat)) (some (decide (2 ^ 64 ≤ a64.toNat + b64.toNat)))
    (some (out (a64.toInt + b64.toInt))) ∧
  pair (.ssub64 g) (BitVec.ofInt 64 (a64.toInt - b64.toInt)) (some (decide (b64.toNat ≤ a64.toNat)))
    (some (out (a64.toInt - b64.toInt))) ∧
  pair (.smul64 g) (BitVec.ofNat 64 (a64.toNat * b64.toNat)) none none

end Sys2Proof.Claims

/-- Group instructions write one word or a pair, and their flags. -/
def Obligations.GroupWordAndPairForms : Prop := Sys2Proof.Claims.GroupWordForms ∧ Sys2Proof.Claims.GroupSelectAndPairs

/-- `sldk` (R117): the address is exact and never wrapped; MISALIGNED comes before CONST_RANGE (R8). `sget` (R118) writes no
flag, and `CLOCK` whole; `sset` (R119) writes `GF`, or places a clear of bits
of the context's `ERRSTICKY` that takes effect two cycles later. -/
def Obligations.BankAndSpecialRegisters : Prop := ∀ c g,
  (Issues (.sldk g) c →
    let addr : Int := (c.gsrc g g.sa).toNat + if g.sb = 0x7F#7 then (g.lit.getD 0).toInt else 4 * (g.sb.toNat : Int)
    let fault (k : Cause) : Prop := exec (.sldk g) c.s = .next (takeCause c.s c.ref c.sl c.em c.pc k noInfo)
    ∀ l, c.s.launch c.g.launch = some l →
      if addr % 4 ≠ 0 then fault .misaligned
      else if addr < 0 ∨ (l.kernel.constants : Int) < addr + 4 then fault .constRange
      else
        let byte (k : Nat) : Nat := ((l.bank[addr.toNat + k]?).getD 0).toNat
        GroupCompletes (.sldk g) c
          (toReg g.sd (BitVec.ofNat 32 (byte 0 + 2 ^ 8 * byte 1 + 2 ^ 16 * byte 2 + 2 ^ 24 * byte 3))) none c.slice.gf) ∧
  (Issues (.sget g) c →
    let x := c.special g.sa.toNat
    GroupCompletes (.sget g) c
      ((if g.sa = 0x1B#7 then [(g.sd.toNat + 1, (x >>> 32).setWidth 32)] else []) ++ [(g.sd.toNat, x.setWidth 32)])
      none c.slice.gf) ∧
  (Issues (.sset g) c → g.sd = 0x14#7 → GroupCompletes (.sset g) c [] none ((c.gsrc g g.sa).setWidth 5)) ∧
  (Issues (.sset g) c → g.sd = 0x1C#7 → ∀ l, c.s.launch c.g.launch = some l →
    ∃ t w, exec (.sset g) c.s = .next t ∧ OnlyWave c { t with slots := c.s.slots } w ∧
      GroupEffect (.sset g) c [] none c.slice.gf w ∧
      t = { c.s.updSlot l.slot (fun q => { q with
        clears := q.clears ++ [⟨c.ref, c.sl, (c.gsrc g g.sa).setWidth 2, c.s.clock + 2⟩] }) with
        wgs := t.wgs })

/-! Control flow, reconvergence, loops and runs (08_control.md). -/

namespace Sys2Proof.Claims

/-- The address `n` words from the counter (R184). -/
def wordsFrom (pc : Word) (n : Int) : Word := BitVec.ofInt 32 (pc.toInt + 4 * n)

/-- R183 to R185, R187. -/
def Branches : Prop := ∀ c,
  (∀ off, Issues (.jmp off) c → BranchCompletes (.jmp off) c [] none 0 fun _ => wordsFrom c.pc off.toInt) ∧
  (∀ d off, Issues (.call d off) c → BranchCompletes (.call d off) c [] (some d) (c.pc + 4) fun _ =>
    wordsFrom c.pc off.toInt) ∧
  (∀ d off, ∀ p ∈ ([(.bz d off, fun x => decide (x = 0)), (.bnz d off, fun x => decide (x ≠ 0)),
      (.blt d off, fun x => decide (x.toInt < 0)), (.bge d off, fun x => decide (0 ≤ x.toInt))] :
        List (Instr × (Word → Bool))),
    Issues p.1 c → Flows p.1 c → BranchCompletes p.1 c (popSpans (usesOf p.1)) none 0 fun l =>
      if p.2 (codeWord c.w d 0 l) then wordsFrom c.pc off.toInt else c.pc + 4) ∧
  (∀ cond g, Issues (.sbr cond g) c → BranchCompletes (.sbr cond g) c [] none 0 fun _ =>
    let a := (c.gsrc g g.sa).toInt
    let taken : Bool := match cond with
      | .always => true
      | .z => decide (a = 0)
      | .nz => decide (a ≠ 0)
      | .lt => decide (a < 0)
      | .ge => decide (0 ≤ a)
    if taken then wordsFrom c.pc (g.lit.getD 0).toInt else c.pc + 8)

/-- R184: an indirect branch goes to each lane's own target, and faults before any effect when one is no multiple of 4. -/
def IndirectBranches : Prop := ∀ c a d,
  let target (l : Nat) : Word := codeWord c.w a 0 l
  let aligned : Prop := ∀ l, l < 32 → c.em.getLsbD l → (target l).toNat % 4 = 0
  let faults (i : Instr) : Prop := ∃ info, info.origin = 0 ∧
    exec i c.s = .next (takeCause c.s c.ref c.sl c.em c.pc .misaligned info)
  (Issues (.brx a) c → (aligned → BranchCompletes (.brx a) c [] none 0 target) ∧ (¬aligned → faults (.brx a))) ∧
  (Issues (.ret a) c → (aligned → BranchCompletes (.ret a) c [] none 0 target) ∧ (¬aligned → faults (.ret a))) ∧
  (Issues (.callx d a) c →
    (aligned → BranchCompletes (.callx d a) c [] (some d) (c.pc + 4) target) ∧ (¬aligned → faults (.callx d a)))

end Sys2Proof.Claims

/-- Direct, conditional, group and indirect branches set the counter of each lane of the group. -/
def Obligations.Branches : Prop := Sys2Proof.Claims.Branches ∧ Sys2Proof.Claims.IndirectBranches

namespace Sys2Proof.Claims

/-- An event that changes the threads and loops of one slice of a wave alone. -/
def SliceEvent (c : Ctx) (t : State) (u : SliceSt) : Prop := ∃ w, OnlyWave c t w ∧ w.slice c.sl = u ∧ w = c.w.setSlice c.sl u

/-- R186 (`nop`), R190, R191: `mwait` parks the threads whose bit is set; the event MWAIT_RELEASE lets all of them go on
together once every live thread of the mask is parked at this `mwait`. -/
def MaskReconvergence : Prop :=
  (∀ c, Issues .nop c → GroupCompletes .nop c [] none c.slice.gf) ∧
  (∀ c g, Issues (.join g) c →
    let k := g.sd.toNat - 0x60
    GroupCompletes (.join g) c [] (some (k, c.slice.mask k ||| c.em)) c.slice.gf) ∧
  (∀ c g, Issues (.leave g) c →
    let k := g.sd.toNat - 0x60
    GroupCompletes (.leave g) c [] (some (k, c.slice.mask k &&& ~~~c.em)) c.slice.gf) ∧
  (∀ c g, Issues (.mwait g) c →
    let k := g.sa.toNat - 0x60
    ∃ t w, exec (.mwait g) c.s = .next t ∧ SliceEffect (.mwait g) c t w ∧
      w.slice c.sl = { c.slice with threads := (w.slice c.sl).threads } ∧
      ∀ l, l < 32 → l < c.slice.threads.length → (w.slice c.sl).thread l =
        if c.em.getLsbD l then
          if (c.slice.mask k).getLsbD l then parksOn c.slice l (.mwait k) else comesTo c.slice l (c.pc + 4)
        else c.slice.thread l) ∧
  (∀ c k pc, AtWave c →
    let parked (l : Nat) : Prop := (c.slice.thread l).st = .parked (.mwait k) ∧ (c.slice.thread l).pc = pc
    let holds : Prop := (∃ l, l < 32 ∧ parked l) ∧
      ∀ l, l < 32 → (c.slice.mask k).getLsbD l → (c.slice.thread l).st.isLive → parked l
    (holds → ∃ t u, exec (.mwaitRelease c.ref c.sl k pc) c.s = .next t ∧ SliceEvent c t u ∧
      u = { c.slice with threads := u.threads } ∧ ∀ l, l < 32 → l < c.slice.threads.length →
        (parked l → u.thread l = comesTo c.slice l (pc + 4)) ∧ (¬parked l → u.thread l = c.slice.thread l)) ∧
    (¬holds → ∃ t, exec (.mwaitRelease c.ref c.sl k pc) c.s = .next t ∧ SliceEvent c t c.slice))

/-- Trips of a loop (R195): the least count of steps, at least 0, that reaches the end. -/
def TripsOf (start stop step : Int) (n : Nat) : Prop :=
  (∀ k : Nat, k < n → 0 < (stop - start - k * step) * step) ∧ (stop - start - n * step) * step ≤ 0

/-- The slice with loop k as given, and inactive with counter 0. -/
def noLoop (l : Loop) : Loop := { l with count := 0, active := false, lanes := 0, left := 0 }

/-- R195, R196, R198. That `lbrk` counts every thread of its group as removed, a member of the loop's lane set or not, is DEDUCED
(log entry 146). -/
def HardwareLoops : Prop :=
  (∀ c g, Issues (.loop g) c →
    let lit := g.lit.getD 0
    let k := g.sd.toNat
    let step := (lit.toInt / 2 ^ 16)
    let stop := c.pc + BitVec.ofNat 32 (4 * (lit.toNat % 2 ^ 16))
    let start := (c.gsrc64 g g.sa).toInt
    let end_ := (c.gsrc64 g g.sb).toInt
    let diverged : Prop := ∃ l, l < 32 ∧ (c.slice.thread l).st.isLive ∧ ¬c.em.getLsbD l ∧
      ∀ j, j < 4 → ¬((c.slice.loop j).active ∧ (c.slice.loop j).left.getLsbD l)
    let fault (x : Cause) : Prop := exec (.loop g) c.s = .next (takeCause c.s c.ref c.sl c.em c.pc x noInfo)
    c.slice.loops.length = 4 →
    (diverged → fault .loopDiverged) ∧
    (¬diverged → step = 0 → fault .loopStep) ∧
    (∀ n, ¬diverged → step ≠ 0 → TripsOf start end_ step n →
      (2 ^ 32 ≤ n → fault .loopRange) ∧
      (n = 0 → ∃ t w, exec (.loop g) c.s = .next t ∧ SliceEffect (.loop g) c t w ∧
        let u := c.slice.updLoop k noLoop
        w.slice c.sl = { u with threads := (w.slice c.sl).threads } ∧ Arrives u c.em (fun _ => stop) (w.slice c.sl)) ∧
      (0 < n → n < 2 ^ 32 → ∃ t w order, exec (.loop g) c.s = .next t ∧ SliceEffect (.loop g) c t w ∧
        (∀ j, j < 4 → (c.slice.loop j).active → (c.slice.loop j).order < order) ∧
        let u := c.slice.updLoop k fun _ => ⟨BitVec.ofNat 32 n, true, c.pc + 8, stop, c.em, 0, order⟩
        w.slice c.sl = { u with threads := (w.slice c.sl).threads } ∧
          Arrives u c.em (fun _ => c.pc + 8) (w.slice c.sl)))) ∧
  (∀ c g, Issues (.lbrk g) c →
    let top := c.slice.loop g.sd.toNat
    (top.active = false →
      exec (.lbrk g) c.s = .next (takeCause c.s c.ref c.sl c.em c.pc .loopInactive noInfo)) ∧
    (top.active = true → ∃ t w, exec (.lbrk g) c.s = .next t ∧ SliceEffect (.lbrk g) c t w ∧
      let u := { c.slice with loops := c.slice.loops.map fun l =>
        if l.active = true ∧ top.order ≤ l.order then
          if l.lanes &&& ~~~c.em = 0 then noLoop l else { l with lanes := l.lanes &&& ~~~c.em, left := l.left ||| c.em }
        else l }
      w.slice c.sl = { u with threads := (w.slice c.sl).threads } ∧ Arrives u c.em (fun _ => top.stop) (w.slice c.sl))) ∧
  (∀ c k, AtWave c →
    let l := c.slice.loop k
    let holds : Prop := l.active = true ∧ l.lanes ≠ 0 ∧
      ∀ j, j < 32 → l.lanes.getLsbD j → (c.slice.thread j).st = .parked (.loopEnd k)
    (holds → ∃ t u, exec (.loopEndReached c.ref c.sl k) c.s = .next t ∧ SliceEvent c t u ∧
      let v := if l.count = 1 then c.slice.updLoop k noLoop else c.slice.updLoop k fun l => { l with count := l.count - 1 }
      u = { v with threads := u.threads } ∧ Arrives v l.lanes (fun _ => if l.count = 1 then l.stop else l.start) u) ∧
    (¬holds → ∃ t, exec (.loopEndReached c.ref c.sl k) c.s = .next t ∧ SliceEvent c t c.slice))

/-- R126, R200, R201, R203: `run` opens the wave's run and leaves its operand rows free; it waits while one is open.
`endrun` closes it; a `yield` of the other slice that waited for it is served then, and its wave is unblocked from the cycle of
the `yield` (R188, R204). -/
def Runs : Prop :=
  (∀ c g, Issues (.run g) c →
    (c.w.run.isSome → Waits (.run g) c) ∧
    (c.w.run = none → ∃ t w, exec (.run g) c.s = .next t ∧ t.fresh = c.s.fresh + 1 ∧
      OnlyWave c { t with fresh := c.s.fresh } w ∧
      w.run = some ⟨c.sl, c.em, 0, g.sa.toNat⟩ ∧ w.o = ⟨[], some c.s.fresh⟩ ∧
      w = { c.w with
        o := w.o, run := w.run, a := w.a, x := w.x, pmc := (countIssue (.run g) c.w).pmc, qbound := none } ∧
      w.slice (otherSlice c.sl) = c.w.slice (otherSlice c.sl) ∧
      w.slice c.sl = { c.slice with threads := (w.slice c.sl).threads } ∧
      ∀ l, l < 32 → l < c.slice.threads.length → (w.slice c.sl).thread l =
        if c.em.getLsbD l then { c.slice.thread l with pc := c.pc + 4, st := .live } else c.slice.thread l)) ∧
  (∀ i : Instr, i = .endrun ∨ (∃ hints, i = .endrunHinted hints) → ∀ c, Issues i c →
    let closed (w : Wave) : Prop :=
      w = { c.w with
        a := w.a, x := w.x, run := none, yielding := none, pmc := (countIssue i c.w).pmc, qbound := none } ∧
      w.slice (otherSlice c.sl) = c.w.slice (otherSlice c.sl) ∧
      w.slice c.sl = { c.slice with threads := (w.slice c.sl).threads } ∧
      Arrives c.slice c.em (fun _ => c.pc + stepBytes i) (w.slice c.sl)
    (c.w.yielding = none ∨ c.s.earliest c.core c.w.quarter = none →
      ∃ t w, exec i c.s = .next t ∧ OnlyWave c t w ∧ closed w) ∧
    (∀ r since, c.w.yielding = some since → c.w.active = true → c.s.earliest c.core c.w.quarter = some r → r ≠ c.ref →
      ∃ t w, exec i c.s = .next t ∧ closed w ∧
        t.wave c.ref = some { w with active := false, unblocked := some since } ∧
        (∀ v, c.s.wave r = some v → t.wave r = some { v with active := true, unblocked := none }) ∧
        (∀ k, k ≠ c.ref → k ≠ r → t.wave k = c.s.wave k) ∧ t = { c.s with wgs := t.wgs }))

end Sys2Proof.Claims

/-- nop, join, leave, mwait, loop, lbrk, run and endrun, with the events that follow them. -/
def Obligations.ReconvergenceLoopsAndRuns : Prop := Sys2Proof.Claims.MaskReconvergence ∧ Sys2Proof.Claims.HardwareLoops ∧ Sys2Proof.Claims.Runs

/-! System instructions, `exit`, wave scheduling and watches (02_execution_model.md, 08_control.md, 17_traps.md). -/

namespace Sys2Proof.Claims

/-- R186: `exit` ends the threads in the slice, clears their bits in its masks and takes them out of its loops. The last
thread of a wave raises QUEUE_DEADLOCK over an unpaired store (R250); that of a workgroup waits for its engines (R357, R386,
R404), and ends the workgroup. -/
def ExitEndsThreads : Prop := ∀ c, Issues .exit c →
  let stays (sl : Slice) (l : Nat) : Prop := l < 32 ∧ ((c.w.slice sl).thread l).st.isLive ∧ ¬(sl = c.sl ∧ c.em.getLsbD l)
  let ends : Prop := c.w.ended = true ∨ ∀ sl l, ¬stays sl l
  let last : Prop := ends ∧ ∀ k ∈ c.g.waves, k.id ≠ c.w.id → k.ended = true
  (ends → unpairedStore c.w = true → ∃ info, info.origin = 4 ∧ Raises .exit c .queueDeadlock info) ∧
  (last → unpairedStore c.w = false → c.s.closable c.g.id = false → Waits .exit c) ∧
  ((ends → unpairedStore c.w = false) → (last → c.s.closable c.g.id = true ∧ c.g.status = .resident) →
    ∃ t g w, exec .exit c.s = .next t ∧ t.wg c.g.id = some g ∧ g.wave c.w.id = some w ∧
      (last → g.status = .ended) ∧ (¬last → g.status = c.g.status ∧ t.dmem = c.s.dmem ∧ t.hmem = c.s.hmem) ∧
      (w.ended = true ↔ ends) ∧
      (∀ l, l < 32 → (w.slice c.sl).thread l =
        if c.em.getLsbD l then { c.slice.thread l with st := .exited, skip := 0 } else c.slice.thread l) ∧
      (∀ k, k < 12 → (w.slice c.sl).mask k = c.slice.mask k &&& ~~~c.em) ∧
      (w.slice c.sl).loops = c.slice.loops.map (fun l =>
        if l.active = false then l else if l.lanes &&& ~~~c.em = 0 then noLoop l
        else { l with lanes := l.lanes &&& ~~~c.em, left := l.left &&& ~~~c.em }) ∧
      w.slice (otherSlice c.sl) = c.w.slice (otherSlice c.sl) ∧ w.v = c.w.v ∧ w.s = c.w.s ∧ w.tiles = c.w.tiles)

/-- A group instruction's effect on the wave but for one change that it makes beside it. -/
def Beside (i : Instr) (c : Ctx) (P : Wave → Prop) (undo : Wave → Wave) : Prop :=
  ∃ t w, exec i c.s = .next t ∧ OnlyWave c t w ∧ P w ∧ GroupEffect i c [] none c.slice.gf (undo w)

/-- R407 to R411: traps, the masked window, `sclk` and `pmc`; SCLK_WAKE lets every thread go on whose end value `CLOCK` has
reached. That a `pmask` with a request standing waits before it raises anything is DEDUCED (log entry 75). -/
def SystemInstructions : Prop := ∀ c,
  (∀ n, Issues (.trap n) c → Raises (.trap n) c .trap { number := n }) ∧
  (Issues .brk c → Raises .brk c .brk noInfo) ∧
  (Issues .pmask c →
    (c.g.request.isSome → Waits .pmask c) ∧
    (c.g.request = none → c.w.window.isSome → Raises .pmask c .pmaskState noInfo) ∧
    (c.g.request = none → c.w.window = none → Beside .pmask c (fun w => w.window = some ⟨c.sl, c.s.clock⟩)
      fun w => { w with window := c.w.window })) ∧
  (Issues .punmask c → Beside .punmask c (fun w => w.window = none) fun w => { w with window := c.w.window }) ∧
  (∀ g, Issues (.sclk g) c →
    let stop := min (c.gsrc64 g g.sa).toNat (c.s.clock + 2 ^ 24)
    (stop ≤ c.s.clock → GroupCompletes (.sclk g) c [] none c.slice.gf) ∧
    (c.s.clock < stop → ∃ t w, exec (.sclk g) c.s = .next t ∧ SliceEffect (.sclk g) c t w ∧
      Parks c.slice c.em (.clock stop) (w.slice c.sl))) ∧
  (AtWave c → ∃ t u, exec (.sclkWake c.ref c.sl) c.s = .next t ∧ SliceEvent c t u ∧
    u = { c.slice with threads := u.threads } ∧ ∀ l, l < 32 → l < c.slice.threads.length →
      u.thread l = match (c.slice.thread l).st with
        | .parked (.clock n) => if n ≤ c.s.clock then comesTo c.slice l ((c.slice.thread l).pc + 4) else c.slice.thread l
        | _ => c.slice.thread l) ∧
  (∀ g, Issues (.pmc g) c →
    let n := (c.w.pmc[g.sa.toNat % 8]?).getD 0
    let x : Word := BitVec.ofNat 32 (if g.sa.toNat < 8 then n else n / 2 ^ 32)
    GroupCompletes (.pmc g) c (toReg g.sd x) (toMask g.sd x) (gfWord32 c.slice.gf x none none none))

end Sys2Proof.Claims

/-- exit, trap, brk, pmask, punmask, sclk and pmc. -/
def Obligations.ExitAndSystemInstructions : Prop := Sys2Proof.Claims.ExitEndsThreads ∧ Sys2Proof.Claims.SystemInstructions

/-- R188: `yield` is the word 0xA4000000; it exchanges its wave with an unblocked pending one of its quarter-core, if there is
one, and enters the pending set as unblocked from its cycle; otherwise, and for a keeper agent (R49; DEDUCED, log entry 46), it has
no effect. Its group advances in both cases. While
the other slice has a run open the exchange waits for its `endrun`, since a wave inside a run is never exchanged (R52, R204). -/
def Obligations.YieldExchanges : Prop :=
  (∀ rest, decode (0xA4000000#32 :: rest) = .instr .yield) ∧ encode .yield = [0xA4000000#32] ∧
  (∀ w rest, decode (w :: rest) = .instr .yield → w = 0xA4000000#32) ∧
  ∀ c, Issues .yield c → c.w.active = true →
    (c.g.keeper = true ∨ c.s.earliest c.core c.w.quarter = none → GroupCompletes .yield c [] none c.slice.gf) ∧
    (∀ r, c.g.keeper = false → c.s.earliest c.core c.w.quarter = some r → c.w.run.isSome → ∃ t w,
      exec .yield c.s = .next t ∧ OnlyWave c t w ∧ w.yielding = some c.s.clock ∧
      GroupEffect .yield c [] none c.slice.gf { w with yielding := c.w.yielding }) ∧
    (∀ r, c.g.keeper = false → c.s.earliest c.core c.w.quarter = some r → r ≠ c.ref → c.w.run = none → ∃ t w,
      exec .yield c.s = .next t ∧
      t.wave c.ref = some w ∧ w.active = false ∧ w.unblocked = some c.s.clock ∧
      GroupEffect .yield c [] none c.slice.gf { w with active := c.w.active, unblocked := c.w.unblocked } ∧
      (∀ v, c.s.wave r = some v → t.wave r = some { v with active := true, unblocked := none }) ∧
      (∀ k, k ≠ c.ref → k ≠ r → t.wave k = c.s.wave k) ∧ t = { c.s with wgs := t.wgs })

namespace Sys2Proof.Claims

/-- R52: a blocked wave of the active set is exchanged with the pending one that became unblocked earliest; a pending wave
enters an active set that has room. -/
def WaveScheduling : Prop := ∀ c,
  (AtWave c → ∀ r v h, c.s.wg r.wg = some h → c.s.wave r = some v → r ≠ c.ref →
    c.w.active = true → c.w.blocked = true → c.s.sameQuarter c.ref r = true → c.s.earliest h.core c.w.quarter = some r →
    ∃ t, exec (.waveExchange c.ref r) c.s = .next t ∧ t = { c.s with wgs := t.wgs } ∧
      t.wave c.ref = some { c.w with active := false, unblocked := none } ∧
      t.wave r = some { v with active := true, unblocked := none } ∧
      ∀ k, k ≠ c.ref → k ≠ r → t.wave k = c.s.wave k) ∧
  (AtWave c → c.s.earliest c.core (c.w.id % 4) = some c.ref → c.s.activeCount c.core (c.w.id % 4) < 8 →
    ∃ t, exec (.activeSetEntry c.ref) c.s = .next t ∧ OnlyWave c t { c.w with active := true, unblocked := none })

end Sys2Proof.Claims

/-- R412, R418, R443, R451: `rfe` ends the agent's event handler; `ktk` claims n tickets of a block in device memory, which are
then the keeper's to place; `halt` acts on the workgroup in a slot of its core, or not at all. That the group advances at `rfe`
(log entry 76), that `ktk` stops beyond device memory and what it does to its flags (77), and that the claimed tickets are held
for the keeper's core (166), is DEDUCED. -/
def Obligations.KeeperInstructions : Prop := ∀ c,
  (Issues .rfe c → exec .rfe c.s = .next (After .rfe c (c.s.updCore c.core fun k => { k with handler := none }))) ∧
  (∀ g, Issues (.ktk g) c →
    let block := (c.w.sreg64 g.sa.toNat).toNat
    let word (m : List Host.Cell) (a : Nat) : Nat := (Mem.get m a).toNat + 2 ^ 8 * (Mem.get m (a + 1)).toNat +
      2 ^ 16 * (Mem.get m (a + 2)).toNat + 2 ^ 24 * (Mem.get m (a + 3)).toNat
    let first := word c.s.dmem block
    let total := word c.s.dmem (block + 4)
    if 2 ^ 36 < block + 64 then exec (.ktk g) c.s = .fault (.noDeviceMemory block)
    else Mem.wf c.s.dmem = true → ∃ t w, exec (.ktk g) c.s = .next t ∧
      OnlyWave c { t with dmem := c.s.dmem, launches := c.s.launches } w ∧
      GroupEffect (.ktk g) c [(g.sd.toNat, BitVec.ofNat 32 first)] none c.slice.gf w ∧
      (t.launches = c.s.launches.map fun l => if l.state = .released ∧ l.ticketAddr = block then { l with
        claimed := l.claimed ++ (List.range (word t.dmem block - first)).map fun k => (c.core, first + k) } else l) ∧
      word t.dmem block = (if first < total then min (first + g.sb.toNat) total else first) ∧
      ∀ a, a < block ∨ block + 4 ≤ a → Mem.get t.dmem a = Mem.get c.s.dmem a) ∧
  (∀ g, Issues (.halt g) c →
    let a := (c.gsrc g g.sa).toNat
    let act := a / 2 ^ 8 % 4
    (c.s.atSlot c.core (a % 64) = none ∨ act = 3 → GroupCompletes (.halt g) c [] none c.slice.gf) ∧
    (∀ h, c.s.atSlot c.core (a % 64) = some h → act < 2 →
      exec (.halt g) c.s = .next (After (.halt g) c (c.s.requestCut h (decide (act = 1))))) ∧
    (∀ h l x, c.s.atSlot c.core (a % 64) = some h → act = 2 → c.s.launch h.launch = some l →
      c.s.failContext l.slot .killed 7 0 l.head = some x →
      if x.delayed then Waits (.halt g) c else exec (.halt g) c.s = .next (After (.halt g) c x)))

namespace Sys2Proof.Claims

/-- R418: a pre-emption request reaches every resident workgroup of a cluster group that has none, as a discard only where
R418 permits it; no other workgroup and nothing else of the state changes. -/
def PreemptionRequests : Prop := ∀ s g discard, s.wg g.id = some g → g.keeper = false →
  ∃ t, exec (.preemptionRequest g.id discard) s = .next t ∧ t = { s with wgs := t.wgs } ∧
    ∀ k h, s.wg k = some h → t.wg k = some
      (if (s.family g).any (fun j => j.id == k) ∧ h.status = .resident ∧ h.request = none then
        { h with request := some (discard && s.mayDiscard g) } else h)

end Sys2Proof.Claims

/-- Exchange and entry of waves in the active set, and requests of pre-emption. -/
def Obligations.WaveSchedulingAndPreemption : Prop := Sys2Proof.Claims.WaveScheduling ∧ Sys2Proof.Claims.PreemptionRequests

namespace Sys2Proof.Claims

/-- R8, R413, R414, R503: taking a cause halts its workgroup with what the record names, and changes nothing else; a workgroup that
halts already keeps its first cause, of two in one cycle that of the lower wave and then of the A-slice, and the slice that met
another one stops. -/
def TakingACause : Prop := ∀ s r sl em pc k info g, s.wg r.wg = some g →
  let t := takeCause s r sl em pc k info
  t = { s with wgs := t.wgs } ∧ (∀ j, j ≠ r.wg → t.wg j = s.wg j) ∧
  ∃ h, t.wg r.wg = some h ∧ h = { g with status := h.status, request := h.request } ∧
    (g.status = .resident ∨ g.status = .saving ∨ g.status = .discarding →
      h.request = none ∧ ∃ x, h.status = .halting x ∧ x.cause = k ∧ x.wave = some r.wave ∧ x.sl = some sl ∧ x.pc = pc ∧
        x.lanes = em ∧ x.t = s.clock ∧ x.addr = info.addr ∧ x.origin = info.origin ∧ x.number = info.number ∧
        x.stopped = [(r.wave, sl)] ∧
        (x.held = true ↔ k = .brk ∧ ∃ l, s.launch g.launch = some l ∧ l.hold = true)) ∧
    (∀ x, g.status = .halting x → info.origin < 2 ∨ info.origin = 4 ∨ info.origin = 2 ∧ info.apc ≠ pc →
      let before : Prop := x.t = s.clock ∧ ∃ w sk, x.wave = some w ∧ x.sl = some sk ∧
        (r.wave < w ∨ r.wave = w ∧ sl = .a ∧ sk = .x)
      h.request = g.request ∧ ∃ y, h.status = .halting y ∧ y.stopped = (r.wave, sl) :: x.stopped ∧
        (¬before → y = { x with stopped := y.stopped, own := y.own }) ∧
        (before → y.cause = k ∧ y.wave = some r.wave ∧ y.sl = some sl ∧ y.pc = pc ∧ y.lanes = em ∧ y.t = s.clock ∧
          y.addr = info.addr ∧ y.origin = info.origin ∧ y.number = info.number))

/-- R250, R299, R409, R493: the causes that the device raises without an instruction, at their limits. Which group the record
of a QUEUE_DEADLOCK names is DEDUCED (log entry 160). -/
def TimedCauses : Prop := ∀ s g, s.wg g.id = some g →
  (∀ w x, g.wave w = some x → g.placed = true →
    (∀ n, x.window = some n → n.since + 2 ^ 16 ≤ s.clock → ∃ info, info.origin = 5 ∧ exec (.pmaskLong ⟨g.id, w⟩) s =
      .next (takeCause s ⟨g.id, w⟩ n.sl 0 (x.slice n.sl).lowestPc .pmaskLong info)) ∧
    (∀ n, x.qbound = some n → n + 2 ^ 20 ≤ s.clock → s.fills ⟨g.id, w⟩ x = false →
      let sl : Slice := if x.x.liveLanes = 0 then .a else .x
      ∀ em pc, (x.slice sl).firstGroup = some (em, pc) → ∃ info, info.origin = 4 ∧
        exec (.queueDeadlock ⟨g.id, w⟩) s = .next (takeCause s ⟨g.id, w⟩ sl em pc .queueDeadlock info))) ∧
  (∀ o n deps, (s.watches.find? fun w => w.1 == o) = some (o, n, deps) → s.watchOwner o = [g] →
    n + 2 ^ (s.iface (s.viOf g)).beacon ≤ s.clock → g.status = .resident →
    ∃ t h x, exec (.barTimeout o) s = .next t ∧ t = { s with wgs := t.wgs } ∧ t.wg g.id = some h ∧
      h.status = .halting x ∧ x.cause = .barTimeout ∧ x.origin = 3 ∧ x.watch = some o ∧ x.t = s.clock ∧
      ∀ k, k ≠ g.id → t.wg k = s.wg k)

/-! Fences, barriers, rings, grid supersteps and code invalidation (12_ordering.md). -/

/-- R284 to R286: a release waits for the accesses that it covers; at `.dev` and `.sys` it writes back the dirty bytes of the
core's stores, and at `.cl` it opens them to the cluster's later releases. An acquire waits for loads and atomics, and drops the
core's copies below its scope. -/
def Fences : Prop := ∀ c kind g, Issues (.fence kind g) c →
  let scope := g.sa.toNat
  let rel : Bool := match kind with
    | .acq => false
    | _ => true
  let acq : Bool := match kind with
    | .rel => false
    | _ => true
  let covered : Prop := (rel = true → c.s.released c.ref c.sl c.s.nextId = true) ∧
    (acq = true → c.s.loadsDone c.ref c.sl = true)
  (¬covered → Waits (.fence kind g) c) ∧
  (covered →
    let x := if rel = true ∧ 3 ≤ scope then c.s.releaseL1 c.core
      else if rel = true ∧ scope = 2 then c.s.publish c.core else c.s
    exec (.fence kind g) c.s = .next (After (.fence kind g) c (if acq = true then x.dropCopies c.core scope else x)))

/-- The address in a cluster's L1 of a byte that a load at `.cl` reads (R277). -/
def l1Byte (s : State) (cluster a : Nat) : Byte := ((l1Read s cluster a 1)[0]?).getD 0

/-- R277, R284, R286: writing a line back puts its dirty bytes into memory and no other byte, leaves it clean, and changes no
byte that the cluster reads; an acquire of the device scope keeps dirty bytes and leaves only them, and its core's later release
covers those that a release at `.cl` opened to the cluster. -/
def WriteBackAndDrop : Prop :=
  (∀ (s : State) (cluster line : Nat) (l : L1Line), Mem.wf s.dmem = true → line % 128 = 0 → cluster < s.clusters.length → (s.cluster cluster).l1Line line = some l →
    let t := s.cleanLine cluster line
    (∀ k, k < 128 → Mem.get t.dmem (line + k) =
      if l.dirty.getLsbD k then (l.data[k]?).getD 0 else Mem.get s.dmem (line + k)) ∧
    (∀ a, a < line ∨ line + 128 ≤ a → Mem.get t.dmem a = Mem.get s.dmem a) ∧
    (t.cluster cluster).l1Line line = some { l with dirty := 0, writers := 0, out := false } ∧
    (∀ j, j ≠ line → (t.cluster cluster).l1Line j = (s.cluster cluster).l1Line j) ∧
    (∀ a, (lineOf a = line → l.dirty.getLsbD (a % 128) → l.valid.getLsbD (a % 128)) → l1Byte t cluster a = l1Byte s cluster a)) ∧
  (∀ (s : State) (core j : Nat) (l : L1Line), clusterOf core < s.clusters.length → (s.cluster (clusterOf core)).l1Line j = some l → l.dirty ≠ 0 →
    ((s.dropCopies core 3).cluster (clusterOf core)).l1Line j = some { l with
      valid := l.dirty, writers := if l.out then l.writers ||| coreBit core else l.writers })

/-- The contribution of a group to its wave's next arrival at a barrier (R291). -/
def contributes (c : Ctx) (bar : Nat) : Contrib :=
  let k := c.w.contrib bar
  match c.sl with
  | .a => { k with a := k.a ||| c.em }
  | .x => { k with x := k.x ||| c.em }

/-- The wave's record after it: the arrival is pending once every live thread of the counted slices has contributed. -/
def recordAfter (c : Ctx) (b : Barrier) (bar : Nat) : Contrib :=
  let k := contributes c bar
  if k.pending = none ∧ contributed c.w b k = true then { k with a := 0, x := 0, pending := some c.s.nextId } else k

/-- R290, R291, R293: arriving raises BAR_STATE at a barrier that is not declared or does not count the slice, and waits
while a thread of the group is already part of an arrival of this phase. -/
def BarrierArrivals : Prop := ∀ c g,
  let bar := g.sd.toNat
  let counts (b : Barrier) : Bool := match c.sl with
    | .a => b.sliceA
    | .x => b.sliceX
  let others (w : Wave) : Prop := ∀ j, j ≠ bar → w.contrib j = c.w.contrib j
  (∀ i ∈ [Instr.barSync g, .barArr g], Issues i c →
    ((∀ b, c.s.barrier c.g bar = some b → counts b = false) → Raises i c .barState noInfo) ∧
    (∀ b, c.s.barrier c.g bar = some b → counts b = true → alreadyIn b (c.w.contrib bar) c.sl c.em = true → Waits i c)) ∧
  (∀ b, c.s.barrier c.g bar = some b → counts b = true → alreadyIn b (c.w.contrib bar) c.sl c.em = false →
    (Issues (.barSync g) c → ∃ t w, exec (.barSync g) c.s = .next t ∧ OnlyWave c t w ∧
      w = { c.w with
        a := w.a, x := w.x, contribs := w.contribs, pmc := (countIssue (.barSync g) c.w).pmc, qbound := none } ∧
      w.slice (otherSlice c.sl) = c.w.slice (otherSlice c.sl) ∧ Parks c.slice c.em (.barrier bar) (w.slice c.sl) ∧
      w.contrib bar = recordAfter c b bar ∧ others w) ∧
    (Issues (.barArr g) c → Beside (.barArr g) c (fun w => w.contrib bar = recordAfter c b bar ∧ others w)
      fun w => { w with contribs := c.w.contribs })) ∧
  (Issues (.barWait g) c →
    (c.s.barrier c.g bar = none → Raises (.barWait g) c .barState noInfo) ∧
    (∀ b, c.s.barrier c.g bar = some b →
      let k := c.w.contrib bar
      (k.pending.isSome ∨ k.phase = some b.phase → ∃ t w, exec (.barWait g) c.s = .next t ∧
        SliceEffect (.barWait g) c t w ∧ Parks c.slice c.em (.barrier bar) (w.slice c.sl)) ∧
      (k.pending = none → k.phase ≠ some b.phase → exec (.barWait g) c.s = .next (After (.barWait g) c
        (c.s.dropCopies c.core (if bar < 64 then 1 else 2)))))) ∧
  (Issues (.barInit g) c →
    let n := (c.gsrc g g.sa).toNat
    let bad (b : Barrier) : Prop := n = 0 ∨ (if bar < 64 then 32 else 256) < n ∨ b.arrivals ≠ 0 ∨
      ∃ h ∈ c.s.wgs, sharesBarrier c.g h bar = true ∧ ∃ w ∈ h.waves, usesBarrier bar w = true
    (c.s.barrier c.g bar = none → Raises (.barInit g) c .barState noInfo) ∧
    (∀ b, c.s.barrier c.g bar = some b → bad b → Raises (.barInit g) c .barState noInfo) ∧
    (∀ b, c.s.barrier c.g bar = some b → ¬bad b → exec (.barInit g) c.s = .next (After (.barInit g) c
      (c.s.updBarrier c.g bar fun b =>
        { b with expected := n, sliceA := decide (g.sb.toNat ≠ 1), sliceX := decide (g.sb.toNat ≠ 0) }))))

/-- R291, R292: an arrival that takes effect is counted; the one that completes the phase starts the next, and lets every
thread go on that is parked at the barrier in a wave whose arrival took effect in the phase: of a named barrier. -/
def NamedPhases : Prop := ∀ c bar b, AtWave c → bar < 64 → c.s.barrier c.g bar = some b →
  c.s.arrivalReady c.g c.w bar = true →
  ∃ t h, exec (.barrierArrivalEffect c.ref bar) c.s = .next t ∧ t.wg c.g.id = some h ∧
    t.dmem = c.s.dmem ∧ t.hmem = c.s.hmem ∧
    (b.arrivals + 1 ≠ b.expected →
      h.barriers[bar]? = some { b with arrivals := b.arrivals + 1, arrived := b.arrived ++ [(c.g.id, c.w.id)] } ∧
      h.wave c.w.id = some (c.w.setContrib { c.w.contrib bar with pending := none, phase := some b.phase })) ∧
    (b.arrivals + 1 = b.expected →
      h.barriers[bar]? = some { b with arrivals := 0, arrived := [], phase := b.phase + 1 } ∧
      ∀ k v, c.g.wave k = some v → ∃ u, h.wave k = some u ∧
        ∀ sl l, l < 32 → l < (v.slice sl).threads.length → (u.slice sl).thread l =
          if ((v.slice sl).thread l).st = .parked (.barrier bar) ∧
              (k = c.w.id ∨ (v.contrib bar).phase = some b.phase) then
            comesTo (v.slice sl) l (((v.slice sl).thread l).pc + 4)
          else (v.slice sl).thread l)

/-- R289, R291, R292: the same of a barrier of a cluster group, over the waves of all its workgroups. -/
def ClusterPhases : Prop := ∀ c bar b, AtWave c → 64 ≤ bar → c.s.barrier c.g bar = some b →
  c.s.arrivalReady c.g c.w bar = true →
  ∃ t, exec (.barrierArrivalEffect c.ref bar) c.s = .next t ∧ t.dmem = c.s.dmem ∧ t.hmem = c.s.hmem ∧
    (b.arrivals + 1 ≠ b.expected →
      t.barrier c.g bar = some { b with arrivals := b.arrivals + 1, arrived := b.arrived ++ [(c.g.id, c.w.id)] } ∧
      t.wave c.ref = some (c.w.setContrib { c.w.contrib bar with pending := none, phase := some b.phase })) ∧
    (b.arrivals + 1 = b.expected →
      t.barrier c.g bar = some { b with arrivals := 0, arrived := [], phase := b.phase + 1 } ∧
      ∀ r h v, c.s.wg r.wg = some h → h.wave r.wave = some v → ∃ u, t.wave r = some u ∧
        ∀ sl l, l < 32 → l < (v.slice sl).threads.length → (u.slice sl).thread l =
          if ((v.slice sl).thread l).st = .parked (.barrier bar) ∧ h.launch = c.g.launch ∧ h.cg = c.g.cg ∧
              (r = c.ref ∨ (v.contrib bar).phase = some b.phase) then
            comesTo (v.slice sl) l (((v.slice sl).thread l).pc + 4)
          else (v.slice sl).thread l)

end Sys2Proof.Claims

/-- Barrier arrivals, waits and phases. -/
def Obligations.NamedBarriers : Prop := Sys2Proof.Claims.BarrierArrivals ∧ Sys2Proof.Claims.NamedPhases ∧ Sys2Proof.Claims.ClusterPhases

namespace Sys2Proof.Claims

/-- R295 to R297: `ring.arr` leaves an arrival that its release holds; `ring.wait` goes on when the side's phase differs from
the parity, and parks otherwise. An arrival that takes effect counts, completes the phase at the expected count, and
releases the threads whose parity it satisfies. -/
def RingArrivals : Prop := ∀ c,
  (∀ g, let empty := decide (2 ^ 6 ≤ g.sd.toNat)
    let k := g.sd.toNat % 16
    let slot := (c.gsrc g g.sa).toNat
    let bad : Prop := ∀ r t, c.g.ring k = some r → slot < r.slots → r.side empty slot ≠ some t
    (∀ i ∈ [Instr.ringArr g, .ringWait g], Issues i c → bad → Raises i c .barState noInfo) ∧
    (∀ r t, c.g.ring k = some r → slot < r.slots → r.side empty slot = some t →
      (Issues (.ringArr g) c → Beside (.ringArr g) c
        (fun w => w.ringArrivals = c.w.ringArrivals ++ [⟨empty, k, slot, c.sl, c.s.nextId⟩])
        fun w => { w with ringArrivals := c.w.ringArrivals }) ∧
      (Issues (.ringWait g) c →
        let parity := decide ((c.gsrc g g.sb).toNat % 2 = 1)
        (t.phase ≠ parity → GroupCompletes (.ringWait g) c [] none c.slice.gf) ∧
        (t.phase = parity → ∃ u w, exec (.ringWait g) c.s = .next u ∧ SliceEffect (.ringWait g) c u w ∧
          Parks c.slice c.em (.ring empty k slot parity g.lit.isSome) (w.slice c.sl))))) ∧
  (∀ empty k slot a w r t, c.s.wg c.g.id = some c.g → readyArrival c.s c.g empty k slot = some (w, a) →
    c.g.ring k = some r → r.side empty slot = some t →
    ∃ u h q p, exec (.ringArrivalEffect c.g.id empty k slot) c.s = .next u ∧ u = { c.s with wgs := u.wgs } ∧
      u.wg c.g.id = some h ∧ h.ring k = some q ∧ q.side empty slot = some p ∧
      (t.count + 1 = r.expected empty → p.phase = !t.phase ∧ p.count = 0) ∧
      (t.count + 1 ≠ r.expected empty → p.phase = t.phase ∧ p.count = t.count + 1) ∧
      ∀ j v, c.g.wave j = some v → ∃ x, h.wave j = some x ∧
        ∀ sl l par long, l < 32 → l < (v.slice sl).threads.length →
          ((v.slice sl).thread l).st = .parked (.ring empty k slot par long) → (x.slice sl).thread l =
            if par = p.phase then (v.slice sl).thread l
            else comesTo (v.slice sl) l (((v.slice sl).thread l).pc + if long then 8 else 4))

/-- R298: a `gbar` parks its group, and its wave arrives with the last of its live threads; the phase completes once every
wave of the grid has arrived, and lets all of them go on. -/
def GridSupersteps : Prop :=
  (∀ c, Issues .gbar c → ∃ t w, exec .gbar c.s = .next t ∧ OnlyWave c t w ∧
    w = { c.w with
      a := w.a, x := w.x, gridA := w.gridA, gridX := w.gridX, gridPending := w.gridPending
      pmc := (countIssue .gbar c.w).pmc, qbound := none } ∧
    w.slice (otherSlice c.sl) = c.w.slice (otherSlice c.sl) ∧ Parks c.slice c.em .grid (w.slice c.sl) ∧
    let ga := if c.sl = .a then c.w.gridA ||| c.em else c.w.gridA
    let gx := if c.sl = .x then c.w.gridX ||| c.em else c.w.gridX
    let all : Prop := ga ||| gx ≠ 0 ∧ w.a.liveLanes ||| w.x.liveLanes ≠ 0 ∧ w.a.liveLanes &&& ~~~ga = 0 ∧ w.x.liveLanes &&& ~~~gx = 0
    if c.w.gridPending = none ∧ c.w.gridArrived = false ∧ all then
      w.gridA = 0 ∧ w.gridX = 0 ∧ w.gridPending = some c.s.nextId
    else w.gridA = ga ∧ w.gridX = gx ∧ w.gridPending = c.w.gridPending) ∧
  (∀ s n l, s.launch n = some l → (s.grid n).length = l.count → s.grid n ≠ [] →
    (∀ g ∈ s.grid n, ∀ w ∈ g.waves, s.gridTaken g w = true) →
    ∃ t, exec (.gridPhaseComplete n) s = .next t ∧ t.launch n = some { l with gridPhase := l.gridPhase + 1 } ∧
      ∀ g ∈ s.grid n, s.wg g.id = some g → ∃ h, t.wg g.id = some h ∧ h.arrivedGrid = true ∧
        ∀ k v, g.wave k = some v → ∃ u, h.wave k = some u ∧ u.gridArrived = false ∧ u.gridPending = none ∧
          ∀ sl j, j < 32 → j < (v.slice sl).threads.length → (u.slice sl).thread j =
            if ((v.slice sl).thread j).st = .parked .grid then
              comesTo (v.slice sl) j (((v.slice sl).thread j).pc + 4)
            else (v.slice sl).thread j)

end Sys2Proof.Claims

/-- ring.arr, ring.wait and gbar with their arrivals, phases and releases. -/
def Obligations.RingsAndSupersteps : Prop := Sys2Proof.Claims.RingArrivals ∧ Sys2Proof.Claims.GridSupersteps

namespace Sys2Proof.Claims

/-- R304 to R306: `icinv` places a request for its line; its completion drops the line from every instruction cache, after
the wave's earlier stores. `ifence` waits for the wave's `icinv`s, and empties its fetch buffers. -/
def CodeInvalidation : Prop :=
  (∀ c g, Issues (.icinv g) c →
    let va := c.w.sreg64 g.sa.toNat
    (canonical va = false → Raises (.icinv g) c .addrNoncanon { addr := va }) ∧
    (canonical va = true → exec (.icinv g) c.s = .next (After (.icinv g) c { c.s with
      reqs := c.s.reqs ++ [c.req c.s.nextId (.icinv (va &&& ~~~0x7F#64))]
      nextId := c.s.nextId + 1 }))) ∧
  (∀ s r line, s.req r.id = some r → r.kind = .icinv line → s.storesDone r.w r.id = true →
    ∃ t, exec (.icinvComplete r.id) s = .next t ∧ t.req r.id = none ∧
      (∀ k, k ≠ r.id → t.req k = s.req k) ∧
      ∀ k, (t.core k).icache = (s.core k).icache.filter fun l => !(l.vi == tableVi r.vi && l.line == line.toNat % 2 ^ 52)) ∧
  (∀ c, Issues .ifence c →
    let outstanding : Prop := ∃ q ∈ c.s.reqs, q.w = c.ref ∧ ∃ line, q.kind = .icinv line
    (outstanding → Waits .ifence c) ∧
    (¬outstanding → exec .ifence c.s = .next (After .ifence c (c.s.updWave c.ref fun w =>
      { w with a := { w.a with fbuf := [] }, x := { w.x with fbuf := [] } }))))

/-! Queues, loads, stores and scratch (10_queues_access.md). -/

/-- The cause that the first slot with a token raises, with what its record holds (R500). -/
def raisesToken (i : Instr) (c : Ctx) (l : Nat) (t : Token) : Prop :=
  Raises i c t.cause { origin := 1, addr := t.addr, apc := t.pc, detail := t.node, unit := t.unit, lane := some l }

/-- Slot k of lane l's column of a queue. -/
def slotOf (c : Ctx) (q k l : Nat) : Option QEntry := (c.w.queue q).bind fun u => (u.col l)[k]?

def isReady : Option QEntry → Bool
  | some (.ready _) | some (.token _) | some (.pixel _ _ _ _) => true
  | _ => false

/-- Another queue of the wave is as before. -/
def onlyQueue (c : Ctx) (q : Nat) (w : Wave) : Prop := ∀ k, k ≠ q → w.queue k = c.w.queue k

/-- The status word of a column (R234). -/
def statusOf (c : Ctx) (q l : Nat) : Word :=
  match c.w.queue q with
  | none => 0
  | some u =>
    let count := if u.kind = .staddr then (c.w.recs.filter fun r => r.q == q && r.lanes.any fun x => x.lane == l).length
      else (u.col l).length
    BitVec.ofNat 32 (2 ^ 21 * (match u.kind with
        | .load => 1
        | .back => 2
        | .staddr => 3
        | .stdata => 4
        | .result => 5) + 2 ^ 16 * u.depth + 2 ^ 10 * count +
      2 ^ 9 * (match (u.col l)[0]? with
        | some (.token _) => 1
        | _ => 0) + 2 ^ 4 * ((u.col l).takeWhile fun e => isReady (some e)).length)

/-- R226, R227, R231 to R234, R500. The ready and token bits of a staddr queue's status (log entry 33) and a `qdrop` that takes no
pixel tag (41) are DEDUCED. -/
def QueueInstructions : Prop := ∀ c f,
  (Issues (.qpush f) c → Flows (.qpush f) c → LaneCompletes (.qpush f) c f.d (f.c.toNat + 1)
    (fun l => if f.c = 0#8 then [c.srcA f .int32 l] else (List.range (f.c.toNat + 1)).map fun j => codeWord c.w f.a j l)
    none) ∧
  (Issues (.qpop f) c → Flows (.qpop f) c → LaneCompletes (.qpop f) c f.d (f.c.toNat + 1)
    (fun l => (List.range (f.c.toNat + 1)).map fun j => codeWord c.w f.a j l) none) ∧
  (Issues (.qstat f) c → Flows (.qstat f) c →
    LaneCompletes (.qstat f) c f.d 1 (fun l => [statusOf c (Form.qIndex f.a) l]) none) ∧
  (Issues (.qpeek f) c →
    let slot (l : Nat) : Option QEntry := slotOf c (Form.qIndex f.a) f.c.toNat l
    ((∃ l, l < 32 ∧ c.em.getLsbD l ∧ isReady (slot l) = false) → Waits (.qpeek f) c) ∧
    ((∀ l, l < 32 → c.em.getLsbD l → isReady (slot l) = true) →
      (∀ l t, l < 32 → c.em.getLsbD l → slot l = some (.token t) →
        (∀ j u, j < l → c.em.getLsbD j → slot j ≠ some (.token u)) → raisesToken (.qpeek f) c l t) ∧
      ((∀ l t, l < 32 → c.em.getLsbD l → slot l ≠ some (.token t)) → Flows (.qpeek f) c →
        LaneCompletes (.qpeek f) c f.d 1 (fun l => [slotWord (slot l)]) none))) ∧
  (Issues (.qdrop f) c →
    let q := Form.qIndex f.a
    let n := f.c.toNat + 1
    ∀ u, c.w.queue q = some u →
      ((∃ l, l < 32 ∧ c.em.getLsbD l ∧ (u.col l).length < n) → Waits (.qdrop f) c) ∧
      ((∀ l, l < 32 → c.em.getLsbD l → n ≤ (u.col l).length) → Beside (.qdrop f) c
        (fun w => onlyQueue c q w ∧ ∃ p, w.queue q = some p ∧ p.kind = u.kind ∧ p.depth = u.depth ∧
          p.attach = u.attach ∧ ∀ l, l < 32 → p.col l = if c.em.getLsbD l then (u.col l).drop n else u.col l)
        fun w => { w with queues := c.w.queues })) ∧
  (Issues (.qwait f) c →
    let ready : Prop := ∀ l k, l < 32 → c.em.getLsbD l → k ≤ f.c.toNat → isReady (slotOf c (Form.qIndex f.a) k l) = true
    (c.w.queue (Form.qIndex f.a)).isSome →
    (ready → GroupCompletes (.qwait f) c [] none c.slice.gf) ∧ (¬ready → Waits (.qwait f) c))

/-- R229, R231: bindings change for both slices, or QUEUE_BIND names the case. That they change at once, where R231 has it 4
cycles later, is the model's choice (DESIGN CHOICE, log entry 31). -/
def QueueBindings : Prop := ∀ c f,
  let q := Form.qIndex f.d
  (Issues (.qbind f) c →
    let kind : QKind := match f.a.toNat with
      | 1 => .load
      | 2 => .back
      | 3 => .staddr
      | 4 => .stdata
      | _ => .result
    let bound := (c.w.queues.map fun u => match u with
      | some u => u.depth
      | none => 0).sum
    let partner : Prop := ∃ u, c.w.queue (q + 1) = some u ∧ u.kind = .stdata
    let bad : Prop := (c.w.queue q).isSome ∨ (kind = .staddr ∧ (q % 2 = 1 ∨ ¬partner)) ∨
      c.w.budget < bound + f.b.toNat
    (bad → Raises (.qbind f) c .queueBind noInfo) ∧
    (¬bad → q < c.w.queues.length → Beside (.qbind f) c
      (fun w => onlyQueue c q w ∧ w.queue q = some ⟨kind, f.b.toNat, List.replicate 32 [], .none⟩)
      fun w => { w with queues := c.w.queues })) ∧
  (Issues (.qunbind f) c → ∀ u, c.w.queue q = some u →
    let bad : Prop := (∃ col ∈ u.cols, col ≠ []) ∨ (∃ r ∈ c.w.recs, r.q = q ∧ r.flush = false) ∨ u.attach ≠ .none ∨
      (u.kind = .stdata ∧ ∃ v, c.w.queue (q - 1) = some v ∧ v.kind = .staddr)
    (bad → Raises (.qunbind f) c .queueBind noInfo) ∧
    (¬bad → Beside (.qunbind f) c (fun w => onlyQueue c q w ∧ w.queue q = none)
      fun w => { w with queues := c.w.queues }))

end Sys2Proof.Claims

/-- qpush, qpop, qstat, qpeek, qdrop, qwait, qbind and qunbind. -/
def Obligations.QueueInstructions : Prop := Sys2Proof.Claims.QueueInstructions ∧ Sys2Proof.Claims.QueueBindings

namespace Sys2Proof.Claims

/-- The address of a lane (R237). -/
def addressOf (c : Ctx) (f : LaneFields) (l : Nat) : DWord :=
  let off : Int := if f.b = 0#8 then 0 else if f.b = 0xFF#8 then (f.lit.getD 0).toInt else intConst f.b
  let index := codeWord c.w f.a 0 l
  if f.s = 0x7F#7 then joinWords index (codeWord c.w f.a 1 l) + BitVec.ofInt 64 off
  else c.w.sreg64 f.s.toNat + BitVec.ofNat 64 index.toNat + BitVec.ofInt 64 off

def bytesOfSize : Size → Nat
  | .b => 1
  | .h => 2
  | .w => 4
  | .d => 8
  | .x => 16

def wordsOfSize (z : Size) : Nat := (bytesOfSize z + 3) / 4

/-- The lanes of `EM` that are no helper lanes (R62). -/
def realLane (c : Ctx) (l : Nat) : Prop := l < 32 ∧ c.em.getLsbD l ∧ ¬c.w.helper.getLsbD l

/-- R62, R239: a load raises MISALIGNED of its lowest lane before it waits for room, and otherwise places a request for each
lane and pending slots for its words. -/
def LaneLoads : Prop := ∀ c f z, Issues (.ald z f) c →
  let q := Form.qIndex f.d
  let n := wordsOfSize z
  let odd (l : Nat) : Prop := realLane c l ∧ (addressOf c f l).toNat % bytesOfSize z ≠ 0
  ∀ u, c.w.queue q = some u →
    (∀ l, odd l → (∀ j, j < l → ¬odd j) →
      Raises (.ald z f) c .misaligned { addr := addressOf c f l, lane := some l }) ∧
    ((∀ l, ¬odd l) →
      ((∃ l, l < 32 ∧ c.em.getLsbD l ∧ u.depth < (u.col l).length + n) → Waits (.ald z f) c) ∧
      ((∀ l, l < 32 → c.em.getLsbD l → (u.col l).length + n ≤ u.depth) → ∃ t w, exec (.ald z f) c.s = .next t ∧
        OnlyWave c { t with reqs := c.s.reqs, nextId := c.s.nextId } w ∧
        GroupEffect (.ald z f) c [] none c.slice.gf { w with queues := c.w.queues } ∧ onlyQueue c q w ∧
        (∃ p, w.queue q = some p ∧ p.kind = u.kind ∧ p.depth = u.depth ∧ p.attach = u.attach ∧
          ∀ l, l < 32 → p.col l = u.col l ++ if c.em.getLsbD l then
            (List.range n).map fun k => QEntry.pending (c.s.nextId + l) k else []) ∧
        t.nextId = c.s.nextId + 32 ∧
        t.reqs = c.s.reqs ++ (lanesOf c.em).map fun l => ⟨c.s.nextId + l, none, c.ref, c.sl, c.core, c.vi, c.pc,
          .load q l (addressOf c f l) z (f.flags.toNat % 8) (c.w.helper.getLsbD l) (c.leads f l)⟩))

/-- The request's slots become what `g` gives its words, and the request is gone (R226, R239). -/
def SlotsFilled (r : Req) (q lane : Nat) (g : Nat → QEntry) (s t : State) : Prop :=
  t.req r.id = none ∧ (∀ k, k ≠ r.id → t.req k = s.req k) ∧
  ∀ w u, s.wave r.w = some w → w.queue q = some u → ∃ v p, t.wave r.w = some v ∧ v.queue q = some p ∧
    ∀ l, l < 32 → p.col l = if l = lane then (u.col l).map fun e => match e with
      | .pending i k => if i = r.id then g k else .pending i k
      | e => e else u.col l

/-- A load's slots hold the value of its bytes, the lowest first (R3, R239). -/
def loadedWord (bs : List Byte) (k : Nat) : QEntry :=
  .ready (BitVec.ofNat 32 (((bs.drop (4 * k)).take 4).foldr (fun b n => b.toNat + 2 ^ 8 * n) 0))

/-- What a failed load of one lane leaves in its slots (R62, R239). -/
def failedEntry (r : Req) (va : DWord) (k : Cause) (helper : Bool) : QEntry :=
  if helper then .ready 0 else .token ⟨k, va, r.pc, 0, 0⟩

end Sys2Proof.Claims

/-- R62, R239, R242, R244, R266, R300, R464, R465: a load completes with the bytes that its coherence point gives, or with tokens
of its failure, for which a helper lane's slots hold 0; one that is held, or that follows another access, stays. A read of host
memory serves every lane of its instruction with bytes in the same 64-byte line, and fails for all of them together; it finds the
stores that the host link has accepted, and of non-coherent memory it comes behind those of its slice (R303). A load whose table
walk meets an owned line is delayed. -/
def Obligations.LoadCompletions : Prop := ∀ s r, s.req r.id = some r → s.touched = false → s.reached = [] →
  (∀ q lane va z scope helper lead, r.kind = .load q lane va z scope helper lead →
    (helper = false ∨ va.toNat % bytesOfSize z = 0) →
    let x := locate s (clusterOf r.core) (some r.core) r.vi va .load
    (x.2.delayed = true → exec (.loadCompletion r.id) s = .next s ∨
      ∃ t, exec (.loadCompletion r.id) s = .next t ∧ t.delayed = true) ∧
    (x.2.delayed = false →
      (∀ k, x.1 = .error k → ∃ t, exec (.loadCompletion r.id) s = .next t ∧
        SlotsFilled r q lane (fun _ => failedEntry r va k helper) x.2 t) ∧
      (∀ p, x.1 = .ok p →
        let stays := x.2.ownedFor r.w r.sl r.id p || x.2.held r.w r.id p || x.2.follows r.w r.id p scope
        (stays = true → exec (.loadCompletion r.id) s = .next s) ∧
        (stays = false → p.mem = 0 → ∃ t,
          let y := x.2.loadAt (clusterOf r.core) (some r.core) scope p (bytesOfSize z)
          exec (.loadCompletion r.id) s = .next t ∧ SlotsFilled r q lane (loadedWord y.1) y.2.2 t) ∧
        (stays = false → p.mem ≠ 0 →
          let bad : Bool := !x.2.linkUp || Config.freeNat x.2.fresh % 2 == 1 || x.2.timedOut r
          (x.2.reqPlace r = some (p, scope) → (r, p) ∈ x.2.hostMates r p) ∧
          let y := x.2.readPast r.w p
          exec (.loadCompletion r.id) s = .next (((y.hostMates r p).foldl (hostLane bad)
            { y with fresh := x.2.fresh + 1 }).credit r.w.wg))))) ∧
  (∀ q lane va z scope helper lead p bad, r.kind = .load q lane va z scope helper lead →
    SlotsFilled r q lane (fun k => if bad then failedEntry r va .hostRead helper
      else loadedWord (s.hostRead p.pa (bytesOfSize z)) k) s (hostLane bad s (r, p))) ∧
  (∀ q lane va z scope lead, r.kind = .load q lane va z scope true lead → va.toNat % bytesOfSize z ≠ 0 →
    ∃ t, exec (.loadCompletion r.id) s = .next t ∧ SlotsFilled r q lane (fun _ => .ready 0) s t) ∧
  (∀ sd p z, r.kind = .group sd p z →
    let stays := s.ownedFor r.w r.sl r.id p || s.held r.w r.id p || s.follows r.w r.id p 0
    (stays = true → exec (.loadCompletion r.id) s = .next s) ∧
    (stays = false → ∀ w, s.wave r.w = some w → ∃ t v,
      let bs := (s.loadAt (clusterOf r.core) (some r.core) 0 p (bytesOfSize z)).1
      exec (.loadCompletion r.id) s = .next t ∧ t.req r.id = none ∧ t.wave r.w = some v ∧
      (∀ k, k < wordsOfSize z → QEntry.ready (v.sreg (sd + k)) = loadedWord bs k) ∧
      (∀ k, k < sd ∨ sd + wordsOfSize z ≤ k → v.sreg k = w.sreg k)))

namespace Sys2Proof.Claims

/-- R62, R242, R244, R465: `aldu` raises its causes precisely, but loads 0 when every lane is a helper lane, and places a request
for its registers; a load from host memory waits for the wave's accesses that hold it, and holds the slice until its data is
there. That one lane that is no helper makes it raise is DEDUCED (log entry 151), and whether the host fails it is free (38). -/
def GroupLoads : Prop := ∀ c g z, Issues (.aldu z g) c →
  let va := c.w.sreg64 g.sa.toNat + BitVec.ofInt 64 (if g.sb = 0x7F#7 then (g.lit.getD 0).toInt else 4 * (g.sb.toNat : Int))
  let x := locate c.s c.cluster (some c.core) c.vi va .load
  let loads (bs : List Byte) : Prop := ∃ t w, exec (.aldu z g) c.s = .next t ∧ t.wave c.ref = some w ∧
    (∀ k, k < wordsOfSize z → QEntry.ready (w.sreg (g.sd.toNat + k)) = loadedWord bs k) ∧
    (∀ k, k < g.sd.toNat ∨ g.sd.toNat + wordsOfSize z ≤ k → w.sreg k = c.w.sreg k) ∧
    t.dmem = c.s.dmem ∧ t.hostView = c.s.hostView ∧ ((∀ p, x.1 = .ok p → p.mem ≠ 2) → t.hmem = c.s.hmem)
  let faults (k : Cause) : Prop :=
    ((∃ l, realLane c l) → Raises (.aldu z g) c k { addr := va }) ∧
    ((∀ l, ¬realLane c l) → loads (List.replicate (bytesOfSize z) 0))
  (va.toNat % bytesOfSize z ≠ 0 → faults .misaligned) ∧
  (va.toNat % bytesOfSize z = 0 →
    (∀ k, x.1 = .error k → faults k) ∧
    (∀ p, x.1 = .ok p → p.mem = 0 → exec (.aldu z g) c.s = .next (After (.aldu z g) c { x.2 with
      reqs := x.2.reqs ++ [c.req c.s.nextId (.group g.sd.toNat p z)], nextId := x.2.nextId + 1 })) ∧
    (∀ p, x.1 = .ok p → p.mem ≠ 0 →
      let waits := x.2.delayed || x.2.held c.ref x.2.nextId p || x.2.follows c.ref x.2.nextId p 0
      let fails : Prop := c.s.linkUp = false ∨ Config.freeNat x.2.fresh % 2 = 1
      (waits = true → Waits (.aldu z g) c) ∧
      (waits = false → fails → faults .hostRead) ∧
      (waits = false → ¬fails → loads (c.s.hostRead p.pa (bytesOfSize z)))))

end Sys2Proof.Claims

/-- Lane and group loads issue requests. -/
def Obligations.LoadInstructions : Prop := Sys2Proof.Claims.LaneLoads ∧ Sys2Proof.Claims.GroupLoads

namespace Sys2Proof.Claims

/-- R240, R241, R300: a store forms one record of its lanes that are no helper lanes; misalignment and a failed translation are
raised precisely before any record is formed, and it waits while a table walk meets an owned line. That it waits for room before
it raises them is DEDUCED (log entry 174). -/
def StoreRecords : Prop := ∀ c f z, Issues (.ast z f) c →
  let q := Form.qIndex f.d
  let x := c.locateAll f .store c.covered
  let faults := c.alignFault f c.covered (bytesOfSize z) ++ c.placeFaults f x.1
  let shallow : Prop := ∀ u, c.w.queue (q + 1) = some u → u.depth < wordsOfSize z
  (shallow → Raises (.ast z f) c .queueBind noInfo) ∧
  (¬shallow → ∀ u, c.w.queue q = some u →
    ((∃ l, realLane c l ∧ u.depth ≤ recordCount c.w q l) → Waits (.ast z f) c) ∧
    ((∀ l, realLane c l → recordCount c.w q l < u.depth) → x.2.delayed = true → Waits (.ast z f) c) ∧
    ((∀ l, realLane c l → recordCount c.w q l < u.depth) → x.2.delayed = false →
      (∀ k info, firstLowest faults = some (k, info) → Raises (.ast z f) c k info) ∧
      (faults = [] → (∃ l, realLane c l) → exec (.ast z f) c.s = .next (After (.ast z f) c
        { x.2.updWave c.ref (fun w => { w with
            recs := w.recs ++ [⟨x.2.nextId, false, q, z, f.flags.toNat % 8, c.recordLanes f x.1, [], none⟩] }) with
          nextId := x.2.nextId + 1 })) ∧
      (faults = [] → (∀ l, ¬realLane c l) → exec (.ast z f) c.s = .next (After (.ast z f) c x.2))))

/-- The byte that a record with data `d` of lane l stores at an address of device or of host memory: that of the highest of its
lanes whose bytes cover the address, the lowest byte first. -/
def storedByte (k : StoreRec) (d : Nat → List Word) (host : Bool) (a : Nat) : Option Byte :=
  (k.lanes.reverse.find? fun l => (l.place.mem != 0) == host && decide (l.place.pa ≤ a ∧ a < l.place.pa + bytesOfSize k.size)).map
    fun l => let j := a - l.place.pa
      BitVec.ofNat 8 ((((d l.lane)[j / 4]?).getD 0).toNat / 2 ^ (8 * (j % 4)))

/-- The copies of lines that a cluster holds are whole, and their dirty bytes valid; the memories are canonical. -/
def WholeLines (s : State) (cluster : Nat) : Prop :=
  Mem.wf s.dmem = true ∧ Mem.wf s.hmem = true ∧ cluster < s.clusters.length ∧
    ∀ line l, (s.cluster cluster).l1Line line = some l → l.data.length = 128 ∧ l.dirty &&& ~~~l.valid = 0

/-- R240, R243, R270, R303, R460, R464, R467: the oldest record of a wave is performed when it has its data and nothing holds it:
its data slots are removed from the columns of its lanes, and it awaits an acknowledgement. Every byte of device memory that it
covers is then what its highest lane there stores, as the core's cluster reads it, and at `.dev` and `.sys` as memory holds it; of
host memory likewise, as the device finds it, while the link is up, and nothing is stored there when it is down. Any other byte is
as before, in memory and as the cluster reads it; a line that the cluster gave up for room is written back, and is then read from
memory; and of a page in host bias a `.sys` store takes back the host's copies first, with its modified bytes. Host memory shows
the stores of a record when it is acknowledged at the latest. That a store counts as accepted once it is performed, so that a link
that goes down later loses none, is DEDUCED (log entry 103). -/
def StoresPerformed : Prop :=
  (∀ c k rest, AtWave c → c.w.recs = k :: rest →
    let blocked : Bool := !recordReady c.w k || k.lanes.any fun l => c.s.storeWaits c.ref k.id l.place k.scope
    (blocked = true → exec (.storeRecordPerform c.ref) c.s = .next c.s) ∧
    (blocked = false → ∃ t w, exec (.storeRecordPerform c.ref) c.s = .next t ∧ t.wave c.ref = some w ∧ w.recs = rest ∧
      (k.flush = true → ∀ q, w.queue q = c.w.queue q) ∧
      (k.flush = false → (k.lanes.map LaneStore.lane).Nodup → ∀ u, c.w.queue (k.q + 1) = some u →
        (∀ l ∈ k.lanes, l.lane < u.cols.length) → ∃ p, w.queue (k.q + 1) = some p ∧ ∀ l, l < 32 →
          p.col l = if l ∈ k.lanes.map LaneStore.lane then (u.col l).drop (wordsOfSize k.size) else u.col l) ∧
      (∀ d : Nat → List Word, k.flush = false → (k.lanes.map LaneStore.lane).Nodup →
        (∀ l ∈ k.lanes, storeData c.w k.q (wordsOfSize k.size) l.lane = some (d l.lane) ∧
          l.place.pa % bytesOfSize k.size = 0) →
        WholeLines c.s c.cluster → t.hmem = c.s.hmem ∧
        (∀ a, Mem.get t.hostView a = if c.s.linkUp then (storedByte k d true a).getD (Mem.get c.s.hostView a)
          else Mem.get c.s.hostView a) ∧
        (∀ l ∈ k.lanes, k.scope = 4 → l.place.mem = 0 → c.s.inHostBias l.place.pa = true →
          ∀ x ∈ t.hcache, lineOf x.1 ≠ lineOf l.place.pa) ∧
        (∀ a b, storedByte k d false a = some b →
          l1Byte t c.cluster a = b ∧ (3 ≤ k.scope → Mem.get t.dmem a = b)) ∧
        ∀ a, storedByte k d false a = none → ∀ x ∈ [l1Byte t c.cluster a, Mem.get t.dmem a],
          x = Mem.get c.s.dmem a ∨ x = l1Byte c.s c.cluster a ∨
            (k.scope = 4 ∧ c.s.inHostBias a = true ∧ (a, x) ∈ c.s.hcache)) ∧
      (∀ l, k.lanes.head? = some l → (t.req k.id).isSome))) ∧
  (∀ s r sc p, s.req r.id = some r → r.kind = .ack sc p → ∃ t, exec (.storeAcknowledge r.id) s = .next t ∧
    t.req r.id = none ∧ (∀ k, k ≠ r.id → t.req k = s.req k) ∧ t.dmem = s.dmem ∧ t.hostView = s.hostView ∧
    ∀ x ∈ t.posted, x ∈ s.posted ∧ x.id ≠ r.id)

end Sys2Proof.Claims

/-- Stores form records, and records are performed on the bytes that they name alone. -/
def Obligations.StoreInstructionsAndRecords : Prop := Sys2Proof.Claims.StoreRecords ∧ Sys2Proof.Claims.StoresPerformed

namespace Sys2Proof.Claims

/-- R243, R300: line operations complete for every address, but wait while a table walk meets an owned line. None of them
changes a byte that memory holds, but an `aflush` that is performed later; a line that an `apf` displaces is written back. -/
def LineOperations : Prop := ∀ c f,
  (∀ i ∈ [Instr.apf f, .ainv f], Issues i c →
    let completes : Prop := ∃ t w, exec i c.s = .next t ∧ t.wave c.ref = some w ∧
      GroupEffect i c [] none c.slice.gf w ∧ t.hmem = c.s.hmem ∧ (i = .ainv f → t.dmem = c.s.dmem) ∧
      (WholeLines c.s c.cluster → ∀ a,
        Mem.get t.dmem a = Mem.get c.s.dmem a ∨ Mem.get t.dmem a = l1Byte c.s c.cluster a)
    (Waits i c ∨ completes) ∧ (c.s.owned = [] → completes)) ∧
  (Issues (.aflush f) c →
    let late := (c.locateAll f ⟨false, false, false⟩ c.lanes).2.delayed
    (late = true → Waits (.aflush f) c) ∧
    (late = false → ∃ t w, exec (.aflush f) c.s = .next t ∧ t.wave c.ref = some w ∧
      GroupEffect (.aflush f) c [] none c.slice.gf { w with recs := c.w.recs } ∧
      (∃ k, w.recs = c.w.recs ++ [k] ∧ k.flush = true ∧ k.scope = f.flags.toNat % 8) ∧
      t.dmem = c.s.dmem ∧ t.hmem = c.s.hmem))

end Sys2Proof.Claims

/-- Fences, write-backs, drops, code invalidation and line operations. -/
def Obligations.OrderingInstructions : Prop := Sys2Proof.Claims.Fences ∧ Sys2Proof.Claims.WriteBackAndDrop ∧ Sys2Proof.Claims.CodeInvalidation ∧ Sys2Proof.Claims.LineOperations

namespace Sys2Proof.Claims

/-- The scratch offset of a lane (R247). -/
def offsetOf (c : Ctx) (f : LaneFields) (l : Nat) : Nat :=
  let off : Int := if f.b = 0#8 then 0 else if f.b = 0xFF#8 then (f.lit.getD 0).toInt else intConst f.b
  (((((codeWord c.w f.a 0 l).toNat + (if f.s = 0x7F#7 then 0 else (c.w.sreg f.s.toNat).toNat) : Nat) : Int) + off)
    % 2 ^ 32).toNat

/-- The bytes of scratch at an offset, as words, the lowest byte first. -/
def scratchWords (m : ByteFile) (off : Nat) (z : Size) : List Word :=
  (List.range (wordsOfSize z)).map fun k => BitVec.ofNat 32 ((List.range (min (bytesOfSize z) 4)).foldr
    (fun j n => (m.get (off + 4 * k + j)).toNat + 2 ^ 8 * n) 0)

/-- R248, R275, R279: the stores of `sts` that become visible change their workgroups' scratch alone, each byte to that of a store
that covers it; in the order of their cycles none is left 8 cycles after its issue. -/
def LateStoresLand : Prop :=
  (∀ (s : State) p k g, s.wg k = some g → ∃ u, (s.landScratch p).wg k = some u ∧ u = { g with scratch := u.scratch } ∧
    (∀ x ∈ (s.landScratch p).lateScratch, x ∈ s.lateScratch) ∧
    ∀ a, u.scratch.get a = g.scratch.get a ∨
      ∃ x ∈ s.lateScratch, x.w.wg = k ∧ x.off ≤ a ∧ x.bytes[a - x.off]? = some (u.scratch.get a)) ∧
  ∀ (s : State) n, s.lateScratch.Pairwise (fun x y => x.until_ ≤ y.until_) →
    ∀ x ∈ (s.settleLate n).lateScratch, s.clock < x.until_

/-- R246 to R248: scratch loads and stores act on the workgroup's scratch, after MISALIGNED and SCRATCH_RANGE of their lanes. A
load reads what is visible there, and waits for the stores of its own slice to the same lines of scratch; a store adds one to
those that become visible within 8 cycles for each offset of its lanes, that of the highest lane. -/
def ScratchAccesses : Prop := ∀ c f z,
  let size := match c.s.launch c.g.launch with
    | some l => l.kernel.scratch
    | none => 0
  let off (l : Nat) : Nat := offsetOf c f l
  let fits (l : Nat) : Prop := off l % bytesOfSize z = 0 ∧ off l + bytesOfSize z ≤ size
  let own : Prop := ∃ x ∈ c.s.lateScratch, x.w = c.ref ∧ x.sl = c.sl ∧
    ∃ l, l < 32 ∧ c.em.getLsbD l ∧ off l / 128 = x.off / 128
  let bytes (l : Nat) : List Byte := (List.range (bytesOfSize z)).map fun j =>
    BitVec.ofNat 8 ((codeWord c.w f.d (j / 4) l).toNat / 2 ^ (8 * (j % 4)))
  (Issues (.lds z f) c → Flows (.lds z f) c → (∀ l, l < 32 → c.em.getLsbD l → fits l) →
    (own → Waits (.lds z f) c) ∧
    (¬own → LaneCompletes (.lds z f) c f.d (wordsOfSize z) (fun l => scratchWords c.g.scratch (off l) z) none)) ∧
  (Issues (.lds z f) c → Flows (.lds z f) c → (∃ l, l < 32 ∧ c.em.getLsbD l ∧ ¬fits l) →
    ∃ k info, (k = .misaligned ∨ k = .scratchRange) ∧ Raises (.lds z f) c k info) ∧
  (Issues (.sts z f) c → Flows (.sts z f) c → (∀ l, realLane c l → fits l) →
    ∃ t w xs, exec (.sts z f) c.s = .next t ∧ t.lateScratch = c.s.lateScratch ++ xs ∧ t.nextId = c.s.nextId + 1 ∧
      OnlyWave c { t with lateScratch := c.s.lateScratch, nextId := c.s.nextId } w ∧
      LaneEffect (.sts z f) c 0#8 0 (fun _ => []) none w ∧ (xs.map LateStore.off).Nodup ∧
      ∀ x, x ∈ xs ↔ ∃ l, realLane c l ∧ (∀ m, realLane c m → l < m → off m ≠ off l) ∧
        x = ⟨c.s.nextId, c.ref, c.sl, off l, bytes l, c.s.clock + 8, []⟩) ∧
  (Issues (.sts z f) c → Flows (.sts z f) c → (∃ l, realLane c l ∧ ¬fits l) →
    ∃ k info, (k = .misaligned ∨ k = .scratchRange) ∧ Raises (.sts z f) c k info)

/-- R277: a core's load at any scope gives the bytes that its own store put there, unless the host has modified them since
(R460). The line's copies hold whole lines. -/
def OwnStoresAreRead : Prop := ∀ (s : State) (core : Nat) (sc ld : Nat) (p : Place) (bs : List Byte),
  core < s.cores.length → clusterOf core < s.clusters.length → bs ≠ [] → p.pa % 128 + bs.length ≤ 128 →
  Mem.wf s.dmem = true → Mem.wf s.hmem = true →
  (∀ l, (s.cluster (clusterOf core)).l1Line (lineOf p.pa) = some l → l.data.length = 128) →
  (∀ d, (s.core core).copy (lineOf p.pa) = some d → d.data.length = 128) →
  (ld ≠ 4 ∨ s.inHostBias p.pa = false) →
  let t := s.storeAt (clusterOf core) (some core) sc p bs
  (t.loadAt (clusterOf core) (some core) ld p bs.length).1 = bs

end Sys2Proof.Claims

/-- Scratch accesses act on the scratch of the workgroup, and a core reads its own stores. -/
def Obligations.ScratchAndOwnStores : Prop := Sys2Proof.Claims.LateStoresLand ∧ Sys2Proof.Claims.ScratchAccesses ∧ Sys2Proof.Claims.OwnStoresAreRead

/-! Atomics and ring control blocks (11_atomics.md). -/

namespace Sys2Proof.Claims

/-- The atomics: what each asks for, its operand bytes, alignment, operand words, value slots and `.nf` (R252 to R255, R267). -/
def atomicForms (f : LaneFields) : List (Instr × AtomForm) :=
  let n := if f.mode.getLsbD 0 then 2 else 1
  let nf := f.flags.getLsbD 4
  atomOps.map (fun op => (.aatom op f, ⟨.rmw op, 4 * n, 4 * n, n, some n, nf⟩)) ++
  atomOps.map (fun op => (.ared op f, ⟨.rmw op, 4 * n, 4 * n, n, none, false⟩)) ++
  [(.acas .w f, ⟨.cas, 4, 4, 2, some 1, nf⟩), (.acas .d f, ⟨.cas, 8, 8, 4, some 2, nf⟩),
   (.acas .x f, ⟨.cas, 16, 16, 8, some 4, nf⟩), (.aenq f, ⟨.enq f.mode.toNat, 4, 32, 1, some 1, nf⟩),
   (.adeq f, ⟨.deq f.mode.toNat, 4, 32, 0, some 2, nf⟩)]
where atomOps : List AtomOp :=
  [.add, .sub, .min, .max, .minu, .maxu, .and, .or, .xor, .xchg, .inc, .dec, .fadd, .fmin, .fmax]

/-- Operations whose lanes with one address form one request (R265). -/
def combining : AtomWork → Bool
  | .rmw .add | .rmw .sub | .rmw .min | .rmw .max | .rmw .minu | .rmw .maxu | .rmw .and | .rmw .or | .rmw .xor
  | .rmw .fadd | .rmw .fmin | .rmw .fmax => true
  | _ => false

/-- The lane that leads the request of lane l among the lanes that send one: the lowest with the same address where they
combine, and l itself otherwise (R265). -/
def Leads (c : Ctx) (a : AtomForm) (f : LaneFields) (act : List Nat) (p l : Nat) : Prop :=
  p ∈ act ∧ if combining a.work then
    addressOf c f p = addressOf c f l ∧ ∀ j ∈ act, j < p → addressOf c f j ≠ addressOf c f l else p = l

/-- R256, R265, R267 to R269, R300: an atomic waits for room and for an owned line that a table walk meets, checks every lane, and raises the lowest failed check unless `.nf`
turns it into a status; it then places one request for each operand, with every lane's words, and pending slots. -/
def AtomicsIssue : Prop := ∀ c f, ∀ p ∈ atomicForms f, Issues p.1 c →
  let i := p.1
  let a := p.2
  let q := Form.qIndex f.d
  let slots := (if a.nf then 1 else 0) + a.result.getD 0
  let full : Prop := a.result.isSome ∧ ∃ u, c.w.queue q = some u ∧ ∃ l, l < 32 ∧ c.em.getLsbD l ∧ u.depth < (u.col l).length + slots
  let x := c.atomChecks a f
  let faults := if a.nf then [] else c.placeFaults f x.1
  let place (l : Nat) : Option Place := (x.1.find? fun y => y.1 == l).bind fun y => match y.2 with
    | .ok p => some p
    | .error _ => none
  let act := c.covered.filter fun l => (place l).isSome
  (full → Waits i c) ∧ (¬full → x.2.delayed = true → Waits i c) ∧
  (¬full → x.2.delayed = false → Flows i c →
    (∀ k info, firstLowest faults = some (k, info) → Raises i c k info) ∧
    (faults = [] → ∃ t w, exec i c.s = .next t ∧ t.wave c.ref = some w ∧ t.dmem = c.s.dmem ∧ t.hmem = c.s.hmem ∧
      t.nextId = c.s.nextId + 32 ∧
      (∃ new, t.reqs = c.s.reqs ++ new ∧
        (∀ l, Leads c a f act l l → ∃ r ∈ new, r.id = c.s.nextId + l) ∧
        (new.map Req.id).Pairwise (· < ·) ∧
        ∀ r ∈ new, ∃ l y ops, Leads c a f act l l ∧ place l = some y ∧
          r = c.req (c.s.nextId + l) (.atomic a.work y (addressOf c f l) (f.flags.toNat % 8) a.size ops
            (a.result.map fun _ => q) a.nf) ∧
          ∀ j ws, (j, ws) ∈ ops ↔ (j ∈ act ∧ Leads c a f act l j ∧ ws = c.atomOperand a f j)) ∧
      (∀ u, a.result.isSome → (∀ k ∈ popSpans (usesOf i), k.1 ≠ q) → c.w.queue q = some u → ∃ v, w.queue q = some v ∧
        ∀ l, l < 32 → ∃ new, v.col l = u.col l ++ new ∧ new.length = (if c.em.getLsbD l then slots else 0) ∧
          (l ∈ act → ∀ m, Leads c a f act m l → ∀ k, k < slots → new[k]? = some (.pending (c.s.nextId + m) k)) ∧
          (∀ k, x.1.find? (fun y => y.1 == l) = some (l, .error k) →
            new = .ready (BitVec.ofNat 32 (2 ^ 31 + k.code)) :: List.replicate (slots - 1) (.ready 0)) ∧
          (c.em.getLsbD l → c.w.helper.getLsbD l → new = List.replicate slots (.ready 0)))))

/-- The cause of the first check that a lane fails, in the order of R256; `ared` needs only write permission (R450). -/
def AtomicChecks : Prop := ∀ (c : Ctx) (a : AtomForm) (scope : Nat) (va : DWord) (s : State),
  let r := c.atomCheck a scope va s
  let page := translate s c.cluster (some c.core) c.vi va
  (va.toNat % a.align ≠ 0 → r = (.error .misaligned, s)) ∧
  (va.toNat % a.align = 0 → canonical va = false → r = (.error .addrNoncanon, s)) ∧
  (va.toNat % a.align = 0 → canonical va = true →
    (∀ k, page.1 = .error k → r.1 = .error k) ∧
    (∀ t, page.1 = .ok t →
      let off := va.toNat % 2 ^ 52 - t.va
      let onHost : Bool := match a.work with
        | .rmw .add | .rmw .sub | .rmw .xchg | .cas => a.result.isSome && decide (scope = 4)
        | _ => false
      let ring : Nat := match a.work with
        | .enq k | .deq k => 32 + 4 * 2 ^ k
        | _ => 0
      (a.result.isSome → t.r = false → r.1 = .error .pageRead) ∧
      ((a.result.isSome → t.r = true) → t.w = false → r.1 = .error .pageWrite) ∧
      ((a.result.isSome → t.r = true) → t.w = true →
        (t.place.mem ≠ 0 → onHost = false → r.1 = .error .atomTarget) ∧
        (t.place.mem = 0 ∨ onHost = true → t.size < off + ring → r.1 = .error .ringForm) ∧
        (t.place.mem = 0 ∨ onHost = true → off + ring ≤ t.size → r.1 = .ok ⟨t.place.mem, t.place.pa + off⟩))))

end Sys2Proof.Claims

/-- Atomics check every lane and place one request with the words of all lanes. -/
def Obligations.AtomicInstructions : Prop := Sys2Proof.Claims.AtomicsIssue ∧ Sys2Proof.Claims.AtomicChecks

namespace Sys2Proof.Claims

/-- The value of words and of bytes, the lowest first (R3). -/
def natOfWords (ws : List Word) : Nat := ws.foldr (fun w n => w.toNat + 2 ^ 32 * n) 0

def natOfBytes (bs : List Byte) : Nat := bs.foldr (fun b n => b.toNat + 2 ^ 8 * n) 0

/-- The new value of n bits (R260). -/
def newValue (op : AtomOp) (n old b : Nat) : Nat :=
  let signed (x : Nat) : Int := if x < 2 ^ (n - 1) then x else x - 2 ^ n
  let float (g : XVal → XVal → XVal) : Nat := roundX .f32 .rn (g (decodeF .f32 old) (decodeF .f32 b)) % 2 ^ n
  match op with
  | .add => (old + b) % 2 ^ n
  | .sub => (old + (2 ^ n - b)) % 2 ^ n
  | .min => if signed old ≤ signed b then old else b
  | .max => if signed old ≤ signed b then b else old
  | .minu => min old b
  | .maxu => max old b
  | .and => old &&& b
  | .or => old ||| b
  | .xor => old ^^^ b
  | .xchg => b
  | .inc => if b ≤ old then 0 else old + 1
  | .dec => if old = 0 ∨ b < old then b else old - 1
  | .fadd => float fun x y => x.add false y
  | .fmin => float fun x y => if x.isNan || y.isNan then .nan else x.minOf y
  | .fmax => float fun x y => if x.isNan || y.isNan then .nan else x.maxOf y

/-- The value that an access at the point of an atomic's scope finds (R258). -/
def valueAt (s : State) (cluster scope : Nat) (p : Place) (n : Nat) : Nat := natOfBytes (s.pointRead cluster (8 * cluster) scope p n).1

def byteSeen (s : State) (cluster scope a : Nat) : Nat := valueAt s cluster scope ⟨0, a⟩ 1

/-- A byte that an access has left alone: read at the point of a scope it is as before, but at `.cl` and below a line that the
cluster gave up for room is read from memory. -/
def LeftAlone (s t : State) (cluster scope a : Nat) : Prop :=
  byteSeen t cluster scope a = byteSeen s cluster scope a ∨
    scope ≤ 2 ∧ byteSeen t cluster scope a = (Mem.get s.dmem a).toNat

/-- The pending slots of a request in the columns of its lanes become what `g` gives each, and the request is gone. -/
def LanesFilled (r : Req) (q : Option Nat) (lanes : List Nat) (g : Nat → Nat → QEntry) (s t : State) : Prop :=
  t.req r.id = none ∧ (∀ k, k ≠ r.id → t.req k = s.req k) ∧
  ∀ k w u, q = some k → s.wave r.w = some w → w.queue k = some u → ∃ v p, t.wave r.w = some v ∧ v.queue k = some p ∧
    ∀ l, l < 32 → p.col l = if l ∈ lanes then (u.col l).map fun e => match e with
      | .pending i j => if i = r.id then g l j else .pending i j
      | e => e else u.col l

/-- The slot of a lane: the status first under `.nf`, then the value words (R267, R268). -/
def resultSlot (nf : Bool) (value k : Nat) : QEntry :=
  if nf ∧ k = 0 then .ready 0
  else .ready (BitVec.ofNat 32 (value / 2 ^ (32 * (if nf then k - 1 else k))))

def failureSlot (r : Req) (nf : Bool) (va : DWord) (c : Cause) (k : Nat) : QEntry :=
  if nf then (if k = 0 then .ready (BitVec.ofNat 32 (2 ^ 31 + c.code)) else .ready 0) else .token ⟨c, va, r.pc, 0, 0⟩

/-- The value after the first operands of a request, applied one after another (R265). -/
def serial (op : AtomOp) (size old : Nat) (ops : List (Nat × List Word)) : Nat :=
  ops.foldl (fun x o => newValue op (8 * size) x (natOfWords o.2 % 2 ^ (8 * size))) old

/-- What an atomic on device memory needs besides its own turn. -/
def AtPoint (s : State) (r : Req) (p : Place) (scope size : Nat) : Prop :=
  p.mem = 0 ∧ s.atomWaits r p scope = false ∧ p.pa % 128 + size ≤ 128 ∧ WholeLines s (clusterOf r.core)

/-- R258, R260, R265, R270: an atomic request is performed as if its lanes acted one after another in ascending order; it
waits for an owned line and for the wave's earlier accesses. No other byte changes. -/
def AtomicsPerform : Prop := ∀ s r p va scope size ops q nf work,
  s.req r.id = some r → r.kind = .atomic work p va scope size ops q nf → s.touched = false → s.reached = [] →
  let cl := clusterOf r.core
  (s.atomWaits r p scope = true ∨ p.mem ≠ 0 → exec (.atomicPerform r.id) s = .next s) ∧
  (∀ op, work = .rmw op → size = 4 ∨ size = 8 → AtPoint s r p scope size → (ops.map Prod.fst).Pairwise (· < ·) →
    let old := valueAt s cl scope p size
    ∃ t, exec (.atomicPerform r.id) s = .next t ∧ valueAt t cl scope p size = serial op size old ops ∧
      (∀ a, a < p.pa ∨ p.pa + size ≤ a → LeftAlone s t cl scope a) ∧
      LanesFilled r q (ops.map Prod.fst) (fun l => resultSlot nf (serial op size old (ops.takeWhile fun o => o.1 != l))) s t) ∧
  (∀ l ws, work = .cas → ops = [(l, ws)] → ws.length = 2 * (size / 4) → size = 4 ∨ size = 8 ∨ size = 16 →
    AtPoint s r p scope size →
    let old := valueAt s cl scope p size
    ∃ t, exec (.atomicPerform r.id) s = .next t ∧
      valueAt t cl scope p size = (if old = natOfWords (ws.take (size / 4)) then natOfWords (ws.drop (size / 4)) else old) ∧
      (∀ a, a < p.pa ∨ p.pa + size ≤ a → LeftAlone s t cl scope a) ∧
      LanesFilled r q [l] (fun _ => resultSlot nf old) s t)

/-- R263, R425: after instructions with different exponents the contents of a ring block are undefined; nothing beyond the block
changes, and the request ends. -/
def MixedRings : Prop := ∀ s r pa va scope size l ws q nf k j enq,
  s.req r.id = some r →
  r.kind = .atomic (if enq = true then .enq k else .deq k) ⟨0, pa⟩ va scope size [(l, ws)] q nf → s.touched = false →
  s.atomWaits r ⟨0, pa⟩ scope = false → pa % 32 = 0 → k < 16 → WholeLines s (clusterOf r.core) →
  (s.rings.find? fun x => x.1 == (⟨0, pa⟩ : Place)) = some (⟨0, pa⟩, j) → j ≠ k → j < 16 →
  ∃ t, exec (.atomicPerform r.id) s = .next t ∧ t.req r.id = none ∧ (∀ m, m ≠ r.id → t.req m = s.req m) ∧
    ∀ a, a < pa ∨ pa + 32 + 4 * 2 ^ max k j ≤ a → LeftAlone s t (clusterOf r.core) scope a

/-- R262 to R264: a ring block takes or gives one element as one action, and answers full, empty or RING_FORM. The exponent is
that of every earlier instruction on the block, and at `.cl` and below the cluster's clean copies hold what memory holds. -/
def RingBlocks : Prop := ∀ s r pa va scope size l ws q nf k enq,
  s.req r.id = some r →
  r.kind = .atomic (if enq = true then .enq k else .deq k) ⟨0, pa⟩ va scope size [(l, ws)] q nf → s.touched = false →
  s.atomWaits r ⟨0, pa⟩ scope = false → pa % 32 = 0 → k < 16 → WholeLines s (clusterOf r.core) →
  (∀ x ∈ s.rings, x.1 = ⟨0, pa⟩ → x.2 = k) →
  let cl := clusterOf r.core
  (scope ≤ 2 → ∀ line x j, (s.cluster cl).l1Line line = some x → j < 128 → x.valid.getLsbD j → x.dirty.getLsbD j = false →
    (x.data[j]?).getD 0 = Mem.get s.dmem (line + j)) →
  let word (u : State) (a : Nat) : Nat := valueAt u cl scope ⟨0, a⟩ 4
  let head := word s pa
  let tail := word s (pa + 4)
  let count := (tail + 2 ^ 32 - head) % 2 ^ 32
  let element (x : Nat) : Nat := pa + 32 + 4 * (x % 2 ^ k)
  let same (u : State) (n : List Nat) : Prop :=
    ∀ a, (∀ b ∈ n, a < b ∨ b + 4 ≤ a) → byteSeen u cl scope a = byteSeen s cl scope a
  ∃ t, exec (.atomicPerform r.id) s = .next t ∧
    (2 ^ k < count → same t [] ∧ LanesFilled r q [l] (fun _ => failureSlot r nf va .ringForm) s t) ∧
    (enq = true → count = 2 ^ k → same t [] ∧ LanesFilled r q [l] (fun _ => resultSlot nf 0) s t) ∧
    (enq = true → count < 2 ^ k → word t (element tail) = (laneAt ws 0).toNat ∧ word t (pa + 4) = (tail + 1) % 2 ^ 32 ∧
      same t [element tail, pa + 4] ∧ LanesFilled r q [l] (fun _ => resultSlot nf 1) s t) ∧
    (enq = false → count = 0 → same t [] ∧ LanesFilled r q [l] (fun _ => resultSlot nf 0) s t) ∧
    (enq = false → 0 < count → count ≤ 2 ^ k → word t pa = (head + 1) % 2 ^ 32 ∧ same t [pa] ∧
      LanesFilled r q [l] (fun _ => resultSlot nf (1 + 2 ^ 32 * word s (element head))) s t)

/-- R258, R261, R464, R465, R467: an atomic on host memory, a compare and swap among them, changes it when its completion succeeds
in time, as the device finds it with the stores that the link has accepted, and otherwise changes no memory and fails every lane; a read or atomic of host memory fails once its time since it went to the host is over, and not
before. -/
def HostCompletions : Prop := ∀ s r p, s.req r.id = some r → s.touched = false → s.reached = [] → p.mem ≠ 0 →
  let late : Prop := ∃ n, r.sent = some n ∧
    n + (s.iface (tableVi r.vi)).ctimeout * (if s.ctl.current then 1200 else 2400) ≤ s.clock
  (∀ work va scope size ops q nf, r.kind = .atomic work p va scope size ops q nf →
    let fails (t : State) : Prop := t.dmem = s.dmem ∧ t.hmem = s.hmem ∧
      LanesFilled r q (ops.map Prod.fst) (fun _ => failureSlot r nf va .hostAtomic) s t
    let stays := s.hostBusy r || s.held r.w r.id p || s.follows r.w r.id p scope
    let done (value : Nat) (g : Nat → Nat → QEntry) : Prop := ∃ t, exec (.hostAtomicCompletion r.id true) s = .next t ∧
      t.dmem = s.dmem ∧ natOfBytes (t.hostRead p.pa size) = value ∧
      (∀ a, a < p.pa ∨ p.pa + size ≤ a → Mem.get t.hostView a = Mem.get s.hostView a) ∧
      LanesFilled r q (ops.map Prod.fst) g s t
    (∀ ok, stays = true → exec (.hostAtomicCompletion r.id ok) s = .next s) ∧
    (stays = false → (ops.map Prod.fst).Pairwise (· < ·) →
      (∀ ok, ok = false ∨ s.linkUp = false ∨ late → ∃ t, exec (.hostAtomicCompletion r.id ok) s = .next t ∧ fails t) ∧
      (∀ op, work = .rmw op → size = 4 ∨ size = 8 → s.linkUp = true → ¬late → Mem.wf s.hmem = true →
        let old := natOfBytes (s.hostRead p.pa size)
        done (serial op size old ops) fun l => resultSlot nf (serial op size old (ops.takeWhile fun o => o.1 != l))) ∧
      (∀ l ws, work = .cas → ops = [(l, ws)] → ws.length = 2 * (size / 4) → size = 4 ∨ size = 8 ∨ size = 16 →
        s.linkUp = true → ¬late → Mem.wf s.hmem = true →
        let old := natOfBytes (s.hostRead p.pa size)
        done (if old = natOfWords (ws.take (size / 4)) then natOfWords (ws.drop (size / 4)) else old)
          fun _ => resultSlot nf old)) ∧
    ((ops.map Prod.fst).Pairwise (· < ·) → late →
      ∃ t, exec (.hostCompletionTimeout r.id) s = .next t ∧ fails t)) ∧
  (∀ q lane va z scope helper lead, r.kind = .load q lane va z scope helper lead → s.reqPlace r = some (p, scope) →
    p.mem = 1 ∨ p.mem = 2 → late →
      exec (.hostCompletionTimeout r.id) s = .next ((s.hostMates r p).foldl (hostLane true) s)) ∧
  (¬late → exec (.hostCompletionTimeout r.id) s = .next s)

end Sys2Proof.Claims

/-- An atomic is performed lane after lane on its bytes, or fails; ring blocks; host accesses. -/
def Obligations.AtomicsPerformed : Prop := Sys2Proof.Claims.AtomicsPerform ∧ Sys2Proof.Claims.RingBlocks ∧ Sys2Proof.Claims.MixedRings ∧ Sys2Proof.Claims.HostCompletions

/-! Matrix instructions (13_matrix.md). -/

namespace Sys2Proof.Claims

/-- A magnitude m × 2^e, in units of 2^(emax − 20), truncated. -/
def Truncates (emax : Int) (p : XVal) (t : Int) : Prop :=
  ∃ n m e, p = .fin n m e ∧ ∃ k : Nat, t = (if n then -(k : Int) else k) ∧
    let r := XVal.ratio m (e + 20 - emax)
    k * r.2 ≤ r.1 ∧ r.1 < (k + 1) * r.2

/-- floor(log2 |p|) = k. -/
def Log2Is (p : XVal) (k : Int) : Prop := ∃ n m e, p = .fin n m e ∧
  let r := XVal.ratio m (e - k)
  r.2 ≤ r.1 ∧ r.1 < 2 * r.2

def isZero : XVal → Prop
  | .fin _ m _ => m = 0
  | _ => False

/-- R315: one rounding of the sum of truncated products and the addend. -/
def ChunkAddition : Prop := ∀ (ps : List XVal) (c : XVal),
  ((∃ x ∈ c :: ps, x = .nan) → chunkAdd ps c = 0x7FC00000) ∧
  ((∀ x ∈ c :: ps, x ≠ .nan) →
    (.inf false ∈ c :: ps → .inf true ∈ c :: ps → chunkAdd ps c = 0x7FC00000) ∧
    (∀ n, .inf n ∈ c :: ps → .inf (!n) ∉ c :: ps → chunkAdd ps c = if n then 0xFF800000 else 0x7F800000) ∧
    ((∀ n, .inf n ∉ c :: ps) →
      ((∀ p ∈ ps, isZero p) → chunkAdd ps c = bits32 ((XVal.zero (ps.all XVal.sign)).add false c)) ∧
      (∀ (emax : Int) (ts : List Int), (∃ p ∈ ps, Log2Is p emax) → (∀ p ∈ ps, isZero p ∨ ∃ k, Log2Is p k ∧ k ≤ emax) →
        ts.length = ps.length → (∀ (k : Nat) (p : XVal) (t : Int), ps[k]? = some p → ts[k]? = some t → Truncates emax p t) →
        chunkAdd ps c = bits32 (((XVal.ofInt ts.sum).scale (emax - 20)).add false c))))

/-- A row of R316: the function value, K, the registers of A, the index registers, the bytes of B and its slots. -/
def mmaShape (sparse : Bool) (fmt : MmaFmt) : Nat × Nat × Nat × Nat × Nat × Nat :=
  match sparse, fmt with
  | false, .f16 => (0, 16, 8, 0, 1024, 8)
  | false, .bf16 => (1, 16, 8, 0, 1024, 8)
  | false, .e4m3 => (2, 32, 8, 0, 1024, 8)
  | false, .e5m2 => (3, 32, 8, 0, 1024, 8)
  | false, .i8 => (4, 32, 8, 0, 1024, 8)
  | false, .bs4e2m1 => (5, 64, 12, 0, 1536, 12)
  | false, .bs4e4m3 => (6, 32, 10, 0, 1280, 10)
  | true, .f16 => (8, 32, 8, 1, 2048, 16)
  | true, .bf16 => (9, 32, 8, 1, 2048, 16)
  | true, .e4m3 => (10, 64, 8, 2, 2048, 16)
  | true, .e5m2 => (11, 64, 8, 2, 2048, 16)
  | true, .i8 => (12, 64, 8, 2, 2048, 16)
  | true, .bs4e2m1 => (13, 128, 16, 4, 3072, 24)
  | true, .bs4e4m3 => (14, 64, 12, 2, 2560, 20)

/-- The format and width of an element, and whether scale bytes follow (R311). -/
def mmaElement : MmaFmt → Fmt × Nat × Bool
  | .f16 => (.f16, 16, false)
  | .bf16 => (.bf16, 16, false)
  | .e4m3 | .i8 => (.e4m3, 8, false)
  | .e5m2 => (.e5m2, 8, false)
  | .bs4e2m1 => (.e2m1, 4, true)
  | .bs4e4m3 => (.e4m3, 8, true)

/-- Element k of n bits of a packed row (R144). -/
def packed (n : Nat) (ws : List Word) (k : Nat) : Nat := element n (k % (32 / n)) (laneAt ws (k / (32 / n)))

/-- The value of element k of a row whose scale bytes start at word `at_`, with scale byte g (R146, R311). -/
def valueOf (fmt : MmaFmt) (ws : List Word) (at_ k g : Nat) : XVal :=
  let (fe, n, scaled) := mmaElement fmt
  let x := decodeF fe (packed n ws k)
  if scaled then timesScale (packed 8 (ws.drop at_) g) x else x

/-- The words of a multiply: each lane's row of A, each column of B, and each row's index registers (R311 to R313). -/
structure Factors where
  row : Nat → List Word
  column : Nat → List Word
  index : Nat → List Word

/-- The logical row of B of stored element j (R313, R318). -/
def logicalRow (sparse : Bool) (o : Factors) (i j : Nat) : Nat :=
  if sparse then 4 * (j / 2) + packed 2 (o.index i) j else j

/-- The element of row i and column n after the form (R318, R319). -/
def multiplied (sparse : Bool) (fmt : MmaFmt) (o : Factors) (i n : Nat) (acc : Word) : Word :=
  let k := (mmaShape sparse fmt).2.1
  let stored := if sparse then k / 2 else k
  match fmt with
  | .i8 => acc + BitVec.ofInt 32 (((List.range stored).map fun j =>
      signedField 8 (packed 8 (o.row i) j) * signedField 8 (packed 8 (o.column n) (logicalRow sparse o i j))).sum)
  | _ => (List.range (stored / 16)).foldl (fun acc ch =>
      chunkAdd ((List.range 16).map fun q =>
        let j := 16 * ch + q
        let r := logicalRow sparse o i j
        (valueOf fmt (o.row i) 8 j (if sparse then j / 2 else j / 4)).mul
          (valueOf fmt (o.column n) (if sparse then 16 else 8) r (r / 4))) (decodeF .f32 acc.toNat)) acc

/-- A word of scratch, the lowest byte first. -/
def scratchWord (c : Ctx) (a : Nat) : Word := BitVec.ofNat 32 ((c.g.scratch.get a).toNat + 2 ^ 8 * (c.g.scratch.get (a + 1)).toNat +
  2 ^ 16 * (c.g.scratch.get (a + 2)).toNat + 2 ^ 24 * (c.g.scratch.get (a + 3)).toNat)

/-- Where an `mma` takes its rows and columns from (R312, R317, R320): the latches, registers, a queue or scratch. -/
def factorsOf (c : Ctx) (f : LaneFields) (sparse : Bool) (fmt : MmaFmt) : Factors :=
  let (_, k, regs, w, _, slots) := mmaShape sparse fmt
  let cb := if sparse then 64 else 32
  let held (l : Option Latch) (i : Nat) : List Word := match l with
    | some x => (x.words[i]?).getD []
    | none => []
  { row := fun i => if f.flags.getLsbD 6 ∧ c.w.latchA.isSome then held c.w.latchA i
      else (List.range regs).map fun r => codeWord c.w f.a r i
    column := fun n => if f.flags.getLsbD 5 then held c.w.latchB n
      else if Form.isQ f.b then (List.range slots).map fun s => codeWord c.w f.b s n
      else
        let off := (c.w.sreg f.s.toNat).toNat
        (List.range (cb / 4)).map (fun m => scratchWord c (off + n * cb + 4 * m)) ++
          if (mmaElement fmt).2.2 then (List.range (k / 16)).map fun m => scratchWord c (off + 32 * cb + n * (k / 4) + 4 * m)
          else []
    index := fun i =>
      let sel := f.mode.toNat % 8
      if sparse then (List.range w).map fun r => codeWord c.w f.c r (i - i % 2 ^ sel) else [] }

/-- An element of tile t for each row and column. -/
def tileAt (w : Wave) (t i n : Nat) : Word := laneAt (w.tileRow t i) n

/-- R316 to R321, R327, R329: an `mma` or `mmasp` replaces the rows of its lanes and leaves the latches filled; its operand causes
are raised before any effect, and a B in scratch waits for the scratch stores of its slice there, as an `lds` does. -/
def MultiplyAccumulate : Prop := ∀ sparse fmt c f,
  let i : Instr := if sparse = true then .mmasp fmt f else .mma fmt f
  let (tag, _, _, _, bytes, _) := mmaShape sparse fmt
  let holds (l : Option Latch) : Prop := ∃ x, l = some x ∧ x.tag = [tag]
  let ra := f.flags.getLsbD 6
  let rb := f.flags.getLsbD 5
  let off := (c.w.sreg f.s.toNat).toNat
  let size := match c.s.launch c.g.launch with
    | some l => l.kernel.scratch
    | none => 0
  let okA : Prop := ra = true → c.w.latchA = none ∨ holds c.w.latchA
  let okB : Prop := rb = true → holds c.w.latchB
  let whole : Prop := rb = false → Form.isQ f.b = true →
    ∀ l, l < 32 → (c.slice.thread l).st ≠ .absent → c.em.getLsbD l
  let fromScratch : Prop := rb = false ∧ Form.isQ f.b = false
  let own : Prop := fromScratch ∧ ∃ x ∈ c.s.lateScratch, x.w = c.ref ∧ x.sl = c.sl ∧ off / 128 ≤ x.off / 128 ∧
    x.off < off + bytes
  Issues i c → Flows i c →
  (okA → okB → whole → (fromScratch → off % 128 = 0 ∧ off + bytes ≤ size) → own → Waits i c) ∧
  (okA → okB → whole → (fromScratch → off % 128 = 0 ∧ off + bytes ≤ size) → ¬own →
    let o := factorsOf c f sparse fmt
    ∃ t w, exec i c.s = .next t ∧ OnlyWave c t w ∧
      LaneEffect i c 0#8 0 (fun _ => []) none
        { w with tiles := c.w.tiles, latchA := c.w.latchA, latchB := c.w.latchB } ∧
      (∀ k l n, k < 4 → l < 32 → n < 32 → tileAt w k l n =
        if k = f.d.toNat ∧ c.em.getLsbD l then multiplied sparse fmt o l n (tileAt c.w k l n) else tileAt c.w k l n) ∧
      (ra = false → w.latchA = none) ∧
      (ra = true → ∃ x, w.latchA = some x ∧ x.tag = [tag] ∧ ∀ l, l < 32 → (x.words[l]?).getD [] = o.row l) ∧
      ∃ x, w.latchB = some x ∧ x.tag = [tag] ∧ ∀ n, n < 32 → (x.words[n]?).getD [] = o.column n) ∧
  ((¬okA ∨ ¬okB) → whole → (fromScratch → off % 128 = 0 ∧ off + bytes ≤ size) → Raises i c .mmaLatch noInfo) ∧
  (okA → ¬whole → Raises i c .mmaPartial noInfo) ∧
  (okA → fromScratch → off % 128 ≠ 0 → off + bytes ≤ size → Raises i c .misaligned { addr := BitVec.ofNat 64 off }) ∧
  (okA → fromScratch → off % 128 = 0 → size < off + bytes → Raises i c .scratchRange { addr := BitVec.ofNat 64 off })

end Sys2Proof.Claims

/-- mma and mmasp: truncated products, one rounding of each chunk, and the tile rows they replace. -/
def Obligations.MatrixMultiplication : Prop := Sys2Proof.Claims.ChunkAddition ∧ Sys2Proof.Claims.MultiplyAccumulate

/-- R323, R324: the dot product of 16 elements, and the moves between a tile and a block of eight registers. -/
def Obligations.TileMovesAndDots : Prop := ∀ c f,
  (∀ fmt, Issues (.fdot16 fmt f) c → Flows (.fdot16 fmt f) c → LaneCompletes (.fdot16 fmt f) c f.d 1 (fun l =>
    let fe : Fmt := match fmt with
      | .e4m3 => .e4m3
      | .e5m2 => .e5m2
    let x (code : BitVec 8) (k : Nat) : XVal := decodeF fe (element 8 (k % 4) (codeWord c.w code (k / 4) l))
    [chunkAdd ((List.range 16).map fun k => (x f.a k).mul (x f.b k)) (decodeF .f32 (srcAt c.w .f32 f.lit f.c 0 l).toNat)])
    none) ∧
  (Issues (.amovVa f) c → Flows (.amovVa f) c → LaneCompletes (.amovVa f) c f.d 8
    (fun l => (List.range 8).map fun m => tileAt c.w f.a.toNat l (8 * f.c.toNat + m)) none) ∧
  (∀ p ∈ ([(.aclr f, fun _ _ => (true, 0)),
      (.amovAv f, fun l n => (decide (n / 8 = f.c.toNat), codeWord c.w f.a (n % 8) l))] :
        List (Instr × (Nat → Nat → Bool × Word))),
    Issues p.1 c → (∀ l, (c.w.tileRow f.d.toNat l).length = 32) →
    ∃ t w, exec p.1 c.s = .next t ∧ OnlyWave c t w ∧
      GroupEffect p.1 c [] none c.slice.gf { w with tiles := c.w.tiles } ∧
      ∀ k l n, k < 4 → l < 32 → n < 32 → tileAt w k l n =
        if k = f.d.toNat ∧ c.em.getLsbD l ∧ (p.2 l n).1 = true then (p.2 l n).2 else tileAt c.w k l n)

/-! Function islands (14_islands.md). -/

namespace Sys2Proof.Claims

/-- A channel's number and kind base: instances and quarter-cores (R330). -/
def channelAt (c : Ctx) (kind : Nat) : Nat := 32 * kind + 4 * (c.core % 8) + c.w.id % 4

def kindNumber : IslandKind → Nat
  | .intersection => 0
  | .filter => 1
  | .raster => 2
  | .blend => 3

/-- The registers of a lane's blocks: a block is its code and its count. -/
def blocks (c : Ctx) (bs : List (BitVec 8 × Nat)) (l : Nat) : List Word :=
  bs.flatMap fun b => (List.range b.2).map fun k => codeWord c.w b.1 k l

/-- The instructions with results: function, kind, slots per lane, register blocks, and whether S names an object. -/
def islandForms (f : LaneFields) : List (Instr × Nat × IslandKind × Nat × List (BitVec 8 × Nat) × Bool) :=
  [(.ibox f, 0, .intersection, 1, [(f.a, 8), (f.b, 6)], false), (.itri f, 1, .intersection, 3, [(f.a, 8), (f.b, 9)], false),
   (.iprim f, 2, .intersection, 3, [(f.a, 8), (f.b, 8)], false), (.tsmp f, 3, .filter, 4, [(f.a, 3)], true),
   (.tgth f, 4, .filter, 4, [(f.a, 3)], true), (.tfch f, 5, .filter, 4, [(f.a, 3)], true)]

/-- The image of the cluster's island implements the function (R333). -/
def offers (c : Ctx) (k : IslandKind) (fn : Nat) : Bool :=
  match c.s.image c.cluster k with
  | some m => if m.identity = 1 then fn != 2 else (Config.imageFunctions m.digest).testBit fn
  | none => false

/-- What the issue of an island request leaves beside its wave. -/
def Sent (c : Ctx) (chan : Nat) (r : Req) (t : State) : Prop :=
  t.reqs = c.s.reqs ++ [r] ∧ t.nextId = c.s.nextId + 1 ∧ t.dmem = c.s.dmem ∧ t.hmem = c.s.hmem ∧
  (chan < (c.s.cluster c.cluster).channels.length → c.cluster < c.s.clusters.length →
    (t.channel c.cluster chan).free = (c.s.channel c.cluster chan).free - 1)

end Sys2Proof.Claims

/-- R333, R336, R344, R347, R355: an island instruction raises ISLAND_FN or ISLAND_LINK, waits for room and for a request slot,
and sends one entry with the words of its lanes; those with results allocate them. An `rtri` behind the end of a stream that is
placed starts a new one. That a pixel tag leaves its lane with the issue of the final `bpx` is DEDUCED (log entry 54). `iprim`
completes under an image whose function map has it, which the base image's has not. -/
def Obligations.IslandRequests : Prop := ∀ c f,
  (∀ p ∈ islandForms f, Issues p.1 c →
    let (i, fn, kind, slots, regs, obj) := p
    let q := Form.qIndex f.d
    let chan := channelAt c (kindNumber kind)
    let linked (u : Queue) : Prop := u.kind = .result ∧ u.attach = .island kind
    (offers c kind fn = false → (∀ u, c.w.queue q = some u → linked u) → Raises i c .islandFn noInfo) ∧
    ∀ u, c.w.queue q = some u → offers c kind fn = true →
      (¬linked u → Raises i c .islandLink noInfo) ∧
      (linked u →
        let full : Prop := ∃ l, l < 32 ∧ c.em.getLsbD l ∧ u.depth < (u.col l).length + slots
        ((full ∨ (c.s.channel c.cluster chan).free = 0) → Waits i c) ∧
        (¬full → (c.s.channel c.cluster chan).free ≠ 0 → ∃ t w v, exec i c.s = .next t ∧ t.wave c.ref = some w ∧
          Sent c chan (c.req c.s.nextId (.island fn f.c.toNat chan ((lanesOf c.em).map fun l => (l, blocks c regs l)) []
            (if obj then c.w.sreg64 f.s.toNat else 0) (some q) slots false)) t ∧
          GroupEffect i c [] none c.slice.gf { w with queues := c.w.queues } ∧ onlyQueue c q w ∧
          w.queue q = some v ∧ v.kind = u.kind ∧ v.depth = u.depth ∧ v.attach = u.attach ∧
          ∀ l, l < 32 → v.col l = u.col l ++ if c.em.getLsbD l then
            (List.range slots).map fun k => QEntry.pending c.s.nextId k else []))) ∧
  (∀ p ∈ ([(.ist f, 9, .blend, true), (.bpx f, 7, .blend, false), (.rtri f, 6, .raster, false)] :
      List (Instr × Nat × IslandKind × Bool)), Issues p.1 c →
    let (i, fn, kind, isIst) := p
    let chan := channelAt c (kindNumber kind)
    let view := c.w.sreg f.s.toNat
    let sized (n : Nat) : Prop := 1 ≤ n ∧ n ≤ 16384
    let good : Prop := fn = 6 → sized (view.toNat % 2 ^ 16) ∧ sized (view.toNat / 2 ^ 16)
    let tag (l : Nat) : Option Nat := (c.w.tags.find? fun x => x.1 == l).map fun x => x.2
    let lanes := (lanesOf c.em).filter fun l => !c.w.helper.getLsbD l && (isIst || (tag l).isSome)
    (offers c kind fn = false → good → Raises i c .islandFn noInfo) ∧
    (offers c kind fn = true → ¬good → Raises i c .islandDesc noInfo) ∧
    (offers c kind fn = true → good →
      ((c.s.channel c.cluster chan).free = 0 → Waits i c) ∧
      ((c.s.channel c.cluster chan).free ≠ 0 → ∃ t g w, exec i c.s = .next t ∧ t.wg c.g.id = some g ∧
        g.wave c.w.id = some w ∧
        Sent c chan (c.req c.s.nextId (.island fn f.c.toNat chan
          (if fn = 6 then [] else lanes.map fun l => (l, blocks c [(f.a, if isIst then 5 else 4)] l))
          (if fn = 7 then lanes.map fun l => (l, (tag l).getD 0) else [])
          (if fn = 6 then view.setWidth 64 else c.w.sreg64 f.s.toNat) none 0 false)) t ∧
        GroupEffect i c [] none c.slice.gf { w with tags := c.w.tags } ∧
        w.tags = (if fn = 7 ∧ f.c.getLsbD 3 then c.w.tags.filter fun x => !lanes.contains x.1 else c.w.tags) ∧
        let again := c.g.raster.ended && c.g.raster.items.isEmpty && c.g.raster.closed.isEmpty && c.g.firstLink.isNone
        g.raster = if fn = 6 then { c.g.raster with
            ended := c.g.raster.ended && !again
            items := c.g.raster.items ++
              ((lanesOf c.em).map fun l => ⟨c.s.nextId, blocks c [(f.a, 10)] l, f.c.toNat % 4, view, false, again⟩) ++
              if f.c.getLsbD 2 then [⟨c.s.nextId, [], 0, view, true, again⟩] else [] }
          else c.g.raster)))

namespace Sys2Proof.Claims

/-- The parts of a ray and its block, as integers of 2^−149 (R338, R339). -/
def coordinate (ws : List Word) (k : Nat) : Int := fixed32 (laneAt ws k)

def finiteFrom (ws : List Word) (k n : Nat) : Prop := ∀ j, j < n → finite32 (laneAt ws (k + j)) = true

/-- A ray that can hit: finite but for a tmax of +∞, and tmin ≤ tmax. -/
def validRay (ws : List Word) : Prop :=
  finiteFrom ws 0 7 ∧ (laneAt ws 7 = 0x7F800000 ∨ finite32 (laneAt ws 7) = true ∧ coordinate ws 6 ≤ coordinate ws 7)

/-- tmin ≤ T / D ≤ tmax. -/
def inRange (ws : List Word) (t d : Int) : Prop :=
  coordinate ws 6 * d ≤ t * 2 ^ 149 ∧ (laneAt ws 7 = 0x7F800000 ∨ t * 2 ^ 149 ≤ coordinate ws 7 * d)

def rounded (mode : RMode) (t d : Int) : Word := BitVec.ofNat 32 (roundRatio .f32 mode (decide (t < 0)) t.natAbs d.toNat)

/-- R338, R339: `ibox` gives the least parameter at which the ray is in the box, rounded down; `itri` the exact solution of
its system, rounded, when it lies in the triangle and the ray. Parameters are T / D. That an exactly zero t, u or v of `itri` is
+0 is DEDUCED (log entry 142). -/
def Intersections : Prop := ∀ (ws : List Word),
  (let inBox (t d : Int) : Prop := inRange ws t d ∧ ∀ a, a < 3 →
      coordinate ws (8 + a) * d ≤ coordinate ws a * d + t * coordinate ws (3 + a) ∧
      coordinate ws a * d + t * coordinate ws (3 + a) ≤ coordinate ws (11 + a) * d
   let valid : Prop := validRay ws ∧ finiteFrom ws 8 6 ∧ (∀ a, a < 3 → coordinate ws (8 + a) ≤ coordinate ws (11 + a)) ∧
     ∃ a, a < 3 ∧ coordinate ws (3 + a) ≠ 0
   ws.length = 14 →
   (¬valid → iboxResult ws = [0x7F800000]) ∧
   (valid → (∀ t d, 0 < d → ¬inBox t d) → iboxResult ws = [0x7F800000]) ∧
   (valid → (∃ t d, 0 < d ∧ inBox t d) → ∃ t d, 0 < d ∧ inBox t d ∧ (∀ u e, 0 < e → inBox u e → t * e ≤ u * d) ∧
     (t ≠ 0 → iboxResult ws = [rounded .rm t d]) ∧
     (t = 0 → iboxResult ws = [0] ∨ iboxResult ws = [0x80000000]))) ∧
  (let x := coordinate ws
   let e1 (a : Nat) : Int := x (11 + a) - x (8 + a)
   let e2 (a : Nat) : Int := x (14 + a) - x (8 + a)
   let det : Int := x 3 * (e1 1 * e2 2 - e1 2 * e2 1) + x 4 * (e1 2 * e2 0 - e1 0 * e2 2) +
     x 5 * (e1 0 * e2 1 - e1 1 * e2 0)
   let valid : Prop := validRay ws ∧ finiteFrom ws 8 9 ∧ det ≠ 0
   ws.length = 17 →
   (¬valid → itriResult ws = [0x7F800000, 0, 0]) ∧
   (valid → ∃ t u v d : Int, 0 < d ∧
     (∀ a, a < 3 → u * e1 a + v * e2 a - t * x (3 + a) = (x a - x (8 + a)) * d) ∧
     let hit : Prop := 0 ≤ u ∧ 0 ≤ v ∧ u + v ≤ d ∧ inRange ws t d
     (hit → itriResult ws = [rounded .rn t d, rounded .rn u d, rounded .rn v d]) ∧
     (¬hit → itriResult ws = [0x7F800000, 0, 0])))

/-- An integer nearest to num / den, the even one of a tie. -/
def Nearest (num den n : Int) : Prop :=
  2 * (n * den - num) ≤ den ∧ 2 * (num - n * den) ≤ den ∧ (2 * (n * den - num).natAbs = den.natAbs → n % 2 = 0)

/-- A wrapped coordinate: clamped, repeated, or mirrored (R342). -/
def Wraps (mode : Nat) (i : Int) (n j : Nat) : Prop :=
  j < n ∧
  (mode = 0 → (0 ≤ i → i < n → (j : Int) = i) ∧ (i < 0 → j = 0) ∧ ((n : Int) ≤ i → j = n - 1)) ∧
  (mode = 1 → ∃ k : Int, i = j + k * n) ∧ (mode = 2 → ∃ k : Int, i = j + 2 * k * n ∨ i = 2 * (k + 1) * n - 1 - j)

/-- A bilinear channel of four texels with weights in 65536ths: one exact sum, rounded once; a NaN, an infinity of weight 0 or
infinities of both signs give the NaN, else an infinity gives itself (R342). -/
def Blends (ts : List (List XVal)) (k : Nat) (weight : Nat → Nat) (r : Word) : Prop :=
  let x (j : Nat) : XVal := Machine.channelAt (texelAt ts j) k
  let term (j : Nat) : XVal := (XVal.fin false (weight j) (-16)).mul (x j)
  let heavy (neg : Bool) : Prop := ∃ j, j < 4 ∧ x j = .inf neg ∧ weight j ≠ 0
  let wrong : Prop := ∃ j, j < 4 ∧ (x j = .nan ∨ (∃ neg, x j = .inf neg ∧ weight j = 0))
  r = bits32 ((((term 0).add false (term 1)).add false (term 2)).add false (term 3)) ∧
  (wrong ∨ (heavy false ∧ heavy true) → r = 0x7FC00000) ∧
  (∀ neg, ¬wrong → heavy neg → ¬heavy (!neg) → r = if neg then 0xFF800000 else 0x7F800000)

/-- R342: where `tsmp`, `tgth` and `tfch` take their texels: the level nearest to lod, the texel that holds the point, or the
four around it with weights of 256ths, wrapped; a fetch outside a level gives zeros, and a NaN or infinite coordinate gives
NaNs. -/
def TexelChoices : Prop := ∀ (d : TexDesc) (imm : Nat) (u v l : Word),
  1 ≤ d.levels → 1 ≤ d.width → 1 ≤ d.height →
  let wide (k : Nat) : Nat := max 1 (d.width / 2 ^ k)
  let high (k : Nat) : Nat := max 1 (d.height / 2 ^ k)
  (let inside : Prop := 0 ≤ l.toInt ∧ l.toInt < d.levels ∧ 0 ≤ u.toInt ∧ u.toInt < wide l.toNat ∧ 0 ≤ v.toInt ∧
     v.toInt < high l.toNat
   let p := texPlan 5 imm d [u, v, l]
   (inside → p.coords = [(u.toNat, v.toNat, l.toNat)] ∧
     ∀ ts, p.combine [ts] = (List.range 4).map fun k => bits32 ((ts[k]?).getD (.zero false))) ∧
   (¬inside → p.coords = [] ∧ p.combine [] = [0, 0, 0, 0])) ∧
  (let ok : Prop := finite32 u = true ∧ finite32 v = true ∧ finite32 l = true
   let sample := texPlan 3 imm d [u, v, l]
   let gather := texPlan 4 imm d [u, v, l]
   let level (k : Nat) : Prop := ∃ n : Int, Nearest (fixed32 l) (2 ^ 149) n ∧ k < d.levels ∧
     (n < 0 → k = 0) ∧ (0 ≤ n → n < d.levels → (k : Int) = n) ∧ ((d.levels : Int) ≤ n → k = d.levels - 1)
   let one (t : List XVal) (k : Nat) : Word := bits32 ((t[k]?).getD (.zero false))
   (¬ok → sample.coords = [] ∧ sample.combine [] = List.replicate 4 0x7FC00000 ∧ gather.coords = [] ∧
     gather.combine [] = List.replicate 4 0x7FC00000) ∧
   (ok → d.bilinear = false → d.wrap < 3 → ∃ (k x y : Nat) (i j : Int), level k ∧
     i * 2 ^ 149 ≤ fixed32 u * wide k ∧ fixed32 u * wide k < (i + 1) * 2 ^ 149 ∧
     j * 2 ^ 149 ≤ fixed32 v * high k ∧ fixed32 v * high k < (j + 1) * 2 ^ 149 ∧
     Wraps d.wrap i (wide k) x ∧ Wraps d.wrap j (high k) y ∧ sample.coords = [(x, y, k)] ∧ gather.coords = [(x, y, k)] ∧
     (∀ t, sample.combine [t] = (List.range 4).map (one t)) ∧
     ∀ t, gather.combine [t] = List.replicate 4 (one t imm)) ∧
   (ok → d.bilinear = true → d.wrap < 3 → ∃ (k x x' y y' ax ay : Nat) (i j : Int), level k ∧
     let p : Int := 2 * fixed32 u * wide k - 2 ^ 149
     let q : Int := 2 * fixed32 v * high k - 2 ^ 149
     i * 2 ^ 150 ≤ p ∧ p < (i + 1) * 2 ^ 150 ∧ j * 2 ^ 150 ≤ q ∧ q < (j + 1) * 2 ^ 150 ∧
     Nearest (256 * (p - i * 2 ^ 150)) (2 ^ 150) ax ∧ Nearest (256 * (q - j * 2 ^ 150)) (2 ^ 150) ay ∧
     Wraps d.wrap i (wide k) x ∧ Wraps d.wrap (i + 1) (wide k) x' ∧ Wraps d.wrap j (high k) y ∧
     Wraps d.wrap (j + 1) (high k) y' ∧
     sample.coords = [(x, y, k), (x', y, k), (x, y', k), (x', y', k)] ∧ gather.coords = sample.coords ∧
     ∀ ts, (sample.combine ts).length = 4 ∧
       (∀ n, n < 4 → Blends ts n (fun m => (if m % 2 = 0 then 256 - ax else ax) * (if m / 2 = 0 then 256 - ay else ay))
         (laneAt (sample.combine ts) n)) ∧
       gather.combine ts = (List.range 4).map fun n => one (texelAt ts n) imm))

end Sys2Proof.Claims

/-- Box and triangle intersections and the texels that sampling takes. -/
def Obligations.IntersectionsAndTexels : Prop := Sys2Proof.Claims.Intersections ∧ Sys2Proof.Claims.TexelChoices

namespace Sys2Proof.Claims

/-- An accepted request of one kind, with its queue. -/
def Accepted (s : State) (r : Req) (fn imm chan : Nat) (lanes : List (Nat × List Word)) (obj : DWord) (q slots : Nat) : Prop :=
  s.req r.id = some r ∧ s.touched = false ∧ s.reached = [] ∧ (s.wave r.w).isSome ∧
    ∃ places, r.kind = .island fn imm chan lanes places obj (some q) slots true

/-- R336, R343, R301, R355, R356, R332: results become ready together, those of a filter request once the slice's earlier
engine reads are performed; a channel's oldest entry returns its slot when it is accepted; an audit leaves the counter when it is
16 less the entries whose slot is not returned, corrects it, or resets the channel; an image is taken while the cluster holds no
workgroup, and a gated island wakes first (R480). That the helper lanes are those of the completion (DESIGN CHOICE, log entry 148)
and that a counter above 16 counts as no mismatch (DESIGN CHOICE, 172) are the model's choices. -/
def IslandEvents : Prop :=
  (∀ s r fn imm chan lanes obj q slots m, Accepted s r fn imm chan lanes obj q slots →
    (lanes.map Prod.fst).Pairwise (· < ·) → s.image (clusterOf r.core) (fnKind fn) = some m → m.identity = 1 →
    let words (l : Nat) : List Word := (lanes.lookup l).getD []
    (fn < 2 → ∃ t, exec (.islandRequestComplete r.id) s = .next t ∧ LanesFilled r (some q) (lanes.map Prod.fst)
      (fun l k => .ready (laneAt (if fn = 0 then iboxResult (words l) else itriResult (words l)) k)) s t) ∧
    (fnKind fn = .filter → s.readsBefore r.w r.id true = true → exec (.islandRequestComplete r.id) s = .next s) ∧
    (∀ l ws w, 3 ≤ fn → lanes = [(l, ws)] → s.wave r.w = some w → s.readsBefore r.w r.id true = false →
      let x := (filterLane s r.reader fn imm obj ws).1
      (x = .error .owned → exec (.islandRequestComplete r.id) s = .next s) ∧
      (∀ c va, x = .error (.cause c va) → ∃ t, exec (.islandRequestComplete r.id) s = .next t ∧
        LanesFilled r (some q) [l] (fun _ _ =>
          if w.helper.getLsbD l then .ready 0 else .token ⟨c, va, r.pc, 0, (match fnKind fn with
            | .intersection => 0
            | .filter => 1
            | .raster => 2
            | .blend => 3)⟩) s t) ∧
      (∀ ys, x = .ok ys → ∃ t, exec (.islandRequestComplete r.id) s = .next t ∧
        LanesFilled r (some q) [l] (fun _ k => .ready (laneAt ys k)) s t))) ∧
  (∀ s r fn imm chan lanes places obj q slots, s.req r.id = some r →
    r.kind = .island fn imm chan lanes places obj q slots false →
    let cl := clusterOf r.core
    let older : Prop := ∃ o ∈ s.reqs, o.id < r.id ∧ clusterOf o.core = cl ∧
      ∃ a b c d e f g, o.kind = .island a b chan c d e f g false
    (older → exec (.channelSlotReturn r.id) s = .next s) ∧
    (¬older → ∃ t, exec (.channelSlotReturn r.id) s = .next t ∧
      (cl < s.clusters.length → chan < (s.cluster cl).channels.length →
        (t.channel cl chan).free = (s.channel cl chan).free + 1) ∧
      t.req r.id = (if fn = 6 then none else some { r with kind := .island fn imm chan lanes places obj q slots true }) ∧
      (∀ k, k ≠ r.id → t.req k = s.req k))) ∧
  (∀ s cl chan f n, cl < 24 → chan < 128 → cl < s.clusters.length → chan < (s.cluster cl).channels.length →
    let h := s.channel cl chan
    let onChan (r : Req) : Prop := clusterOf r.core = cl ∧ ∃ a b c d e f g h, r.kind = .island a b chan c d e f g h
    let free : Nat := 16 - (s.reqs.filter fun r => clusterOf r.core == cl && match r.kind with
      | .island _ _ k _ _ _ _ _ accepted => k == chan && !accepted
      | _ => false).length
    let reset : Prop := 16 < h.free ∨ (h.free ≠ free ∧ h.bad = true)
    let sent : Prop := f = free + n ∧ f ≤ 16
    (¬sent → exec (.slotAudit cl chan f n) s = .next s) ∧
    (sent → ∃ t, exec (.slotAudit cl chan f n) s = .next t ∧
      (reset → t.channel cl chan = ⟨16, false⟩ ∧ ∀ r ∈ t.reqs, ¬onChan r) ∧
      (¬reset → h.free = free → t = s.updChannel cl chan fun k => { k with bad := false }) ∧
      (¬reset → h.free ≠ free → t.channel cl chan = ⟨free, true⟩ ∧ t.reqs = s.reqs) ∧
      (16 < h.free → t.counters.counts[8]? = s.counters.counts[8]?) ∧
      (h.free ≤ 16 → h.free ≠ free → ∀ n, s.counters.counts[8]? = some n →
        t.counters.counts[8]? = some (if n = 0xFFFFFFFF then n else n + 1)) ∧
      ∀ n, s.counters.counts[9]? = some n →
        (reset → t.counters.counts[9]? = some (if n = 0xFFFFFFFF then n else n + 1)) ∧
        (¬reset → t.counters.counts[9]? = some n))) ∧
  (∀ s cl kind slot, cl < s.clusters.length → (s.cluster cl).images.length = 4 →
    let n : Nat := match kind with
      | .raster => 0
      | .intersection => 1
      | .filter => 2
      | .blend => 3
    let units : List Nat := match kind with
      | .raster => [32]
      | .intersection => [33, 34]
      | .filter => [35, 36]
      | .blend => [37]
    let gated (u : Nat) : Prop := u ∈ units ∧ u ∈ (s.cluster cl).gate.gated
    (s.clusterBusy cl = true ∨ (s.cluster cl).gate.off = true → exec (.islandImageLoad cl kind slot) s = .next s) ∧
    (s.clusterBusy cl = false → (s.cluster cl).gate.off = false → (∃ u, gated u) →
      ∃ t, exec (.islandImageLoad cl kind slot) s = .next t ∧ t = { s with clusters := t.clusters } ∧
        (∀ u, gated u → u ∈ (t.cluster cl).gate.wanted) ∧ (∀ k, t.image cl k = s.image cl k) ∧
        ∀ k, k ≠ cl → t.cluster k = s.cluster k) ∧
    (s.clusterBusy cl = false → (s.cluster cl).gate.off = false → (∀ u, ¬gated u) →
      ∃ t, exec (.islandImageLoad cl kind slot) s = .next t ∧ t = { s with clusters := t.clusters } ∧
        t.image cl kind = (s.slot slot).images[n]? ∧ (∀ k, k ≠ kind → t.image cl k = s.image cl k) ∧
        ∀ k, k ≠ cl → t.cluster k = s.cluster k))

/-- R337: `ilink` attaches a result queue to an island, or detaches it once no slot of it is pending. That it takes effect at its
issue is the model's choice (DESIGN CHOICE, log entry 32); that a queue of a copy stream or a card counts as linked, stays so under
kind 3, and that ISLAND_FN is not raised, is DEDUCED (175). -/
def IslandLinks : Prop := ∀ c f u, Issues (.ilink f) c → c.w.queue (Form.qIndex f.d) = some u →
  let q := Form.qIndex f.d
  let kind : Option IslandKind := match f.c.toNat with
    | 0 => some .intersection
    | 1 => some .filter
    | 2 => some .raster
    | _ => none
  let waits : Prop := ∃ col ∈ u.cols, ∃ r k, .pending r k ∈ col
  (u.kind ≠ .result ∨ (kind ≠ none ∧ u.attach ≠ .none) ∨ (kind = some .raster ∧ u.depth < 5) →
    Raises (.ilink f) c .islandLink noInfo) ∧
  (∀ k, kind = some k → u.kind = .result → u.attach = .none → (k = .raster → 5 ≤ u.depth) →
    ∃ t g w, exec (.ilink f) c.s = .next t ∧ t = { c.s with wgs := t.wgs } ∧ t.wg c.g.id = some g ∧ g.wave c.w.id = some w ∧
      onlyQueue c q w ∧ w.queue q = some { u with attach := .island k } ∧
      g.raster = (if k = .raster then { c.g.raster with links := c.g.raster.links ++ [(c.w.id, q)] } else c.g.raster) ∧
      GroupEffect (.ilink f) c [] none c.slice.gf { w with queues := c.w.queues }) ∧
  (kind = none → u.kind = .result →
    (waits → Waits (.ilink f) c) ∧
    (¬waits → ∃ t g w, exec (.ilink f) c.s = .next t ∧ t = { c.s with wgs := t.wgs } ∧ t.wg c.g.id = some g ∧
      g.wave c.w.id = some w ∧ onlyQueue c q w ∧
      ((∃ k, u.attach = .island k) → w.queue q = some { u with attach := .none } ∧
        g.raster = { c.g.raster with links := c.g.raster.links.filter fun p => p != (c.w.id, q) }) ∧
      ((∀ k, u.attach ≠ .island k) → w.queue q = some u ∧ g.raster = c.g.raster) ∧
      GroupEffect (.ilink f) c [] none c.slice.gf { w with queues := c.w.queues }))

end Sys2Proof.Claims

/-- Results, channels, audits, images and links of the islands. -/
def Obligations.IslandEventsAndLinks : Prop := Sys2Proof.Claims.IslandEvents ∧ Sys2Proof.Claims.IslandLinks

namespace Sys2Proof.Claims

/-- A pixel's quad, by its even corner. -/
def cornerOf (q : List (List Word)) : Nat × Nat :=
  let w := laneAt ((q[0]?).getD []) 0
  (w.toNat % 2 ^ 16, w.toNat / 2 ^ 16)

end Sys2Proof.Claims

/-- R345, R346: the quads of a triangle are those of even corners that hold a covered pixel, each once, in ascending y and
then ascending x; lane k of a quad is its pixel. An edge that two triangles of one orientation share, in opposite
directions, is inclusive in exactly one of them. -/
def Obligations.TriangleCoverage : Prop :=
  (∀ (ws : List Word) (cull : Nat) (view : Word) (t : Tri), triOf ws cull = some t → 1 ≤ viewWidth view → viewWidth view ≤ 16384 →
    1 ≤ viewHeight view → viewHeight view ≤ 16384 →
    let qs := triQuads ws cull view
    (qs.map fun q => ((cornerOf q).2, (cornerOf q).1)).Pairwise (fun a b => a.1 < b.1 ∨ (a.1 = b.1 ∧ a.2 < b.2)) ∧
    (∀ q ∈ qs, (cornerOf q).1 % 2 = 0 ∧ (cornerOf q).2 % 2 = 0 ∧
      q = (List.range 4).map (fun k => t.pixelSlots view ((cornerOf q).1 + k % 2) ((cornerOf q).2 + k / 2)) ∧
      ∃ k, k < 4 ∧ t.covers view ((cornerOf q).1 + k % 2) ((cornerOf q).2 + k / 2) = true) ∧
    ∀ x y, t.covers view x y = true → ∃ q ∈ qs, cornerOf q = (x - x % 2, y - y % 2)) ∧
  (∀ (t u : Tri) (i j : Vertex), i ≠ j → (u.inclusive j i = true ↔ t.inclusive i j = false) ↔ (t.neg = u.neg)) ∧
  (∀ (t : Tri) (i j : Vertex) (p : Vertex), t.edge j i p = -t.edge i j p)

namespace Sys2Proof.Claims

/-- R346 to R348, R480: the first item of a stream is emitted once its request is accepted and an earlier stream that has ended
has nothing left to place, a gated island waking first; a batch goes to the earliest link, which it detaches, and an empty one
follows when the stream has ended, also for a queue linked after the end (DEDUCED, log entry 48). -/
def RasterStream : Prop := ∀ s g, s.wg g.id = some g →
  let gated := 32 ∈ (s.cluster (clusterOf g.core)).gate.gated
  (∀ it rest, g.raster.items = it :: rest →
    let held := (s.req it.req).isSome ∨ (g.raster.ended = true ∧ (g.raster.closed ≠ [] ∨ g.firstLink ≠ none))
    (held → exec (.rasterQuadEmit g.id) s = .next s) ∧
    (¬held → gated → exec (.rasterQuadEmit g.id) s = .next (s.wantUnit (clusterOf g.core) 32)) ∧
    (¬held → ¬gated →
      (it.stop = true → ∃ t h, exec (.rasterQuadEmit g.id) s = .next t ∧ t.wg g.id = some h ∧ t = { s with wgs := t.wgs } ∧
        h = { g with raster := h.raster } ∧ h.raster = { g.raster with
          items := rest, ended := true, batch := []
          closed := g.raster.closed ++ if g.raster.batch = [] then [] else [g.raster.batch] }) ∧
      (∀ m, it.stop = false → s.image (clusterOf g.core) .raster = some m → m.identity = 1 → g.raster.batch.length < 8 →
        let qs := triQuads it.words it.cull it.viewport
        ∃ t h, exec (.rasterQuadEmit g.id) s = .next t ∧ t.wg g.id = some h ∧ t = { s with wgs := t.wgs } ∧
          h = { g with raster := h.raster } ∧ h.raster.items = rest ∧ h.raster.links = g.raster.links ∧ h.raster.ended = false ∧
          h.raster.nextPlace = g.raster.nextPlace + 4 * qs.length ∧ h.raster.batch.length < 8 ∧
          (∃ new, h.raster.closed = g.raster.closed ++ new ∧ (∀ b ∈ new, b.length = 8) ∧
            new.flatten ++ h.raster.batch = g.raster.batch ++
              (List.range qs.length).map fun k => ⟨g.raster.nextPlace + 4 * k, (qs[k]?).getD []⟩)))) ∧
  (∀ p w u, g.firstLink = some (p, true) → g.wave p.1 = some w → w.queue p.2 = some u →
    (gated → (g.raster.closed ≠ [] ∨ g.raster.ended = true) →
      exec (.rasterBatchPlace g.id) s = .next (s.wantUnit (clusterOf g.core) 32)) ∧
    (¬gated → g.raster.closed ≠ [] ∨ (g.raster.ended = true ∧ g.raster.batch = []) →
    ∃ t h v x, exec (.rasterBatchPlace g.id) s = .next t ∧ t = { s with wgs := t.wgs } ∧ t.wg g.id = some h ∧
      h.wave p.1 = some v ∧ v.queue p.2 = some x ∧ x.kind = u.kind ∧ x.depth = u.depth ∧ x.attach = .none ∧
      (∀ k, k ≠ p.2 → v.queue k = w.queue k) ∧
      h.raster = { g.raster with closed := g.raster.closed.drop 1, links := g.raster.links.filter fun y => y != p } ∧
      ∀ l, l < 32 → ∃ new, x.col l = u.col l ++ new ∧
        (g.raster.closed = [] → new = .pixel 0 0 true false :: ([0x60000000, 0, 0, 0] : List Word).map QEntry.ready) ∧
        ∀ b z ws, g.raster.closed.head? = some b → b[l / 4]? = some z → z.slots[l % 4]? = some ws → ws.length = 5 →
          new.map (fun e => slotWord (some e)) = ws))

/-- A channel of a blended pixel (R350). -/
def blended (op : Nat) (s sa : Word) (d : XVal) : Word :=
  let x := decodeF .f32 s.toNat
  let a := decodeF .f32 sa.toNat
  match op with
  | 0 => s
  | 1 => bits32 ((x.mul a).add false (d.mul ((XVal.ofInt 1).add false a.neg)))
  | 2 => bits32 (x.add false d)
  | 3 => bits32 (if x.isNan || d.isNan then .nan else x.minOf d)
  | _ => bits32 (if x.isNan || d.isNan then .nan else x.maxOf d)

/-- The bytes of a line that the blend island of a cluster holds. -/
def heldLine (s : State) (cluster line : Nat) : Option (List Byte) :=
  ((s.cluster cluster).blend.find? fun b => b.line == line).map fun b => b.data

/-- R349, R350: the layout of a target table and which tables are good; the compare field of a colour entry may hold any value
(DEDUCED, log entry 176). -/
def TargetTables : Prop := ∀ bs : List Byte, bs.length = 128 →
  let w (k j : Nat) : Nat := natOfBytes ((bs.drop (16 * k + 4 * j)).take 4)
  let base (k : Nat) : Nat := w k 0 + 2 ^ 32 * w k 1
  let field (k lo n : Nat) : Nat := w k 2 / 2 ^ lo % 2 ^ n
  let entryGood (k : Nat) : Prop := base k = 0 ∨ (base k % 256 = 0 ∧ field k 27 5 = 0 ∧ field k 16 4 ∈ [1, 2, 3, 5] ∧
    1 ≤ field k 0 16 ∧ 1 ≤ w k 3 % 2 ^ 16 ∧ w k 3 % 2 ^ 16 ≤ 16384 ∧ 1 ≤ w k 3 / 2 ^ 16 ∧ w k 3 / 2 ^ 16 ≤ 16384 ∧
    field k 20 3 ≤ 4 ∧ (field k 16 4 = 5 → field k 23 3 ≤ 4))
  let isDepth (k : Nat) : Prop := base k ≠ 0 ∧ field k 16 4 = 5
  ((∃ ts, targetTable bs = some ts) ↔
    (∀ k, k < 8 → entryGood k) ∧ ∀ j k, j < 8 → k < 8 → isDepth j → isDepth k → j = k) ∧
  ∀ ts, targetTable bs = some ts → ts.length = 8 ∧ ∀ k t, ts[k]? = some t →
    t.base.toNat = base k ∧ t.zwrite = decide (field k 26 1 = 1) ∧ t.compare = field k 23 3 ∧ t.op = field k 20 3 ∧
    t.format = field k 16 4 ∧ t.pitch = field k 0 16 ∧ t.width = w k 3 % 2 ^ 16 ∧ t.height = w k 3 / 2 ^ 16

/-- R351: the island's compare of a tag's z with the stored depth; a NaN fails all but "always". -/
def depthResult (compare : Nat) (z stored : Word) : Bool :=
  let a := decodeF .f32 z.toNat
  let b := decodeF .f32 stored.toNat
  match compare with
  | 0 => true
  | 1 => a.lt b
  | 2 => a.lt b || a.eq b
  | 3 => b.lt a
  | _ => b.lt a || a.eq b

/-- R351: the result of a tag's depth test in state `s`, and the state after it: it is known already, there is no test, or the
stored depth is read and compared. -/
def Tested (r : Req) (depth : Option Target) (tag : PixelTag) (s : State) (pass : Bool) (t : State) : Prop :=
  (tag.tested = true ∧ pass = !tag.failed ∧ t = s) ∨
  (tag.tested = false ∧ (∀ d, depth = some d → d.compare = 0) ∧ pass = true ∧ t = s) ∨
  (tag.tested = false ∧ ∃ d p u z, depth = some d ∧ d.compare ≠ 0 ∧
    let va := d.base + BitVec.ofNat 64 (tag.y * d.pitch * 256 + tag.x * 4)
    d.format = 5 ∧ pixelPlace r .load va s = .ok (p, u) ∧ readPixel r va p 4 u = .ok (z, t) ∧ z.length = 4 ∧
    pass = depthResult d.compare tag.z (BitVec.ofNat 32 (natOfBytes z)))

/-- R350, R351: one lane of a request over a good table. An `ist` writes at the position of its first word. A `bpx` tests its tag
against the depth entry the first time, writes the color when it passes, and stores z with the final one where `zwrite` says
so; the tag keeps the result. Naming the depth entry, a bad table (a misaligned one: DEDUCED, log entry 50) raises ISLAND_DESC. -/
def LaneApplied : Prop := ∀ g r fn imm (obj : DWord) places l ws s s1 bs, obj.toNat % 128 = 0 →
  s.engineRead r.reader obj 128 = (.ok bs, s1) →
  (targetTable bs = none → applyLane g r fn imm obj places l ws s = .error (.cause .islandDesc obj)) ∧
  ∀ ts t, targetTable bs = some ts → ts[imm % 8]? = some t →
    (t.base ≠ 0 → t.format = 5 → applyLane g r fn imm obj places l ws s = .error (.cause .islandDesc obj)) ∧
    (t.base = 0 ∨ t.format ≠ 5 →
      (fn = 9 → applyLane g r fn imm obj places l ws s =
        colorWrite r 9 t ((laneAt ws 0).toNat % 2 ^ 16, (laneAt ws 0).toNat / 2 ^ 16) (ws.drop 1) s1) ∧
      ∀ pl tag, fn = 7 → places.find? (fun p => p.1 == l) = some (l, pl) → g.raster.tags.find? (fun x => x.place == pl) = some tag →
        let depth := ts.find? fun d => d.base ≠ 0 ∧ d.format = 5
        let final := decide (8 ≤ imm)
        let kept (pass : Bool) (u : State) : State :=
          u.updTag g.id pl fun x => { x with tested := true, failed := !pass, final := final }
        (∀ s2, Tested r depth tag s1 false s2 → applyLane g r fn imm obj places l ws s = .ok (kept false s2)) ∧
        ∀ s2 s3, Tested r depth tag s1 true s2 → colorWrite r 7 t (tag.x, tag.y) ws s2 = .ok s3 →
          ((imm < 8 ∨ ∀ d, depth = some d → d.zwrite = false) → applyLane g r fn imm obj places l ws s = .ok (kept true s3)) ∧
          ∀ d p u line, 8 ≤ imm → depth = some d → d.zwrite = true → d.format = 5 →
            pixelPlace r .store (d.base + BitVec.ofNat 64 (tag.y * d.pitch * 256 + tag.x * 4)) s3 = .ok (p, u) → p.mem = 0 →
            clusterOf r.core < u.clusters.length → heldLine u (clusterOf r.core) (lineOf p.pa) = some line → line.length = 128 →
            p.pa % 128 + 4 ≤ 128 →
            ∃ v z, applyLane g r fn imm obj places l ws s = .ok (kept true v) ∧ v = { u with clusters := v.clusters } ∧
              z.length = 4 ∧ natOfBytes z = tag.z.toNat ∧
              heldLine v (clusterOf r.core) (lineOf p.pa) = some (line.take (p.pa % 128) ++ z ++ line.drop (p.pa % 128 + 4)) ∧
              ∀ j, j ≠ lineOf p.pa → heldLine v (clusterOf r.core) j = heldLine u (clusterOf r.core) j)

/-- R350: nothing is written for a disabled target or outside it; R352: a pixel of a held line is read from the buffer. -/
def PixelReads : Prop :=
  (∀ r fn (t : Target) pos src s, t.base = 0 ∨ (fn = 9 ∧ (t.width ≤ pos.1 ∨ t.height ≤ pos.2)) → colorWrite r fn t pos src s = .ok s) ∧
  ∀ r va p n s line, p.mem = 0 → heldLine s (clusterOf r.core) (lineOf p.pa) = some line →
    ∃ u, readPixel r va p n s = .ok ((line.drop (p.pa % 128)).take n, u) ∧ u = { s with touched := u.touched }

/-- R351: a lane waits for an earlier request of its wave at its pixel, and a `bpx` for every earlier tag at its position that
a lane holds or an open or closed batch has, unless that tag had its final `bpx`; with no such tag or request it does not wait. -/
def PixelOrder : Prop := ∀ (s : State) (g : Workgroup) (r : Req) fn places l ws,
  let pos := requestPos g fn places l ws
  let earlier (t : PixelTag) : Prop := fn = 7 ∧ t ∈ g.raster.tags ∧ (t.x, t.y) = pos ∧ t.final = false ∧
    ∃ pl, places.find? (fun p => p.1 == l) = some (l, pl) ∧ t.place < pl
  let request (o : Req) : Prop := o ∈ s.reqs ∧ o.id < r.id ∧ o.w = r.w ∧ ∃ k imm ch ls ps obj q n acc,
    o.kind = .island k imm ch ls ps obj q n acc ∧ 7 ≤ k ∧ ∃ x ∈ ls, requestPos g k ps x.1 x.2 = pos
  ((∃ o, request o) → s.pixelWaits g r fn places l ws = true) ∧
  (∀ t, earlier t → (∃ w k, w ∈ g.waves ∧ (k, t.place) ∈ w.tags) ∨ (∃ q, q ∈ g.raster.batch ++ g.raster.closed.flatten ∧
    q.place ≤ t.place ∧ t.place < q.place + 4) → s.pixelWaits g r fn places l ws = true) ∧
  ((∀ t, ¬earlier t) → (∀ o, ¬request o) → s.pixelWaits g r fn places l ws = false)

/-- R350 to R352, R301: a request stays while the slice's earlier engine reads are to be performed, or while all its lanes must
wait; a lane that need not wait is applied in the island's buffer; a bad table halts the workgroup (a misaligned one with the request's PC in the record: DEDUCED, log entries 50 and 51). A write puts the blended pixel into the line of its address and changes nothing else; a
replace stores the source's bits (DEDUCED, log entry 141). A write-back moves a line to memory and gives up its ownership. -/
def Blending : Prop :=
  (∀ s r g fn imm chan lanes places obj q slots, s.req r.id = some r → s.touched = false → s.reached = [] →
    s.wg r.w.wg = some g → r.kind = .island fn imm chan lanes places obj q slots true → 7 ≤ fn →
    if s.readsBefore r.w r.id false = true then exec (.blendApply r.id) s = .next s else
    (lanes = [] → exec (.blendApply r.id) s = .next (s.endReq r.id)) ∧
    (lanes ≠ [] → (∀ x ∈ lanes, s.pixelWaits g r fn places x.1 x.2 = true) → exec (.blendApply r.id) s = .next s) ∧
    (∀ l ws, lanes.find? (fun x => !s.pixelWaits g r fn places x.1 x.2) = some (l, ws) →
      (applyLane g r fn imm obj places l ws s = .error .owned → exec (.blendApply r.id) s = .next s) ∧
      (obj.toNat % 128 ≠ 0 → ∃ info, info.origin = 2 ∧ info.unit = 3 ∧ info.apc = r.pc ∧
        exec (.blendApply r.id) s = .next (takeCause (s.endReq r.id) r.w r.sl (1#32 <<< l) r.pc .islandDesc info)) ∧
      (∀ t, applyLane g r fn imm obj places l ws s = .ok t → ∃ u, exec (.blendApply r.id) s = .next u ∧
        u.dmem = t.dmem ∧ u.hmem = t.hmem ∧ u.clusters = t.clusters ∧ u.owned = t.owned ∧
        (∀ k, k ≠ r.id → u.req k = t.req k) ∧
        (lanes.length = 1 → u.req r.id = none)))) ∧
  (∀ r fn (t : Target) pos src (s s1 : State) p m line, t.base ≠ 0 → (fn = 9 → pos.1 < t.width ∧ pos.2 < t.height) →
    let op := if fn = 9 then 0 else t.op
    let n := if t.format = 2 then 8 else 4
    let va := t.base + BitVec.ofNat 64 (pos.2 * t.pitch * 256 + pos.1 * n)
    pixelPlace r (if op = 0 then .store else .atomic) va s = .ok (p, s1) → p.mem = 0 →
    s1.image (clusterOf r.core) .blend = some m → m.identity = 1 → clusterOf r.core < s1.clusters.length →
    heldLine s1 (clusterOf r.core) (lineOf p.pa) = some line → line.length = 128 → p.pa % 128 + n ≤ 128 →
    t.format = 1 ∨ t.format = 2 ∨ t.format = 3 → src.length = 4 → op ≤ 4 →
    let old := (line.drop (p.pa % 128)).take n
    let channel (k : Nat) : Word := blended op (laneAt src k) (laneAt src 3) ((t.decode old)[k]?.getD (.zero false))
    ∃ u new, colorWrite r fn t pos src s = .ok u ∧ u = { s1 with clusters := u.clusters, touched := u.touched } ∧
      heldLine u (clusterOf r.core) (lineOf p.pa) = some (line.take (p.pa % 128) ++ new ++ line.drop (p.pa % 128 + n)) ∧
      (∀ j, j ≠ lineOf p.pa → heldLine u (clusterOf r.core) j = heldLine s1 (clusterOf r.core) j) ∧
      (t.format = 3 → natOfBytes new = (channel 0).toNat) ∧
      (t.format = 2 → natOfBytes new = (List.range 4).foldr (fun k x =>
        roundX .f16 .rn (decodeF .f32 (channel k).toNat) % 2 ^ 16 + 2 ^ 16 * x) 0) ∧
      (t.format = 1 → new.length = 4 ∧ ∀ k, k < 4 → ∀ b, new[k]? = some b →
        match decodeF .f32 (channel k).toNat with
        | .fin false x e => let y := XVal.ratio x e
            if y.2 ≤ y.1 then b = 255 else Nearest (255 * y.1) y.2 b.toNat
        | .inf false => b = 255
        | _ => b = 0)) ∧
  (∀ s cl line d, heldLine s cl line = some d → d.length = 128 → line % 128 = 0 → cl < s.clusters.length → Mem.wf s.dmem = true →
    WholeLines s cl → ∃ t, exec (.blendWriteback cl line) s = .next t ∧ heldLine t cl line = none ∧
      (∀ j, j ≠ line → heldLine t cl j = heldLine s cl j) ∧ t.owned = s.owned.erase ⟨line, .blend cl⟩ ∧
      (∀ k, k < 128 → Mem.get t.dmem (line + k) = (d[k]?).getD 0) ∧
      ∀ a, a < line ∨ line + 128 ≤ a → Mem.get t.dmem a = Mem.get s.dmem a ∨ Mem.get t.dmem a = l1Byte s cl a)

end Sys2Proof.Claims

/-- The raster stream, the target table, the order and depth of pixels, and the blend unit. -/
def Obligations.RasterStreamAndBlending : Prop := Sys2Proof.Claims.RasterStream ∧ Sys2Proof.Claims.TargetTables ∧
  Sys2Proof.Claims.LaneApplied ∧ Sys2Proof.Claims.PixelReads ∧ Sys2Proof.Claims.PixelOrder ∧ Sys2Proof.Claims.Blending

/-! The copy engine (16_copy.md). -/

namespace Sys2Proof.Claims

/-- What a copy instruction leaves beside its wave: one more command, with the wave's tag, and the lines that it owns. -/
def Commanded (c : Ctx) (scope : Nat) (nf : Bool) (moves : List Move) (stream : Option Stream) (completion : Word)
    (t : State) : Prop :=
  t.cmds = c.s.cmds ++ [⟨c.s.nextId, c.ref, c.core, c.vi, c.pc, c.w.copyTag, scope, nf, splitMoves moves, stream,
    completion, false, none, none, []⟩] ∧
  t.nextId = c.s.nextId + 1 ∧ t.dmem = c.s.dmem ∧ t.hmem = c.s.hmem ∧
  ∃ new, t.owned = c.s.owned ++ new ∧ ∀ o ∈ new, o.by_ = .command c.s.nextId ∧ o.line % 128 = 0

/-- The wave's command counter and statuses after it (R389, R400). -/
def Tagged (c : Ctx) (w : Wave) : Prop :=
  w.copyTag = (c.w.copyTag + 1) % 2 ^ 32 ∧ w.copyStatus = ((c.w.copyTag, 2 ^ 31) :: c.w.copyStatus).take 64

/-- The faults of a scratch range, and of a completion word and the scope word of a block (R392, R397, R402). -/
def rangeFaultsOf (c : Ctx) (off align n : Nat) : List (Cause × Info) :=
  let size := match c.s.launch c.g.launch with
    | some l => l.kernel.scratch
    | none => 0
  (if off % align = 0 then [] else [(.misaligned, { addr := BitVec.ofNat 64 off })]) ++
    if off + n ≤ size then [] else [(.scratchRange, { addr := BitVec.ofNat 64 off })]

def wordFaultsOf (c : Ctx) (w : Word) : List (Cause × Info) :=
  let x := w.toNat
  (if x / 2 ^ 20 % 2 ^ 10 = 0 ∧ x / 2 ^ 4 % 2 ^ 12 = 0 then [] else [(.copyForm, noInfo)]) ++
    if x < 2 ^ 31 then [] else match c.g.ring (x / 2 ^ 16 % 16) with
      | some r => if x % 16 < r.slots then [] else [(.barState, noInfo)]
      | none => [(.barState, noInfo)]

def tailFaultsOf (c : Ctx) (k : Nat) : List (Cause × Info) :=
  let m := (c.w.sreg (k + 7)).toNat
  (if 2 ≤ m % 8 ∧ m % 8 ≤ 4 ∧ (m / 8 = 0 ∨ m / 8 = 2) then [] else [(.copyForm, noInfo)]) ++ wordFaultsOf c (c.w.sreg (k + 6))

/-- The wave has 16 commands incomplete, or its cluster's engine holds 64 (R398). -/
def engineFull (c : Ctx) : Prop :=
  16 ≤ (c.s.cmds.filter fun k => k.w == c.ref).length ∨ 64 ≤ (c.s.cmds.filter fun k => clusterOf k.core == c.cluster).length

/-- A destination of some move lies behind a table entry in a line that an engine owns (R300). -/
def someLate (s : State) (c : Ctx) (moves : List Move) : Prop :=
  ∃ m ∈ splitMoves moves, lateDest s c.cluster c.vi m = true

/-- R389, R392, R395 to R398, R402: the linear and the lane commands; a reserved bit of the completion word is COPY_FORM in the
lane forms too (DEDUCED, log entry 57). -/
def LinearAndLaneCopies : Prop := ∀ c,
  (∀ dir g, Issues (.cpyLin dir g) c →
    let k := g.sa.toNat
    let x (j : Nat) : Nat := (c.w.sreg (k + j)).toNat
    let src := c.w.sreg64 k
    let dst := c.w.sreg64 (k + 2)
    let n := x 4
    let apart : Prop := n ≤ (dst - src).toNat ∧ n ≤ (src - dst).toNat
    let form : Prop := 1 ≤ n ∧ n ≤ 2 ^ 20 ∧ x 5 = 0 ∧ (dir = .gg → apart) ∧ (dir = .gs → x 3 = 0) ∧ (dir = .sg → x 1 = 0)
    let range := match dir with
      | .gg => []
      | .gs => rangeFaultsOf c (x 2) 1 n
      | .sg => rangeFaultsOf c (x 0) 1 n
    let move : Move := match dir with
      | .gg => ⟨.global src, .global dst, n⟩
      | .gs => ⟨.global src, .scratch (x 2), n⟩
      | .sg => ⟨.scratch (x 0), .global dst, n⟩
    (engineFull c → Waits (.cpyLin dir g) c) ∧
    (¬engineFull c → ∀ list, (form → list = range ++ tailFaultsOf c k) →
      (¬form → list = (.copyForm, noInfo) :: (range ++ tailFaultsOf c k)) →
      (∀ e info, firstLowest list = some (e, info) → Raises (.cpyLin dir g) c e info) ∧
      (list = [] → someLate c.s c [move] → Waits (.cpyLin dir g) c) ∧
      (list = [] → ¬someLate c.s c [move] → ∃ t w, exec (.cpyLin dir g) c.s = .next t ∧ t.wave c.ref = some w ∧
        Commanded c (x 7 % 8) (decide (x 7 / 16 % 2 = 1)) [move] none (c.w.sreg (k + 6)) t ∧ Tagged c w ∧
        GroupEffect (.cpyLin dir g) c (toReg g.sd (BitVec.ofNat 32 c.w.copyTag)) (toMask g.sd (BitVec.ofNat 32 c.w.copyTag))
          (gfWord32 c.slice.gf (BitVec.ofNat 32 c.w.copyTag) none none none)
          { w with copyTag := c.w.copyTag, copyStatus := c.w.copyStatus }))) ∧
  (∀ f, ∀ p ∈ [(Instr.cpyGth f, true), (.cpySct f, false)], Issues p.1 c →
    let n := 2 ^ (f.mode.toNat % 8)
    let j := f.d.toNat % 2 ^ 7
    let off := (c.w.sreg j).toNat
    let lanes := (lanesOf c.em).filter fun l => !c.w.helper.getLsbD l
    let last := match lanes.getLast? with
      | some l => (l + 1) * n
      | none => 0
    let odd := match lanes.find? fun l => (addressOf c f l).toNat % n != 0 with
      | some l => [(Cause.misaligned, ({ addr := addressOf c f l, lane := some l } : Info))]
      | none => []
    let far := (lanes.filter fun l => !canonical (addressOf c f l)).map fun l =>
      (Cause.addrNoncanon, ({ addr := addressOf c f l, lane := some l } : Info))
    let list := odd ++ far ++ rangeFaultsOf c off n last ++ wordFaultsOf c (c.w.sreg (j + 1))
    let moves : List Move := lanes.map fun l => if p.2 then ⟨.global (addressOf c f l), .scratch (off + l * n), n⟩
      else ⟨.scratch (off + l * n), .global (addressOf c f l), n⟩
    (engineFull c → Waits p.1 c) ∧
    (¬engineFull c → (∀ e info, firstLowest list = some (e, info) → Raises p.1 c e info) ∧
      (list = [] → someLate c.s c moves → Waits p.1 c) ∧
      (list = [] → ¬someLate c.s c moves → ∃ t w, exec p.1 c.s = .next t ∧ t.wave c.ref = some w ∧
        Commanded c (f.flags.toNat % 8) (f.flags.getLsbD 4) moves none (c.w.sreg (j + 1)) t ∧ Tagged c w ∧
        GroupEffect p.1 c (if f.c = 0 then [] else [(f.c.toNat % 2 ^ 7, BitVec.ofNat 32 c.w.copyTag)]) none c.slice.gf
          { w with copyTag := c.w.copyTag, copyStatus := c.w.copyStatus })))

/-- Bits of an element of a format (R390). -/
def formatBits (format : Nat) : Nat :=
  match format with
  | 1 | 5 => 4
  | 2 | 6 => 8
  | 3 => 16
  | _ => 32

/-- R390: a good record's fields and what holds of them. -/
def goodRecord (bs : List Byte) (r : LayoutRec) : Prop :=
  let word (k n : Nat) : Nat := natOfBytes ((bs.drop (4 * k)).take (4 * n))
  r = ⟨word 0 2, word 2 2, word 4 1, word 5 1, word 6 1, word 7 1, word 8 1⟩ ∧
  r.ebase % 16 = 0 ∧ r.epitch % 16 = 0 ∧ 1 ≤ r.rows ∧ r.rows ≤ 2 ^ 24 ∧ 1 ≤ r.cols ∧ r.cols ≤ 2 ^ 24 ∧
  1 ≤ r.format ∧ r.format ≤ 6 ∧ (∀ k, 36 ≤ k → k < 64 → bs[k]? = some 0) ∧
  r.cols * formatBits r.format ≤ 8 * r.epitch ∧ (r.format = 1 → r.cols % 2 = 0) ∧
  (r.format < 5 → r.sbase = 0 ∧ r.spitch = 0) ∧ (5 ≤ r.format → r.cols % 4 = 0 ∧ r.spitch % 4 = 0 ∧ r.cols ≤ 4 * r.spitch ∧
    (r.ebase + (r.rows - 1) * r.epitch + r.cols * formatBits r.format / 8 ≤ r.sbase ∨
      r.sbase + (r.rows - 1) * r.spitch + r.cols / 4 ≤ r.ebase))

/-- The moves of row i of a tile (R393). -/
def tileRowMoves (t : Tile) (dir : TileDir) (off i : Nat) : List Move :=
  let width (n : Nat) : Nat := n * formatBits t.r.format / 8
  let scaled : Bool := decide (5 ≤ t.r.format)
  let rb := width t.cols
  let sb := if scaled then t.cols / 4 else 0
  let n := if t.row0 + i < t.r.rows then min t.cols (t.r.cols - t.col0) else 0
  let k := if scaled then n / 4 else 0
  let elems : CopyEnd := .global (BitVec.ofNat 64 (t.r.ebase + (t.row0 + i) * t.r.epitch + width t.col0))
  let scales : CopyEnd := .global (BitVec.ofNat 64 (t.r.sbase + (t.row0 + i) * t.r.spitch + t.col0 / 4))
  let row := off + i * rb
  let srow := off + t.rows * rb + i * sb
  match dir with
  | .sg => [⟨.scratch row, elems, width n⟩, ⟨.scratch srow, scales, k⟩]
  | _ => [⟨elems, .scratch row, width n⟩, ⟨.fill 0, .scratch (row + width n), rb - width n⟩,
      ⟨scales, .scratch srow, k⟩, ⟨.fill 0x7F, .scratch (srow + k), sb - k⟩]

/-- A queue that a wave of the workgroup may stream that many slots to (R394). -/
def takesStream (c : Ctx) (wave q slots : Nat) : Bool := match (c.g.wave wave).bind fun w => w.queue q with
  | some u => decide (u.kind = .result ∧ slots ≤ u.depth ∧ (u.attach = .none ∨ u.attach = .copy c.w.id))
  | none => false

/-- The faults of a tile and its target, for a record's format (R392 to R394): COPY_FORM of a field out of range, COPY_TARGET of a
queue that cannot be streamed to, and the faults of the scratch range that the tile takes. -/
def tileFaultsOf (c : Ctx) (dir : TileDir) (format rows cols col0 : Nat) (target : Word) : List (Cause × Info) :=
  let rb := cols * formatBits format / 8
  let sb := if 5 ≤ format then cols / 4 else 0
  let x := target.toNat
  let form : Prop := col0 % (if 5 ≤ format then 4 else if format = 1 then 2 else 1) = 0 ∧
    1 ≤ rows ∧ rows ≤ (if dir = .gq then 32 else 256) ∧ cols * formatBits format % 32 = 0 ∧ rb ≤ 4096 ∧
    (5 ≤ format → cols % 16 = 0) ∧ (dir = .gq → x / 2 ^ 4 % 2 ^ 12 = 0 ∧ x / 2 ^ 21 = 0)
  (if form then [] else [(.copyForm, noInfo)]) ++ match dir with
    | .gq => if takesStream c (x / 2 ^ 16 % 32) (x % 16) ((rb + sb) / 4) = true then [] else [(.copyTarget, noInfo)]
    | _ => rangeFaultsOf c x 16 (rows * (rb + sb))

/-- What can be checked of a tile whose record is bad or unread: the faults that it has with every format that the record can be
taken to have (R8; DEDUCED, log entry 55). -/
def bareFaultsOf (c : Ctx) (dir : TileDir) (formats : List Nat) (rows cols col0 : Nat) (target : Word) : List (Cause × Info) :=
  match formats with
  | [] => []
  | f :: _ => (tileFaultsOf c dir f rows cols col0 target).filter fun p =>
      formats.all fun k => (tileFaultsOf c dir k rows cols col0 target).any fun q => q.1 == p.1

/-- R390: which records are good; a misaligned one is LAYOUT_BAD unless its address has a cause (R8), and a bad record has its own
format or any (DEDUCED, log entry 55). -/
def LayoutRecords : Prop :=
  (∀ bs r, bs.length = 64 → (layoutOf bs = some r ↔ goodRecord bs r)) ∧
  (∀ (s : State) cluster vi va, va.toNat % 64 ≠ 0 → (s.layoutAt cluster vi va).1 = match s.readFault cluster vi va 64 with
    | some .owned => none
    | some (.cause e _) => some (.error (e, [1, 2, 3, 4, 5, 6]))
    | none => some (.error (.layoutBad, [1, 2, 3, 4, 5, 6]))) ∧
  ∀ (s : State) cluster vi va e fs, (s.layoutAt cluster vi va).1 = some (.error (e, fs)) →
    fs = [1, 2, 3, 4, 5, 6] ∨ (e = .layoutBad ∧ ∃ f, 1 ≤ f ∧ f ≤ 6 ∧ fs = [f])

/-- R390 to R394, R401: `cpy.tile` checks its record, tile and target, and forms the command of its rows; `lrec` answers for a
record; `cpy.stat` for a tag; `tfence` empties the layout cache once the wave's stores are performed (DEDUCED, log entry 37). -/
def TileCopiesAndStatus : Prop :=
  (∀ c dir g, Issues (.cpyTile dir g) c →
    let k := g.sa.toNat
    let x (j : Nat) : Nat := (c.w.sreg (k + j)).toNat
    let got := c.s.layoutAt c.cluster c.vi (c.w.sreg64 k)
    (engineFull c ∨ got.1 = none → Waits (.cpyTile dir g) c) ∧
    (¬engineFull c → ∀ e formats, got.1 = some (.error (e, formats)) →
      ∀ a info, firstLowest ((e, { addr := c.w.sreg64 k }) ::
          bareFaultsOf c dir formats (x 4 / 2 ^ 16) (x 4 % 2 ^ 16) (x 3) (c.w.sreg (k + 5)) ++ tailFaultsOf c k) = some (a, info) →
        Raises (.cpyTile dir g) c a info) ∧
    (¬engineFull c → ∀ r, got.1 = some (.ok r) →
      let tile : Tile := ⟨r, x 2, x 3, x 4 / 2 ^ 16, x 4 % 2 ^ 16⟩
      let target := tileFaultsOf c dir r.format tile.rows tile.cols tile.col0 (c.w.sreg (k + 5))
      (∀ a info, firstLowest (target ++ tailFaultsOf c k) = some (a, info) → Raises (.cpyTile dir g) c a info) ∧
      let late : Prop := dir = .sg ∧ someLate got.2 c ((List.range tile.rows).flatMap (tileRowMoves tile .sg (x 5)))
      (target ++ tailFaultsOf c k = [] → late → Waits (.cpyTile dir g) c) ∧
      (target ++ tailFaultsOf c k = [] → ¬late → ∃ t w, exec (.cpyTile dir g) c.s = .next t ∧ t.wave c.ref = some w ∧ Tagged c w ∧
        GroupEffect (.cpyTile dir g) c (toReg g.sd (BitVec.ofNat 32 c.w.copyTag)) (toMask g.sd (BitVec.ofNat 32 c.w.copyTag))
          (gfWord32 c.slice.gf (BitVec.ofNat 32 c.w.copyTag) none none none)
          { w with copyTag := c.w.copyTag, copyStatus := c.w.copyStatus, queues := c.w.queues } ∧
        ∃ moves stream, Commanded { c with s := { got.2 with dmem := t.dmem } } (x 7 % 8) (decide (x 7 / 16 % 2 = 1)) moves stream
          (c.w.sreg (k + 6)) t ∧
          (dir ≠ .gq → stream = none ∧ w.queues = c.w.queues ∧
            moves = (List.range tile.rows).flatMap (tileRowMoves tile dir (x 5))) ∧
          (dir = .gq → moves = [] ∧ ∃ st v u, stream = some st ∧ st.wave = x 5 / 2 ^ 16 % 32 ∧ st.q = x 5 % 16 ∧
            st.words = (tile.rb + tile.sb) / 4 ∧ st.next = 0 ∧ st.held = [] ∧
            st.rows = (List.range tile.rows).map (tileRowMoves tile dir 0) ∧
            t.wave ⟨c.g.id, st.wave⟩ = some v ∧ v.queue st.q = some u ∧ u.kind = .result ∧ (st.words ≠ 0 → u.attach = .copy c.w.id) ∧
            (st.words = 0 → w.queues = c.w.queues))))) ∧
  (∀ c g, Issues (.lrec g) c →
    let got := c.s.layoutAt c.cluster c.vi (c.w.sreg64 g.sa.toNat)
    (got.1 = none → Waits (.lrec g) c) ∧
    (∀ r, got.1 = some r → ∃ t w, exec (.lrec g) c.s = .next t ∧ t.wave c.ref = some w ∧ t.hmem = c.s.hmem ∧
      let x : Word := match r with
        | .ok _ => 0
        | .error e => BitVec.ofNat 32 e.1.code
      GroupEffect (.lrec g) c (toReg g.sd x) (toMask g.sd x) (gfWord32 c.slice.gf x none none none) w)) ∧
  (∀ c g, Issues (.cpyStat g) c →
    let x : Word := match c.w.copyStatus.lookup (c.gsrc g g.sa).toNat with
      | some y => BitVec.ofNat 32 y
      | none => 0x20000000
    GroupCompletes (.cpyStat g) c (toReg g.sd x) (toMask g.sd x) (gfWord32 c.slice.gf x none none none)) ∧
  (∀ c, Issues .tfence c → (c.s.storesDone c.ref c.s.nextId = false → Waits .tfence c) ∧
    (c.s.storesDone c.ref c.s.nextId = true → ∃ t, exec .tfence c.s = .next t ∧
      (c.cluster < c.s.clusters.length → (t.cluster c.cluster).layouts = []) ∧ (∃ w, t.wave c.ref = some w ∧
      GroupEffect .tfence c [] none c.slice.gf w)))

end Sys2Proof.Claims

/-- Copy instructions check their operands and place a command, and the instructions about commands. -/
def Obligations.CopyInstructions : Prop := Sys2Proof.Claims.LinearAndLaneCopies ∧ Sys2Proof.Claims.LayoutRecords ∧
  Sys2Proof.Claims.TileCopiesAndStatus

namespace Sys2Proof.Claims

/-- The start of each piece of a range, from `k` on. -/
def PiecesFrom (m : Move) : Nat → List Move → Prop
  | k, [] => k = m.n
  | k, p :: ps => 0 < p.n ∧ p.src = m.src.at_ k ∧ p.dst = m.dst.at_ k ∧ PiecesFrom m (k + p.n) ps

def inLine (e : CopyEnd) (n : Nat) : Prop := ∀ va, e = .global va → va.toNat % 128 + n ≤ 128
def inUnit (e : CopyEnd) (n : Nat) : Prop := ∀ off, e = .scratch off → off % 16 + n ≤ 16

/-- The last byte that moves with their bytes put at a scratch offset. -/
def landing (rs : List (Move × List Byte)) (a : Nat) : Option Byte := rs.foldl (fun x p => match p.1.dst with
  | .scratch off => if off ≤ a ∧ a < off + p.2.length then p.2[a - off]? else x
  | _ => x) none

/-- A scratch word that moves read. -/
def readsWord (ms : List Move) (a : Nat) : Prop := ∃ m ∈ ms, ∃ off, m.src = .scratch off ∧ off / 4 ≤ a ∧ 4 * a < off + m.n

/-- R300, R395, R399, R402: a range is cut into pieces that follow each other and lie in one line at both ends, and in scratch
in one unit of 16 bytes that is written; the pieces of one destination line or unit are copied together or not at all (DESIGN
CHOICE, log entry 43); a move puts the bytes of its source at its destination and nowhere else; a scratch word of a source is read
once, whatever is stored to it later. A line that an L1 cache gives up for room is written back. -/
def CopiedBytes : Prop :=
  (∀ (m : Move), m.n ≤ 2 ^ 21 → PiecesFrom m 0 (splitMoves [m]) ∧ ∀ p ∈ splitMoves [m],
    inLine p.src p.n ∧ inLine p.dst p.n ∧ inUnit p.dst p.n) ∧
  (∀ (k : Command) (m : Move) (s s1 : State) off g rs, m.dst = .scratch off →
    readMoves k (k.todo.filter fun x => s.copyUnit k x.dst == s.copyUnit k m.dst) s = .ok (rs, s1) → s1.wg k.w.wg = some g →
    rs.map Prod.fst = (k.todo.filter fun x => s.copyUnit k x.dst == s.copyUnit k m.dst) ∧ ∃ t h, k.perform m s = .ok t ∧
      t.wg k.w.wg = some h ∧ t.dmem = s1.dmem ∧ t.hmem = s1.hmem ∧ h = { g with scratch := h.scratch } ∧
      (∀ a, h.scratch.get a = (landing rs a).getD (g.scratch.get a)) ∧
      ∀ g0, s.wg k.w.wg = some g0 → s1.cmd k.id = some k → ∃ j, t.cmd k.id = some j ∧
        j.todo = (k.todo.filter fun x => !(s.copyUnit k x.dst == s.copyUnit k m.dst)) ∧
        ∀ a b, b < 4 → readsWord j.todo a → readsWord (rs.map Prod.fst) a →
          ∀ later, j.scratchByte later (4 * a + b) = k.scratchByte g0.scratch (4 * a + b)) ∧
  (∀ (k : Command) (m : Move) (s : State) e, readMoves k (k.todo.filter fun x => s.copyUnit k x.dst == s.copyUnit k m.dst) s = .error e →
    k.perform m s = .error e) ∧
  (∀ (k : Command) (m : Move) (s s1 : State) bs, readEnd k m.src m.n s = .ok (bs, s1) →
    (readMoves k [m] s = .ok ([(m, bs)], s1)) ∧
    (∀ b, m.src = .fill b → bs = List.replicate m.n b ∧ s1 = s) ∧
    (∀ off g, m.src = .scratch off → s.wg k.w.wg = some g → s1 = s ∧ bs.length = m.n ∧
      ∀ j, j < m.n → (bs[j]? = match k.words.find? fun p => p.1 == (off + j) / 4 with
        | some p => some ((p.2[(off + j) % 4]?).getD 0)
        | none => some (g.scratch.get (off + j)))) ∧
    (∀ va, m.src = .global va → ∃ p t, locate s (clusterOf k.core) none k.vi va .load = (.ok p, t) ∧
      (p.mem = 0 → (∀ o, t.ownerOf (lineOf p.pa) = some o → o = .command k.id) ∧
        bs = (t.loadAt (clusterOf k.core) none k.scope p m.n).1)) ∧
    (∀ va p t, m.dst = .global va → (k.todo.filter fun x => s.copyUnit k x.dst == s.copyUnit k m.dst) = [m] →
      locate s1 (clusterOf k.core) none k.vi va .store = (.ok p, t) → p.mem = 0 → t.delayed = false →
      (∀ o, t.ownerOf (lineOf p.pa) = some o → o = .command k.id) → (k.scope = 3 ∨ k.scope = 4 ∧ t.inHostBias p.pa = false) →
      WholeLines t (clusterOf k.core) →
      ∃ u, k.perform m s = .ok u ∧ u.hmem = t.hmem ∧
        (∀ q x, locate { u with owned := t.owned } (clusterOf k.core) none k.vi va .store = (.ok q, x) →
          ∀ o, o ∈ u.owned ↔ o ∈ t.owned ∧ ¬(o.line = lineOf q.pa ∧ o.by_ = .command k.id)) ∧
        (∀ j b, bs[j]? = some b → Mem.get u.dmem (p.pa + j) = b) ∧
        ∀ a, a < p.pa ∨ p.pa + bs.length ≤ a →
          Mem.get u.dmem a = Mem.get t.dmem a ∨ Mem.get u.dmem a = l1Byte t (clusterOf k.core) a))

/-- A move goes to the scratch line that the engine has begun to write for a command. -/
def midLine (k : Command) (m : Move) : Bool := match m.dst, k.line with
  | .scratch off, some l => off / 128 == l
  | _, _ => false

/-- A command's workgroup lets the engine run it, or is saved while the engine is in the middle of a scratch line (R404). -/
def runs (s : State) (k : Command) : Bool := match s.wg k.w.wg with
  | some g => match g.status with
    | .resident | .halting _ | .discarding => true
    | .saving => k.failed.isNone && k.todo.any (midLine k)
    | _ => false
  | none => false

/-- The move that the engine copies next of a command. -/
def nextOf (s : State) (k : Command) : Option Move :=
  if (s.wg k.w.wg).any (fun g => g.status == .saving) && k.todo.any (midLine k) then k.todo.find? (midLine k) else k.todo.head?

/-- R394, R397, R399, R402, R403: the engine serves its first command that has something left; a stream's words are placed in
every row's column at once; a command that has finished sets its status to 0 and arrives, and one that failed sets its
cause and, without `.nf`, halts its workgroup. A command starts only once the release of its issue is complete (DEDUCED, log
entry 59). R300: a recall makes the blend island write its line back, or the engine write the line of a live command next, also
before that release when the release waits for the line itself (DEDUCED, log entry 169); the command then owns it no more. -/
def CopyEvents : Prop :=
  (∀ s cl,
    let first := s.cmds.find? fun k => clusterOf k.core == cl && k.failed.isNone && runs s k &&
      (!k.todo.isEmpty || match k.stream with
        | some t => decide (t.next < t.words)
        | none => false)
    (first = none → exec (.copyEngineServe cl) s = .next s) ∧
    ((s.cluster cl).gate.gated.contains 38 = true → first.isSome →
      exec (.copyEngineServe cl) s = .next (s.wantUnit cl 38)) ∧
    (∀ k, first = some k → (s.cluster cl).gate.gated.contains 38 = false →
      (k.started = false → s.released k.w .a k.id = false → exec (.copyEngineServe cl) s = .next s) ∧
      (k.started = false → s.released k.w .a k.id = true → ∃ t, exec (.copyEngineServe cl) s = .next t ∧
        t.cmds = (s.cmds.map fun j => if j.id = k.id then { j with started := true } else j) ∧ t.wgs = s.wgs ∧
        t.reqs = s.reqs ∧ t.hmem = s.hmem) ∧
      (∀ m, k.started = true → nextOf s k = some m → s.touched = false → s.reached = [] →
        (∀ t, k.perform m s = .ok t → exec (.copyEngineServe cl) s = .next (t.credit k.w.wg)) ∧
        (k.perform m s = .error .owned → exec (.copyEngineServe cl) s = .next s) ∧
        (∀ c va, k.perform m s = .error (.cause c va) → exec (.copyEngineServe cl) s =
          .next { s with cmds := s.cmds.map fun j => if j.id = k.id then { j with failed := some (c, va) } else j })) ∧
      (∀ t u, k.started = true → k.todo = [] → k.stream = some t → k.readWord t s = .ok u →
        exec (.copyEngineServe cl) s = .next (u.credit k.w.wg)))) ∧
  (∀ s k t w u ws rest, s.cmd k.id = some k → k.stream = some t → t.held = ws :: rest →
    s.wave ⟨k.w.wg, t.wave⟩ = some w → w.queue t.q = some u → s.streamBefore k t = false → t.rows.length ≤ 32 →
    ((∃ l, l < t.rows.length ∧ u.depth ≤ (u.col l).length) → exec (.copyQueueWordPlace k.id) s = .next s) ∧
    ((∀ l, l < t.rows.length → (u.col l).length < u.depth) → ∃ x v p, exec (.copyQueueWordPlace k.id) s = .next x ∧
      x.wave ⟨k.w.wg, t.wave⟩ = some v ∧ v.queue t.q = some p ∧ (∀ j, j ≠ t.q → v.queue j = w.queue j) ∧
      (∀ l, l < 32 → p.col l = u.col l ++ if l < t.rows.length then [.ready (laneAt ws l)] else []) ∧
      x.cmd k.id = some { k with stream := some { t with held := rest } } ∧
      let more : Prop := t.next < t.words ∨ rest ≠ []
      let other : Prop := ∃ j ∈ s.cmds, j.id ≠ k.id ∧ j.w = k.w ∧ ∃ y, j.stream = some y ∧ y.wave = t.wave ∧ y.q = t.q ∧
        (y.next < y.words ∨ y.held ≠ [])
      (more ∨ other → p.attach = u.attach) ∧ (¬more → ¬other → u.attach = .copy k.w.wave → p.attach = .none))) ∧
  (∀ s k, s.cmd k.id = some k →
    let ended (t : State) (status : Nat) : Prop := t.cmd k.id = none ∧ (∀ j, j ≠ k.id → t.cmd j = s.cmd j) ∧
      (∀ o ∈ t.owned, o.by_ ≠ .command k.id) ∧ (∀ o ∈ s.owned, o.by_ ≠ .command k.id → o ∈ t.owned) ∧
      t.dmem = (if k.failed = none ∧ k.started = false then s.releaseAt k.core k.scope else s).dmem ∧ t.hmem = s.hmem ∧
      ∀ w, s.wave k.w = some w → ∃ v, t.wave k.w = some v ∧
        v.copyStatus = w.copyStatus.map fun p => if p.1 = k.tag then (k.tag, status) else p
    let left : Prop := k.todo ≠ [] ∨ ∃ t, k.stream = some t ∧ (t.next < t.words ∨ t.held ≠ [])
    (k.failed = none → left → exec (.copyCommandComplete k.id) s = .next s) ∧
    (k.failed = none → k.started = false → s.released k.w .a k.id = false →
      exec (.copyCommandComplete k.id) s = .next s) ∧
    (k.failed = none → ¬left → k.started = true ∨ s.released k.w .a k.id = true → ∃ t, exec (.copyCommandComplete k.id) s = .next t ∧
      ended t 0) ∧
    (k.failed = none → exec (.copyDataFailure k.id) s = .next s) ∧
    (∀ c va, k.failed = some (c, va) → ∃ t, exec (.copyDataFailure k.id) s = .next t ∧ ended t (2 ^ 30 + c.code) ∧
      (k.nf = false → ∀ g, s.wg k.w.wg = some g → g.status = .resident → ∃ h x, t.wg k.w.wg = some h ∧
        h.status = .halting x ∧ x.cause = c ∧ x.origin = 2 ∧ x.addr = va ∧ x.apc = k.pc ∧
        x.detail = BitVec.ofNat 16 k.tag) ∧
      (k.nf = true → ∀ g h, s.wg k.w.wg = some g → t.wg k.w.wg = some h → h.status = g.status))) ∧
  (∀ s cl line, (s.ownerOf line = none → exec (.directoryRecall cl line) s = .next s) ∧
    (∀ b, s.ownerOf line = some (.blend b) → exec (.directoryRecall cl line) s = exec (.blendWriteback b line) s) ∧
    (∀ k, s.ownerOf line = some (.command k) → s.cmd k = none → ∃ t, exec (.directoryRecall cl line) s = .next t ∧
      t = { s with owned := t.owned } ∧ ∀ o, o ∈ t.owned ↔ o ∈ s.owned ∧ o.by_ ≠ .command k) ∧
    (∀ k, s.ownerOf line = some (.command k.id) → s.cmd k.id = some k →
      let here (m : Move) : Prop := ∃ va p t, m.dst = .global va ∧
        locate s (clusterOf k.core) none k.vi va .store = (.ok p, t) ∧ p.mem = 0 ∧ lineOf p.pa = line
      let gated := 38 ∈ (s.cluster (clusterOf k.core)).gate.gated
      let ready := k.started = true ∨ s.released k.w .a k.id = true
      let begun : State := if k.started = true then s else if s.released k.w .a k.id = true then
          { s.releaseAt k.core k.scope with cmds := s.cmds.map fun j => if j.id = k.id then { j with started := true } else j }
        else s
      (k.failed.isSome → exec (.directoryRecall cl line) s = .next s) ∧
      (k.failed = none → gated → exec (.directoryRecall cl line) s = .next (s.wantUnit (clusterOf k.core) 38)) ∧
      (k.failed = none → ¬gated → (∀ m ∈ k.todo, ¬here m) → ∃ t, exec (.directoryRecall cl line) s = .next t ∧
        t = { s with owned := t.owned } ∧ ∀ o, o ∈ t.owned ↔ o ∈ s.owned ∧ ¬(o.line = line ∧ o.by_ = .command k.id)) ∧
      (k.failed = none → ¬gated → ¬ready → s.circular k = false → (∃ m ∈ k.todo, here m) →
        exec (.directoryRecall cl line) s = .next s) ∧
      (∀ before m after, k.failed = none → ¬gated → ready ∨ s.circular k = true → k.todo = before ++ m :: after →
        (∀ x ∈ before, ¬here x) → here m → ∃ t, exec (.directoryRecall cl line) s = .next (t.credit k.w.wg) ∧
          (∀ u, k.perform m begun = .ok u → t = u) ∧ (k.perform m begun = .error .owned → t = begun) ∧
          ∀ c va, k.perform m begun = .error (.cause c va) → t =
            { begun with cmds := begun.cmds.map fun j => if j.id = k.id then { j with failed := some (c, va) } else j })))

end Sys2Proof.Claims

/-- What a copy moves, in which pieces, and how a command ends. -/
def Obligations.CopiedBytesAndEvents : Prop := Sys2Proof.Claims.CopiedBytes ∧ Sys2Proof.Claims.CopyEvents

/-! Spatial mode (15_spatial.md). -/

namespace Sys2Proof.Claims

/-- R367 to R370: `gload` takes an image, shared or loaded, into an empty entry and writes 0, or 1 when no context is free,
at its completion; of several causes it raises the lowest (R8), GRAPH_IMAGE for an unaligned address among them (DEDUCED, log
entry 60). `gunload` empties an entry that no card slot uses. -/
def GraphTables : Prop :=
  (∀ c g, Issues (.gload g) c →
    let n := g.sb.toNat
    let va := c.w.sreg64 g.sa.toNat
    let x := c.s.readImage c.cluster c.vi va
    let with_ (list : List (Cause × Info)) : Prop := ∀ e info,
      firstLowest ((if (c.g.graph n).isSome then [(.graphState, noInfo)] else []) ++ list) = some (e, info) →
        Raises (.gload g) c e info
    (va.toNat % 64 ≠ 0 →
      (c.s.readFault c.cluster c.vi va 64 = some .owned → Waits (.gload g) c) ∧
      (∀ k a, c.s.readFault c.cluster c.vi va 64 = some (.cause k a) → with_ [(.graphImage, { addr := va }), (k, { addr := a })]) ∧
      (c.s.readFault c.cluster c.vi va 64 = none → with_ [(.graphImage, { addr := va })])) ∧
    (va.toNat % 64 = 0 →
      (x.1 = .error .owned → Waits (.gload g) c) ∧
      (∀ k a, x.1 = .error (.cause k a) → with_ [(k, { addr := a })]) ∧
      (∀ img, x.1 = .ok img → with_ (if imageNodes img = none then [(.graphImage, { addr := va })] else [])) ∧
      (∀ img, x.1 = .ok img → c.g.graph n = none → (imageNodes img).isSome → n < c.g.graphs.length → c.cluster < c.s.clusters.length →
        (c.s.cluster c.cluster).contexts.length = 16 → ∃ t h w value, exec (.gload g) c.s = .next t ∧
        t.wg c.g.id = some h ∧ h.wave c.w.id = some w ∧ GroupEffect (.gload g) c [] none c.slice.gf w ∧
        t.reqs = c.s.reqs ++ [c.req c.s.nextId (.gload g.sd.toNat value)] ∧
        ((value = 1 ∧ h.graphs = c.g.graphs) ∨ (value = 0 ∧ ∃ k, k < 16 ∧ h.graph n = some k ∧
          (∀ j, j ≠ n → h.graph j = c.g.graph j) ∧
          let x := t.context c.cluster k
          x.vi = c.vi ∧ x.addr = va ∧ x.root = (c.s.iface (tableVi c.vi)).root ∧ laneAt x.image 8 = laneAt img 8 ∧ 0 < x.count))))) ∧
  (∀ s r sd value w, s.req r.id = some r → r.kind = .gload sd value → s.wave r.w = some w →
    ∃ t v, exec (.gloadComplete r.id) s = .next t ∧ t.req r.id = none ∧ (∀ k, k ≠ r.id → t.req k = s.req k) ∧
      t.wave r.w = some v ∧ v.sreg sd = value ∧ (∀ k, k ≠ sd → v.sreg k = w.sreg k) ∧
      (v.slice r.sl).gf = gfWord32 (w.slice r.sl).gf value none none none ∧ v.slice (otherSlice r.sl) = w.slice (otherSlice r.sl) ∧
      v.v = w.v ∧ v.queues = w.queues) ∧
  (∀ c g, Issues (.gunload g) c →
    let n := g.sb.toNat
    (c.g.graph n = none → Raises (.gunload g) c .graphState noInfo) ∧
    (∀ k, c.g.graph n = some k →
      (c.s.entryBusy c.g.id n = true → Raises (.gunload g) c .graphState noInfo) ∧
      (c.s.entryBusy c.g.id n = false → ∃ t h w, exec (.gunload g) c.s = .next t ∧ t.wg c.g.id = some h ∧
        h.wave c.w.id = some w ∧ GroupEffect (.gunload g) c [] none c.slice.gf w ∧
        (n < c.g.graphs.length → h.graph n = none) ∧ (∀ j, j ≠ n → h.graph j = c.g.graph j) ∧
        (c.cluster < c.s.clusters.length → k < (c.s.cluster c.cluster).contexts.length → t.context c.cluster k =
          { c.s.context c.cluster k with count := (c.s.context c.cluster k).count - 1 }))))

/-- A card posted by an instruction, with the words of its lanes that are no helper lanes (R373). -/
def postedCard (c : Ctx) (f : LaneFields) (ctx : Nat) (q : Option Nat) : Card :=
  let lanes := (lanesOf c.em).filter fun l => !c.w.helper.getLsbD l
  ⟨c.s.nextId, c.s.nextId, c.ref, f.mode.toNat / 4, c.core, c.vi, c.pc, f.b.toNat, ctx, f.c.toNat / 16, f.d.toNat, q,
    if f.s = 0x7F#7 then 0 else c.w.sreg f.s.toNat, c.em &&& ~~~c.w.helper,
    lanes.map fun l => ⟨l, (List.range (f.c.toNat % 16)).map fun k => codeWord c.w f.a k l, .waiting, none, [], []⟩,
    none, false, 0, (c.s.context c.cluster ctx).readsMemory⟩

/-- The status of a card (R376). -/
def statusOfCard (k : Card) : Word :=
  let n (p : CardToken → Bool) : Nat := (k.tokens.filter p).length
  let waiting (t : CardToken) : Bool := decide (t.state = .waiting)
  let flying (t : CardToken) : Bool := match t.state with
    | .flight _ => true
    | _ => false
  let marked := k.tokens.any fun t => decide (t.state = .left) && (match t.work with
    | some w => w.mark.isSome
    | none => false)
  BitVec.ofNat 32 (2 ^ 31 + (if k.bound.isSome then 2 ^ 30 else 0) + (if marked then 2 ^ 29 else 0) +
    (if k.cancelled then 2 ^ 28 else 0) + 2 ^ 16 * n (fun t => waiting t || flying t) + n waiting)

/-- The card in a slot of the wave. -/
def cardIn (c : Ctx) (k : Nat) : Option Card := ((c.w.cards[k]?).join).bind c.s.card

/-- R373 to R377: `jpost` raises the lowest of its checks, waits while the cluster holds 64 cards, and otherwise sends a card
with a token for each lane; `jwait` parks the lanes with a live token and lets the others go on, also lanes that have collected
theirs (DEDUCED, log entry 66); `jstat` gives a slot's status; `jcancel` drops what has not been admitted. -/
def JobCards : Prop := ∀ c,
  (∀ f, ∀ p ∈ [(Instr.jpostR f, none), (.jpostQ f, some (Form.qIndex f.d))], Issues p.1 c →
    let k := f.mode.toNat / 4
    let entry := c.g.graph f.b.toNat
    let list : List (Cause × Info) :=
      (match entry with
        | none => [(.graphState, noInfo)]
        | some x =>
          let h := (c.s.context c.cluster x).header
          (if f.c.toNat % 16 = h.nin ∧ f.c.toNat / 16 = h.nout then [] else [(.jobForm, noInfo)]) ++
            if h.columns ≤ (c.s.shareRange c.cluster (c.s.slotOf c.g)).2 then [] else [(.fabricShare, noInfo)]) ++
      (if ((c.w.cards[k]?).join).isSome then [(.jobSlot, noInfo)] else []) ++
      (match p.2.bind c.w.queue with
        | some u => if u.attach = .none then [] else [(.jobForm, noInfo)]
        | none => [])
    (∀ a info, firstLowest list = some (a, info) → Raises p.1 c a info) ∧
    (∀ x, list = [] → entry = some x →
      let held := (c.s.cards.filter fun o => clusterOf o.core == c.cluster).length
      (64 ≤ held → Waits p.1 c) ∧
      (held < 64 → (∃ l, realLane c l ∧ (c.w.x.thread l).st.isLive) → k < c.w.cards.length → ∃ t w, exec p.1 c.s = .next t ∧
        t.wave c.ref = some w ∧ t.cards = c.s.cards ++ [postedCard c f x p.2] ∧ t.nextId = c.s.nextId + 1 ∧
        t.dmem = c.s.dmem ∧ t.hmem = c.s.hmem ∧ (w.cards[k]?).join = some c.s.nextId ∧
        (∀ j, j ≠ k → w.cards[j]? = c.w.cards[j]?) ∧
        (∀ q u, p.2 = some q → c.w.queue q = some u → w.queue q = some { u with attach := .card c.s.nextId } ∧ onlyQueue c q w) ∧
        (p.2 = none → w.queues = c.w.queues) ∧
        GroupEffect p.1 c [] none c.slice.gf { w with cards := c.w.cards, queues := c.w.queues }))) ∧
  (∀ f, Issues (.jwait f) c →
    let slot := f.mode.toNat / 4 % 4
    let goes : Prop := GroupCompletes (.jwait f) c [] none c.slice.gf
    (cardIn c slot = none → goes) ∧
    (∀ k, cardIn c slot = some k →
      let m := c.em &&& k.lanes &&& ~~~k.collected
      let live (l : Nat) : Prop := ∃ t ∈ k.tokens, t.lane = l ∧ (t.state = .waiting ∨ ∃ n, t.state = .flight n)
      let anyLive : Prop := ∃ l, m.getLsbD l ∧ live l
      (m = 0 → goes) ∧
      (anyLive → c.sl = .x → ∃ t w, exec (.jwait f) c.s = .next t ∧ SliceEffect (.jwait f) c t w ∧
        ∀ l, l < 32 → l < c.w.x.threads.length → w.x.thread l =
          if m.getLsbD l then { c.w.x.thread l with st := .parked (.card slot m), skip := 0 }
          else if c.em.getLsbD l then comesTo c.w.x l (c.pc + 8) else c.w.x.thread l) ∧
      (m ≠ 0 → ¬anyLive →
        (∀ l x, k.markOf m = some (l, x) → Raises (.jwait f) c x.cause
          { origin := 2, addr := x.addr, apc := k.pc, detail := x.node, unit := x.unit, lane := some l }) ∧
        (k.markOf m = none → c.sl = .x → ∃ t w, exec (.jwait f) c.s = .next t ∧ t.wave c.ref = some w ∧
          t.dmem = c.s.dmem ∧ t.hmem = c.s.hmem ∧
          (∀ l, l < 32 → l < c.w.x.threads.length → w.x.thread l =
            if c.em.getLsbD l then comesTo c.w.x l (c.pc + 8) else c.w.x.thread l) ∧
          (k.q.isSome → w.v = c.w.v) ∧
          (k.q = none → k.d < 192 → ∀ r l, l < 32 → laneAt (w.vrow r) l =
            match if m.getLsbD l ∧ k.d ≤ r ∧ r < k.d + k.nout then k.results l else none with
            | some ws => laneAt ws (r - k.d)
            | none => laneAt (c.w.vrow r) l))))) ∧
  (∀ g, Issues (.jstat g) c →
    let x : Word := match cardIn c g.sa.toNat with
      | some k => statusOfCard k
      | none => 0
    GroupCompletes (.jstat g) c (toReg g.sd x) (toMask g.sd x) (gfWord32 c.slice.gf x none none none)) ∧
  (∀ g, Issues (.jcancel g) c →
    (cardIn c g.sa.toNat = none → GroupCompletes (.jcancel g) c [] none c.slice.gf) ∧
    (∀ k, cardIn c g.sa.toNat = some k → ∃ t, exec (.jcancel g) c.s = .next t ∧ t.dmem = c.s.dmem ∧ t.hmem = c.s.hmem ∧
      ∀ j, t.card k.id = some j → j.cancelled = true ∧
        j.tokens = k.tokens.map fun x => if x.state = .waiting then { x with state := .dropped } else x))

end Sys2Proof.Claims

/-- gload, gunload, jpost, jwait, jstat and jcancel. -/
def Obligations.GraphTablesAndCards : Prop := Sys2Proof.Claims.GraphTables ∧ Sys2Proof.Claims.JobCards

namespace Sys2Proof.Claims

/-- R359, R371: a card whose context is placed is bound behind those bound before it, unless it reads memory and an earlier unbound
one of its wave does (DEDUCED, log entry 168); the next one in turn has its context
placed at the lowest free run, or displaces a context without a bound card (a card is bound until its slot is free: DEDUCED, log entry 179), which stays displaced;
a placement ends; a core of a share without a resident wave enters fabric mode. -/
def Placement : Prop :=
  (∀ s k, s.card k.id = some k →
    let cl := clusterOf k.core
    let x := s.context cl k.ctx
    let open_ : Prop := k.bound = none ∧ s.cardOpen k = true ∧
      (∃ t ∈ k.tokens, t.state = .waiting ∨ ∃ n, t.state = .flight n) ∧
      ¬(k.reads = true ∧ ∃ o ∈ s.cards, o.w = k.w ∧ o.id < k.id ∧ o.reads = true ∧ o.bound = none ∧
        ∃ t ∈ o.tokens, t.state = .waiting ∨ ∃ n, t.state = .flight n)
    let slot := match s.wg k.w.wg with
      | some g => s.slotOf g
      | none => 64
    let run := s.freeRun cl (s.shareRange cl slot).1 (s.shareRange cl slot).2 x.header.columns
    let first : Prop := ∀ o ∈ s.cards, o.arrival < k.arrival → clusterOf o.core = cl → o.bound = none →
      (s.context cl o.ctx).place = none → s.cardOpen o = true →
      ¬∃ t ∈ o.tokens, t.state = .waiting ∨ ∃ n, t.state = .flight n
    let binds (t : State) : Prop := t.card k.id = some { k with bound := some (s.cluster cl).nextSeq } ∧
      (∀ j, j ≠ k.id → t.card j = s.card j) ∧ t.wgs = s.wgs ∧
      (cl < s.clusters.length → (t.cluster cl).nextSeq = (s.cluster cl).nextSeq + 1)
    (¬open_ → exec (.cardBind k.id) s = .next s) ∧
    (open_ → x.place.isSome → ∃ t, exec (.cardBind k.id) s = .next t ∧ binds t) ∧
    (open_ → x.place = none → ¬first → exec (.cardBind k.id) s = .next s) ∧
    (∀ p, open_ → x.place = none → first → run = some p → ∃ t, exec (.cardBind k.id) s = .next t ∧ binds t ∧
      (cl < s.clusters.length → k.ctx < (s.cluster cl).contexts.length →
        t.context cl k.ctx = { x with place := some p, owner := slot, placing := some s.clock })) ∧
    (open_ → x.place = none → first → run = none → s.displace cl slot = none → exec (.cardBind k.id) s = .next s) ∧
    (∀ t, open_ → x.place = none → first → run = none → s.displace cl slot = some t → t.displace cl slot = none →
      t.freeRun cl (t.shareRange cl slot).1 (t.shareRange cl slot).2 x.header.columns = none →
      exec (.cardBind k.id) s = .next t)) ∧
  (∀ s cl k, ∃ t, exec (.graphPlacement cl k) s = .next t ∧ t.context cl k = { s.context cl k with placing := none } ∧
    ∀ j, j ≠ k → t.context cl j = s.context cl j) ∧
  (∀ s core, core < s.cores.length →
    let own : Prop := ∃ r ∈ (s.cluster (clusterOf core)).ranges, r.2.1 ≤ core % 8 ∧ core % 8 < r.2.1 + r.2.2
    (own → s.coreEmpty core = true → exec (.fabricModeEntry core) s =
      .next (s.updCore core fun k => { k with fabric := true })) ∧
    (¬(own ∧ s.coreEmpty core = true) → exec (.fabricModeEntry core) s = .next s))

/-- R364, R502: an arithmetic or transcendental node has the opcode of a lane form that R364 lists, and its results are those of
that form for the node's sources; `sel` takes C as a word. -/
def ArithmeticNodes : Prop := ∀ (n : Node) ws sh, laneShape n = some sh →
  let imm := if sh.imm.isSome then (laneAt ws (sh.a + sh.b)).toNat else 0
  let a := laneAt ws 0
  let b := laneAt ws sh.a
  let c := laneAt ws (sh.a + sh.b)
  (n.cls = 1 → n.op = 0x18) ∧
  (n.cls ≠ 1 → (n.op ≤ 0x17 ∨ (0x19 ≤ n.op ∧ n.op ≤ 0x1E) ∨ (n.op = 0x22 ∧ 2 ≤ n.fn ∧ n.fn ≤ 11) ∨ n.op = 0x23) ∧
    ¬(n.op = 0x0C ∧ n.fn = 1) ∧ ¬(n.op = 0x0E ∧ n.fn = 2)) ∧
  ∀ i form f, nodeFields n imm = some (i, form, f) →
    (∀ p ∈ wordForms, i = p.1 f → laneNode n ws = [p.2 f a b c]) ∧
    (i = .sel f → laneNode n ws = [if c = 0 then b else a]) ∧
    (∀ p ∈ floatForms, i = p.1 f → laneNode n ws =
      [BitVec.ofNat 32 (finishOf .f32 f (p.2 (downOf f) (prepA .f32 f a.toNat) (prepB .f32 f b.toNat) (prepC .f32 f c.toNat)))]) ∧
    (∀ p ∈ transForms, i = p.1 f → ∀ x l, Issues (p.1 f) x → Flows (p.1 f) x → x.em.getLsbD l = true →
      x.fa f l = prepA .f32 f a.toNat → ∃ t w, exec (p.1 f) x.s = .next t ∧ t.wave x.ref = some w ∧
        laneNode n ws = [laneAt (w.vrow f.d.toNat) l])

/-- R364, R381: a load node reads the bytes at its address, zero-extended; a store node leaves its bytes for the token's end; both
raise their cause as a mark. Matrix nodes are `fdot16` and `mrow`. An island node needs its image's function and a slot of its
channel, and gives an all-NaN result for a channel that was reset (R356, R360). -/
def MemoryIslandMatrixNodes : Prop := ∀ rd e (n : Node) results ws s,
  let at_ (k : Nat) : Word := laneAt ws k
  let va : DWord := BitVec.ofNat 64 ((at_ 0).toNat + 2 ^ 32 * (at_ 1).toNat) + (BitVec.ofNat 16 n.extra).signExtend 64
  let size := 2 ^ n.op
  let scope := n.flags.toNat % 8
  let byte (k j : Nat) : Nat := byteOf (at_ (k + j / 4)) (j % 4)
  let e4m3 (k j : Nat) : XVal := decodeF .e4m3 (byte k j)
  let pool (k : Nat) : Word := laneAt e.img (e.h.pooloff / 4 + n.extra + k)
  (n.cls = 2 ∨ n.cls = 3 → va.toNat % size ≠ 0 → runNode rd e n results ws s = .error (.mark .misaligned va)) ∧
  (n.cls = 2 → va.toNat % size = 0 → let read := s.engineRead { rd with scope := scope } va size
    (∀ bs u, read = (.ok bs, u) → runNode rd e n results ws s = .ok (([BitVec.ofNat 32 (natOfBytes bs)], []), u)) ∧
    (∀ c x u, read = (.error (.cause c x), u) → runNode rd e n results ws s = .error (.mark c x)) ∧
    (∀ u, read = (.error .owned, u) → runNode rd e n results ws s = .error .blocked)) ∧
  (n.cls = 3 → va.toNat % size = 0 → let place := locate s rd.cluster none rd.vi va .store
    (∀ p u, place = (.ok p, u) → u.delayed = false → runNode rd e n results ws s = .ok (([], [(va, size, at_ 2, scope)]), u)) ∧
    (∀ p u, place = (.ok p, u) → u.delayed = true → runNode rd e n results ws s = .error .blocked) ∧
    (∀ c u, place = (.error c, u) → runNode rd e n results ws s = .error (.mark c va))) ∧
  (n.cls = 4 →
    let chan := 32 * (if n.op < 3 then 0 else 1) + 4 * ((e.base + n.col) % 8) + n.row
    let obj : DWord := BitVec.ofNat 64 ((pool 0).toNat + 2 ^ 32 * (pool 1).toNat)
    n.op ≤ 5 →
    (s.hasFunction rd.cluster n.op = false → runNode rd e n results ws s = .error (.mark .islandFn 0)) ∧
    (s.hasFunction rd.cluster n.op = true → chan ∈ e.cut →
      runNode rd e n results ws s = .ok ((List.replicate results 0xFFC00001, []), s)) ∧
    (s.hasFunction rd.cluster n.op = true → chan ∉ e.cut → (s.channel rd.cluster chan).free = 0 →
      runNode rd e n results ws s = .error .blocked) ∧
    (s.hasFunction rd.cluster n.op = true → chan ∉ e.cut → (s.channel rd.cluster chan).free ≠ 0 →
      let lane := islandLane s rd n.op n.slot results obj ws
      (∀ xs u, lane = (.ok xs, u) → runNode rd e n results ws s = .ok ((xs, []), u)) ∧
      (∀ c x u, lane = (.error (.cause c x), u) → runNode rd e n results ws s = .error (.mark c x)) ∧
      (∀ u, lane = (.error .owned, u) → runNode rd e n results ws s = .error .blocked))) ∧
  (n.cls = 5 → n.op ≤ 1 → let v (k j : Nat) : XVal := decodeF (if n.op = 0 then .e4m3 else .e5m2) (byte k j)
    runNode rd e n results ws s = .ok (([chunkAdd ((List.range 16).map fun j => (v 0 j).mul (v 4 j))
      (decodeF .f32 (at_ 8).toNat)], []), s)) ∧
  (n.cls = 5 → n.op = 2 → ∃ xs, runNode rd e n results ws s = .ok ((xs, []), s) ∧ xs.length = 8 ∧ ∀ k, k < 8 →
    let p (j : Nat) : XVal := (e4m3 0 j).mul (decodeF .e4m3 (byteOf (pool (8 * k + j / 4)) (j % 4)))
    let low := chunkAdd ((List.range 16).map p) (decodeF .f32 (pool (64 + k)).toNat)
    xs[k]? = some (chunkAdd ((List.range 16).map fun j => p (16 + j)) (decodeF .f32 low.toNat)))

/-- R363, R364, R381: the nodes run in order on the results before them, the token's inputs, the pool and the parameter; a node of
class 6 sets a result word of the token, a class 7 entry computes nothing, the stores of the store nodes come in node order, and
the first mark ends the token's computation and leaves it without stores. -/
def TokenNodes : Prop := ∀ rd (e : TokenEnv) token vals work s,
  (∀ j k r, e.word vals (.node j r) = laneAt ((vals[j]?).getD []) r ∧ e.word vals (.input k) = laneAt e.inputs k ∧
    e.word vals (.pool k) = laneAt e.img (e.h.pooloff / 4 + k) ∧ e.word vals .param = e.param) ∧
  runNodes rd e token [] vals work s = some (work, s) ∧
  (∀ ps, runNodes rd e token (none :: ps) vals work s = runNodes rd e token ps (vals ++ [[]]) work s) ∧
  ∀ (q : Placed) ps, let ws := q.src.map (e.word vals)
    (q.n.cls = 6 → q.n.op < work.results.length → ∃ rs : List Word, rs.length = work.results.length ∧
      (∀ k, k < rs.length → rs[k]? = if k = q.n.op then some (laneAt ws 0) else work.results[k]?) ∧
      runNodes rd e token (some q :: ps) vals work s = runNodes rd e token ps (vals ++ [[]]) { work with results := rs } s) ∧
    (q.n.cls ≠ 6 →
      (∀ xs st u, runNode rd e q.n q.k.results ws s = .ok ((xs, st), u) → runNodes rd e token (some q :: ps) vals work s =
        runNodes rd e token ps (vals ++ [xs]) { work with stores := work.stores ++ st.map fun x => (vals.length, x) } u) ∧
      (runNode rd e q.n q.k.results ws s = .error .blocked → runNodes rd e token (some q :: ps) vals work s = none) ∧
      ∀ c va, runNode rd e q.n q.k.results ws s = .error (.mark c va) → runNodes rd e token (some q :: ps) vals work s =
        some ({ work with stores := [], mark := some (token c va vals.length) }, s))

/-- R379, R381: a token's stores are performed in node order, and a failure names its node; a store is translated as the token
leaves (DEDUCED, log entry 65). A store to device memory puts its bytes, the lowest first, at its address, as the cluster reads
it, and at `.dev` and `.sys` as memory holds it, and changes no other byte. -/
def TokenStores : Prop := ∀ k s,
  tokenStores k [] s = .ok s ∧
  (∀ x rest, tokenStores k (x :: rest) s = match tokenStores k [x] s with
    | .ok t => tokenStores k rest t
    | .error e => .error e) ∧
  ∀ node va n (w : Word) scope,
    (∀ c t, locate s (clusterOf k.core) none k.vi va .store = (.error c, t) →
      tokenStores k [(node, va, n, w, scope)] s = .error (.cause c va, node)) ∧
    ∀ p t, locate s (clusterOf k.core) none k.vi va .store = (.ok p, t) →
      (t.delayed = true ∨ (p.mem = 0 ∧ (t.ownerOf (lineOf p.pa)).isSome) →
        tokenStores k [(node, va, n, w, scope)] s = .error (.owned, node)) ∧
      (t.delayed = false → p.mem = 0 → t.ownerOf (lineOf p.pa) = none → n ∈ [1, 2, 4] → p.pa % n = 0 → 2 ≤ scope → scope ≤ 4 →
        (scope = 4 → t.inHostBias p.pa = false) → WholeLines t (clusterOf k.core) →
        ∃ u, tokenStores k [(node, va, n, w, scope)] s = .ok u ∧ u.hmem = t.hmem ∧
          (∀ j, j < n → let b := BitVec.ofNat 8 (w.toNat / 2 ^ (8 * j))
            l1Byte u (clusterOf k.core) (p.pa + j) = b ∧ (3 ≤ scope → Mem.get u.dmem (p.pa + j) = b)) ∧
          ∀ a, a < p.pa ∨ p.pa + n ≤ a → ∀ x ∈ [l1Byte u (clusterOf k.core) a, Mem.get u.dmem a],
            x = Mem.get t.dmem a ∨ x = l1Byte t (clusterOf k.core) a)

/-- R379, R384: what a token brings to its card's queue: appended to the column of its lane, when there is room; without room it
waits, or, while its workgroup is cut, holds it. -/
def TokenPushes : Prop := ∀ (s : State) (k : Card) lane (es : List QEntry), s.card k.id = some k →
  (k.q = none → s.deliver k lane es = some s) ∧
  ∀ q g w u, k.q = some q → s.wg k.w.wg = some g → g.wave k.w.wave = some w → w.queue q = some u → lane < 32 →
    ((u.col lane).length + es.length ≤ u.depth → lane < u.cols.length → ∃ d v p, s.deliver k lane es = some d ∧ d = { s with wgs := d.wgs } ∧
      d.wave k.w = some v ∧ v.queue q = some p ∧ p.attach = u.attach ∧ (∀ j, j ≠ q → v.queue j = w.queue j) ∧
      ∀ l, l < 32 → p.col l = if l = lane then u.col l ++ es else u.col l) ∧
    (u.depth < (u.col lane).length + es.length → g.status = .resident → s.deliver k lane es = none) ∧
    (u.depth < (u.col lane).length + es.length → g.status ≠ .resident → ∃ d j, s.deliver k lane es = some d ∧
      d = { s with cards := d.cards } ∧ d.card k.id = some j ∧ ∀ l, (j.token l).map CardToken.held =
        if l = lane then (k.token l).map fun _ => es else (k.token l).map CardToken.held)

/-- What leaving makes of the state `s`, for a token whose nodes have run: its pushes, then the stores of one without a mark. -/
def Leaves (s : State) (k : Card) (lane : Nat) (t : CardToken) (work : TokenWork) (r : State) : Prop :=
  let es : List QEntry := match work.mark with
    | some x => List.replicate k.nout (.token x)
    | none => (List.range k.nout).map fun j => .ready (laneAt work.results j)
  let gone : Prop := ∀ j, r.card k.id = some j → (j.token lane).map (fun y => y.state) = some .left
  (s.deliver k lane es = none → r = s) ∧
  ∀ d, s.deliver k lane es = some d →
    (work.mark.isSome → gone ∧ r.dmem = d.dmem ∧ r.hmem = d.hmem) ∧
    (work.mark = none →
      (∀ v, tokenStores k work.stores d = .ok v → gone ∧ r.dmem = v.dmem ∧ r.hmem = v.hmem) ∧
      (∀ i, tokenStores k work.stores d = .error (.owned, i) → r = s) ∧
      (∀ c va i, tokenStores k work.stores d = .error (.cause c va, i) → ∃ j y w, r.dmem = s.dmem ∧ r.hmem = s.hmem ∧
        r.wgs = s.wgs ∧ r.card k.id = some j ∧ j.token lane = some y ∧ y.state = t.state ∧ y.work = some w ∧ w.stores = [] ∧
        w.mark = some ⟨c, va, k.pc, BitVec.ofNat 16 i, BitVec.ofNat 8 k.slot⟩))

/-- R371, R377 to R379, R381, R384, R480: a context admits the lowest waiting token of its next bound card, and none while one of
the conditions fails: among them that the accesses of the posting slice before the card are complete (DEDUCED, log entry 67) and
that nothing which a cut held is still to be pushed; the gated units that its tokens use wake first. A token leaves once its nodes
have run, in an ordered graph none before one admitted earlier: with its pushes and, without a mark, its stores; a store that
fails marks its token with the store's node. -/
def Tokens : Prop := ∀ s k, s.card k.id = some k → s.touched = false → s.reached = [] →
  let cl := clusterOf k.core
  let x := s.context cl k.ctx
  let mates := s.cards.filter fun o => clusterOf o.core == cl && o.ctx == k.ctx
  let flying := (mates.map fun o => (o.tokens.filter fun t => match t.state with
    | .flight _ => true
    | _ => false).length).sum
  let next : Prop := ∀ o ∈ mates, o.id ≠ k.id → (∃ t ∈ o.tokens, t.state = .waiting) → ∀ a b, o.bound = some a →
    k.bound = some b → b < a
  let admits : Prop := k.bound.isSome ∧ x.place.isSome ∧ x.placing = none ∧ s.cardOpen k = true ∧ next ∧
    flying < x.header.depth ∧ s.accessesDone k.w .x k.id = true ∧ ∀ t ∈ k.tokens, t.held = []
  let first := k.tokens.find? fun t => decide (t.state = .waiting)
  (¬admits ∨ first = none → exec (.tokenAdmit k.id) s = .next s) ∧
  let gated := (s.tokenUnits cl k.ctx).filter fun u => (s.cluster cl).gate.gated.contains u
  (admits → first.isSome → gated ≠ [] → exec (.tokenAdmit k.id) s = .next (gated.foldl (fun s u => s.wantUnit cl u) s)) ∧
  (∀ t, admits → first = some t → gated = [] → ∃ u j, exec (.tokenAdmit k.id) s = .next u ∧ u.card k.id = some j ∧
    (∀ l, (j.token l).map (fun y => (y.state, y.inputs)) =
      if l = t.lane then (k.token l).map fun y => (.flight (s.cluster cl).nextSeq, y.inputs)
      else (k.token l).map fun y => (y.state, y.inputs))) ∧
  (∀ lane t n, k.token lane = some t → t.state = .flight n →
    let waits : Prop := x.header.unordered = false ∧ ∃ o ∈ mates, ∃ y ∈ o.tokens, ∃ m, y.state = .flight m ∧ m < n
    let run := runNodes k.reader ⟨x.image, x.header, t.inputs, k.param, x.place.getD 0, t.cut⟩
      (fun c va i => ⟨c, va, k.pc, BitVec.ofNat 16 i, BitVec.ofNat 8 k.slot⟩) ((imageNodes x.image).getD []) []
      ⟨List.replicate k.nout 0, [], none⟩ s
    let late : Prop := k.reads = true ∧ s.readsBefore k.w k.id true = true
    (waits → exec (.tokenLeave k.id lane) s = .next s) ∧
    (∀ work, ¬waits → t.work = some work → ∃ r, exec (.tokenLeave k.id lane) s = .next r ∧ Leaves s k lane t work r) ∧
    (¬waits → t.work = none → late ∨ run = none → exec (.tokenLeave k.id lane) s = .next s) ∧
    (∀ work u, ¬waits → t.work = none → ¬late → run = some (work, u) → ∃ r, exec (.tokenLeave k.id lane) s = .next r ∧
      Leaves ((u.updToken k.id lane fun y => { y with work := some work }).credit k.w.wg) k lane t work r)) ∧
  (∀ lane t, k.token lane = some t → t.state = .left →
    (t.held = [] ∨ s.cardOpen k = false ∨ s.lacksRoom k lane t.held.length = true → exec (.tokenLeave k.id lane) s = .next s) ∧
    (t.held ≠ [] → s.cardOpen k = true → s.lacksRoom k lane t.held.length = false → ∃ d r, s.deliver k lane t.held = some d ∧
      (k.q.isSome → d.cards = s.cards) ∧ exec (.tokenLeave k.id lane) s = .next r ∧
      r.dmem = s.dmem ∧ r.hmem = s.hmem ∧ ∀ j, r.card k.id = some j → (j.token lane).map CardToken.held = some []))

end Sys2Proof.Claims

/-- Placement of contexts, what nodes compute, and the path of tokens. -/
def Obligations.GraphPlacementAndTokens : Prop := Sys2Proof.Claims.Placement ∧ Sys2Proof.Claims.ArithmeticNodes ∧
  Sys2Proof.Claims.MemoryIslandMatrixNodes ∧ Sys2Proof.Claims.TokenNodes ∧ Sys2Proof.Claims.TokenStores ∧
  Sys2Proof.Claims.TokenPushes ∧ Sys2Proof.Claims.Tokens

/-! The command processor, the host's side and the device's own events (17_traps.md to 20_security_power.md). -/

namespace Sys2Proof.Claims

/-- The MSI-X vector `k` of a function. -/
def vecOf (s : State) (fn k : Nat) : Option Vec := (s.vecs[fn]?).bind fun t => t[k]?

/-- One vector is signalled once: a masked one keeps its pending bit (R483). -/
def Signals (s t : State) (fn k : Nat) : Prop := ∀ i j, vecOf t i j = if i = fn ∧ j = k then
  (vecOf s i j).map (fun v => if v.masked then { v with pending := true } else { v with signals := v.signals + 1 })
  else vecOf s i j

/-- The vector of a queue slot is signalled, at the function of its interface; without one, none is (R483). -/
def SignalsSlot (s t : State) (k : Nat) : Prop :=
  (∀ vi, (s.slot k).assigned = some vi → Signals s t vi k) ∧ ((s.slot k).assigned = none → t.vecs = s.vecs)

/-- Of the queue slots, only slot `k` changes. -/
def SlotIs (s t : State) (k : Nat) (q : QSlot) : Prop := t.slot k = q ∧ ∀ j, j ≠ k → t.slot j = s.slot j

/-- The slot stops with an error and its interface is signalled; nothing else changes (R429, R431). -/
def SlotStops (s t : State) (k e : Nat) : Prop :=
  t = { s with slots := t.slots, vecs := t.vecs } ∧ SlotIs s t k { s.slot k with stopped := true, error := e } ∧
    SignalsSlot s t k

/-- A slot whose enable bit goes from 0 to 1: stopped and error are cleared, and after an error or a termination the packets
that it has not executed are skipped (R428). -/
def slotOn (q : QSlot) : QSlot :=
  let skip : Bool := q.error != 0 || q.terminated
  { q with enable := true, stopped := false, error := 0, ringFailed := false, buf := if skip then [] else q.buf, head := if skip then q.tail else q.head }

/-- A slot that is mapped resumes its saved context, or starts a fresh one, after a termination behind the packets that were
not executed (R428). -/
def slotMapped (q : QSlot) : QSlot :=
  if q.mapped = true ∧ q.terminated = false then q
  else if q.context = true ∧ q.terminated = false then { q with mapped := true, level := q.priority }
  else { q with head := if q.terminated then q.tail else q.head, buf := if q.terminated then [] else q.buf,
                mapped := true, context := true, terminated := false, errsticky := 0, clears := [], level := q.priority, starved := none,
                waiting := none, images := List.replicate 4 IslandImage.base, badImage := false, signals := [] }

/-- The slots that a change of the enable bit of slot `k` affects (R428). -/
def ganged (s : State) (k j : Nat) : Prop :=
  j = k ∨ ((s.slot k).gang ≠ 0 ∧ j < 64 ∧ (s.slot j).gang = (s.slot k).gang ∧ (s.slot j).assigned = (s.slot k).assigned)

/-- R428, R429, R445, R484: a slot starts or resumes its context with its gang, and stops with it, by a save of every resident
workgroup and without its shares of the fabric, which are pending again where it had them (DEDUCED, log entry 155); a WAIT stays in
the buffer and its poll starts again (DEDUCED, log entry 90); a doorbell is taken or stops the
slot with error 1; ring bytes are copied in order into the slot's buffer, and a failed read stops it with error 4 once no whole
packet is left before it. -/
def QueueSlots : Prop := ∀ s k, s.slots.length = 64 → k < 64 →
  let q := s.slot k
  (∀ v,
    let legal : Prop := v.toNat % 8 = 0 ∧ (v - q.head).toNat ≤ 2 ^ q.ringlog
    (legal → ∃ t, exec (.doorbell k v) s = .next t ∧ t = { s with slots := t.slots } ∧ SlotIs s t k { q with tail := v }) ∧
    (¬legal → ∃ t, exec (.doorbell k v) s = .next t ∧ SlotStops s t k 1)) ∧
  (s.boot.status ≠ 1 ∨ q.enable = true → exec (.slotEnable k) s = .next s) ∧
  (s.boot.status = 1 → q.enable = false →
    let turned (j : Nat) : QSlot := if j = k then slotOn q else s.slot j
    let all : Prop := ∀ j, ganged s k j → (turned j).enable = true
    ∃ t, exec (.slotEnable k) s = .next t ∧ t = { s with slots := t.slots } ∧ ∀ j,
      (all → ganged s k j → t.slot j = slotMapped (turned j)) ∧ (¬all ∨ ¬ganged s k j → t.slot j = turned j)) ∧
  (q.enable = false → exec (.slotDisable k) s = .next s) ∧
  (q.enable = true → ∃ t, exec (.slotDisable k) s = .next t ∧
    t = { s with slots := t.slots, wgs := t.wgs, clusters := t.clusters, cores := t.cores, cards := t.cards,
                 nextId := t.nextId } ∧
    (∀ c, c < 24 → ∀ r ∈ (t.cluster c).ranges, ¬ganged s k r.1) ∧
    (t.slot k).enable = false ∧ (∀ j, j ≠ k → (t.slot j).enable = (s.slot j).enable) ∧
    (∀ j, (ganged s k j → t.slot j = { s.slot j with
        enable := (t.slot j).enable, mapped := false, waiting := none, pendingShares := (t.slot j).pendingShares }) ∧
      (¬ganged s k j → t.slot j = s.slot j)) ∧
    ∀ n g, s.wg n = some g → ∃ h, t.wg n = some h ∧ h = { g with request := h.request } ∧
      (ganged s k (s.slotOf g) → g.keeper = false → g.status = .resident → h.request = some false)) ∧
  (let reads : Prop := s.serves k = true ∧ q.ringFailed = false
   let goes : Prop := reads ∧ q.head ≠ q.tail ∧ q.buf.length + 8 ≤ 16384
   let x := s.baseRead (s.slotVi k) (q.ringbase + BitVec.ofNat 64 (q.head.toNat % 2 ^ q.ringlog)) 8
   (s.serves k = false → exec (.ringByteCopy k) s = .next s) ∧
   (s.serves k = true → q.ringFailed = true →
     (q.packet = none → ∃ t, exec (.ringByteCopy k) s = .next t ∧ SlotStops s t k 4) ∧
     (q.packet ≠ none → exec (.ringByteCopy k) s = .next s)) ∧
   (reads → ¬goes → exec (.ringByteCopy k) s = .next s) ∧
   (goes → x = .error .owned → exec (.ringByteCopy k) s = .next s) ∧
   (∀ c va, goes → x = .error (.cause c va) →
     (q.packet = none → ∃ t, exec (.ringByteCopy k) s = .next t ∧ SlotStops s t k 4) ∧
     (q.packet ≠ none → ∃ t, exec (.ringByteCopy k) s = .next t ∧ t = { s with slots := t.slots } ∧
       SlotIs s t k { q with ringFailed := true })) ∧
   (∀ bs u, goes → x = .ok (bs, u) → ∃ t, exec (.ringByteCopy k) s = .next t ∧ t = { u with slots := t.slots } ∧
     SlotIs s t k { q with buf := q.buf ++ bs, head := q.head + 8 }))

/-- The head of a served slot's buffer is a good packet of a type (R431). -/
def HasPacket (s : State) (k type : Nat) (p : Packet) : Prop :=
  s.serves k = true ∧ (s.slot k).packet = some (.ok p) ∧ p.type = type

/-- The slot after a packet has been taken. -/
def taken (q : QSlot) (p : Packet) : QSlot := { q with buf := q.buf.drop (8 * p.length), waiting := none }

/-- R431: an unassigned type is error 2, a length that is not the type's is error 3, a packet whose bytes are not all there
waits, and one that is no LAUNCH with a reserved field, test value or scope, or a misaligned address, is error 5; each packet event stops the slot on a bad packet, and does nothing on one of another type. -/
def PacketChecks : Prop :=
  (∀ q : QSlot, 8 ≤ q.buf.length →
    let b (k : Nat) : Nat := ((q.buf[k]?).getD 0#8).toNat
    let good : Prop := (b 3 = 1 ∧ 1 ≤ b 2) ∨ (b 3 = 2 ∧ b 2 = 16 + 2 * (b 1 / 16)) ∨ ((b 3 = 3 ∨ b 3 = 4) ∧ b 2 = 3) ∨
      (b 3 = 5 ∧ b 2 = 5) ∨ (b 3 = 6 ∧ b 2 = 2)
    (b 3 = 0 ∨ 6 < b 3 → q.packet = some (.error 2)) ∧
    (1 ≤ b 3 → b 3 ≤ 6 → ¬good → q.packet = some (.error 3)) ∧
    (good → q.buf.length < 8 * b 2 → q.packet = none) ∧
    let info := b 0 + 256 * b 1
    let word (k : Nat) : Nat := natOfBytes ((q.buf.drop (4 * k)).take 4)
    let reserved : Prop := (b 3 = 1 ∧ info ≠ 0) ∨
      (b 3 = 3 ∧ (4 ≤ info ∨ info % 4 = 3 ∨ word 1 ≠ 0 ∨ word 2 % 8 ≠ 0)) ∨
      (b 3 = 4 ∧ (info / 8 % 32 ≠ 0 ∨ 512 ≤ info ∨ (info % 8 ≠ 3 ∧ info % 8 ≠ 4) ∨ word 1 ≠ 0 ∨ word 2 % 8 ≠ 0)) ∨
      ((b 3 = 5 ∨ b 3 = 6) ∧ (info ≠ 0 ∨ word 1 ≠ 0))
    (good → 8 * b 2 ≤ q.buf.length → reserved → q.packet = some (.error 5)) ∧
    (good → 8 * b 2 ≤ q.buf.length → ¬reserved → ∃ p, q.packet = some (.ok p) ∧ p.type = b 3 ∧ p.length = b 2 ∧ p.info = info ∧
      ∀ k, k < 2 * b 2 → (p.w k).toNat = word k)) ∧
  (∀ q : QSlot, q.buf.length < 8 → q.packet = none) ∧
  (∀ s k, k < s.slots.length → ∀ p ∈ [(Instr.nopPacket k, 1), (.launch k, 2), (.wait k, 3), (.waitPoll k, 3), (.signal k, 4),
      (.images k, 5), (.moor k, 6)], (p.1 = .signal k → s.performSignal k = none) →
    (s.serves k = false ∨ (s.slot k).packet = none → exec p.1 s = .next s) ∧
    (∀ e, s.serves k = true → (s.slot k).packet = some (.error e) → ∃ t, exec p.1 s = .next t ∧ SlotStops s t k e) ∧
    (∀ n x, HasPacket s k n x → n ≠ p.2 → exec p.1 s = .next s))

/-- A failure of a slot's context: its record is written and it is terminated, or the record must wait (R417, R439). -/
def FailsWith (i : Instr) (s : State) (k : Nat) (c : Cause) (va : DWord) (head : List Word) : Prop :=
  (∀ t, s.failContext k c 2 va head = some t → exec i s = .next t) ∧
  (s.failContext k c 2 va head = none → exec i s = .next s)

/-- R431, R437, R446, R476: NOP is taken; WAIT is taken when its word passes the test; SIGNAL is taken at once into a list of its own
(DEDUCED, log entry 89), and performs its release store after every earlier launch, also in a slot that has stopped; IMAGES and MOOR
wait for the earlier launches and then act; an image that is rejected leaves the old one named (DEDUCED, log entry 86). -/
def Packets : Prop := ∀ s k p, k < s.slots.length →
  let q := s.slot k
  (HasPacket s k 1 p → ∃ t, exec (.nopPacket k) s = .next t ∧ t = { s with slots := t.slots } ∧ SlotIs s t k (taken q p)) ∧
  (∀ i ∈ [(Instr.wait k, false), (.waitPoll k, true)], HasPacket s k 3 p →
    let x := s.baseRead (s.slotVi k) (p.d 2) 8
    (q.waiting.isSome ≠ i.2 → exec i.1 s = .next s) ∧
    (q.waiting.isSome = i.2 → x = .error .owned → exec i.1 s = .next s) ∧
    (∀ c va, q.waiting.isSome = i.2 → x = .error (.cause c va) → ∃ t, exec i.1 s = .next t ∧ SlotStops s t k 4) ∧
    (∀ bs u, q.waiting.isSome = i.2 → x = .ok (bs, u) →
      let n := natOfBytes bs
      let v := (p.d 4).toNat
      let passes : Prop := (p.info % 4 = 0 ∧ v ≤ n) ∨ (p.info % 4 = 1 ∧ v = n) ∨ (p.info % 4 = 2 ∧ v ≠ n)
      p.info % 4 ≠ 3 → ∃ t, exec i.1 s = .next t ∧ t = { u with slots := t.slots } ∧
        (passes → SlotIs s t k (taken q p)) ∧ (¬passes → SlotIs s t k { q with waiting := some (s.clock + 4096) }))) ∧
  (HasPacket s k 4 p → s.performSignal k = none → ∃ t, exec (.signal k) s = .next t ∧ t = { s with slots := t.slots } ∧
    SlotIs s t k { taken q p with signals := q.signals ++ [⟨s.nextId, p.info % 8, p.info.testBit 8, p.d 2, p.d 4⟩] }) ∧
  (∀ x rest, s.running = true → s.mapped k = true → q.signals = x :: rest →
    let blocked : Prop := ∃ l ∈ s.launches, l.slot = k ∧ l.id < x.before
    let y := s.baseWrite (s.slotVi k) x.scope x.addr (bytesOf x.value.toNat 8)
    (blocked ∨ y = .error .owned → q.packet = none → exec (.signal k) s = .next s) ∧
    (∀ c va t, ¬blocked → y = .error (.cause c va) → s.failContext k c 2 va (s.slotHead k) = some t →
      exec (.signal k) s = .next t) ∧
    (blocked ∨ y = .error .owned → s.performSignal k = none) ∧
    (∀ u, ¬blocked → y = .ok u → ∃ t, exec (.signal k) s = .next t ∧ t = { u with slots := t.slots, vecs := t.vecs } ∧
      SlotIs s t k { q with signals := rest } ∧ (x.notify = true → SignalsSlot s t k) ∧ (x.notify = false → t.vecs = s.vecs))) ∧
  (HasPacket s k 5 p →
    let inFlight : Prop := ∃ l ∈ s.launches, l.slot = k
    let x := readEnvelopes k [(0, p.d 2), (1, p.d 4), (2, p.d 6), (3, p.d 8)] s
    (inFlight ∨ x = none → exec (.images k) s = .next s) ∧
    (∀ ms u, ¬inFlight → x = some (ms, u) → ∃ t r, exec (.images k) s = .next t ∧
      t = { u with slots := t.slots, ifaces := t.ifaces } ∧ SlotIs u t k r ∧
      r = { taken (u.slot k) p with images := r.images, badImage := (u.slot k).badImage || ms.any Option.isNone } ∧
      (∀ j m, j < 4 → ms[j]? = some (some m) → r.images[j]? = some m) ∧
      ∀ j, j < 4 → ms[j]? = some none → j < (u.slot k).images.length → r.images[j]? = (u.slot k).images[j]?)) ∧
  (HasPacket s k 6 p →
    (s.slotIdle k = false → exec (.moor k) s = .next s) ∧
    (∀ u, s.slotIdle k = true → (s.applyShares k).hintList (s.slotVi k) (p.d 2) = some u → k < u.slots.length →
      ∃ t, exec (.moor k) s = .next t ∧ t = { u with slots := t.slots } ∧ SlotIs u t k (taken (u.slot k) p)) ∧
    (s.slotIdle k = true → (s.applyShares k).hintList (s.slotVi k) (p.d 2) = none → exec (.moor k) s = .next s))

end Sys2Proof.Claims

/-- Queue slots, the packets in their buffers, and their errors. -/
def Obligations.QueueSlotsAndPackets : Prop := Sys2Proof.Claims.QueueSlots ∧ Sys2Proof.Claims.PacketChecks ∧ Sys2Proof.Claims.Packets

namespace Sys2Proof.Claims

/-- A byte of the span that a declared range covers (R435). -/
def inSpan (r : Range) (n : Nat) : Prop := r.base / 256 * 256 ≤ n ∧ n ≤ (r.base + 256 * r.size - 1) / 256 * 256 + 255

end Sys2Proof.Claims

/-- R432 to R435, R438, R439, R442: a LAUNCH packet is taken or rejected with the first cause that applies; a launch starts when
no earlier launch of its slot conflicts with it, with its bank copied and its ticket block written; it completes with the
store of its sequence value and `done`. LAUNCH reads the bank to see whether it can be read, and address 0 names none (DEDUCED, log
entry 21); LAUNCH_START waits for ticket room (DEDUCED, log entry 92), and the block holds the base priority at the start (DEDUCED,
log entry 99). -/
def Obligations.KernelLaunches : Prop :=
  (∀ s k p, k < s.slots.length → HasPacket s k 2 p →
    let x := readKernel (s.slotVi k) (p.d 2) (p.d 4) s
    let head := s.packetHead k p
    (x = .error .owned → exec (.launch k) s = .next s) ∧
    (∀ c va, x = .error (.cause c va) → FailsWith (.launch k) s k c va head) ∧
    (∀ ws ds good u, x = .ok ((ws, ds, good), u) →
      let threads := ((p.w 9).toNat % 2 ^ 16) * ((p.w 9).toNat / 2 ^ 16) * ((p.w 10).toNat % 2 ^ 16)
      let l := (kernelOf (laneAt ws) ds ((threads + 31) / 32)).bind (launchOf u k p)
      (l = none → FailsWith (.launch k) s k .launchDesc 0 head) ∧
      (∀ y, l = some y →
        (y.kernel.fitsEmpty = false → FailsWith (.launch k) s k .launchFit 0 head) ∧
        (y.kernel.fitsEmpty = true → good = false ∨ (u.slot k).badImage = true → FailsWith (.launch k) s k .launchImage 0 head) ∧
        (y.kernel.fitsEmpty = true → good = true → (u.slot k).badImage = false → ∃ t, exec (.launch k) s = .next t ∧
          t = { u with slots := t.slots, launches := u.launches ++ [y], nextId := u.nextId + 1 } ∧
          SlotIs u t k (taken (u.slot k) p) ∧ y.id = u.nextId ∧ y.slot = k ∧ y.state = .waiting ∧ y.descriptor = p.d 2 ∧
          y.bankAddr = p.d 4 ∧ y.sequence = p.d 12 ∧ y.completion = p.d 14 ∧ y.group = p.info / 2 ^ 9 % 8 + 1 ∧
          y.hold = p.info.testBit 8 ∧ y.scope = p.info / 2 ^ 5 % 8 ∧ y.args = (List.range 16).map (fun j => p.w (16 + j)) ∧
          y.count < 2 ^ 32 ∧ y.ranges.length = p.info / 2 ^ 12 % 16)))) ∧
  (∀ a b : Launch, (∀ r ∈ a.ranges ++ b.ranges, 0 < r.size) → (a.conflicts b = true ↔
    a.ranges = [] ∨ b.ranges = [] ∨ ∃ x ∈ a.ranges, ∃ y ∈ b.ranges, (x.write = true ∨ y.write = true) ∧
      ∃ n, inSpan x n ∧ inSpan y n)) ∧
  (∀ s l, s.launch l.id = some l → Mem.wf s.dmem = true → 0 < l.group →
    let held : Prop := l.state ≠ .waiting ∨ s.running = false ∨ s.mapped l.slot = false ∨
      ∃ o ∈ s.launches, o.slot = l.slot ∧ o.id < l.id ∧ o.conflicts l = true
    let x := s.baseRead l.vi l.bankAddr (if l.count = 0 then 0 else l.kernel.constants)
    (held ∨ x = .error .owned → exec (.launchStart l.id) s = .next s) ∧
    (∀ c va, ¬held → x = .error (.cause c va) → FailsWith (.launchStart l.id) s l.slot c va l.head) ∧
    (∀ bank u, ¬held → x = .ok (bank, u) →
      (u.ticketPlace.1 = none → exec (.launchStart l.id) s = .next s) ∧
      (∀ a, u.ticketPlace.1 = some a → ∃ t, exec (.launchStart l.id) s = .next t ∧
        t = { u.ticketPlace.2 with dmem := t.dmem, launches := t.launches } ∧
        t.launch l.id = some { l with state := .released, bank := bank, ticketAddr := a } ∧
        (∀ j, j ≠ l.id → t.launch j = s.launch j) ∧
        natOfBytes (Mem.read t.dmem a 4) = 0 ∧
        natOfBytes (Mem.read t.dmem (a + 4) 4) = (l.count + l.group - 1) / l.group % 2 ^ 32 ∧
        natOfBytes (Mem.read t.dmem (a + 8) 8) = l.descriptor.toNat ∧
        natOfBytes (Mem.read t.dmem (a + 16) 4) = l.count % 2 ^ 32 ∧
        natOfBytes (Mem.read t.dmem (a + 24) 8) = l.sequence.toNat ∧ natOfBytes (Mem.read t.dmem (a + 32) 32) = 0 ∧
        ∀ b, b < a ∨ a + 64 ≤ b → Mem.get t.dmem b = Mem.get u.dmem b))) ∧
  (∀ s l, s.launch l.id = some l → l.slot < s.slots.length →
    let goes : Prop := s.launchDone l = true ∧ s.running = true
    let r := s.releaseLaunch l
    let ends (u t : State) : Prop := exec (.launchCompletion l.id) s = .next t ∧
      t = { u with wgs := t.wgs, groups := t.groups, launches := t.launches, slots := t.slots } ∧ t.launch l.id = none ∧
      (∀ j, j ≠ l.id → t.launch j = s.launch j) ∧ SlotIs s t l.slot { s.slot l.slot with done := l.sequence } ∧
      ∀ g ∈ t.wgs, g.launch = l.id → g.keeper = true
    (¬goes → exec (.launchCompletion l.id) s = .next s) ∧
    (goes → (s.ticketCounts l).2 ≤ (s.ticketCounts l).1 ∧ l.requeued = [] ∧ l.claimed = [] ∧ (∀ o ∈ s.launches, o.slot = l.slot → l.id ≤ o.id) ∧
      ∀ g ∈ s.wgs, g.launch = l.id → g.keeper = false → g.status = .ended) ∧
    (goes → l.completion = 0 → ∃ t, ends r t) ∧
    (goes → l.completion ≠ 0 →
      let x := r.baseWrite l.vi l.scope l.completion (bytesOf l.sequence.toNat 8)
      (x = .error .owned → exec (.launchCompletion l.id) s = .next r) ∧
      (∀ c va, x = .error (.cause c va) → (∀ t, r.failContext l.slot c 2 va l.head = some t →
        exec (.launchCompletion l.id) s = .next t)) ∧
      ∀ u, x = .ok u → ∃ t, ends u t))

namespace Sys2Proof.Claims

/-- The thread of each lane of a released wave: absent beyond the workgroup's threads, and live at the entry of its role. -/
def entersAt (threads : Nat) (w : Wave) (sl : Slice) (entry : Option Word) : Prop := ∀ i, i < 32 →
  (threads ≤ 32 * w.id + i → ((w.slice sl).thread i).st = .absent) ∧
  (32 * w.id + i < threads → ∀ e, entry = some e → ((w.slice sl).thread i).st = .live ∧ ((w.slice sl).thread i).pc = e) ∧
  (32 * w.id + i < threads → entry = none → ((w.slice sl).thread i).st = .exited)

/-- R38, R41, R45, R94, R104, R105, R412: a workgroup is released on a core with its coordinates, its waves at the entries of
their roles, its masks and flags 0 and its argument block in the first `s` registers; the core's keeper agent is given its
slot (which events enter a handler with a slot: DEDUCED, log entry 156). -/
def Release : Prop := ∀ (s : State) (l : Launch) f core u, s.release l f core = some u → l.kernel.args ≤ 64 → ∃ g,
  (∃ old, u.wgs = old ++ [g] ∧ old.length = s.wgs.length ∧ ∀ (j : Nat) x y, s.wgs[j]? = some x → old[j]? = some y →
    (x.keeper = false ∨ x.core ≠ core → y = x) ∧
    (x.keeper = true → x.core = core → y = { x with waves := y.waves } ∧ y.waves.length = x.waves.length ∧
      ∀ w ∈ y.waves, (w.sreg 0).toNat % 64 = g.slot % 64)) ∧ g.launch = l.id ∧ g.flat = f ∧ g.cg = f / l.group ∧ g.core = core ∧ g.status = .resident ∧
  g.keeper = false ∧
  (let gx := (laneAt l.grid 0).toNat
   let gy := (laneAt l.grid 1).toNat
   g.wgid = [BitVec.ofNat 32 (f % gx), BitVec.ofNat 32 (f / gx % gy), BitVec.ofNat 32 (f / gx / gy)]) ∧
  g.waves.length = (l.kernel.roles.map fun r => r.waves).sum ∧
  ∀ w ∈ g.waves, ∃ r ∈ l.kernel.roles, w.role = r.role ∧ w.allot = r.vregs ∧ w.run = none ∧ w.recs = [] ∧
    (let threads := if l.kernel.implicit then l.wgdim.foldl (fun n d => n * d.toNat) 1
      else 32 * (l.kernel.roles.map fun r => r.waves).sum
     entersAt threads w .a r.aEntry ∧ entersAt threads w .x (some r.xEntry)) ∧
    (∀ sl k, (w.slice sl).gf = 0 ∧ (w.slice sl).mask k = 0) ∧
    ∀ j, j < l.kernel.args / 4 → w.sreg j = laneAt l.args j

/-- R440, R441, R443, R444: the next workgroup that is placed is a requeued one, or that of a ticket that the core's keeper has
claimed (DEDUCED, log entry 166), or of the next ticket, and only for the highest level among the slots that have work, be its launch
started or not; work that fits nowhere cuts the most recently released workgroup of the lowest lower level; a starved slot
ages; an exchangeable workgroup is cut after its period. -/
def LevelsAndPlacement : Prop :=
  (∀ s : State,
    let open_ (l : Launch) : Prop := l ∈ s.launches ∧ s.mapped l.slot = true ∧ (s.hasWork l = true ∨
      (l.state = .waiting ∧ l.count ≠ 0 ∧ ¬∃ o ∈ s.launches, o.slot = l.slot ∧ o.id < l.id ∧ o.conflicts l = true))
    (∀ l, open_ l → s.level l.slot ≤ s.topLevel) ∧ (s.topLevel = 0 ∨ ∃ l, open_ l ∧ s.level l.slot = s.topLevel)) ∧
  (∀ s l core, s.launch l.id = some l →
    let open_ : Prop := s.running = true ∧ l.state = .released ∧ s.mapped l.slot = true ∧ s.level l.slot = s.topLevel
    let before : Prop := ∃ o ∈ s.launches, s.mapped o.slot = true ∧ s.level o.slot = s.level l.slot ∧ o.state = .released ∧
      (o.requeued ≠ [] ∨ s.readySaved o = true)
    let counts := s.ticketCounts l
    (¬open_ → exec (.workgroupPlace l.id core) s = .next s) ∧
    (∀ f rest, open_ → l.requeued = f :: rest →
      (s.releaseTicket l f core = none → exec (.workgroupPlace l.id core) s = .next s) ∧
      (∀ u, s.releaseTicket l f core = some u → exec (.workgroupPlace l.id core) s =
        .next (u.updLaunch l.id fun l => { l with requeued := rest }))) ∧
    let mine := (l.claimed.filter fun p => p.1 == core).map Prod.snd
    (open_ → l.requeued = [] → before ∨ (mine = [] ∧ (counts.2 ≤ counts.1 ∨ (l.group ≠ 1 ∧ core % 8 ≠ 0))) →
      exec (.workgroupPlace l.id core) s = .next s) ∧
    (∀ k, open_ → l.requeued = [] → ¬before → k ∈ mine → (∀ j ∈ mine, k ≤ j) →
      (s.releaseTicket l k core = none → exec (.workgroupPlace l.id core) s = .next s) ∧
      ∀ u, s.releaseTicket l k core = some u → exec (.workgroupPlace l.id core) s =
        .next (u.updLaunch l.id fun l => { l with claimed := l.claimed.filter fun p => p != (core, k) })) ∧
    (open_ → l.requeued = [] → mine = [] → ¬before → counts.1 < counts.2 → l.group = 1 ∨ core % 8 = 0 →
      let u : State := { s with dmem := Mem.write s.dmem l.ticketAddr (bytesOf (min (counts.1 + 1) counts.2) 4) }
      (u.releaseTicket l counts.1 core = none → exec (.workgroupPlace l.id core) s = .next s) ∧
      ∀ v, u.releaseTicket l counts.1 core = some v → exec (.workgroupPlace l.id core) s = .next v)) ∧
  (∀ s k,
    let cutting : Prop := ∃ g ∈ s.wgs, g.request.isSome ∨ g.status = .saving ∨ g.status = .discarding
    let stuckWork : Prop := ∃ l ∈ s.launches, l.slot = k ∧ s.hasWork l = true ∧ s.canPlaceTicket l = false
    let goes : Prop := s.running = true ∧ s.mapped k = true ∧ s.level k = s.topLevel ∧ stuckWork ∧ ¬cutting
    let lower (g : Workgroup) : Prop := g ∈ s.wgs ∧ g.status = .resident ∧ g.keeper = false ∧
      s.level (s.slotOf g) < s.level k
    (¬goes ∨ (∀ g, ¬lower g) → exec (.priorityPreempt k) s = .next s) ∧
    (goes → (∃ g, lower g) → ∃ g, lower g ∧ exec (.priorityPreempt k) s = .next (s.requestCut g true) ∧
      ∀ h, lower h → s.level (s.slotOf g) < s.level (s.slotOf h) ∨
        (s.level (s.slotOf g) = s.level (s.slotOf h) ∧ h.released ≤ g.released))) ∧
  (∀ s k, k < s.slots.length →
    let q := s.slot k
    (∀ c, q.starved = some c → c + s.ctl.ageing ≤ s.clock → s.slotWork k = true → ∃ t, exec (.ageingPeriod k) s = .next t ∧
      t = { s with slots := t.slots } ∧ SlotIs s t k { q with
        level := if q.priority = 7 then 7 else if q.level < 6 then q.level + 1 else q.level, starved := some s.clock }) ∧
    (q.starved = none ∨ s.slotWork k = false ∨ (∀ c, q.starved = some c → s.clock < c + s.ctl.ageing) →
      exec (.ageingPeriod k) s = .next s)) ∧
  (∀ s g, s.wg g.id = some g → ∀ c, g.exchangeSince = some c →
    let late : Prop := c + (s.slot (s.slotOf g)).slice ≤ s.clock ∧ s.mayExchange g = true
    (late → exec (.exchangePeriod g.id) s = .next ((s.requestCut g false).startHandler g.core g.slot)) ∧
    (¬late → exec (.exchangePeriod g.id) s = .next s)) ∧
  (∀ g : Workgroup, g.exchangeable = true ↔ ∀ w ∈ g.waves, ∀ sl l, l < 32 → ((w.slice sl).thread l).st.isLive →
    ∃ p, ((w.slice sl).thread l).st = .parked p ∧
      (p = .grid ∨ (∃ b, b < 64 ∧ p = .barrier b) ∨ ∃ e r k par lo, p = .ring e r k par lo))

end Sys2Proof.Claims

/-- What a released workgroup holds, and which workgroup is placed or cut next. -/
def Obligations.WorkgroupReleaseAndPlacement : Prop := Sys2Proof.Claims.Release ∧ Sys2Proof.Claims.LevelsAndPlacement

namespace Sys2Proof.Claims

/-- R413, R415, R417: a halt that has reached every slice, with everything issued complete but what waits for the data of an unpaired
store (DEDUCED, log entry 73), releases what was stored (R307) and writes its record, and the last one
of its context terminates the context (DEDUCED, log entry 158); a BREAK that holds saves its workgroup instead. Terminating a context removes its workgroups and launches, stops its
slot, signals it and changes no memory. -/
def HaltsEnd : Prop :=
  (∀ s g l h, s.wg g.id = some g → g.status = .halting h → s.launch g.launch = some l →
    let done : Prop := h.reached = true ∧ s.drained g h.stopped s.stuck = true
    let r := s.releaseL1 g.core
    (¬done → exec (.haltComplete g.id) s = .next s) ∧
    (done → h.held = false → s.copiesDone g = false → exec (.haltComplete g.id) s = .next s) ∧
    (done → h.held = false → s.copiesDone g = true →
      let others := s.halting g
      let more := others.any fun k => h.watch.isSome && k.watch == h.watch && !k.silent
      let x := if h.silent then some r else r.writeRecord l.slot (r.haltRecord g l h more)
      (x = none → exec (.haltComplete g.id) s = .next r) ∧
      (∀ t, x = some t → others = [] → exec (.haltComplete g.id) s = .next (t.terminate l.slot)) ∧
      (∀ t, x = some t → others ≠ [] → ∃ u k, exec (.haltComplete g.id) s = .next u ∧ u.wg g.id = some k ∧
        k.status = .ended ∧ u.dmem = t.dmem ∧ u.launches = s.launches)) ∧
    (done → h.held = true →
      (s.hold g l h = none → exec (.haltComplete g.id) s = .next s) ∧
      (∀ t, s.hold g l h = some t → exec (.haltComplete g.id) s = .next t ∧ ∃ k, t.wg g.id = some k ∧ k.status = .held))) ∧
  (∀ s k, k < s.slots.length →
    let t := s.terminate k
    (∀ g ∈ t.wgs, g ∈ s.wgs ∧ (g.keeper = true ∨ s.slotOf g ≠ k)) ∧
    (∀ l, l ∈ t.launches ↔ l ∈ s.launches ∧ l.slot ≠ k) ∧
    SlotIs s t k { s.slot k with terminated := true, stopped := true, waiting := none, starved := none,
                                 pendingShares := (t.slot k).pendingShares } ∧
    SignalsSlot s t k ∧ t.dmem = s.dmem ∧ t.hmem = s.hmem ∧ t.cores.length = s.cores.length)

/-- The wave as the save area keeps it: all but what the cut does not save (R420). -/
def savedWave (w : Wave) : Wave :=
  { w with active := false, unblocked := none, qbound := none, qwaits := false, window := none,
           a := { w.a with fbuf := [] }, x := { w.x with fbuf := [] } }

/-- R418 to R422, R440, R444: a save starts with a request, once nothing of its workgroup waits for data that only its own slices
still push (DEDUCED, log entry 73), and ends, with every request performed and everything drained, in the state of R420, the blend
lines that its requests touched written back (DEDUCED, log entry 74); a discard that is no longer permitted, an arrival at the
grid that is pending among the reasons (DEDUCED, log entry 100), becomes a save, and otherwise releases what its workgroup has stored,
drops it and requeues its index; a resume puts a saved workgroup of the highest level back, whose cluster group has a member that
could run (DEDUCED, log entry 159), or a held one, with the registers that it had. -/
def CutsAndResumes : Prop := ∀ s g, s.wg g.id = some g →
  let fam := (s.family g).filter fun h => h.status != .ended
  (g.status = .resident →
    let goes : Prop := g.request = some false ∧ ∀ h ∈ fam, h.status = .resident ∧ (∀ w ∈ h.waves, w.window = none) ∧
      (∀ r ∈ s.reqs, r.w.wg = h.id → s.stuck r = false) ∧ ∀ k ∈ s.cards, k.w.wg = h.id → s.stuckToken k = false
    (¬goes ∨ startSave fam s = none → exec (.saveAndRestore g.id) s = .next s) ∧
    (∀ t, goes → startSave fam s = some t → exec (.saveAndRestore g.id) s = .next t ∧
      ∃ h, t.wg g.id = some h ∧ h.status = .saving ∧ h.saved.isSome ∧ h.waves = g.waves)) ∧
  (g.status = .saving →
    let goes : Prop := ∀ h ∈ fam, h.status = .saving ∧ s.drained h [] (fun _ => false) = true
    (¬goes → exec (.saveAndRestore g.id) s = .next s) ∧
    (goes → g.saved.isSome → ∃ t h, exec (.saveAndRestore g.id) s = .next t ∧ t.wg g.id = some h ∧ h.status = .saved ∧
      h.waves = g.waves.map savedWave ∧ h.barriers = g.barriers ∧ h.rings = g.rings ∧ h.scratch = g.scratch ∧
      h.raster = g.raster ∧ (∀ r ∈ t.reqs, r.w.wg ≠ g.id) ∧ (∀ k ∈ t.cmds, k.w.wg ≠ g.id) ∧
      (∀ k ∈ t.cards, k.w.wg ≠ g.id) ∧ t.hmem = s.hmem)) ∧
  (g.status = .resident →
    let goes : Prop := g.request = some true ∧ ∀ w ∈ g.waves, w.window = none
    (¬goes → exec (.discard g.id) s = .next s) ∧
    (goes → ∃ t, exec (.discard g.id) s = .next t ∧ t = { s with wgs := t.wgs } ∧
      t.wg g.id = some (if s.mayDiscard g then { g with status := .discarding, request := none }
        else { g with request := some false }) ∧ ∀ k, k ≠ g.id → t.wg k = s.wg k)) ∧
  (g.status = .discarding →
    (s.discardable g = false → (∃ w ∈ g.waves, w.run ≠ none) → exec (.discard g.id) s = .next s) ∧
    (s.discardable g = false → (∀ w ∈ g.waves, w.run = none) → ∃ t, exec (.discard g.id) s = .next t ∧
      t = { s with wgs := t.wgs } ∧ (∀ k, k ≠ g.id → t.wg k = s.wg k) ∧ t.wg g.id = some { g with
        waves := g.waves.map fun w => { w with recs := w.recs.filter (recordReady w) } }) ∧
    (s.discardable g = true → ∃ t, exec (.discard g.id) s = .next t ∧ t.wg g.id = none ∧
      (∀ k, k ≠ g.id → t.wg k = s.wg k) ∧ t.dmem = ((s.releaseL1 g.core).writeBlends g).dmem ∧ t.hmem = s.hmem ∧
      t.slots = s.slots ∧ ∀ l, s.launch g.launch = some l → t.launch l.id = some { l with requeued := l.requeued ++ [g.flat] })) ∧
  (∀ core l work, s.launch g.launch = some l → g.saved = some work → g.keeper = false →
    let here := (s.family g).filter Workgroup.placed
    let back := (s.family g).filter fun h => h.status == .saved || (h.status == .held && h.id == g.id)
    let goes : Prop := s.running = true ∧ s.mapped l.slot = true ∧
      (g.status = .held ∨ (g.status = .saved ∧ here = [] ∧ s.level l.slot = s.topLevel ∧
        ∃ h ∈ s.family g, h.status = .saved ∧ h.couldRun = true))
    (¬goes → exec (.resume g.id core) s = .next s) ∧
    (goes → l.group = 1 → here = [] → back = [g] → s.canPlace l core = false → exec (.resume g.id core) s = .next s) ∧
    (∀ t, goes → l.group = 1 → here = [] → back = [g] → s.restore l g core = some t → exec (.resume g.id core) s = .next t ∧ ∃ h, t.wg g.id = some h ∧
      h.core = core ∧ h.barriers = g.barriers ∧ h.rings = g.rings ∧ h.scratch = g.scratch ∧ h.raster = g.raster ∧
      (work.cards = [] → h.status = .resident ∧
        h.waves.map (fun w => { w with active := false, unblocked := none, wslot := 0 }) =
          g.waves.map fun w => { w with active := false, unblocked := none, wslot := 0 })))

end Sys2Proof.Claims

/-- How a halt ends, and how a workgroup is saved, discarded and resumed. -/
def Obligations.HaltsAndCuts : Prop := Sys2Proof.Claims.HaltsEnd ∧ Sys2Proof.Claims.CutsAndResumes

namespace Sys2Proof.Claims

/-- R24, R445, R446: at a mooring point a resident slot's pending shares take effect, when they fit; the clock mode changes when no
kernel runs, and issue resumes with `moded` set after the stated count. -/
def MooringAndClock : Prop :=
  (∀ s k, s.slots.length = 64 → k < 64 →
    let q := s.slot k
    let here : Prop := s.running = true ∧ s.mapped k = true ∧ s.slotIdle k = true ∧ q.buf = []
    (¬here → exec (.mooringPoint k) s = .next s) ∧
    (here → q.pendingShares = [] → exec (.mooringPoint k) s = .next s) ∧
    (∀ c n order, here → q.pendingShares = [(c, n, order)] → c < s.clusters.length → n ≤ 8 →
      let others := (((s.cluster c).ranges.filter fun r => r.1 != k).map fun r => r.2.2).sum
      let earlier : Prop := ∃ j, j < 64 ∧ j ≠ k ∧ s.mapped j = true ∧ ∃ p ∈ (s.slot j).pendingShares, p.1 = c ∧ p.2.2 < order
      (8 < others + n ∨ earlier → exec (.mooringPoint k) s = .next s) ∧
      (∀ base, others + n ≤ 8 → ¬earlier → s.allocShare c k n = some base → ∃ t, exec (.mooringPoint k) s = .next t ∧
        SlotIs s t k { q with pendingShares := [], shares := (t.slot k).shares } ∧
        (c < q.shares.length → (t.slot k).shares[c]? = some n) ∧
        (∀ j, j ≠ c → (t.slot k).shares[j]? = q.shares[j]?) ∧ t.dmem = s.dmem ∧ t.hmem = s.hmem ∧
        (t.cluster c).ranges = ((s.cluster c).ranges.filter fun r => r.1 != k) ++ if n = 0 then [] else [(k, base, n)]))) ∧
  (∀ s, let point : Prop := (∀ l ∈ s.launches, l.state ≠ .released) ∧ ∀ g ∈ s.wgs, g.keeper = true ∨ g.placed = false
    let goes : Prop := s.ctl.mode ≠ s.ctl.current ∧ s.ctl.changing = none ∧ point
    (¬goes → exec .clockModeChange s = .next s) ∧
    (goes → exec .clockModeChange s = .next { s with ctl := { s.ctl with
      current := s.ctl.mode, changing := some (s.clock + if s.ctl.mode then 48000 else 96000) } })) ∧
  (∀ s, (s.ctl.changing = none → exec .clockModeResume s = .next s) ∧
    (∀ e, s.ctl.changing = some e → s.clock ≤ e → ∃ t, exec .clockModeResume s = .next t ∧
      t = { s with clock := e, ctl := { s.ctl with changing := none, moded := true }, vecs := t.vecs } ∧ Signals s t 0 65))

/-- An engine owns a line of the bytes (R300). -/
def HostOwned (s : State) (a n : Nat) : Prop := ∃ o ∈ s.owned, ∃ b, a ≤ b ∧ b < a + n ∧ o.line = b / 128 * 128

/-- R300, R303, R459, R460, R467: a host write in device bias, or uncached, is performed in device memory, one that the host may
cache stays with it, and the lines that it may cache are its own; an uncached access takes the host's modified bytes back first
(DEDUCED, log entry 101); an access of the host to its own memory changes that memory (DESIGN CHOICE, log entry 157);
one to a line that an engine owns is delayed. A link that goes down fails the outstanding host requests and changes no
memory. -/
def HostSide : Prop :=
  (∀ s h, 0 < h.size → h.own = true → Mem.wf s.hmem = true →
    (h.write = none → exec (.hostAccess h) s = .next s) ∧
    (∀ bs, h.write = some bs → bs.length = h.size → ∃ t, exec (.hostAccess h) s = .next t ∧ t = { s with hmem := t.hmem } ∧
      (∀ j, j < h.size → Mem.get t.hmem (h.addr + j) = (bs[j]?).getD 0) ∧
      ∀ a, a < h.addr ∨ h.addr + h.size ≤ a → Mem.get t.hmem a = Mem.get s.hmem a)) ∧
  (∀ s h, 0 < h.size → h.own = false →
    let inRange (b : Nat) : Prop := h.addr ≤ b ∧ b < h.addr + h.size
    let inLines (a : Nat) : Bool := decide (h.addr / 128 ≤ a / 128 ∧ a / 128 ≤ (h.addr + h.size - 1) / 128)
    let seen (a : Nat) : Byte := if inLines a then (s.hcache.lookup a).getD (Mem.get s.dmem a) else Mem.get s.dmem a
    let cached : Prop := h.cached = true ∧ ∀ b, inRange b → b / 2 ^ 21 ∈ s.hostBias
    let recalled (a : Nat) : Prop := (∃ c ∈ s.hcache, c.1 = a) ∧ inLines a = true
    let shares (t : State) : Prop := ∀ l, l ∈ t.hshared ↔ l ∈ s.hshared ∨ (l % 128 = 0 ∧ inLines l = true)
    let unshares (t : State) : Prop := ∀ l, l ∈ t.hshared ↔ l ∈ s.hshared ∧ ¬(l % 128 = 0 ∧ inLines l = true)
    (2 ^ 36 < h.addr + h.size → exec (.hostAccess h) s = .fault (.noDeviceMemory h.addr)) ∧
    (h.addr + h.size ≤ 2 ^ 36 →
      (HostOwned s h.addr h.size → exec (.hostAccess h) s = .next { s with delayed := true }) ∧
      (¬HostOwned s h.addr h.size → (s.hcache.map Prod.fst).Nodup → Mem.wf s.dmem = true →
        (h.write = none → cached → ∃ t, exec (.hostAccess h) s = .next t ∧
          t = { s with hshared := t.hshared, reached := t.reached } ∧ shares t) ∧
        (h.write = none → ¬cached → ∃ t, exec (.hostAccess h) s = .next t ∧
          t = { s with dmem := t.dmem, hcache := s.hcache.filter (fun c => !inLines c.1), hshared := t.hshared,
                       zeroed := t.zeroed, reached := t.reached } ∧ unshares t ∧
          (∀ a, Mem.get t.dmem a = seen a) ∧ ∀ a, a ∈ t.zeroed ↔ a ∈ s.zeroed ∧ ¬recalled a) ∧
        (∀ bs, h.write = some bs → bs.length = h.size →
          (cached → ∃ t, exec (.hostAccess h) s = .next t ∧ t = { s with hcache := t.hcache, hshared := t.hshared } ∧
            shares t ∧ ∀ j, j < h.size → (h.addr + j, (bs[j]?).getD 0) ∈ t.hcache) ∧
          (¬cached → ∃ t, exec (.hostAccess h) s = .next t ∧
            t = { s with dmem := t.dmem, hcache := s.hcache.filter (fun c => !inLines c.1), hshared := t.hshared,
                         zeroed := t.zeroed, reached := t.reached } ∧ unshares t ∧
            (∀ j, j < h.size → Mem.get t.dmem (h.addr + j) = (bs[j]?).getD 0) ∧
            (∀ a, ¬inRange a → Mem.get t.dmem a = seen a) ∧
            ∀ a, a ∈ t.zeroed ↔ a ∈ s.zeroed ∧ ¬recalled a ∧ ¬inRange a))))) ∧
  (∀ s, ∃ t, exec .linkDown s = .next t ∧ t.linkUp = false ∧ t.dmem = s.dmem ∧ t.hmem = s.hmem ∧
    (s.reqs = [] → t = { s with linkUp := false }) ∧
    ∀ r p, s.reqs = [r] → p.mem ≠ 0 →
      (∀ work va scope size ops q nf, r.kind = .atomic work p va scope size ops q nf → (ops.map Prod.fst).Pairwise (· < ·) →
        LanesFilled r q (ops.map Prod.fst) (fun _ => failureSlot r nf va .hostAtomic) s t) ∧
      (∀ q lane va z scope lead, r.kind = .load q lane va z scope false lead → s.reqPlace r = some (p, scope) →
        p.mem = 1 ∨ p.mem = 2 → SlotsFilled r q lane (fun _ => .token ⟨.hostRead, va, r.pc, 0, 0⟩) s t))

end Sys2Proof.Claims

namespace Sys2Proof.Claims

/-- An AtomicOp that R466 names: FetchAdd, Swap or CAS of 4 or 8 bytes, or CAS of 16, at its own alignment. -/
def namedAtomic (h : HostAtomic) : Prop := (h.size = 4 ∨ h.size = 8 ∨ (h.size = 16 ∧ h.op = .cas)) ∧ h.addr % h.size = 0

/-- The new value of an AtomicOp over an old one of its width. -/
def atomicValue (h : HostAtomic) (old : Nat) : Nat :=
  let w := 2 ^ (8 * h.size)
  match h.op with
  | .fetchAdd => (old + h.operand) % w
  | .swap => h.operand % w
  | .cas => if old = h.compare % w then h.operand % w else old

/-- R258, R300: the host's AtomicOps besides those that R466 names: on the host's own memory they are performed there (DEDUCED, log
entry 157); one to a line that an engine owns is delayed; one of another width or at a misaligned address changes nothing
(DEDUCED, log entry 102); beyond device memory there is none to perform. -/
def HostAtomicsElsewhere : Prop := ∀ s h,
  (namedAtomic h → h.own = true → Mem.wf s.hmem = true → ∃ t, exec (.hostAtomicop h) s = .next t ∧ t = { s with hmem := t.hmem } ∧
    natOfBytes (Mem.read t.hmem h.addr h.size) = atomicValue h (natOfBytes (Mem.read s.hmem h.addr h.size)) ∧
    ∀ a, a < h.addr ∨ h.addr + h.size ≤ a → Mem.get t.hmem a = Mem.get s.hmem a) ∧
  (namedAtomic h → h.own = false → 2 ^ 36 < h.addr + h.size → exec (.hostAtomicop h) s = .fault (.noDeviceMemory h.addr)) ∧
  (namedAtomic h → h.own = false → h.addr + h.size ≤ 2 ^ 36 → HostOwned s h.addr h.size →
    exec (.hostAtomicop h) s = .next { s with delayed := true }) ∧
  (¬namedAtomic h → h.own = true ∨ h.addr + h.size ≤ 2 ^ 36 → exec (.hostAtomicop h) s = .next s)

end Sys2Proof.Claims

/-- R466: the AtomicOps of the host to device memory, FetchAdd, Swap and CAS of 32 and 64 bits and CAS of 128, are performed at
once on the stored value, as the device's own `.sys` atomics are, which take back the host's copies of the line first (R460);
nothing else of memory changes. Those that R466 does not speak of, or that an engine delays (R300), are in `HostAtomicsElsewhere`. -/
def Obligations.HostAtomicsAtTheBank : Prop := ∀ s h, namedAtomic h → h.own = false → h.addr + h.size ≤ 2 ^ 36 →
  ¬HostOwned s h.addr h.size → (s.hcache.map Prod.fst).Nodup → Mem.wf s.dmem = true →
  let held (a : Nat) : Option Byte :=
    if s.hostBias.contains (h.addr / 2 ^ 21) && a / 128 == h.addr / 128 then s.hcache.lookup a else none
  let seen (a : Nat) : Byte := (held a).getD (Mem.get s.dmem a)
  ∃ t, exec (.hostAtomicop h) s = .next t ∧
    t = { s with dmem := t.dmem, zeroed := t.zeroed, hcache := t.hcache, hshared := t.hshared, reached := t.reached } ∧
    natOfBytes (Mem.read t.dmem h.addr h.size) =
      atomicValue h (natOfBytes ((List.range h.size).map fun j => seen (h.addr + j))) ∧
    ∀ a, a < h.addr ∨ h.addr + h.size ≤ a → Mem.get t.dmem a = seen a

namespace Sys2Proof.Claims

/-- R300, R447, R448, R450, R452, R454: a walk fills the translation caches and changes no memory, and is delayed by a table
entry in a line that an engine owns; an invalidation drops every
translation that maps a byte of its range as it starts, and is busy until the accesses before it are complete (DEDUCED, log entry
104); a root is written only
while no slot of the interface is enabled, and drops the interface's instruction lines. R451: a keeper agent's address in the
pinned save region is not translated; elsewhere its accesses go through the tables of the physical function's interface, which
is the model's choice (log entry 45). -/
def TranslationBlocks : Prop :=
  (∀ s cluster core va, cluster < 24 → ∀ p, s.pins[0]? = some p →
    let a := va.toNat % 2 ^ 52
    let inside : Prop := p.on = true ∧ p.status = 1 ∧ p.base.toNat ≤ a ∧ a < p.base.toNat + 4096 * p.pages.toNat
    (canonical va = false → exec (.tableWalk cluster core keeperVi va) s = .next s) ∧
    (canonical va = true → inside → exec (.tableWalk cluster core keeperVi va) s = .next s ∧
      ∀ who need, locate s cluster who keeperVi va need = (.ok ⟨0, a⟩, s)) ∧
    (canonical va = true → ¬inside →
      exec (.tableWalk cluster core keeperVi va) s = exec (.tableWalk cluster core 0 va) s ∧
      ∀ who need, locate s cluster who keeperVi va need = locate s cluster who 0 va need)) ∧
  (∀ s cluster core vi va, cluster < s.clusters.length → s.clusters.length = 24 → vi ≠ keeperVi →
    let a := va.toNat % 2 ^ 52
    let own : Option Nat := if core / 8 = cluster then some core else none
    let held : Prop := core / 8 = cluster ∧ (tlbFind (s.core core).tlb vi a).isSome
    (canonical va = false → exec (.tableWalk cluster core vi va) s = .next s) ∧
    (canonical va = true → held → exec (.tableWalk cluster core vi va) s = .next s) ∧
    (canonical va = true → ¬held → tlbFind (s.cluster cluster).tlb vi a = none → walkOwned s vi a = true →
      exec (.tableWalk cluster core vi va) s = .next { s with delayed := true }) ∧
    (∀ c, canonical va = true → ¬held → tlbFind (s.cluster cluster).tlb vi a = none → walkOwned s vi a = false →
      walk s vi a = .error c → exec (.tableWalk cluster core vi va) s = .next s) ∧
    (∀ e, canonical va = true → ¬held → tlbFind (s.cluster cluster).tlb vi a = none → walkOwned s vi a = false →
      walk s vi a = .ok e → e.va ≤ a → a < e.va + e.size → ∃ t, exec (.tableWalk cluster core vi va) s = .next t ∧ t.dmem = s.dmem ∧ t.hmem = s.hmem ∧
        t.wgs = s.wgs ∧ tlbFind (t.cluster cluster).tlb vi a = some e ∧
        (core < s.cores.length → ∀ k, own = some k → tlbFind (t.core k).tlb vi a = some e))) ∧
  (∀ s vi, vi < s.ifaces.length →
    let f := s.iface vi
    let all : Prop := f.invpages = BitVec.allOnes 32
    let inside (x : Nat) : Prop := all ∨ (f.invaddr.toNat % 2 ^ 52 ≤ x ∧ x < f.invaddr.toNat % 2 ^ 52 + 4096 * f.invpages.toNat)
    let maps (e : Tlb) : Prop := e.vi = vi ∧ ∃ x, x < 2 ^ 52 ∧ inside x ∧ e.va ≤ x ∧ x < e.va + e.size
    (f.busy.isSome → exec (.invalidateStart vi) s = .next s) ∧
    (f.busy = none → ∃ t, exec (.invalidateStart vi) s = .next t ∧
      t = { s with cores := t.cores, clusters := t.clusters, walkCache := t.walkCache, ifaces := t.ifaces } ∧
      (∃ b, t.iface vi = { f with busy := some b }) ∧ (∀ j, j ≠ vi → t.iface j = s.iface j) ∧
      (∀ k, ∀ e ∈ (t.core k).tlb, e ∈ (s.core k).tlb ∧ ¬maps e) ∧
      (∀ k, ∀ e ∈ (t.cluster k).tlb, e ∈ (s.cluster k).tlb ∧ ¬maps e) ∧ ∀ w ∈ t.walkCache, w ∈ s.walkCache ∧ w.1 ≠ vi) ∧
    (f.busy = none → exec (.invalidateComplete vi) s = .next s) ∧
    (∀ id va n, f.busy = some (id, va, n) →
      (s.usesRange vi id va n = true → exec (.invalidateComplete vi) s = .next s) ∧
      (s.usesRange vi id va n = false → ∃ t, exec (.invalidateComplete vi) s = .next t ∧ t = { s with ifaces := t.ifaces } ∧
        t.iface vi = { f with busy := none } ∧ ∀ j, j ≠ vi → t.iface j = s.iface j)) ∧
    (∀ value,
      let enabled : Prop := ∃ q ∈ s.slots, q.enable = true ∧ q.assigned = some vi
      (enabled → exec (.rootWrite vi value) s = .next s) ∧
      (¬enabled → ∃ t, exec (.rootWrite vi value) s = .next t ∧ t = { s with cores := t.cores, ifaces := t.ifaces } ∧
        t.iface vi = { f with root := BitVec.ofNat 64 (value.toNat / 2 ^ 12 % 2 ^ 40 * 2 ^ 12) } ∧
        (∀ j, j ≠ vi → t.iface j = s.iface j) ∧
        ∀ k l, l ∈ (t.core k).icache ↔ l ∈ (s.core k).icache ∧ l.vi ≠ vi)))

end Sys2Proof.Claims

/-- Host accesses, the host's other atomics, the link, walks, invalidations and roots. -/
def Obligations.HostAccessesAndTranslation : Prop := Sys2Proof.Claims.HostSide ∧ Sys2Proof.Claims.HostAtomicsElsewhere ∧
  Sys2Proof.Claims.TranslationBlocks

namespace Sys2Proof.Claims

/-- A register write that leaves everything but one slot, one interface or the control block. -/
def WritesSlot (s : State) (i : Instr) (k : Nat) (ok : Prop) (q : QSlot) : Prop :=
  (ok → ∃ t, exec i s = .next t ∧ t = { s with slots := t.slots } ∧ SlotIs s t k q) ∧ (¬ok → exec i s = .next s)

def WritesIface (s : State) (i : Instr) (k : Nat) (ok : Prop) (f : VIface) : Prop :=
  (ok → ∃ t, exec i s = .next t ∧ t = { s with ifaces := t.ifaces } ∧ t.iface k = f ∧ ∀ j, j ≠ k → t.iface j = s.iface j) ∧
  (¬ok → exec i s = .next s)

def WritesCtl (s : State) (i : Instr) (ok : Prop) (c : Ctl) : Prop :=
  (ok → exec i s = .next { s with ctl := c }) ∧ (¬ok → exec i s = .next s)

/-- R426, R447, R482, R483: a register field is written through a view that owns it, with a value of its range, and, where the
rules say so, only while the slot or the interface is not enabled; every other write leaves the field. An unmasked vector
signals what was pending. An assignment of 0 to 15 names an interface and 16 none (DESIGN CHOICE, log entry 106); a priority is at most
the level that it leaves (DEDUCED, log entry 108). -/
def RegisterWrites : Prop :=
  (∀ s view k v, k < s.slots.length →
    let q := s.slot k
    let n := v.toNat
    let phys : Prop := view = .physical
    let seen : Prop := phys ∨ ∃ vi, view = .interface vi ∧ q.assigned = some vi
    let off : Prop := q.enable = false
    let low : Word := v.extractLsb' 0 32
    WritesSlot s (.registerWrite view (.slotRingbase k) v) k (seen ∧ off ∧ n % 4096 = 0) { q with ringbase := v } ∧
    WritesSlot s (.registerWrite view (.slotGang k) v) k (seen ∧ off ∧ n < 16) { q with gang := n } ∧
    WritesSlot s (.registerWrite view (.slotRinglog k) v) k (seen ∧ off ∧ 12 ≤ n ∧ n ≤ 24) { q with ringlog := n } ∧
    WritesSlot s (.registerWrite view (.slotFaultbase k) v) k (seen ∧ off ∧ n % 1024 = 0) { q with faultbase := v } ∧
    WritesSlot s (.registerWrite view (.slotFaultcount k) v) k (seen ∧ n ≤ 4096) { q with faultcount := n } ∧
    WritesSlot s (.registerWrite view (.slotFaultread k) v) k seen { q with faultread := low } ∧
    WritesSlot s (.registerWrite view (.slotOverflow k) v) k (seen ∧ n % 2 = 1) { q with overflow := false } ∧
    WritesSlot s (.registerWrite view (.slotSlice k) v) k (phys ∧ 2 ^ 14 ≤ n ∧ n ≤ 2 ^ 24) { q with slice := n } ∧
    WritesSlot s (.registerWrite view (.slotAssign k) v) k (phys ∧ off ∧ n ≤ 16)
      { q with assigned := if n < 16 then some n else none } ∧
    (phys ∧ n < 8 → ∃ t, exec (.registerWrite view (.slotPriority k) v) s = .next t ∧ t = { s with slots := t.slots } ∧
      SlotIs s t k { q with priority := n, level := (t.slot k).level } ∧ n ≤ (t.slot k).level) ∧
    (¬(phys ∧ n < 8) → exec (.registerWrite view (.slotPriority k) v) s = .next s) ∧
    (∀ c, (phys ∧ n ≤ 8 ∧ c < 24 → ∃ t, exec (.registerWrite view (.slotShare k c) v) s = .next t ∧
        t = { s with slots := t.slots, nextId := s.nextId + 1 } ∧ SlotIs s t k { q with
          pendingShares := (q.pendingShares.filter fun p => p.1 != c) ++ [(c, n, s.nextId)] }) ∧
      (¬(phys ∧ n ≤ 8 ∧ c < 24) → exec (.registerWrite view (.slotShare k c) v) s = .next s))) ∧
  (∀ s view k v, k < s.ifaces.length →
    let f := s.iface k
    let n := v.toNat
    let phys : Prop := view = .physical
    let seen : Prop := phys ∨ view = .interface k
    let off : Prop := ∀ q ∈ s.slots, ¬(q.enable = true ∧ q.assigned = some k)
    WritesIface s (.registerWrite view (.viOn k) v) k (seen ∧ off ∧ n < 2) { f with on := n % 2 == 1 } ∧
    WritesIface s (.registerWrite view (.viInvaddr k) v) k (seen ∧ n % 4096 = 0) { f with invaddr := v } ∧
    WritesIface s (.registerWrite view (.viInvpages k) v) k (seen ∧ n < 2 ^ 32) { f with invpages := v.extractLsb' 0 32 } ∧
    WritesIface s (.registerWrite view (.viWays k) v) k (phys ∧ 0 < n ∧ n < 2 ^ 24) { f with ways := v.extractLsb' 0 24 } ∧
    WritesIface s (.registerWrite view (.viCtimeout k) v) k (phys ∧ 50 ≤ n ∧ n ≤ 65535) { f with ctimeout := n } ∧
    WritesIface s (.registerWrite view (.viBeacon k) v) k (phys ∧ 20 ≤ n ∧ n ≤ 40) { f with beacon := n }) ∧
  (∀ s view v,
    let c := s.ctl
    let n := v.toNat
    let phys : Prop := view = .physical
    WritesCtl s (.registerWrite view .devMode v) (phys ∧ n < 2) { c with mode := n % 2 == 1 } ∧
    WritesCtl s (.registerWrite view .devAgeing v) (phys ∧ 65536 ≤ n ∧ n ≤ 2 ^ 30) { c with ageing := n } ∧
    WritesCtl s (.registerWrite view .devWarn v) (phys ∧ 60 ≤ n ∧ n ≤ 105) { c with warn := n } ∧
    WritesCtl s (.registerWrite view .devShutaddr v) phys { c with shutaddr := n / 1024 * 1024 } ∧
    WritesCtl s (.registerWrite view .devEvents v) phys { c with
      thermal := c.thermal && !v.getLsbD 0, moded := c.moded && !v.getLsbD 1, shutdown := c.shutdown && !v.getLsbD 2,
      error := c.error && !v.getLsbD 3 }) ∧
  (∀ s fn k,
    let unmasks (t : State) : Prop := t = { s with vecs := t.vecs } ∧ ∀ i j, vecOf t i j = if i = fn ∧ j = k then
      (vecOf s i j).map (fun v => if v.pending then ⟨false, false, v.signals + 1⟩ else { v with masked := false }) else vecOf s i j
    (∃ t, exec (.vectorUnmask fn k) s = .next t ∧ unmasks t) ∧
    (∀ v, v.getLsbD 0 = false → ∃ t, exec (.registerWrite (.interface fn) (.vectorMask fn k) v) s = .next t ∧ unmasks t) ∧
    (∀ v vi, vi ≠ fn → exec (.registerWrite (.interface vi) (.vectorMask fn k) v) s = .next s) ∧
    (∀ v, v.getLsbD 0 = true → ∃ t, exec (.registerWrite (.interface fn) (.vectorMask fn k) v) s = .next t ∧
      t = { s with vecs := t.vecs } ∧ ∀ i j, vecOf t i j = if i = fn ∧ j = k then
        (vecOf s i j).map (fun v => { v with masked := true }) else vecOf s i j))

/-- R457, R458: a pin write with on = 1 is loading or refused, with on = 0 it is off, and it is ignored while its fill is in
progress, or for register 0 while a slot is enabled; the sets of lines that a refusal counts are uninterpreted, and a range beyond
64 GiB is refused (DESIGN CHOICE, log entry 105); a fill that ends is active. A write of one field is a pin write of the
register, and a new save region refuses the range of register 0 that it no longer holds. -/
def Pins : Prop := ∀ s k p, s.pins[k]? = some p →
  (∀ base pages,
    let locked : Prop := p.status = 3 ∨ (k = 0 ∧ ∃ q ∈ s.slots, q.enable = true)
    let addr := base.toNat / 2 ^ 12 % 2 ^ 40 * 2 ^ 12
    let on := base.getLsbD 0
    let bytes := addr + 4096 * pages.toNat
    (locked → exec (.pinWrite k base pages) s = .next s) ∧
    (base.toNat / 2 ^ 12 % 2 ^ 40 * 2 ^ 12 = p.base.toNat → base.getLsbD 0 = p.on →
      exec (.registerWrite .physical (.pinPages k) (pages.zeroExtend 64)) s = exec (.pinWrite k base pages) s) ∧
    exec (.registerWrite .physical (.pinBase k) base) s = exec (.pinWrite k base p.pages) s ∧
    (¬locked → ∃ t r, exec (.pinWrite k base pages) s = .next t ∧ t = { s with pins := t.pins } ∧
      t.pins[k]? = some r ∧ r.base.toNat = addr ∧ r.on = on ∧ r.pages = pages ∧ (∀ j, j ≠ k → t.pins[j]? = s.pins[j]?) ∧
      (on = false → r.status = 0) ∧ (on = true → r.status = 2 ∨ r.status = 3) ∧
      (on = true → 2 ^ 36 < bytes → r.status = 2) ∧
      (on = true → 2 ^ 28 < 4096 * pages.toNat → (∀ j x, j ≠ k → s.pins[j]? = some x → x.status = 0 ∨ x.status = 2) →
        r.status = 2) ∧
      (on = true → k = 0 → addr ≠ s.savebase.toNat ∨ s.savepages.toNat < pages.toNat → r.status = 2) ∧
      (on = true → overfullSet ((addr, 4096 * pages.toNat) :: s.pinnedRanges k) = true → r.status = 2) ∧
      (on = true → 4096 * pages.toNat ≤ 2 ^ 28 → bytes ≤ 2 ^ 36 →
        overfullSet ((addr, 4096 * pages.toNat) :: s.pinnedRanges k) = false → (k = 0 → addr = s.savebase.toNat ∧ pages.toNat ≤ s.savepages.toNat) →
        (∀ j x, j ≠ k → s.pins[j]? = some x → x.status = 0 ∨ x.status = 2) → r.status = 3))) ∧
  (∀ x ∈ [RegName.savebase, .savepages], ∀ v, v.toNat < 2 ^ 32 → (∀ q ∈ s.slots, q.enable = false) → k = 0 → ∃ t r,
    exec (.registerWrite .physical x v) s = .next t ∧
    t = { s with pins := t.pins, savebase := t.savebase, savepages := t.savepages } ∧ t.pins[k]? = some r ∧
    (x = .savebase → t.savebase.toNat = v.toNat / 2 ^ 12 * 2 ^ 12 ∧ t.savepages = s.savepages) ∧
    (x = .savepages → t.savepages = v.extractLsb' 0 32 ∧ t.savebase = s.savebase) ∧
    (∀ j, j ≠ k → t.pins[j]? = s.pins[j]?) ∧
    r = { p with status := if p.on = true ∧ (p.base ≠ t.savebase ∨ t.savepages.toNat < p.pages.toNat) then 2 else p.status }) ∧
  (∃ t, exec (.pinFillComplete k) s = .next t ∧ t = { s with pins := t.pins, lantern := t.lantern, fresh := t.fresh } ∧
    t.pins[k]? = some (if p.status = 3 then { p with status := 1 } else p) ∧ ∀ j, j ≠ k → t.pins[j]? = s.pins[j]?)

end Sys2Proof.Claims

/-- Which writes of the register blocks take effect. -/
def Obligations.RegisterWritesAndPins : Prop := Sys2Proof.Claims.RegisterWrites ∧ Sys2Proof.Claims.Pins

namespace Sys2Proof.Claims

/-- R475, R477, R478, R484: power-on trains the link and derives the keys, with the identity certificate; a bundle starts the device when its three envelopes
are accepted, each behind the payload of the one before it (DEDUCED, log entry 85), and otherwise says which kind was refused; nothing
is accepted on one signature alone; a request makes a signed report, whose layout is DEDUCED (log entry 87). -/
def SecurityEvents : Prop :=
  (∀ s, exec .powerOn s = .next { s with
    boot := { s.boot with powered := true, keysDerived := true }, linkUp := true
    attest := { s.attest with certificate := Config.identityCertificate } }) ∧
  (∀ s v,
    let b := s.boot
    let x := s.bundle 3 (v.toNat / 2 * 2) []
    let goes : Prop := b.powered = true ∧ b.status ≠ 1
    (¬goes → exec (.firmwareBundle v) s = .next s) ∧
    (goes → v.toNat % 2 = 0 → exec (.firmwareBundle v) s = .next { s with boot := { b with bundle := v } }) ∧
    (∀ kind, goes → v.toNat % 2 = 1 → x = .error kind →
      exec (.firmwareBundle v) s = .next { s with boot := { b with bundle := v, status := 2, refused := kind } }) ∧
    (∀ ds, goes → v.toNat % 2 = 1 → x = .ok ds → ∃ t, exec (.firmwareBundle v) s = .next t ∧
      t = { s with boot := { b with bundle := v, status := 1, refused := 0, digests := t.boot.digests } } ∧
      ds.length = 3 ∧ (∀ k d, (k, d) ∈ ds → 1 ≤ k → k ≤ 3 → t.boot.digests[k - 1]? = some d))) ∧
  (∀ h payload e, accepts h payload e = true ↔
    Config.keyRevoked e.key e.kind = false ∧ Config.keysMatchFuses e.key = true ∧
    Config.ed25519Verifies e.key (h.take 128) ((h.drop 128).take 64) = true ∧
    Config.mlDsaVerifies e.key (h.take 128) ((h.drop 192).take 3309) = true ∧ e.digest = Config.sha384 payload ∧
    Config.svnMinimum e.kind ≤ e.svn ∧ (e.revision = Config.siliconRevision ∨ (e.kind = 5 ∧ e.revision = 2 ^ 16 - 1))) ∧
  (∀ s, exec .attestationRequest s = .next { s with attest := { s.attest with busy := true } }) ∧
  (∀ s, (s.attest.busy = false → exec .attestationReportReady s = .next s) ∧
    (s.attest.busy = true → s.attest.nonce.length = 8 → ∃ t m, exec .attestationReportReady s = .next t ∧
      t = { s with attest := { s.attest with busy := false, report := t.attest.report } } ∧
      t.attest.report = m ++ Config.deviceSignature 0 m ++ Config.deviceSignature 1 m ∧
      (∀ j, j < 8 → natOfBytes ((m.drop (4 * j)).take 4) = (laneAt s.attest.nonce j).toNat) ∧
      natOfBytes ((m.drop 32).take 4) = s.attest.interface % 2 ^ 32))

/-- The gate register of a cluster changes, and nothing else. -/
def GateIs (s t : State) (c : Nat) (g : Gate) : Prop :=
  t = { s with clusters := t.clusters } ∧ t.cluster c = { s.cluster c with gate := g } ∧
    ∀ j, j ≠ c → t.cluster j = s.cluster j

/-- The number of a gated unit within its cluster, and the gate bit of each number (R479). -/
def unitOf : List (UnitRef × Nat × Nat) :=
  ((List.range 24).flatMap fun c => (List.range 8).flatMap fun k => (List.range 4).map fun q =>
    (UnitRef.matrix c k q, c, 4 * k + q)) ++
  ((List.range 24).flatMap fun c => (List.range 6).map fun k => (UnitRef.island c k, c, 32 + k)) ++
  (List.range 24).map fun c => (UnitRef.copy c, c, 38)

def gateBit (g : Gate) (n : Nat) : Bool :=
  if n < 32 then g.mgate.getLsbD n else if n < 38 then g.igate.getLsbD (n - 32) else g.kgate

/-- R479 to R481: a gate bit takes effect when its unit is idle; a gated unit that a request has reached wakes with its bit
set, and gates again after 2^16 idle cycles; one whose bit is cleared runs at once (DEDUCED, log entry 112); an empty cluster whose `cgate` is set is written back and gated, and a clear
`cgate` wakes it by UNIT_WAKE (DEDUCED, log entry 111). -/
def Gating : Prop :=
  (∀ s c, c < s.clusters.length →
    let g := (s.cluster c).gate
    let kept (h : Gate) (n : Nat) : Prop := gateBit h n = true
    (∀ i h, ((∃ v, i = Instr.matrixGate c v ∧ h = { g with mgate := v }) ∨ (∃ v, i = .islandGate c v ∧ h = { g with igate := v }) ∨
        ∃ v, i = .copyGate c v ∧ h = { g with kgate := v }) →
      (∀ n ∈ g.gated ++ g.wanted ++ g.woken.map Prod.fst, n ≤ 38) → ∃ t r, exec i s = .next t ∧ GateIs s t c r ∧
        r = { h with gated := r.gated, wanted := r.wanted, woken := r.woken } ∧
        (∀ n, n ∈ r.gated ↔ n ∈ g.gated ∧ kept h n) ∧ (∀ n, n ∈ r.wanted ↔ n ∈ g.wanted ∧ kept h n) ∧
        ∀ p, p ∈ r.woken ↔ p ∈ g.woken ∧ kept h p.1) ∧
    (∀ v, ∃ t, exec (.clusterGate c v) s = .next t ∧ GateIs s t c { g with cgate := v })) ∧
  (∀ s u c n, (u, c, n) ∈ unitOf → c < s.clusters.length →
    let g := (s.cluster c).gate
    let stops : Prop := gateBit g n = true ∧ n ∉ g.gated ∧ s.unitIdle c n = true
    let gated : Gate := { g with gated := n :: g.gated, woken := g.woken.filter fun p => p.1 != n }
    let isWoken : Prop := ∃ since, (n, since) ∈ g.woken
    let rested : Prop := ∃ since, (n, since) ∈ g.woken ∧ since + 2 ^ 16 ≤ s.clock
    (stops → ¬isWoken → ∃ t, exec (.gateTakeEffect u) s = .next t ∧ GateIs s t c gated) ∧
    (¬stops ∨ isWoken → exec (.gateTakeEffect u) s = .next s) ∧
    (stops → rested → ∃ t, exec (.idleRegate u) s = .next t ∧ GateIs s t c gated) ∧
    (¬stops ∨ ¬rested → exec (.idleRegate u) s = .next s) ∧
    (n ∈ g.gated → n ∈ g.wanted → ∃ t, exec (.unitWake u) s = .next t ∧ GateIs s t c { g with
      gated := g.gated.filter fun x => x != n, wanted := g.wanted.filter fun x => x != n,
      woken := (n, s.clock) :: g.woken.filter fun p => p.1 != n }) ∧
    (n ∉ g.gated ∨ n ∉ g.wanted → ∃ t, exec (.unitWake u) s = .next t ∧ GateIs s t c g)) ∧
  (∀ s c, c < s.clusters.length →
    let g := (s.cluster c).gate
    let empty : Prop := (∀ h ∈ s.wgs, h.core / 8 = c → h.placed = false) ∧ (∀ k ∈ s.cards, k.core / 8 ≠ c) ∧
      (∀ k ∈ s.cmds, k.core / 8 ≠ c) ∧ ∀ x ∈ (s.cluster c).contexts, x.place = none
    (¬(g.cgate = true ∧ g.off = false ∧ empty) → exec (.gateTakeEffect (.cluster c)) s = .next s) ∧
    (g.cgate = true → g.off = false → empty → ∃ t, exec (.gateTakeEffect (.cluster c)) s = .next t ∧
      (t.cluster c).gate = { g with off := true } ∧ (t.cluster c).images = [none, none, none, none] ∧
      (∀ x ∈ (t.cluster c).contexts, x.image = [] ∧ x.count = 0) ∧ t.wgs = s.wgs ∧ t.hmem = s.hmem ∧
      ∀ l ∈ (t.cluster c).l1, l.dirty = 0) ∧
    (∃ t, exec (.unitWake (.cluster c)) s = .next t ∧ GateIs s t c { g with off := g.off && g.cgate }))

end Sys2Proof.Claims

/-- Power-on, bundles, reports and the gates of units and clusters. -/
def Obligations.BringUpAndGating : Prop := Sys2Proof.Claims.SecurityEvents ∧ Sys2Proof.Claims.Gating

namespace Sys2Proof.Claims

/-- R28, R482: a die that reaches `warn` sets the thermal bit and signals once, until it has fallen 5 °C below; one that
reaches 110 °C, by whichever event it is told, also stops issue, abandons every context and signals; that either event does all this,
with the blend buffers dropped and format 1 in the record, is DEDUCED (log entry 122). -/
def Temperature : Prop := ∀ s die temp,
  let c := s.ctl
  (∀ i, i = Instr.thermalWarning die temp ∨ i = .shutdown die temp →
    let warned : Prop := c.warn ≤ temp.toNat ∧ c.armed[die]? = some true
    let down : Prop := 110 ≤ temp.toNat ∧ die < 2 ∧ c.shutdown = false
    ∃ t, exec i s = .next t ∧
    t.ctl = { c with temps := t.ctl.temps, armed := t.ctl.armed, thermal := t.ctl.thermal,
                     stopped := t.ctl.stopped, shutdown := t.ctl.shutdown } ∧
    (die < c.temps.length → t.ctl.temps[die]? = some temp) ∧ (∀ j, j ≠ die → t.ctl.temps[j]? = c.temps[j]?) ∧
    (warned → t.ctl.thermal = true ∧ t.ctl.armed[die]? = some false ∧ ∀ j, j ≠ die → t.ctl.armed[j]? = c.armed[j]?) ∧
    (¬warned → t.ctl.thermal = c.thermal ∧ t.ctl.armed = c.armed) ∧
    (¬down → t = { s with ctl := t.ctl, vecs := t.vecs } ∧ t.ctl.stopped = c.stopped ∧ t.ctl.shutdown = c.shutdown ∧
      (warned → Signals s t 0 65) ∧ (¬warned → t.vecs = s.vecs)) ∧
    (down → t.ctl.stopped = true ∧ t.ctl.shutdown = true ∧ t.wgs = [] ∧ t.launches = [] ∧ t.reqs = [] ∧ t.cmds = [] ∧
      t.cards = [] ∧ (∀ k, (t.cluster k).blend = []) ∧ (∀ q ∈ t.slots, q.context = false ∧ q.mapped = false) ∧
      (¬warned → Signals s t 0 65) ∧ (warned → ∃ u, Signals s u 0 65 ∧ Signals u t 0 65) ∧
      t.ifaces = s.ifaces ∧ t.boot = s.boot ∧ t.agenda = s.agenda ∧
      (c.shutaddr = 0 → t.dmem = s.dmem ∧ t.hmem = s.hmem) ∧
      (0 < c.shutaddr → c.shutaddr % 1024 = 0 → c.shutaddr + 1024 ≤ 2 ^ 36 → s.hcache = [] → Mem.wf s.dmem = true →
        natOfBytes (Mem.read t.dmem c.shutaddr 4) = 2 ^ 24 + Cause.shutdown.code * 2 ^ 16 + 8 * 2 ^ 12 + 3 * 2 ^ 10 ∧
        ∀ a, a < c.shutaddr ∨ c.shutaddr + 1024 ≤ a → Mem.get t.dmem a = Mem.get s.dmem a))) ∧
  (∃ t, exec (.temperatureFallBelowWarn die temp) s = .next t ∧ t = { s with ctl := t.ctl } ∧
    t.ctl = { c with temps := t.ctl.temps, armed := t.ctl.armed } ∧
    (die < c.temps.length → t.ctl.temps[die]? = some temp) ∧ (∀ j, j ≠ die → t.ctl.temps[j]? = c.temps[j]?) ∧
    (temp.toNat + 5 ≤ c.warn → die < c.armed.length → t.ctl.armed[die]? = some true) ∧
    (c.warn < temp.toNat + 5 → t.ctl.armed = c.armed))

end Sys2Proof.Claims

/-- Shares at a mooring point, the clock mode, and temperatures. -/
def Obligations.MooringClockAndTemperature : Prop := Sys2Proof.Claims.MooringAndClock ∧ Sys2Proof.Claims.Temperature

namespace Sys2Proof.Claims

/-- One counter grows by one, up to its limit (R468). -/
def Counted (s t : State) (k : Nat) : Prop :=
  ∀ j, t.counters.counts[j]? = if j = k then (s.counters.counts[j]?).map (fun x => if x.toNat = 2 ^ 32 - 1 then x else x + 1)
    else s.counters.counts[j]?

/-- A word of memory has been replaced: it is counted, and one interface that owns its page, if any does, is notified with its
address (R35, R469). -/
def NotesLost (s t : State) (word : Nat) : Prop :=
  Counted s t 10 ∧
  (t.pageOwners word = [] → t.ifaces = s.ifaces ∧ t.vecs = s.vecs) ∧
  (t.pageOwners word ≠ [] → ∃ vi, vi ∈ t.pageOwners word ∧ Signals s t vi 64 ∧
    t.iface vi = { s.iface vi with errnote := (s.iface vi).errnote + 1, erraddr := BitVec.ofNat 64 word } ∧
    ∀ j, j ≠ vi → t.iface j = s.iface j)

/-- A word of a workgroup's context has been replaced: its sticky bit is set, and its interface is notified (R35, R469). -/
def Lost (s t : State) (wg : Nat) : Prop := ∀ g l, s.wg wg = some g → s.launch g.launch = some l →
  l.slot < s.slots.length → l.vi < s.ifaces.length →
  SlotIs s t l.slot { s.slot l.slot with errsticky := (s.slot l.slot).errsticky ||| 1#2 } ∧
  t.iface l.vi = { s.iface l.vi with errnote := (s.iface l.vi).errnote + 1 } ∧ (∀ j, j ≠ l.vi → t.iface j = s.iface j) ∧
  Signals s t l.vi 64

end Sys2Proof.Claims

/-- R33 to R36, R468, R469: a corrected error is counted, and one of parity drops what is refetched; it changes nothing else. An
uncorrectable one drops a clean copy, replaces a word by zero with its notifications, to an interface that owns the page when
the word is in memory, or terminates the context; an error of the device itself stops issue and signals. Of several dirty copies
of a line it strikes one of them (DESIGN CHOICE, log entry 173), and of several owners one is notified (DESIGN CHOICE, 116); that
register words count in `errnote` (117), that zeroed words are counted (118), that a token stays (119), that the error of a
configuration store ends its contexts with their records (120) and that a lost free-slot counter takes any value (162) is
DEDUCED. -/
def Obligations.StorageErrors : Prop := ∀ s,
  (∀ k : Fin 8, ∃ t, exec (.correctedError k) s = .next t ∧ Counted s t k.val ∧
    (k ≠ 2 → t = { s with counters := { s.counters with counts := t.counters.counts } }) ∧
    (k = 2 → t = { s with
        counters := { s.counters with counts := t.counters.counts }, cores := t.cores, clusters := t.clusters, fresh := s.fresh + 1 } ∧
      (∀ n, t.core n = { s.core n with icache := (t.core n).icache } ∧ ∀ l ∈ (t.core n).icache, l ∈ (s.core n).icache) ∧
      ∀ n, t.cluster n = { s.cluster n with layouts := (t.cluster n).layouts } ∧
        ∀ l ∈ (t.cluster n).layouts, l ∈ (s.cluster n).layouts)) ∧
  (∀ pa, ∃ t, exec (.uncorrectableError (.cleanLine pa)) s = .next t ∧
    t = { s with cores := t.cores, clusters := t.clusters, lantern := t.lantern, fresh := s.fresh + 1 } ∧
    (∀ k, t.cluster k = { s.cluster k with l1 := (t.cluster k).l1, layouts := (t.cluster k).layouts } ∧
      (∀ l ∈ (s.cluster k).l1, l.dirty ≠ 0 → l ∈ (t.cluster k).l1) ∧ (∀ l ∈ (t.cluster k).l1, l ∈ (s.cluster k).l1) ∧
      ∀ l ∈ (t.cluster k).layouts, l ∈ (s.cluster k).layouts) ∧
    (∀ k, t.core k = { s.core k with rbuf := (t.core k).rbuf, icache := (t.core k).icache } ∧
      (∀ p ∈ (t.core k).rbuf, p ∈ (s.core k).rbuf) ∧ ∀ l ∈ (t.core k).icache, l ∈ (s.core k).icache) ∧
    (∀ l ∈ s.lantern, l.dirty = true → l ∈ t.lantern) ∧ ∀ l ∈ t.lantern, l ∈ s.lantern) ∧
  (∀ pa, pa < 2 ^ 36 → Mem.wf s.dmem = true → s.ifaces.length = 16 →
    let word := pa / 8 * 8
    ∃ t, exec (.uncorrectableError (.dram pa)) s = .next t ∧ NotesLost s t word ∧
      (∀ a, Mem.get t.dmem a = if word ≤ a ∧ a < word + 8 then 0 else Mem.get s.dmem a) ∧
      (∀ a, a ∈ t.zeroed ↔ (word ≤ a ∧ a < word + 8) ∨ a ∈ s.zeroed) ∧ t.wgs = s.wgs ∧ t.slots = s.slots ∧
      t.clusters = s.clusters ∧ t.cores = s.cores) ∧
  (∀ pa, pa < 2 ^ 36 →
    let word := pa / 8 * 8
    let line := word / 128 * 128
    let zeroes (xs ys : List Byte) : Prop := ∀ j, j < 128 → ys[j]? =
      if word % 128 ≤ j ∧ j < word % 128 + 8 then some 0 else xs[j]?
    let e := exec (.uncorrectableError (.dirtyLine pa)) s
    (s.dirtyCopies word = [] → e = exec (.uncorrectableError (.dram pa)) s) ∧
    (s.dirtyCopies word ≠ [] → s.ifaces.length = 16 → ∃ x ∈ s.dirtyCopies word, ∃ t, e = .next t ∧ NotesLost s t word ∧
      t.wgs = s.wgs ∧ t.slots = s.slots ∧ match x with
        | .l1 c => t.dmem = s.dmem ∧ (∀ k, k ≠ c → t.cluster k = s.cluster k) ∧
          ∀ l, (s.cluster c).l1Line line = some l → l.data.length = 128 → ∃ m, (t.cluster c).l1Line line = some m ∧
            zeroes l.data m.data ∧ ∀ j, j < 128 → (m.lost.getLsbD j ↔ (word % 128 ≤ j ∧ j < word % 128 + 8) ∨ l.lost.getLsbD j)
        | .blend c => t.dmem = s.dmem ∧ (∀ k, k ≠ c → t.cluster k = s.cluster k) ∧
          ∀ (n : Nat) (b : BlendLine), (s.cluster c).blend[n]? = some b → ∃ d : BlendLine,
            (t.cluster c).blend[n]? = some d ∧ (b.line ≠ line → d = b) ∧
            (b.line = line → d = { b with data := d.data, lost := d.lost } ∧ (b.data.length = 128 → zeroes b.data d.data) ∧
              ∀ x, x ∈ d.lost ↔ (word % 128 ≤ x ∧ x < word % 128 + 8) ∨ x ∈ b.lost)
        | .lantern => t.clusters = s.clusters ∧ (Mem.wf s.dmem = true → ∀ a, Mem.get t.dmem a =
            if word ≤ a ∧ a < word + 8 then 0 else Mem.get s.dmem a))) ∧
  (∀ c k, ∃ t n, exec (.uncorrectableError (.freeSlots c k)) s = .next t ∧
    t = { s with clusters := t.clusters, fresh := s.fresh + 1 } ∧
    (c < s.clusters.length → k < (s.cluster c).channels.length → t.channel c k = { s.channel c k with free := n }) ∧
    ∀ d j, (d, j) ≠ (c, k) → t.channel d j = s.channel d j) ∧
  (∀ r w, s.wave r = some w →
    (∀ reg lane, lane < 32 → ∃ t v, exec (.uncorrectableError (.vReg r reg lane)) s = .next t ∧ t.wave r = some v ∧
      v = { w with v := v.v } ∧ Lost s t r.wg ∧
      ∀ k l, l < 32 → laneAt (v.vrow k) l = if k = reg ∧ l = lane then 0 else laneAt (w.vrow k) l) ∧
    (∀ reg lane, lane < 32 → ∃ t v, exec (.uncorrectableError (.oReg r reg lane)) s = .next t ∧ t.wave r = some v ∧
      v = { w with o := v.o } ∧ Lost s t r.wg ∧
      ∀ k l, l < 32 → laneAt (v.orow k) l = if k = reg ∧ l = lane then 0 else laneAt (w.orow k) l) ∧
    (∀ reg, reg < 96 → ∃ t v, exec (.uncorrectableError (.sReg r reg)) s = .next t ∧ t.wave r = some v ∧
      v = { w with s := v.s } ∧ Lost s t r.wg ∧ ∀ k, v.sreg k = if k = reg then 0 else w.sreg k) ∧
    (∀ sl reg, ∃ t v, exec (.uncorrectableError (.mReg r sl reg)) s = .next t ∧ t.wave r = some v ∧ Lost s t r.wg ∧
      v.slice (otherSlice sl) = w.slice (otherSlice sl) ∧
      ∀ k, k < (w.slice sl).m.length → (v.slice sl).mask k = if k = reg then 0 else (w.slice sl).mask k) ∧
    (∀ q lane pos u, w.queue q = some u → lane < u.cols.length → ∃ t v p, exec (.uncorrectableError (.queueSlot r q lane pos)) s =
      .next t ∧ t.wave r = some v ∧ v.queue q = some p ∧ Lost s t r.wg ∧
      (∀ x, (u.col lane)[pos]? = some (.ready x) → (p.col lane)[pos]? = some (.ready 0)) ∧
      (∀ x, (u.col lane)[pos]? = some (.token x) → (p.col lane)[pos]? = some (.token x)) ∧
      (∀ j, j ≠ pos → (p.col lane)[j]? = (u.col lane)[j]?) ∧ ∀ l, l ≠ lane → p.col l = u.col l) ∧
    (∀ k, ∃ t v, exec (.uncorrectableError (.accumulator r k)) s = .next t ∧ t.wave r = some v ∧
      v = { w with tiles := v.tiles } ∧ Lost s t r.wg ∧
      ∀ a l, l < 32 → laneAt (v.tiles.row 32 a) l = if 32 * a + l = k then 0 else laneAt (w.tiles.row 32 a) l)) ∧
  (∀ k, (s.slot k).context = false ∨ (s.slot k).terminated = true → exec (.uncorrectableError (.control k)) s = .next s) ∧
  (∀ k, (s.slot k).context = true → (s.slot k).terminated = false →
    let x := s.failContext k .ctxError 6 0 (s.slotHead k)
    (x = none → exec (.uncorrectableError (.control k)) s = .next { s with delayed := true }) ∧
    (∀ u, x = some u → ∃ t, exec (.uncorrectableError (.control k)) s = .next t ∧
      t = { u with counters := { u.counters with counts := t.counters.counts } } ∧ Counted u t 11)) ∧
  (∀ c k,
    let lost (u : State) : State := u.updContext c k fun g => { g with image := [], place := none, placing := none }
    (s.namers c k = [] → exec (.uncorrectableError (.configStore c k)) s = .next (lost s)) ∧
    (∀ j, s.namers c k = [j] → s.ctxError j = none →
      exec (.uncorrectableError (.configStore c k)) s = .next { s with delayed := true }) ∧
    ∀ j u, s.namers c k = [j] → s.ctxError j = some u → exec (.uncorrectableError (.configStore c k)) s = .next (lost u)) ∧
  (∀ b loc, ∃ t, exec (.deviceErrorStop b loc) s = .next t ∧
    t = { s with counters := { s.counters with valid := true, unit := if b then 2 else 1, location := loc },
                 ctl := { s.ctl with stopped := true, error := true }, vecs := t.vecs } ∧ Signals s t 0 65)

namespace Sys2Proof.Claims

/-- R36, R88, R180, R477: a reset ends everything but the memories, the error counters and the sticky words; an unassigned
encoding and a failed fetch raise their causes at the issue group's counter. What a device reset keeps is DEDUCED (log entry
123). -/
def ResetAndEarlyCauses : Prop := ∀ s,
  (∃ t, exec .deviceReset s = .next t ∧ t.dmem = s.dmem ∧ t.hmem = s.hmem ∧ t.posted = s.posted ∧ t.counters = s.counters ∧ t.wgs = [] ∧
    t.launches = [] ∧ t.reqs = [] ∧ t.cmds = [] ∧ t.cards = [] ∧ t.boot.status = 0 ∧ t.boot.powered = true ∧
    t.boot.keysDerived = true ∧ t.attest.certificate = Config.identityCertificate ∧ t.ctl.stopped = false ∧ t.clusters = State.reset.clusters ∧ t.cores = State.reset.cores ∧
    t.ifaces = State.reset.ifaces ∧
    (s.slots.length = 64 → ∀ k, k < 64 → t.slot k = { QSlot.reset with errsticky := (s.slot k).errsticky })) ∧
  (∀ u k, s.cur = some u → exec (.unassignedEncoding k) s = .next (takeCause s u.w u.sl u.em u.pc k noInfo)) ∧
  (∀ u k a, s.cur = some u → exec (.instructionFetchFault k a) s = .next (takeCause s u.w u.sl u.em u.pc k { addr := a }))

end Sys2Proof.Claims

/-- What taking a cause records, which causes the device raises by itself, and what a reset leaves. -/
def Obligations.TakingACause : Prop := Sys2Proof.Claims.TakingACause ∧ Sys2Proof.Claims.TimedCauses ∧ Sys2Proof.Claims.ResetAndEarlyCauses

/-! The machine as a whole: encodings, the step, memory and reset. -/

/-- R65 to R72, R80 to R82, R85: a well-formed instruction decodes from its words to itself, whatever follows them, and from
no shorter prefix; and words decode to an instruction only if they start with its encoding. No bit of an encoding is dropped. -/
def Obligations.EncodingRoundTrip : Prop :=
  (∀ i : Instr, i.wellFormed = true → i.isEvent = false → (∀ rest, decode (encode i ++ rest) = .instr i) ∧
    ∀ k, k < (encode i).length → decode ((encode i).take k) = .more) ∧
  (∀ ws i, decode ws = .instr i → i.wellFormed = true ∧ i.isEvent = false ∧ ∃ rest, ws = encode i ++ rest)

namespace Sys2Proof.Claims

/-- The functions that each lane opcode assigns (R86), those of 0x22 and 0x23 among them (R172, R174). -/
def laneFunctions : List (Nat × List Nat) :=
  let upTo (op n : Nat) : Nat × List Nat := (op, List.range n)
  [upTo 0x00 1, upTo 0x01 1, upTo 0x02 3, upTo 0x03 1, upTo 0x04 1, upTo 0x05 1, upTo 0x06 1, upTo 0x07 2, upTo 0x08 4,
   upTo 0x09 7, upTo 0x0A 6, upTo 0x0B 6, upTo 0x0C 5, upTo 0x0D 3, upTo 0x0E 5, upTo 0x0F 2, upTo 0x10 1, upTo 0x11 1,
   upTo 0x12 1, upTo 0x13 1, upTo 0x14 4, upTo 0x15 6, upTo 0x16 4, upTo 0x17 4, upTo 0x18 8, upTo 0x19 1, upTo 0x1A 1,
   upTo 0x1B 1, upTo 0x1C 1, upTo 0x1D 2, upTo 0x1E 1, upTo 0x1F 1, upTo 0x20 1, upTo 0x21 1, upTo 0x22 20, upTo 0x23 20] ++
  [upTo 0x24 4, upTo 0x25 4, upTo 0x26 9, upTo 0x27 23, upTo 0x30 5, upTo 0x31 5, upTo 0x32 3, upTo 0x33 4, upTo 0x34 4,
   upTo 0x35 5, upTo 0x36 5, upTo 0x37 0, upTo 0x38 15, upTo 0x39 3, (0x3A, [0, 1, 2, 3, 4, 5, 6, 7, 8, 10, 11, 12, 13, 14]),
   upTo 0x3B 2, (0x3C, [0, 1, 2, 3, 4, 5, 6, 8, 9, 10, 11, 12, 13, 14, 16, 17, 24, 25, 26]), upTo 0x3D 10, (0x3E, [0, 1, 8, 9])]

/-- The functions that each group opcode assigns (R87), and the opcodes that assign none (R88). -/
def groupFunctions : List (Nat × Nat) :=
  [(0x00, 1), (0x01, 1), (0x02, 3), (0x03, 1), (0x04, 1), (0x05, 1), (0x06, 2), (0x07, 3), (0x08, 6), (0x09, 6), (0x0A, 1),
   (0x0B, 1), (0x0C, 1), (0x0D, 1), (0x0E, 1), (0x0F, 3), (0x10, 3), (0x11, 1), (0x12, 1), (0x13, 1), (0x14, 0), (0x15, 0),
   (0x16, 0), (0x17, 0), (0x18, 4), (0x19, 2), (0x1A, 2), (0x1B, 2), (0x1C, 3), (0x1D, 0), (0x1E, 0), (0x1F, 0)] ++
  [(0x20, 5), (0x21, 3), (0x22, 2), (0x23, 2), (0x24, 1), (0x25, 0), (0x26, 0), (0x27, 0), (0x28, 4), (0x29, 4), (0x2A, 2),
   (0x2B, 2), (0x2C, 2), (0x2D, 0), (0x2E, 0), (0x2F, 0), (0x30, 5), (0x31, 0), (0x32, 0), (0x33, 0), (0x34, 0), (0x35, 0),
   (0x36, 0), (0x37, 0), (0x38, 3), (0x39, 3), (0x3A, 2), (0x3B, 0), (0x3C, 2), (0x3D, 2), (0x3E, 7), (0x3F, 0)]

/-- R81, R86 to R88, R172, R174: an opcode or function value that no row assigns decodes to UNASSIGNED_OP, with or without a
modifier word, and every assigned one of both sets has an instruction. So have the selections of 0x2E, 0x2F and 0x3F with X = 0;
with X = 1 an unlisted one or a nonzero function is UNASSIGNED_OP too, and a listed one raises a decode cause (DEDUCED, log entry
144). -/
def UnassignedFunctions : Prop :=
  (∀ p ∈ laneFunctions, ∀ (w : Word) rest, w.getLsbD 31 = false → (w.extractLsb' 24 6).toNat = p.1 →
    (w.getLsbD 30 = true → ∀ m : Word, (m.extractLsb' 12 5).toNat ∉ p.2 → decode (w :: m :: rest) = .illegal .unassignedOp) ∧
    (w.getLsbD 30 = false → 0 ∉ p.2 → decode (w :: rest) = .illegal .unassignedOp)) ∧
  (∀ p ∈ laneFunctions, ∀ fn ∈ p.2, ∃ i f form, laneInstr p.1 fn f = some i ∧ i.wellFormed = true ∧
    i.layout = .lane p.1 fn f form) ∧
  (∀ p ∈ groupFunctions, ∀ fn, fn < p.2 → ∃ i, i.wellFormed = true ∧ i.isEvent = false ∧ ∃ w, (encode i).head? = some w ∧
    w.getLsbD 31 = true ∧ (w.extractLsb' 24 6).toNat = p.1 ∧ (w.extractLsb' 0 3).toNat = fn ∧ decode (encode i) = .instr i) ∧
  (∀ p ∈ groupFunctions, ∀ (w l : Word) rest, w.getLsbD 31 = true → (w.extractLsb' 24 6).toNat = p.1 →
    p.2 ≤ (w.extractLsb' 0 3).toNat → decode (w :: l :: rest) = .illegal .unassignedOp) ∧
  (∀ (w : Word) rest, w.getLsbD 31 = false → w.getLsbD 30 = false →
    let op := (w.extractLsb' 24 6).toNat
    let b := (w.extractLsb' 0 8).toNat
    (op = 0x2E ∧ 2 < b) ∨ ((op = 0x2F ∨ op = 0x3F) ∧ 1 < b) → decode (w :: rest) = .illegal .unassignedOp) ∧
  (∀ a, decode [0x2E000000#32 ||| (a &&& 0x3F#32) <<< 8] = .instr (.brx ((a &&& 0x3F#32).setWidth 8)) ∧
    decode [0x2E000002#32 ||| (a &&& 0x3F#32) <<< 8] = .instr (.ret ((a &&& 0x3F#32).setWidth 8)) ∧
    decode [0x2E050001#32 ||| (a &&& 0x3F#32) <<< 8] = .instr (.callx 5 ((a &&& 0x3F#32).setWidth 8)) ∧
    decode [0x3F000000#32 ||| (a &&& 0xFF#32) <<< 8] = .instr (.trap (a.setWidth 8))) ∧
  decode [0x2F000000#32] = .instr .nop ∧ decode [0x2F000001#32] = .instr .exit ∧ decode [0x3F000001#32] = .instr .brk ∧
  (∀ (w m l : Word) rest, w.getLsbD 31 = false → w.getLsbD 30 = true →
    let op := (w.extractLsb' 24 6).toNat
    let b := (w.extractLsb' 0 8).toNat
    op = 0x2E ∨ op = 0x2F ∨ op = 0x3F →
    ((if op = 0x2E then 2 else 1) < b ∨ (m.extractLsb' 12 5).toNat ≠ 0 → decode (w :: m :: l :: rest) = .illegal .unassignedOp) ∧
    (∃ k, decode (w :: m :: l :: rest) = .illegal k ∧ (k = .reservedBits ∨ k = .unassignedOp)))

end Sys2Proof.Claims

/-- Words that the specification writes out, or that follow bit by bit from R70, R71, R80 and R82, and what they stand for. -/
def Obligations.WrittenWords : Prop :=
  decode [0x00030102#32] = .instr (.iadd ⟨false, 3, 1, 2, 0, 0x7F, 0, 0, none⟩) ∧
  decode [0x120602FF#32, 0x40400000#32] = .instr (.fmul ⟨false, 6, 2, 0xFF, 0, 0x7F, 0, 0, some 0x40400000#32⟩) ∧
  decode [0x70C80100#32, 0x00002000#32] = .instr (.ald .w ⟨true, 0xC8, 1, 0, 0, 0, 0, 0, none⟩) ∧
  decode [0x2B07FFFD#32] = .instr (.bnz 7 0xFFFD) ∧
  decode [0x8060C380#32] = .instr (.sadd ⟨0x30, 0x30, 0x70, none⟩) ∧
  decode [0x8964CDA2#32] = .instr (.scmp .lt ⟨0x32, 0x33, 0x34, none⟩) ∧
  decode [0xA4000000#32] = .instr .yield ∧ decode [0x3F000500#32] = .instr (.trap 5) ∧
  decode [0x37000000#32] = .illegal .unassignedOp ∧ decode [0x70C80100#32] = .more

namespace Sys2Proof.Claims

/-- R66: every field that asks for a literal reads the one literal word, and an instruction has at most one. -/
def InstructionLength : Prop := ∀ i : Instr, i.wellFormed = true → i.isEvent = false →
  1 ≤ (encode i).length ∧ (encode i).length ≤ 3 ∧
  (∀ op fn f form, i.layout = .lane op fn f form → (encode i).length = 1 + (if f.x then 1 else 0) + (if f.lit.isSome then 1 else 0)) ∧
  (∀ op fn g form, i.layout = .group op fn g form → (encode i).length = 1 + if g.lit.isSome then 1 else 0)

end Sys2Proof.Claims

/-- Which opcode and function values are assigned, and how long an encoding is. -/
def Obligations.AssignedFunctionsAndLengths : Prop := Sys2Proof.Claims.UnassignedFunctions ∧ Sys2Proof.Claims.InstructionLength

namespace Sys2Proof.Claims

/-- Words that are fetched one after another, from word `n` of the counter on. -/
def fetches (g : Workgroup) (w : Wave) (sl : Slice) (pc : Word) : List Word → Nat → State → State → Prop
  | [], _, s, t => t = s
  | x :: xs, n, s, t => ∃ u, s.fetchWord g w sl (pc + BitVec.ofNat 32 (4 * n)) = .ok (x, u) ∧ fetches g w sl pc xs (n + 1) u t

/-- R65, R180, R300, R304, R464: the word at a counter comes from the fetch buffer, from a keeper agent's untranslated memory
(DEDUCED, log entry 45), from the instruction cache, which holds lines by 52-bit address, or from memory at the code base plus the counter, once no engine owns its line or a table entry on
the walk; the words of a well-formed instruction are fetched and decoded to it. -/
def FetchedInstruction : Prop := ∀ (s : State) g w sl pc,
  (∀ e, (w.slice sl).fbuf.find? (fun e => e.1 == pc.toNat) = some e → s.fetchWord g w sl pc = .ok (e.2, s)) ∧
  ((w.slice sl).fbuf = [] → g.keeper = true →
    s.fetchWord g w sl pc = .ok (BitVec.ofNat 32 (natOfBytes (Mem.read s.dmem pc.toNat 4)), s)) ∧
  ((w.slice sl).fbuf = [] → g.keeper = false → ∀ l, s.launch g.launch = some l →
    let va : DWord := l.kernel.codeBase + BitVec.ofNat 64 pc.toNat
    let held := if canonical va then (s.core g.core).icache.find? fun c => c.vi == l.vi && c.line == va.toNat % 2 ^ 52 / 128 * 128
      else none
    (∀ c, held = some c → ∃ t, s.fetchWord g w sl pc = .ok (laneAt c.words (va.toNat % 128 / 4), t) ∧
      t = { s with touched := t.touched }) ∧
    (held = none →
      let x := locate s (clusterOf g.core) (some g.core) l.vi va .fetch
      (∀ c t, x = (.error c, t) → s.fetchWord g w sl pc = .error (.cause c va)) ∧
      (∀ p t, x = (.ok p, t) → t.delayed = true ∨ t.isOwned p = true → s.fetchWord g w sl pc = .error .wait) ∧
      (∀ p t, x = (.ok p, t) → t.delayed = false → t.isOwned p = false → p.mem = 0 → ∃ u, s.fetchWord g w sl pc =
        .ok (BitVec.ofNat 32 (natOfBytes (Mem.read s.dmem p.pa 4)), u) ∧ u.dmem = s.dmem ∧ u.hmem = s.hmem ∧ u.wgs = s.wgs) ∧
      (∀ p t, x = (.ok p, t) → t.delayed = false → t.isOwned p = false → p.mem ≠ 0 →
        (t.hostReadFails.1 = true → s.fetchWord g w sl pc = .error (.cause .hostRead va)) ∧
        (t.hostReadFails.1 = false → s.fetchWord g w sl pc =
          .ok (BitVec.ofNat 32 (natOfBytes (Mem.read s.hostView p.pa 4)), t.hostReadFails.2))))) ∧
  (∀ i t, i.wellFormed = true → i.isEvent = false → fetches g w sl pc (encode i) 0 s t →
    s.fetchInstr g w sl pc = (.instr i, (t.keepWords ⟨g.id, w.id⟩ sl pc (encode i)).credit g.id))

/-- A step ends in what follows every step, after `r`; an event that met an owned line leaves `s` as it was, but that `late` stands
first among what is delayed (R300; DEDUCED, log entry 161). -/
def EndsIn (s : State) (late : List Instr) (r o : Host.Outcome State Fault Refusal) : Prop :=
  (∀ x, r = .next x → x.delayed = false → o = .next (x.settle none)) ∧
  (∀ x, r = .next x → x.delayed = true → o = .next (({ s with deferred := late ++ s.deferred } : State).settle none)) ∧
  (∀ f, r = .fault f → o = .fault f)

/-- When an issue group is set, the step runs the instruction that is fetched at its counter: `exec` of it, then the counts of
the issue and what follows every step; a failed fetch and an encoding without an instruction raise their causes there. The
second group of a pair follows its first as a step of its own (DESIGN CHOICE, log entry 23), and an event that is due is run before any
group, an access of the host behind those of its accesses that are delayed (DEDUCED, log entry 161); with none set, the end of a
change of the clock mode comes first, then a period that has passed, then the device's own choice (DESIGN CHOICE, log entry 165). -/
def StepRunsDecoded : Prop :=
  (∀ s u g w i t, s.second = none → s.agenda = [] → s.cur = some u → s.wg u.w.wg = some g → g.wave u.w.wave = some w →
    s.fetchInstr g w u.sl u.pc = (.instr i, t) →
    let now : State := { t with cur := some u }
    (∀ x, exec i now = .next x → x.stalled = false → raised s x u.w.wg = false →
      step s = .next ((s.countIssued u x).settle (s.usedUnit u))) ∧
    (∀ x, exec i now = .next x → x.stalled = true ∨ raised s x u.w.wg = true → step s = .next (x.settle none)) ∧
    (∀ r, exec i now = .fault r → step s = .fault r)) ∧
  (∀ s u g w, s.second = none → s.agenda = [] → s.cur = some u → s.wg u.w.wg = some g → g.wave u.w.wave = some w →
    g.status = .resident →
    (∀ t, s.fetchInstr g w u.sl u.pc = (.wait, t) → step s = .next (t.stall.settle none)) ∧
    (∀ c va t, s.fetchInstr g w u.sl u.pc = (.fault c va, t) →
      step s = .next ((takeCause { t with cur := some u } u.w u.sl u.em u.pc c { addr := va }).settle none)) ∧
    (∀ c t, s.fetchInstr g w u.sl u.pc = (.illegal c, t) →
      step s = .next ((takeCause { t with cur := some u } u.w u.sl u.em u.pc c noInfo).settle none))) ∧
  (∀ s e rest, s.second = none → s.agenda = e :: rest →
    let now : State := { s with agenda := rest }
    (isHostAccess e = true → (∃ d ∈ s.deferred, isHostAccess d = true) →
      step s = .next (({ now with deferred := s.deferred ++ [e] } : State).settle none)) ∧
    (isHostAccess e = false ∨ (∀ d ∈ s.deferred, isHostAccess d = false) → EndsIn now [e] (exec e now) (step s))) ∧
  (∀ s u g w i t, s.second = some u → s.wg u.w.wg = some g → g.wave u.w.wave = some w →
    let now : State := { s with second := none }
    now.fetchInstr g w u.sl u.pc = (.instr i, t) → ∀ x, exec i { t with cur := some u } = .next x →
    (x.stalled = false → raised s x u.w.wg = false →
      step s = .next ((((now.noteLate x u i).noteHints u i).updWave u.w (Wave.clearSkips u.sl u.em)).settle (now.usedUnit u))) ∧
    (x.stalled = true ∨ raised s x u.w.wg = true → step s = .next (now.settle none))) ∧
  (∀ s : State, s.second = none → s.agenda = [] → s.cur = none →
    (∀ e, s.ctl.changing = some e → EndsIn s [] (execClockModeResume s) (step s)) ∧
    (∀ f fs, s.ctl.changing = none → s.periods = f :: fs → EndsIn s [] (f s) (step s)) ∧
    (s.ctl.changing = none → s.periods = [] → step s = s.choose))

end Sys2Proof.Claims

/-- A step runs the instruction that is fetched at the counter of its issue group. -/
def Obligations.StepRunsDecoded : Prop := Sys2Proof.Claims.StepRunsDecoded ∧ Sys2Proof.Claims.FetchedInstruction

namespace Sys2Proof.Claims

/-- What follows every step changes no register, queue, mask, flag or counter of a thread, no command, no card and no byte of host
memory as the device sees it. No time passes while something is due (DESIGN CHOICE, log entry 165), and otherwise at least one cycle,
unless a change of the clock mode ends (DESIGN CHOICE, log entry 131); R413: a halt reaches the other
slices; a request to the host may go out; R469: clears of `ERRSTICKY` take effect; R103, R248: late writes and scratch stores become
visible; accepted stores reach host memory (R303; DEDUCED, log entry 103); cached copies go, and
device memory changes only by dirty bytes that are written back, of which none is lost. -/
def WhatFollowsAStep : Prop := ∀ (s : State) used,
  let t := s.settle used
  t = { s with
    clock := t.clock, dmem := t.dmem, hmem := t.hmem, posted := t.posted, zeroed := t.zeroed, cores := t.cores, clusters := t.clusters, slots := t.slots, wgs := t.wgs
    reqs := t.reqs, walkCache := t.walkCache, watches := t.watches, lantern := t.lantern, turns := t.turns, late := t.late
    lateScratch := t.lateScratch, fresh := t.fresh, agenda := t.agenda, cur := none, second := none, stalled := false
    touched := false, delayed := false, reached := [] } ∧
  s.clock ≤ t.clock ∧ (∃ es, t.agenda = s.agenda ++ es) ∧ (s.agenda ≠ [] → t.clock = s.clock) ∧
  (t.agenda = [] → t.periods = [] → (∀ c, s.ctl.changing = some c → s.clock < c) → s.clock < t.clock) ∧
  (∀ k, t.slot k = { s.slot k with
      starved := (t.slot k).starved, errsticky := (t.slot k).errsticky, clears := (t.slot k).clears } ∧
    (t.slot k).errsticky &&& (s.slot k).errsticky = (t.slot k).errsticky ∧
    ∀ x, x ∈ (t.slot k).clears → x ∈ (s.slot k).clears) ∧
  (∀ r w, s.wave r = some w → ∃ v, t.wave r = some v ∧ v = { w with
    pmc := v.pmc, unblocked := v.unblocked, qbound := v.qbound, qwaits := v.qwaits
    a := { w.a with fbuf := v.a.fbuf }, x := { w.x with fbuf := v.x.fbuf } }) ∧
  (∀ k g, s.wg k = some g → ∃ h, t.wg k = some h ∧
    h = { g with waves := h.waves, scratch := h.scratch, status := h.status, exchangeSince := h.exchangeSince } ∧
    (∀ a, h.scratch.get a = g.scratch.get a ∨ ∃ x ∈ s.lateScratch, x.w.wg = k ∧ x.off ≤ a ∧ x.bytes[a - x.off]? = some (h.scratch.get a)) ∧
    ((∀ x, g.status ≠ .halting x) → h.status = g.status) ∧
    ∀ x, g.status = .halting x → ∃ y, h.status = .halting y ∧ y = { x with reached := y.reached, skid := y.skid }) ∧
  t.reqs.length = s.reqs.length ∧
  (∀ (n : Nat) (r : Req), s.reqs[n]? = some r → ∃ q : Req, t.reqs[n]? = some q ∧ q = { r with sent := q.sent } ∧
    (r.sent ≠ none → q.sent = r.sent)) ∧
  (Mem.wf s.hmem = true → ∀ a, Mem.get t.hostView a = Mem.get s.hostView a) ∧ (∀ x ∈ t.posted, x ∈ s.posted) ∧
  (∀ x ∈ t.late, x ∈ s.late) ∧ (∀ x ∈ t.lateScratch, x ∈ s.lateScratch) ∧ (∀ x ∈ t.walkCache, x ∈ s.walkCache) ∧
  (∀ k, t.core k = { s.core k with rbuf := (t.core k).rbuf, icache := (t.core k).icache, tlb := (t.core k).tlb } ∧
    (∀ x ∈ (t.core k).rbuf, x ∈ (s.core k).rbuf) ∧ (∀ x ∈ (t.core k).icache, x ∈ (s.core k).icache) ∧
    ∀ x ∈ (t.core k).tlb, x ∈ (s.core k).tlb) ∧
  (∀ k, t.cluster k = { s.cluster k with
      l1 := (t.cluster k).l1, tlb := (t.cluster k).tlb, layouts := (t.cluster k).layouts
      gate := { (s.cluster k).gate with woken := (t.cluster k).gate.woken } } ∧
    (∀ x ∈ (t.cluster k).l1, x ∈ (s.cluster k).l1) ∧ (∀ x ∈ (t.cluster k).tlb, x ∈ (s.cluster k).tlb) ∧
    ∀ x ∈ (t.cluster k).layouts, x ∈ (s.cluster k).layouts) ∧
  (Mem.wf s.dmem = true →
    (∀ a, (Mem.get t.dmem a = Mem.get s.dmem a ∧ (a ∈ t.zeroed ↔ a ∈ s.zeroed)) ∨
      ∃ k l j, l ∈ (s.cluster k).l1 ∧ a = l.line + j ∧ j < 128 ∧ l.dirty.getLsbD j ∧ Mem.get t.dmem a = (l.data[j]?).getD 0) ∧
    ∀ k l, l ∈ (s.cluster k).l1 → (∀ m ∈ (s.cluster k).l1, m.line = l.line → m = l) → l ∈ (t.cluster k).l1 ∨
      ∀ j, j < 128 → l.dirty.getLsbD j → Mem.get t.dmem (l.line + j) = (l.data[j]?).getD 0)

/-- Between two steps nothing is left over: no issue is set, nothing has waited, was delayed or is left to credit, every parked
object is watched, and every release whose condition holds is due. It holds after reset. -/
def BetweenAtReset : Prop := Between State.reset

end Sys2Proof.Claims

/-- Every step keeps it, from any state at all. -/
def Obligations.NothingLeftBetweenSteps : Prop := ∀ s t, step s = .next t → Between t

namespace Sys2Proof.Claims

/-- Both memories stand in their canonical form after reset. -/
def MemoriesAtReset : Prop := memoriesCanonical State.reset = true

end Sys2Proof.Claims

/-- Every step keeps the canonical form of both memories. -/
def Obligations.MemoriesStayCanonical : Prop := ∀ s t, memoriesCanonical s = true → step s = .next t → memoriesCanonical t = true

/-- Equal memories are equal data, and a write of what is there changes nothing. -/
def Obligations.MemoryIsItsBytes : Prop :=
  (∀ m n, Mem.wf m = true → Mem.wf n = true → (∀ a, Mem.get m a = Mem.get n a) → m = n) ∧
  (∀ m a n, Mem.wf m = true → Mem.write m a (Mem.read m a n) = m) ∧
  (∀ m a b xs ys, Mem.wf m = true → a + xs.length ≤ b ∨ b + ys.length ≤ a →
    Mem.write (Mem.write m a xs) b ys = Mem.write (Mem.write m b ys) a xs) ∧
  (∀ m a xs ys, Mem.wf m = true → xs.length = ys.length → Mem.write (Mem.write m a xs) a ys = Mem.write m a ys)

namespace Sys2Proof.Claims

/-- R8, R51, R206, R480: of the causes that do not depend on operand values the lowest is raised, before any effect; with none,
a pending result that the instruction would touch makes it wait, and so does a gated unit, which notes the request. -/
def ChecksBeforeEffects : Prop := ∀ (c : Ctx) i, i.isEvent = false → c.s.cur = some ⟨c.ref, c.sl, c.em, c.pc⟩ →
  c.s.wg c.g.id = some c.g → c.g.wave c.w.id = some c.w →
  (staticCauses c i ≠ [] → ∃ k ∈ staticCauses c i, (∀ j ∈ staticCauses c i, k.code ≤ j.code) ∧ Raises i c k noInfo) ∧
  (staticCauses c i = [] → c.pendingResult i = true → Waits i c) ∧
  (∀ n, staticCauses c i = [] → c.pendingResult i = false → c.s.wakes c.g c.w i = some n → ∃ t,
    exec i c.s = .next t ∧ t = { c.s.stall with clusters := t.clusters } ∧
    (c.cluster < c.s.clusters.length → n ∈ (t.cluster c.cluster).gate.wanted ∧
      (t.cluster c.cluster).gate.gated = (c.s.cluster c.cluster).gate.gated))

/-- R43, R46, R47, R87, R102, R202, R228: the causes that a role, a slice, an allotment, an operand file, a queue's direction or
an open run give. -/
def IssueCauses : Prop := ∀ (c : Ctx) i,
  (i.layout.sliceOk c.sl = false → .sliceRole ∈ staticCauses c i) ∧
  (i.layout.needsMatrix = true → c.w.role ≠ .matrix → .sliceRole ∈ staticCauses c i) ∧
  (i.layout.needsFeeder = true → c.w.role ≠ .feeder → .sliceRole ∈ staticCauses c i) ∧
  (i.layout.needsKeeper = true → c.g.keeper = false → .sliceRole ∈ staticCauses c i) ∧
  (∀ code n, .rd code n ∈ usesOf i ∨ .wr code n ∈ usesOf i →
    (Form.isV code = true → c.w.allot < code.toNat + n → .regRange ∈ staticCauses c i) ∧
    (Form.isO code = true → c.w.inRun c.sl = false → .ofileOutsideRun ∈ staticCauses c i) ∧
    (Form.isQ code = true → c.w.queue (Form.qIndex code) = none → .queueUnbound ∈ staticCauses c i)) ∧
  (∀ code n q, Form.isQ code = true → c.w.queue (Form.qIndex code) = some q →
    (.rd code n ∈ usesOf i → ¬((c.sl = .x ∧ (q.kind = .load ∨ q.kind = .result)) ∨ (c.sl = .a ∧ q.kind = .back)) →
      .queueDir ∈ staticCauses c i) ∧
    (.wr code n ∈ usesOf i → ¬(c.sl = .x ∧ (q.kind = .back ∨ q.kind = .stdata)) → .queueDir ∈ staticCauses c i)) ∧
  (∀ code n, .gwr code n ∈ usesOf i → code.toNat < 0x60 → (c.sl = .a ↔ 48 ≤ code.toNat) → .sregOwner ∈ staticCauses c i) ∧
  (isEndrun i = true → c.w.inRun c.sl = false → .runForm ∈ staticCauses c i) ∧
  (∀ r, c.w.run = some r → r.sl = c.sl →
    (r.pos = r.n → isEndrun i = false → .runForm ∈ staticCauses c i) ∧
    (r.pos ≠ r.n → isEndrun i = true ∨ i.layout.runBody = false → .runForm ∈ staticCauses c i) ∧
    (r.pos ≠ r.n → (∃ u ∈ usesOf i, Machine.Use.isQueue u = true) → .queueInRun ∈ staticCauses c i))

/-- No instruction of a program writes what the physical function and the interfaces' register blocks hold, moves a page, or
changes the bring-up, the gates' bits or the link. -/
def ProgramsLeaveTheHostBlocks : Prop := ∀ i s t, i.isEvent = false → exec i s = .next t →
  t.ifaces = s.ifaces ∧ t.pins = s.pins ∧ t.savebase = s.savebase ∧ t.savepages = s.savepages ∧ t.ctl = s.ctl ∧
  t.counters = s.counters ∧ t.boot = s.boot ∧ t.attest = s.attest ∧ t.linkUp = s.linkUp ∧ t.hostBias = s.hostBias ∧
  t.clock = s.clock ∧ ∀ k, (t.slot k).enable = (s.slot k).enable ∧ (t.slot k).assigned = (s.slot k).assigned ∧
    (t.slot k).ringbase = (s.slot k).ringbase ∧ (t.slot k).faultbase = (s.slot k).faultbase ∧
    (t.slot k).priority = (s.slot k).priority ∧ (t.slot k).shares = (s.slot k).shares

end Sys2Proof.Claims

/-- What follows a step, and every instruction of a program, leave alone. -/
def Obligations.WhatFollowsAStep : Prop := Sys2Proof.Claims.WhatFollowsAStep ∧ Sys2Proof.Claims.ProgramsLeaveTheHostBlocks

namespace Sys2Proof.Claims

/-- R24, R28, R36, R50: while a change of the clock mode is under way no slice issues, whether or not the step ends it, and a device that has stopped has no
candidate; a slice is a candidate only if its wave is active, or a keeper agent's, and its workgroup's state lets it. -/
def Candidates : Prop :=
  (∀ s : State, s.ctl.stopped = true → s.candidates = []) ∧
  (∀ (s : State) r sl, (r, sl) ∈ s.candidates → ∃ g w, g ∈ s.wgs ∧ w ∈ g.waves ∧ r = ⟨g.id, w.id⟩ ∧
    (g.keeper = true ∨ w.active = true) ∧ (∃ l, l < 32 ∧ ((w.slice sl).thread l).st = .live) ∧
    (g.status = .resident ∨ (∃ h, g.status = .halting h ∧ (w.id, sl) ∉ h.stopped) ∨
      ((g.status = .saving ∨ g.status = .discarding) ∧ w.inRun sl = true))) ∧
  (∀ s e, s.second = none → s.agenda = [] → s.cur = none → s.ctl.changing = some e → ∃ t, step s = .next t ∧
    ((t.ctl = s.ctl) ∨ t.ctl = { s.ctl with changing := none, moded := true }) ∧ ∀ r w, s.wave r = some w → ∃ v,
      t.wave r = some v ∧ v.s = w.s ∧ v.v = w.v ∧ v.queues = w.queues ∧
      ∀ sl, (v.slice sl).threads = (w.slice sl).threads ∧ (v.slice sl).m = (w.slice sl).m)

end Sys2Proof.Claims

/-- What keeps an instruction from its effect, and which slices are candidates. -/
def Obligations.CausesBeforeEffects : Prop := Sys2Proof.Claims.ChecksBeforeEffects ∧ Sys2Proof.Claims.IssueCauses ∧ Sys2Proof.Claims.Candidates

/-- R53: the first issue group holds every votable thread at the lowest counter, and the second, when it issues too, every one
at the lowest counter above that. -/
def Obligations.VoteGroupsTheLowestCounters : Prop := ∀ (s : State) g w sl, w.run = none → (w.slice sl).overdue (w.slice sl).votable = 0 →
  let t := w.slice sl
  let votes (l : Nat) : Prop := l < 32 ∧ (t.thread l).st = .live
  (s.vote g w sl = none ↔ ∀ l, ¬votes l) ∧
  ∀ u second, s.vote g w sl = some (u, second) →
    u.w = ⟨g.id, w.id⟩ ∧ u.sl = sl ∧ (∃ l, votes l ∧ (t.thread l).pc = u.pc) ∧
    (∀ l, votes l → u.pc.toNat ≤ (t.thread l).pc.toNat) ∧
    (∀ l, l < 32 → (u.em.getLsbD l ↔ votes l ∧ (t.thread l).pc = u.pc)) ∧
    ∀ v, second = some v → v.w = u.w ∧ v.sl = sl ∧ (∃ l, votes l ∧ (t.thread l).pc = v.pc) ∧ u.pc.toNat < v.pc.toNat ∧
      (∀ l, votes l → (t.thread l).pc ≠ u.pc → v.pc.toNat ≤ (t.thread l).pc.toNat) ∧
      (∀ l, l < 32 → (v.em.getLsbD l ↔ votes l ∧ (t.thread l).pc = v.pc)) ∧ u.em &&& v.em = 0

namespace Sys2Proof.Claims

/-- The values that R355, R426, R447, R457, R458, R460, R468, R479 and R482 state for reset. -/
def ResetValues : Prop :=
  let s := State.reset
  s.slots.length = 64 ∧ s.ifaces.length = 16 ∧ s.clusters.length = 24 ∧ s.cores.length = 192 ∧ s.pins.length = 16 ∧
  (∀ q ∈ s.slots, q.ringbase = 0 ∧ q.enable = false ∧ q.priority = 0 ∧ q.gang = 0 ∧ q.ringlog = 12 ∧ q.tail = 0 ∧ q.head = 0 ∧
    q.stopped = false ∧ q.level = 0 ∧ q.error = 0 ∧ q.faultbase = 0 ∧ q.faultcount = 0 ∧ q.faultwrite = 0 ∧ q.faultread = 0 ∧
    q.overflow = false ∧ q.done = 0 ∧ q.slice = 2 ^ 18 ∧ q.shares = List.replicate 24 0) ∧
  (∀ f ∈ s.ifaces, f.root = 0 ∧ f.on = false ∧ f.invaddr = 0 ∧ f.invpages = 0 ∧ f.busy = none ∧ f.ways = 0xFFFFFF ∧
    f.ctimeout = 10000 ∧ f.hintskip = 0 ∧ f.errnote = 0 ∧ f.erraddr = 0 ∧ f.beacon = 26) ∧
  (∀ p ∈ s.pins, p.base = 0 ∧ p.on = false ∧ p.pages = 0 ∧ p.status = 0) ∧ s.savebase = 0 ∧ s.savepages = 0 ∧
  (∀ c ∈ s.clusters, c.gate.mgate = 0 ∧ c.gate.igate = 0 ∧ c.gate.kgate = false ∧ c.gate.cgate = false ∧ c.gate.off = false) ∧
  s.ctl.mode = false ∧ s.ctl.current = false ∧ s.ctl.ageing = 4800000 ∧ s.ctl.warn = 95 ∧ s.ctl.shutaddr = 0 ∧
  s.ctl.thermal = false ∧ s.ctl.moded = false ∧ s.ctl.shutdown = false ∧ s.ctl.error = false ∧
  s.counters.counts = List.replicate 12 0 ∧ s.counters.valid = false ∧ s.hostBias = [] ∧ s.wgs = [] ∧ s.launches = []

end Sys2Proof.Claims

/-- The state after reset: register values, canonical memories, nothing left over. -/
def Obligations.StateAfterReset : Prop := Sys2Proof.Claims.BetweenAtReset ∧ Sys2Proof.Claims.MemoriesAtReset ∧ Sys2Proof.Claims.ResetValues

end Statements
end

