-- ==== Sys2Proof/Laws/State.lean ====
section
/-!
SUPPORT. One lemma per field per update of the state, a workgroup, a wave and a slice, each true by `rfl`.
-/
namespace Sys2Proof.Machine

open Sys2Proof

/-! The state. -/

@[simp] theorem updWg_clock (s : State) (k : Nat) (f : Workgroup → Workgroup) : (s.updWg k f).clock = s.clock := rfl
@[simp] theorem updWg_dmem (s : State) (k : Nat) (f : Workgroup → Workgroup) : (s.updWg k f).dmem = s.dmem := rfl
@[simp] theorem updWg_hmem (s : State) (k : Nat) (f : Workgroup → Workgroup) : (s.updWg k f).hmem = s.hmem := rfl
@[simp] theorem updWg_posted (s : State) (k : Nat) (f : Workgroup → Workgroup) : (s.updWg k f).posted = s.posted := rfl
@[simp] theorem updWg_hcache (s : State) (k : Nat) (f : Workgroup → Workgroup) : (s.updWg k f).hcache = s.hcache := rfl
@[simp] theorem updWg_hostBias (s : State) (k : Nat) (f : Workgroup → Workgroup) : (s.updWg k f).hostBias = s.hostBias := rfl
@[simp] theorem updWg_owned (s : State) (k : Nat) (f : Workgroup → Workgroup) : (s.updWg k f).owned = s.owned := rfl
@[simp] theorem updWg_reqs (s : State) (k : Nat) (f : Workgroup → Workgroup) : (s.updWg k f).reqs = s.reqs := rfl
@[simp] theorem updWg_cmds (s : State) (k : Nat) (f : Workgroup → Workgroup) : (s.updWg k f).cmds = s.cmds := rfl
@[simp] theorem updWg_cards (s : State) (k : Nat) (f : Workgroup → Workgroup) : (s.updWg k f).cards = s.cards := rfl
@[simp] theorem updWg_groups (s : State) (k : Nat) (f : Workgroup → Workgroup) : (s.updWg k f).groups = s.groups := rfl
@[simp] theorem updWg_launches (s : State) (k : Nat) (f : Workgroup → Workgroup) : (s.updWg k f).launches = s.launches := rfl
@[simp] theorem updWg_cores (s : State) (k : Nat) (f : Workgroup → Workgroup) : (s.updWg k f).cores = s.cores := rfl
@[simp] theorem updWg_clusters (s : State) (k : Nat) (f : Workgroup → Workgroup) : (s.updWg k f).clusters = s.clusters := rfl
@[simp] theorem updWg_slots (s : State) (k : Nat) (f : Workgroup → Workgroup) : (s.updWg k f).slots = s.slots := rfl
@[simp] theorem updWg_ifaces (s : State) (k : Nat) (f : Workgroup → Workgroup) : (s.updWg k f).ifaces = s.ifaces := rfl
@[simp] theorem updWg_pins (s : State) (k : Nat) (f : Workgroup → Workgroup) : (s.updWg k f).pins = s.pins := rfl
@[simp] theorem updWg_savebase (s : State) (k : Nat) (f : Workgroup → Workgroup) : (s.updWg k f).savebase = s.savebase := rfl
@[simp] theorem updWg_savepages (s : State) (k : Nat) (f : Workgroup → Workgroup) : (s.updWg k f).savepages = s.savepages := rfl
@[simp] theorem updWg_ctl (s : State) (k : Nat) (f : Workgroup → Workgroup) : (s.updWg k f).ctl = s.ctl := rfl
@[simp] theorem updWg_counters (s : State) (k : Nat) (f : Workgroup → Workgroup) : (s.updWg k f).counters = s.counters := rfl
@[simp] theorem updWg_boot (s : State) (k : Nat) (f : Workgroup → Workgroup) : (s.updWg k f).boot = s.boot := rfl
@[simp] theorem updWg_attest (s : State) (k : Nat) (f : Workgroup → Workgroup) : (s.updWg k f).attest = s.attest := rfl
@[simp] theorem updWg_vecs (s : State) (k : Nat) (f : Workgroup → Workgroup) : (s.updWg k f).vecs = s.vecs := rfl
@[simp] theorem updWg_linkUp (s : State) (k : Nat) (f : Workgroup → Workgroup) : (s.updWg k f).linkUp = s.linkUp := rfl
@[simp] theorem updWg_watches (s : State) (k : Nat) (f : Workgroup → Workgroup) : (s.updWg k f).watches = s.watches := rfl
@[simp] theorem updWg_walkCache (s : State) (k : Nat) (f : Workgroup → Workgroup) : (s.updWg k f).walkCache = s.walkCache := rfl
@[simp] theorem updWg_zeroed (s : State) (k : Nat) (f : Workgroup → Workgroup) : (s.updWg k f).zeroed = s.zeroed := rfl
@[simp] theorem updWg_hshared (s : State) (k : Nat) (f : Workgroup → Workgroup) : (s.updWg k f).hshared = s.hshared := rfl
@[simp] theorem updWg_lantern (s : State) (k : Nat) (f : Workgroup → Workgroup) : (s.updWg k f).lantern = s.lantern := rfl
@[simp] theorem updWg_rings (s : State) (k : Nat) (f : Workgroup → Workgroup) : (s.updWg k f).rings = s.rings := rfl
@[simp] theorem updWg_audited (s : State) (k : Nat) (f : Workgroup → Workgroup) : (s.updWg k f).audited = s.audited := rfl
@[simp] theorem updWg_turns (s : State) (k : Nat) (f : Workgroup → Workgroup) : (s.updWg k f).turns = s.turns := rfl
@[simp] theorem updWg_late (s : State) (k : Nat) (f : Workgroup → Workgroup) : (s.updWg k f).late = s.late := rfl
@[simp] theorem updWg_lateScratch (s : State) (k : Nat) (f : Workgroup → Workgroup) : (s.updWg k f).lateScratch = s.lateScratch := rfl
@[simp] theorem updWg_deferred (s : State) (k : Nat) (f : Workgroup → Workgroup) : (s.updWg k f).deferred = s.deferred := rfl
@[simp] theorem updWg_touched (s : State) (k : Nat) (f : Workgroup → Workgroup) : (s.updWg k f).touched = s.touched := rfl
@[simp] theorem updWg_delayed (s : State) (k : Nat) (f : Workgroup → Workgroup) : (s.updWg k f).delayed = s.delayed := rfl
@[simp] theorem updWg_reached (s : State) (k : Nat) (f : Workgroup → Workgroup) : (s.updWg k f).reached = s.reached := rfl
@[simp] theorem updWg_fresh (s : State) (k : Nat) (f : Workgroup → Workgroup) : (s.updWg k f).fresh = s.fresh := rfl
@[simp] theorem updWg_nextId (s : State) (k : Nat) (f : Workgroup → Workgroup) : (s.updWg k f).nextId = s.nextId := rfl
@[simp] theorem updWg_agenda (s : State) (k : Nat) (f : Workgroup → Workgroup) : (s.updWg k f).agenda = s.agenda := rfl
@[simp] theorem updWg_cur (s : State) (k : Nat) (f : Workgroup → Workgroup) : (s.updWg k f).cur = s.cur := rfl
@[simp] theorem updWg_second (s : State) (k : Nat) (f : Workgroup → Workgroup) : (s.updWg k f).second = s.second := rfl
@[simp] theorem updWg_stalled (s : State) (k : Nat) (f : Workgroup → Workgroup) : (s.updWg k f).stalled = s.stalled := rfl
@[simp] theorem updWave_clock (s : State) (r : WaveRef) (f : Wave → Wave) : (s.updWave r f).clock = s.clock := rfl
@[simp] theorem updWave_dmem (s : State) (r : WaveRef) (f : Wave → Wave) : (s.updWave r f).dmem = s.dmem := rfl
@[simp] theorem updWave_hmem (s : State) (r : WaveRef) (f : Wave → Wave) : (s.updWave r f).hmem = s.hmem := rfl
@[simp] theorem updWave_posted (s : State) (r : WaveRef) (f : Wave → Wave) : (s.updWave r f).posted = s.posted := rfl
@[simp] theorem updWave_hcache (s : State) (r : WaveRef) (f : Wave → Wave) : (s.updWave r f).hcache = s.hcache := rfl
@[simp] theorem updWave_hostBias (s : State) (r : WaveRef) (f : Wave → Wave) : (s.updWave r f).hostBias = s.hostBias := rfl
@[simp] theorem updWave_owned (s : State) (r : WaveRef) (f : Wave → Wave) : (s.updWave r f).owned = s.owned := rfl
@[simp] theorem updWave_reqs (s : State) (r : WaveRef) (f : Wave → Wave) : (s.updWave r f).reqs = s.reqs := rfl
@[simp] theorem updWave_cmds (s : State) (r : WaveRef) (f : Wave → Wave) : (s.updWave r f).cmds = s.cmds := rfl
@[simp] theorem updWave_cards (s : State) (r : WaveRef) (f : Wave → Wave) : (s.updWave r f).cards = s.cards := rfl
@[simp] theorem updWave_groups (s : State) (r : WaveRef) (f : Wave → Wave) : (s.updWave r f).groups = s.groups := rfl
@[simp] theorem updWave_launches (s : State) (r : WaveRef) (f : Wave → Wave) : (s.updWave r f).launches = s.launches := rfl
@[simp] theorem updWave_cores (s : State) (r : WaveRef) (f : Wave → Wave) : (s.updWave r f).cores = s.cores := rfl
@[simp] theorem updWave_clusters (s : State) (r : WaveRef) (f : Wave → Wave) : (s.updWave r f).clusters = s.clusters := rfl
@[simp] theorem updWave_slots (s : State) (r : WaveRef) (f : Wave → Wave) : (s.updWave r f).slots = s.slots := rfl
@[simp] theorem updWave_ifaces (s : State) (r : WaveRef) (f : Wave → Wave) : (s.updWave r f).ifaces = s.ifaces := rfl
@[simp] theorem updWave_pins (s : State) (r : WaveRef) (f : Wave → Wave) : (s.updWave r f).pins = s.pins := rfl
@[simp] theorem updWave_savebase (s : State) (r : WaveRef) (f : Wave → Wave) : (s.updWave r f).savebase = s.savebase := rfl
@[simp] theorem updWave_savepages (s : State) (r : WaveRef) (f : Wave → Wave) : (s.updWave r f).savepages = s.savepages := rfl
@[simp] theorem updWave_ctl (s : State) (r : WaveRef) (f : Wave → Wave) : (s.updWave r f).ctl = s.ctl := rfl
@[simp] theorem updWave_counters (s : State) (r : WaveRef) (f : Wave → Wave) : (s.updWave r f).counters = s.counters := rfl
@[simp] theorem updWave_boot (s : State) (r : WaveRef) (f : Wave → Wave) : (s.updWave r f).boot = s.boot := rfl
@[simp] theorem updWave_attest (s : State) (r : WaveRef) (f : Wave → Wave) : (s.updWave r f).attest = s.attest := rfl
@[simp] theorem updWave_vecs (s : State) (r : WaveRef) (f : Wave → Wave) : (s.updWave r f).vecs = s.vecs := rfl
@[simp] theorem updWave_linkUp (s : State) (r : WaveRef) (f : Wave → Wave) : (s.updWave r f).linkUp = s.linkUp := rfl
@[simp] theorem updWave_watches (s : State) (r : WaveRef) (f : Wave → Wave) : (s.updWave r f).watches = s.watches := rfl
@[simp] theorem updWave_walkCache (s : State) (r : WaveRef) (f : Wave → Wave) : (s.updWave r f).walkCache = s.walkCache := rfl
@[simp] theorem updWave_zeroed (s : State) (r : WaveRef) (f : Wave → Wave) : (s.updWave r f).zeroed = s.zeroed := rfl
@[simp] theorem updWave_hshared (s : State) (r : WaveRef) (f : Wave → Wave) : (s.updWave r f).hshared = s.hshared := rfl
@[simp] theorem updWave_lantern (s : State) (r : WaveRef) (f : Wave → Wave) : (s.updWave r f).lantern = s.lantern := rfl
@[simp] theorem updWave_rings (s : State) (r : WaveRef) (f : Wave → Wave) : (s.updWave r f).rings = s.rings := rfl
@[simp] theorem updWave_audited (s : State) (r : WaveRef) (f : Wave → Wave) : (s.updWave r f).audited = s.audited := rfl
@[simp] theorem updWave_turns (s : State) (r : WaveRef) (f : Wave → Wave) : (s.updWave r f).turns = s.turns := rfl
@[simp] theorem updWave_late (s : State) (r : WaveRef) (f : Wave → Wave) : (s.updWave r f).late = s.late := rfl
@[simp] theorem updWave_lateScratch (s : State) (r : WaveRef) (f : Wave → Wave) : (s.updWave r f).lateScratch = s.lateScratch := rfl
@[simp] theorem updWave_deferred (s : State) (r : WaveRef) (f : Wave → Wave) : (s.updWave r f).deferred = s.deferred := rfl
@[simp] theorem updWave_touched (s : State) (r : WaveRef) (f : Wave → Wave) : (s.updWave r f).touched = s.touched := rfl
@[simp] theorem updWave_delayed (s : State) (r : WaveRef) (f : Wave → Wave) : (s.updWave r f).delayed = s.delayed := rfl
@[simp] theorem updWave_reached (s : State) (r : WaveRef) (f : Wave → Wave) : (s.updWave r f).reached = s.reached := rfl
@[simp] theorem updWave_fresh (s : State) (r : WaveRef) (f : Wave → Wave) : (s.updWave r f).fresh = s.fresh := rfl
@[simp] theorem updWave_nextId (s : State) (r : WaveRef) (f : Wave → Wave) : (s.updWave r f).nextId = s.nextId := rfl
@[simp] theorem updWave_agenda (s : State) (r : WaveRef) (f : Wave → Wave) : (s.updWave r f).agenda = s.agenda := rfl
@[simp] theorem updWave_cur (s : State) (r : WaveRef) (f : Wave → Wave) : (s.updWave r f).cur = s.cur := rfl
@[simp] theorem updWave_second (s : State) (r : WaveRef) (f : Wave → Wave) : (s.updWave r f).second = s.second := rfl
@[simp] theorem updWave_stalled (s : State) (r : WaveRef) (f : Wave → Wave) : (s.updWave r f).stalled = s.stalled := rfl
@[simp] theorem updLaunch_clock (s : State) (k : Nat) (f : Launch → Launch) : (s.updLaunch k f).clock = s.clock := rfl
@[simp] theorem updLaunch_dmem (s : State) (k : Nat) (f : Launch → Launch) : (s.updLaunch k f).dmem = s.dmem := rfl
@[simp] theorem updLaunch_hmem (s : State) (k : Nat) (f : Launch → Launch) : (s.updLaunch k f).hmem = s.hmem := rfl
@[simp] theorem updLaunch_posted (s : State) (k : Nat) (f : Launch → Launch) : (s.updLaunch k f).posted = s.posted := rfl
@[simp] theorem updLaunch_hcache (s : State) (k : Nat) (f : Launch → Launch) : (s.updLaunch k f).hcache = s.hcache := rfl
@[simp] theorem updLaunch_hostBias (s : State) (k : Nat) (f : Launch → Launch) : (s.updLaunch k f).hostBias = s.hostBias := rfl
@[simp] theorem updLaunch_owned (s : State) (k : Nat) (f : Launch → Launch) : (s.updLaunch k f).owned = s.owned := rfl
@[simp] theorem updLaunch_reqs (s : State) (k : Nat) (f : Launch → Launch) : (s.updLaunch k f).reqs = s.reqs := rfl
@[simp] theorem updLaunch_cmds (s : State) (k : Nat) (f : Launch → Launch) : (s.updLaunch k f).cmds = s.cmds := rfl
@[simp] theorem updLaunch_cards (s : State) (k : Nat) (f : Launch → Launch) : (s.updLaunch k f).cards = s.cards := rfl
@[simp] theorem updLaunch_wgs (s : State) (k : Nat) (f : Launch → Launch) : (s.updLaunch k f).wgs = s.wgs := rfl
@[simp] theorem updLaunch_groups (s : State) (k : Nat) (f : Launch → Launch) : (s.updLaunch k f).groups = s.groups := rfl
@[simp] theorem updLaunch_cores (s : State) (k : Nat) (f : Launch → Launch) : (s.updLaunch k f).cores = s.cores := rfl
@[simp] theorem updLaunch_clusters (s : State) (k : Nat) (f : Launch → Launch) : (s.updLaunch k f).clusters = s.clusters := rfl
@[simp] theorem updLaunch_slots (s : State) (k : Nat) (f : Launch → Launch) : (s.updLaunch k f).slots = s.slots := rfl
@[simp] theorem updLaunch_ifaces (s : State) (k : Nat) (f : Launch → Launch) : (s.updLaunch k f).ifaces = s.ifaces := rfl
@[simp] theorem updLaunch_pins (s : State) (k : Nat) (f : Launch → Launch) : (s.updLaunch k f).pins = s.pins := rfl
@[simp] theorem updLaunch_savebase (s : State) (k : Nat) (f : Launch → Launch) : (s.updLaunch k f).savebase = s.savebase := rfl
@[simp] theorem updLaunch_savepages (s : State) (k : Nat) (f : Launch → Launch) : (s.updLaunch k f).savepages = s.savepages := rfl
@[simp] theorem updLaunch_ctl (s : State) (k : Nat) (f : Launch → Launch) : (s.updLaunch k f).ctl = s.ctl := rfl
@[simp] theorem updLaunch_counters (s : State) (k : Nat) (f : Launch → Launch) : (s.updLaunch k f).counters = s.counters := rfl
@[simp] theorem updLaunch_boot (s : State) (k : Nat) (f : Launch → Launch) : (s.updLaunch k f).boot = s.boot := rfl
@[simp] theorem updLaunch_attest (s : State) (k : Nat) (f : Launch → Launch) : (s.updLaunch k f).attest = s.attest := rfl
@[simp] theorem updLaunch_vecs (s : State) (k : Nat) (f : Launch → Launch) : (s.updLaunch k f).vecs = s.vecs := rfl
@[simp] theorem updLaunch_linkUp (s : State) (k : Nat) (f : Launch → Launch) : (s.updLaunch k f).linkUp = s.linkUp := rfl
@[simp] theorem updLaunch_watches (s : State) (k : Nat) (f : Launch → Launch) : (s.updLaunch k f).watches = s.watches := rfl
@[simp] theorem updLaunch_walkCache (s : State) (k : Nat) (f : Launch → Launch) : (s.updLaunch k f).walkCache = s.walkCache := rfl
@[simp] theorem updLaunch_zeroed (s : State) (k : Nat) (f : Launch → Launch) : (s.updLaunch k f).zeroed = s.zeroed := rfl
@[simp] theorem updLaunch_hshared (s : State) (k : Nat) (f : Launch → Launch) : (s.updLaunch k f).hshared = s.hshared := rfl
@[simp] theorem updLaunch_lantern (s : State) (k : Nat) (f : Launch → Launch) : (s.updLaunch k f).lantern = s.lantern := rfl
@[simp] theorem updLaunch_rings (s : State) (k : Nat) (f : Launch → Launch) : (s.updLaunch k f).rings = s.rings := rfl
@[simp] theorem updLaunch_audited (s : State) (k : Nat) (f : Launch → Launch) : (s.updLaunch k f).audited = s.audited := rfl
@[simp] theorem updLaunch_turns (s : State) (k : Nat) (f : Launch → Launch) : (s.updLaunch k f).turns = s.turns := rfl
@[simp] theorem updLaunch_late (s : State) (k : Nat) (f : Launch → Launch) : (s.updLaunch k f).late = s.late := rfl
@[simp] theorem updLaunch_lateScratch (s : State) (k : Nat) (f : Launch → Launch) : (s.updLaunch k f).lateScratch = s.lateScratch := rfl
@[simp] theorem updLaunch_deferred (s : State) (k : Nat) (f : Launch → Launch) : (s.updLaunch k f).deferred = s.deferred := rfl
@[simp] theorem updLaunch_touched (s : State) (k : Nat) (f : Launch → Launch) : (s.updLaunch k f).touched = s.touched := rfl
@[simp] theorem updLaunch_delayed (s : State) (k : Nat) (f : Launch → Launch) : (s.updLaunch k f).delayed = s.delayed := rfl
@[simp] theorem updLaunch_reached (s : State) (k : Nat) (f : Launch → Launch) : (s.updLaunch k f).reached = s.reached := rfl
@[simp] theorem updLaunch_fresh (s : State) (k : Nat) (f : Launch → Launch) : (s.updLaunch k f).fresh = s.fresh := rfl
@[simp] theorem updLaunch_nextId (s : State) (k : Nat) (f : Launch → Launch) : (s.updLaunch k f).nextId = s.nextId := rfl
@[simp] theorem updLaunch_agenda (s : State) (k : Nat) (f : Launch → Launch) : (s.updLaunch k f).agenda = s.agenda := rfl
@[simp] theorem updLaunch_cur (s : State) (k : Nat) (f : Launch → Launch) : (s.updLaunch k f).cur = s.cur := rfl
@[simp] theorem updLaunch_second (s : State) (k : Nat) (f : Launch → Launch) : (s.updLaunch k f).second = s.second := rfl
@[simp] theorem updLaunch_stalled (s : State) (k : Nat) (f : Launch → Launch) : (s.updLaunch k f).stalled = s.stalled := rfl
@[simp] theorem updCore_clock (s : State) (k : Nat) (f : CoreSt → CoreSt) : (s.updCore k f).clock = s.clock := rfl
@[simp] theorem updCore_dmem (s : State) (k : Nat) (f : CoreSt → CoreSt) : (s.updCore k f).dmem = s.dmem := rfl
@[simp] theorem updCore_hmem (s : State) (k : Nat) (f : CoreSt → CoreSt) : (s.updCore k f).hmem = s.hmem := rfl
@[simp] theorem updCore_posted (s : State) (k : Nat) (f : CoreSt → CoreSt) : (s.updCore k f).posted = s.posted := rfl
@[simp] theorem updCore_hcache (s : State) (k : Nat) (f : CoreSt → CoreSt) : (s.updCore k f).hcache = s.hcache := rfl
@[simp] theorem updCore_hostBias (s : State) (k : Nat) (f : CoreSt → CoreSt) : (s.updCore k f).hostBias = s.hostBias := rfl
@[simp] theorem updCore_owned (s : State) (k : Nat) (f : CoreSt → CoreSt) : (s.updCore k f).owned = s.owned := rfl
@[simp] theorem updCore_reqs (s : State) (k : Nat) (f : CoreSt → CoreSt) : (s.updCore k f).reqs = s.reqs := rfl
@[simp] theorem updCore_cmds (s : State) (k : Nat) (f : CoreSt → CoreSt) : (s.updCore k f).cmds = s.cmds := rfl
@[simp] theorem updCore_cards (s : State) (k : Nat) (f : CoreSt → CoreSt) : (s.updCore k f).cards = s.cards := rfl
@[simp] theorem updCore_wgs (s : State) (k : Nat) (f : CoreSt → CoreSt) : (s.updCore k f).wgs = s.wgs := rfl
@[simp] theorem updCore_groups (s : State) (k : Nat) (f : CoreSt → CoreSt) : (s.updCore k f).groups = s.groups := rfl
@[simp] theorem updCore_launches (s : State) (k : Nat) (f : CoreSt → CoreSt) : (s.updCore k f).launches = s.launches := rfl
@[simp] theorem updCore_clusters (s : State) (k : Nat) (f : CoreSt → CoreSt) : (s.updCore k f).clusters = s.clusters := rfl
@[simp] theorem updCore_slots (s : State) (k : Nat) (f : CoreSt → CoreSt) : (s.updCore k f).slots = s.slots := rfl
@[simp] theorem updCore_ifaces (s : State) (k : Nat) (f : CoreSt → CoreSt) : (s.updCore k f).ifaces = s.ifaces := rfl
@[simp] theorem updCore_pins (s : State) (k : Nat) (f : CoreSt → CoreSt) : (s.updCore k f).pins = s.pins := rfl
@[simp] theorem updCore_savebase (s : State) (k : Nat) (f : CoreSt → CoreSt) : (s.updCore k f).savebase = s.savebase := rfl
@[simp] theorem updCore_savepages (s : State) (k : Nat) (f : CoreSt → CoreSt) : (s.updCore k f).savepages = s.savepages := rfl
@[simp] theorem updCore_ctl (s : State) (k : Nat) (f : CoreSt → CoreSt) : (s.updCore k f).ctl = s.ctl := rfl
@[simp] theorem updCore_counters (s : State) (k : Nat) (f : CoreSt → CoreSt) : (s.updCore k f).counters = s.counters := rfl
@[simp] theorem updCore_boot (s : State) (k : Nat) (f : CoreSt → CoreSt) : (s.updCore k f).boot = s.boot := rfl
@[simp] theorem updCore_attest (s : State) (k : Nat) (f : CoreSt → CoreSt) : (s.updCore k f).attest = s.attest := rfl
@[simp] theorem updCore_vecs (s : State) (k : Nat) (f : CoreSt → CoreSt) : (s.updCore k f).vecs = s.vecs := rfl
@[simp] theorem updCore_linkUp (s : State) (k : Nat) (f : CoreSt → CoreSt) : (s.updCore k f).linkUp = s.linkUp := rfl
@[simp] theorem updCore_watches (s : State) (k : Nat) (f : CoreSt → CoreSt) : (s.updCore k f).watches = s.watches := rfl
@[simp] theorem updCore_walkCache (s : State) (k : Nat) (f : CoreSt → CoreSt) : (s.updCore k f).walkCache = s.walkCache := rfl
@[simp] theorem updCore_zeroed (s : State) (k : Nat) (f : CoreSt → CoreSt) : (s.updCore k f).zeroed = s.zeroed := rfl
@[simp] theorem updCore_hshared (s : State) (k : Nat) (f : CoreSt → CoreSt) : (s.updCore k f).hshared = s.hshared := rfl
@[simp] theorem updCore_lantern (s : State) (k : Nat) (f : CoreSt → CoreSt) : (s.updCore k f).lantern = s.lantern := rfl
@[simp] theorem updCore_rings (s : State) (k : Nat) (f : CoreSt → CoreSt) : (s.updCore k f).rings = s.rings := rfl
@[simp] theorem updCore_audited (s : State) (k : Nat) (f : CoreSt → CoreSt) : (s.updCore k f).audited = s.audited := rfl
@[simp] theorem updCore_turns (s : State) (k : Nat) (f : CoreSt → CoreSt) : (s.updCore k f).turns = s.turns := rfl
@[simp] theorem updCore_late (s : State) (k : Nat) (f : CoreSt → CoreSt) : (s.updCore k f).late = s.late := rfl
@[simp] theorem updCore_lateScratch (s : State) (k : Nat) (f : CoreSt → CoreSt) : (s.updCore k f).lateScratch = s.lateScratch := rfl
@[simp] theorem updCore_deferred (s : State) (k : Nat) (f : CoreSt → CoreSt) : (s.updCore k f).deferred = s.deferred := rfl
@[simp] theorem updCore_touched (s : State) (k : Nat) (f : CoreSt → CoreSt) : (s.updCore k f).touched = s.touched := rfl
@[simp] theorem updCore_delayed (s : State) (k : Nat) (f : CoreSt → CoreSt) : (s.updCore k f).delayed = s.delayed := rfl
@[simp] theorem updCore_reached (s : State) (k : Nat) (f : CoreSt → CoreSt) : (s.updCore k f).reached = s.reached := rfl
@[simp] theorem updCore_fresh (s : State) (k : Nat) (f : CoreSt → CoreSt) : (s.updCore k f).fresh = s.fresh := rfl
@[simp] theorem updCore_nextId (s : State) (k : Nat) (f : CoreSt → CoreSt) : (s.updCore k f).nextId = s.nextId := rfl
@[simp] theorem updCore_agenda (s : State) (k : Nat) (f : CoreSt → CoreSt) : (s.updCore k f).agenda = s.agenda := rfl
@[simp] theorem updCore_cur (s : State) (k : Nat) (f : CoreSt → CoreSt) : (s.updCore k f).cur = s.cur := rfl
@[simp] theorem updCore_second (s : State) (k : Nat) (f : CoreSt → CoreSt) : (s.updCore k f).second = s.second := rfl
@[simp] theorem updCore_stalled (s : State) (k : Nat) (f : CoreSt → CoreSt) : (s.updCore k f).stalled = s.stalled := rfl
@[simp] theorem updCluster_clock (s : State) (k : Nat) (f : Cluster → Cluster) : (s.updCluster k f).clock = s.clock := rfl
@[simp] theorem updCluster_dmem (s : State) (k : Nat) (f : Cluster → Cluster) : (s.updCluster k f).dmem = s.dmem := rfl
@[simp] theorem updCluster_hmem (s : State) (k : Nat) (f : Cluster → Cluster) : (s.updCluster k f).hmem = s.hmem := rfl
@[simp] theorem updCluster_posted (s : State) (k : Nat) (f : Cluster → Cluster) : (s.updCluster k f).posted = s.posted := rfl
@[simp] theorem updCluster_hcache (s : State) (k : Nat) (f : Cluster → Cluster) : (s.updCluster k f).hcache = s.hcache := rfl
@[simp] theorem updCluster_hostBias (s : State) (k : Nat) (f : Cluster → Cluster) : (s.updCluster k f).hostBias = s.hostBias := rfl
@[simp] theorem updCluster_owned (s : State) (k : Nat) (f : Cluster → Cluster) : (s.updCluster k f).owned = s.owned := rfl
@[simp] theorem updCluster_reqs (s : State) (k : Nat) (f : Cluster → Cluster) : (s.updCluster k f).reqs = s.reqs := rfl
@[simp] theorem updCluster_cmds (s : State) (k : Nat) (f : Cluster → Cluster) : (s.updCluster k f).cmds = s.cmds := rfl
@[simp] theorem updCluster_cards (s : State) (k : Nat) (f : Cluster → Cluster) : (s.updCluster k f).cards = s.cards := rfl
@[simp] theorem updCluster_wgs (s : State) (k : Nat) (f : Cluster → Cluster) : (s.updCluster k f).wgs = s.wgs := rfl
@[simp] theorem updCluster_groups (s : State) (k : Nat) (f : Cluster → Cluster) : (s.updCluster k f).groups = s.groups := rfl
@[simp] theorem updCluster_launches (s : State) (k : Nat) (f : Cluster → Cluster) : (s.updCluster k f).launches = s.launches := rfl
@[simp] theorem updCluster_cores (s : State) (k : Nat) (f : Cluster → Cluster) : (s.updCluster k f).cores = s.cores := rfl
@[simp] theorem updCluster_slots (s : State) (k : Nat) (f : Cluster → Cluster) : (s.updCluster k f).slots = s.slots := rfl
@[simp] theorem updCluster_ifaces (s : State) (k : Nat) (f : Cluster → Cluster) : (s.updCluster k f).ifaces = s.ifaces := rfl
@[simp] theorem updCluster_pins (s : State) (k : Nat) (f : Cluster → Cluster) : (s.updCluster k f).pins = s.pins := rfl
@[simp] theorem updCluster_savebase (s : State) (k : Nat) (f : Cluster → Cluster) : (s.updCluster k f).savebase = s.savebase := rfl
@[simp] theorem updCluster_savepages (s : State) (k : Nat) (f : Cluster → Cluster) : (s.updCluster k f).savepages = s.savepages := rfl
@[simp] theorem updCluster_ctl (s : State) (k : Nat) (f : Cluster → Cluster) : (s.updCluster k f).ctl = s.ctl := rfl
@[simp] theorem updCluster_counters (s : State) (k : Nat) (f : Cluster → Cluster) : (s.updCluster k f).counters = s.counters := rfl
@[simp] theorem updCluster_boot (s : State) (k : Nat) (f : Cluster → Cluster) : (s.updCluster k f).boot = s.boot := rfl
@[simp] theorem updCluster_attest (s : State) (k : Nat) (f : Cluster → Cluster) : (s.updCluster k f).attest = s.attest := rfl
@[simp] theorem updCluster_vecs (s : State) (k : Nat) (f : Cluster → Cluster) : (s.updCluster k f).vecs = s.vecs := rfl
@[simp] theorem updCluster_linkUp (s : State) (k : Nat) (f : Cluster → Cluster) : (s.updCluster k f).linkUp = s.linkUp := rfl
@[simp] theorem updCluster_watches (s : State) (k : Nat) (f : Cluster → Cluster) : (s.updCluster k f).watches = s.watches := rfl
@[simp] theorem updCluster_walkCache (s : State) (k : Nat) (f : Cluster → Cluster) : (s.updCluster k f).walkCache = s.walkCache := rfl
@[simp] theorem updCluster_zeroed (s : State) (k : Nat) (f : Cluster → Cluster) : (s.updCluster k f).zeroed = s.zeroed := rfl
@[simp] theorem updCluster_hshared (s : State) (k : Nat) (f : Cluster → Cluster) : (s.updCluster k f).hshared = s.hshared := rfl
@[simp] theorem updCluster_lantern (s : State) (k : Nat) (f : Cluster → Cluster) : (s.updCluster k f).lantern = s.lantern := rfl
@[simp] theorem updCluster_rings (s : State) (k : Nat) (f : Cluster → Cluster) : (s.updCluster k f).rings = s.rings := rfl
@[simp] theorem updCluster_audited (s : State) (k : Nat) (f : Cluster → Cluster) : (s.updCluster k f).audited = s.audited := rfl
@[simp] theorem updCluster_turns (s : State) (k : Nat) (f : Cluster → Cluster) : (s.updCluster k f).turns = s.turns := rfl
@[simp] theorem updCluster_late (s : State) (k : Nat) (f : Cluster → Cluster) : (s.updCluster k f).late = s.late := rfl
@[simp] theorem updCluster_lateScratch (s : State) (k : Nat) (f : Cluster → Cluster) : (s.updCluster k f).lateScratch = s.lateScratch := rfl
@[simp] theorem updCluster_deferred (s : State) (k : Nat) (f : Cluster → Cluster) : (s.updCluster k f).deferred = s.deferred := rfl
@[simp] theorem updCluster_touched (s : State) (k : Nat) (f : Cluster → Cluster) : (s.updCluster k f).touched = s.touched := rfl
@[simp] theorem updCluster_delayed (s : State) (k : Nat) (f : Cluster → Cluster) : (s.updCluster k f).delayed = s.delayed := rfl
@[simp] theorem updCluster_reached (s : State) (k : Nat) (f : Cluster → Cluster) : (s.updCluster k f).reached = s.reached := rfl
@[simp] theorem updCluster_fresh (s : State) (k : Nat) (f : Cluster → Cluster) : (s.updCluster k f).fresh = s.fresh := rfl
@[simp] theorem updCluster_nextId (s : State) (k : Nat) (f : Cluster → Cluster) : (s.updCluster k f).nextId = s.nextId := rfl
@[simp] theorem updCluster_agenda (s : State) (k : Nat) (f : Cluster → Cluster) : (s.updCluster k f).agenda = s.agenda := rfl
@[simp] theorem updCluster_cur (s : State) (k : Nat) (f : Cluster → Cluster) : (s.updCluster k f).cur = s.cur := rfl
@[simp] theorem updCluster_second (s : State) (k : Nat) (f : Cluster → Cluster) : (s.updCluster k f).second = s.second := rfl
@[simp] theorem updCluster_stalled (s : State) (k : Nat) (f : Cluster → Cluster) : (s.updCluster k f).stalled = s.stalled := rfl
@[simp] theorem updSlot_clock (s : State) (k : Nat) (f : QSlot → QSlot) : (s.updSlot k f).clock = s.clock := rfl
@[simp] theorem updSlot_dmem (s : State) (k : Nat) (f : QSlot → QSlot) : (s.updSlot k f).dmem = s.dmem := rfl
@[simp] theorem updSlot_hmem (s : State) (k : Nat) (f : QSlot → QSlot) : (s.updSlot k f).hmem = s.hmem := rfl
@[simp] theorem updSlot_posted (s : State) (k : Nat) (f : QSlot → QSlot) : (s.updSlot k f).posted = s.posted := rfl
@[simp] theorem updSlot_hcache (s : State) (k : Nat) (f : QSlot → QSlot) : (s.updSlot k f).hcache = s.hcache := rfl
@[simp] theorem updSlot_hostBias (s : State) (k : Nat) (f : QSlot → QSlot) : (s.updSlot k f).hostBias = s.hostBias := rfl
@[simp] theorem updSlot_owned (s : State) (k : Nat) (f : QSlot → QSlot) : (s.updSlot k f).owned = s.owned := rfl
@[simp] theorem updSlot_reqs (s : State) (k : Nat) (f : QSlot → QSlot) : (s.updSlot k f).reqs = s.reqs := rfl
@[simp] theorem updSlot_cmds (s : State) (k : Nat) (f : QSlot → QSlot) : (s.updSlot k f).cmds = s.cmds := rfl
@[simp] theorem updSlot_cards (s : State) (k : Nat) (f : QSlot → QSlot) : (s.updSlot k f).cards = s.cards := rfl
@[simp] theorem updSlot_wgs (s : State) (k : Nat) (f : QSlot → QSlot) : (s.updSlot k f).wgs = s.wgs := rfl
@[simp] theorem updSlot_groups (s : State) (k : Nat) (f : QSlot → QSlot) : (s.updSlot k f).groups = s.groups := rfl
@[simp] theorem updSlot_launches (s : State) (k : Nat) (f : QSlot → QSlot) : (s.updSlot k f).launches = s.launches := rfl
@[simp] theorem updSlot_cores (s : State) (k : Nat) (f : QSlot → QSlot) : (s.updSlot k f).cores = s.cores := rfl
@[simp] theorem updSlot_clusters (s : State) (k : Nat) (f : QSlot → QSlot) : (s.updSlot k f).clusters = s.clusters := rfl
@[simp] theorem updSlot_ifaces (s : State) (k : Nat) (f : QSlot → QSlot) : (s.updSlot k f).ifaces = s.ifaces := rfl
@[simp] theorem updSlot_pins (s : State) (k : Nat) (f : QSlot → QSlot) : (s.updSlot k f).pins = s.pins := rfl
@[simp] theorem updSlot_savebase (s : State) (k : Nat) (f : QSlot → QSlot) : (s.updSlot k f).savebase = s.savebase := rfl
@[simp] theorem updSlot_savepages (s : State) (k : Nat) (f : QSlot → QSlot) : (s.updSlot k f).savepages = s.savepages := rfl
@[simp] theorem updSlot_ctl (s : State) (k : Nat) (f : QSlot → QSlot) : (s.updSlot k f).ctl = s.ctl := rfl
@[simp] theorem updSlot_counters (s : State) (k : Nat) (f : QSlot → QSlot) : (s.updSlot k f).counters = s.counters := rfl
@[simp] theorem updSlot_boot (s : State) (k : Nat) (f : QSlot → QSlot) : (s.updSlot k f).boot = s.boot := rfl
@[simp] theorem updSlot_attest (s : State) (k : Nat) (f : QSlot → QSlot) : (s.updSlot k f).attest = s.attest := rfl
@[simp] theorem updSlot_vecs (s : State) (k : Nat) (f : QSlot → QSlot) : (s.updSlot k f).vecs = s.vecs := rfl
@[simp] theorem updSlot_linkUp (s : State) (k : Nat) (f : QSlot → QSlot) : (s.updSlot k f).linkUp = s.linkUp := rfl
@[simp] theorem updSlot_watches (s : State) (k : Nat) (f : QSlot → QSlot) : (s.updSlot k f).watches = s.watches := rfl
@[simp] theorem updSlot_walkCache (s : State) (k : Nat) (f : QSlot → QSlot) : (s.updSlot k f).walkCache = s.walkCache := rfl
@[simp] theorem updSlot_zeroed (s : State) (k : Nat) (f : QSlot → QSlot) : (s.updSlot k f).zeroed = s.zeroed := rfl
@[simp] theorem updSlot_hshared (s : State) (k : Nat) (f : QSlot → QSlot) : (s.updSlot k f).hshared = s.hshared := rfl
@[simp] theorem updSlot_lantern (s : State) (k : Nat) (f : QSlot → QSlot) : (s.updSlot k f).lantern = s.lantern := rfl
@[simp] theorem updSlot_rings (s : State) (k : Nat) (f : QSlot → QSlot) : (s.updSlot k f).rings = s.rings := rfl
@[simp] theorem updSlot_audited (s : State) (k : Nat) (f : QSlot → QSlot) : (s.updSlot k f).audited = s.audited := rfl
@[simp] theorem updSlot_turns (s : State) (k : Nat) (f : QSlot → QSlot) : (s.updSlot k f).turns = s.turns := rfl
@[simp] theorem updSlot_late (s : State) (k : Nat) (f : QSlot → QSlot) : (s.updSlot k f).late = s.late := rfl
@[simp] theorem updSlot_lateScratch (s : State) (k : Nat) (f : QSlot → QSlot) : (s.updSlot k f).lateScratch = s.lateScratch := rfl
@[simp] theorem updSlot_deferred (s : State) (k : Nat) (f : QSlot → QSlot) : (s.updSlot k f).deferred = s.deferred := rfl
@[simp] theorem updSlot_touched (s : State) (k : Nat) (f : QSlot → QSlot) : (s.updSlot k f).touched = s.touched := rfl
@[simp] theorem updSlot_delayed (s : State) (k : Nat) (f : QSlot → QSlot) : (s.updSlot k f).delayed = s.delayed := rfl
@[simp] theorem updSlot_reached (s : State) (k : Nat) (f : QSlot → QSlot) : (s.updSlot k f).reached = s.reached := rfl
@[simp] theorem updSlot_fresh (s : State) (k : Nat) (f : QSlot → QSlot) : (s.updSlot k f).fresh = s.fresh := rfl
@[simp] theorem updSlot_nextId (s : State) (k : Nat) (f : QSlot → QSlot) : (s.updSlot k f).nextId = s.nextId := rfl
@[simp] theorem updSlot_agenda (s : State) (k : Nat) (f : QSlot → QSlot) : (s.updSlot k f).agenda = s.agenda := rfl
@[simp] theorem updSlot_cur (s : State) (k : Nat) (f : QSlot → QSlot) : (s.updSlot k f).cur = s.cur := rfl
@[simp] theorem updSlot_second (s : State) (k : Nat) (f : QSlot → QSlot) : (s.updSlot k f).second = s.second := rfl
@[simp] theorem updSlot_stalled (s : State) (k : Nat) (f : QSlot → QSlot) : (s.updSlot k f).stalled = s.stalled := rfl
@[simp] theorem updIface_clock (s : State) (k : Nat) (f : VIface → VIface) : (s.updIface k f).clock = s.clock := rfl
@[simp] theorem updIface_dmem (s : State) (k : Nat) (f : VIface → VIface) : (s.updIface k f).dmem = s.dmem := rfl
@[simp] theorem updIface_hmem (s : State) (k : Nat) (f : VIface → VIface) : (s.updIface k f).hmem = s.hmem := rfl
@[simp] theorem updIface_posted (s : State) (k : Nat) (f : VIface → VIface) : (s.updIface k f).posted = s.posted := rfl
@[simp] theorem updIface_hcache (s : State) (k : Nat) (f : VIface → VIface) : (s.updIface k f).hcache = s.hcache := rfl
@[simp] theorem updIface_hostBias (s : State) (k : Nat) (f : VIface → VIface) : (s.updIface k f).hostBias = s.hostBias := rfl
@[simp] theorem updIface_owned (s : State) (k : Nat) (f : VIface → VIface) : (s.updIface k f).owned = s.owned := rfl
@[simp] theorem updIface_reqs (s : State) (k : Nat) (f : VIface → VIface) : (s.updIface k f).reqs = s.reqs := rfl
@[simp] theorem updIface_cmds (s : State) (k : Nat) (f : VIface → VIface) : (s.updIface k f).cmds = s.cmds := rfl
@[simp] theorem updIface_cards (s : State) (k : Nat) (f : VIface → VIface) : (s.updIface k f).cards = s.cards := rfl
@[simp] theorem updIface_wgs (s : State) (k : Nat) (f : VIface → VIface) : (s.updIface k f).wgs = s.wgs := rfl
@[simp] theorem updIface_groups (s : State) (k : Nat) (f : VIface → VIface) : (s.updIface k f).groups = s.groups := rfl
@[simp] theorem updIface_launches (s : State) (k : Nat) (f : VIface → VIface) : (s.updIface k f).launches = s.launches := rfl
@[simp] theorem updIface_cores (s : State) (k : Nat) (f : VIface → VIface) : (s.updIface k f).cores = s.cores := rfl
@[simp] theorem updIface_clusters (s : State) (k : Nat) (f : VIface → VIface) : (s.updIface k f).clusters = s.clusters := rfl
@[simp] theorem updIface_slots (s : State) (k : Nat) (f : VIface → VIface) : (s.updIface k f).slots = s.slots := rfl
@[simp] theorem updIface_pins (s : State) (k : Nat) (f : VIface → VIface) : (s.updIface k f).pins = s.pins := rfl
@[simp] theorem updIface_savebase (s : State) (k : Nat) (f : VIface → VIface) : (s.updIface k f).savebase = s.savebase := rfl
@[simp] theorem updIface_savepages (s : State) (k : Nat) (f : VIface → VIface) : (s.updIface k f).savepages = s.savepages := rfl
@[simp] theorem updIface_ctl (s : State) (k : Nat) (f : VIface → VIface) : (s.updIface k f).ctl = s.ctl := rfl
@[simp] theorem updIface_counters (s : State) (k : Nat) (f : VIface → VIface) : (s.updIface k f).counters = s.counters := rfl
@[simp] theorem updIface_boot (s : State) (k : Nat) (f : VIface → VIface) : (s.updIface k f).boot = s.boot := rfl
@[simp] theorem updIface_attest (s : State) (k : Nat) (f : VIface → VIface) : (s.updIface k f).attest = s.attest := rfl
@[simp] theorem updIface_vecs (s : State) (k : Nat) (f : VIface → VIface) : (s.updIface k f).vecs = s.vecs := rfl
@[simp] theorem updIface_linkUp (s : State) (k : Nat) (f : VIface → VIface) : (s.updIface k f).linkUp = s.linkUp := rfl
@[simp] theorem updIface_watches (s : State) (k : Nat) (f : VIface → VIface) : (s.updIface k f).watches = s.watches := rfl
@[simp] theorem updIface_walkCache (s : State) (k : Nat) (f : VIface → VIface) : (s.updIface k f).walkCache = s.walkCache := rfl
@[simp] theorem updIface_zeroed (s : State) (k : Nat) (f : VIface → VIface) : (s.updIface k f).zeroed = s.zeroed := rfl
@[simp] theorem updIface_hshared (s : State) (k : Nat) (f : VIface → VIface) : (s.updIface k f).hshared = s.hshared := rfl
@[simp] theorem updIface_lantern (s : State) (k : Nat) (f : VIface → VIface) : (s.updIface k f).lantern = s.lantern := rfl
@[simp] theorem updIface_rings (s : State) (k : Nat) (f : VIface → VIface) : (s.updIface k f).rings = s.rings := rfl
@[simp] theorem updIface_audited (s : State) (k : Nat) (f : VIface → VIface) : (s.updIface k f).audited = s.audited := rfl
@[simp] theorem updIface_turns (s : State) (k : Nat) (f : VIface → VIface) : (s.updIface k f).turns = s.turns := rfl
@[simp] theorem updIface_late (s : State) (k : Nat) (f : VIface → VIface) : (s.updIface k f).late = s.late := rfl
@[simp] theorem updIface_lateScratch (s : State) (k : Nat) (f : VIface → VIface) : (s.updIface k f).lateScratch = s.lateScratch := rfl
@[simp] theorem updIface_deferred (s : State) (k : Nat) (f : VIface → VIface) : (s.updIface k f).deferred = s.deferred := rfl
@[simp] theorem updIface_touched (s : State) (k : Nat) (f : VIface → VIface) : (s.updIface k f).touched = s.touched := rfl
@[simp] theorem updIface_delayed (s : State) (k : Nat) (f : VIface → VIface) : (s.updIface k f).delayed = s.delayed := rfl
@[simp] theorem updIface_reached (s : State) (k : Nat) (f : VIface → VIface) : (s.updIface k f).reached = s.reached := rfl
@[simp] theorem updIface_fresh (s : State) (k : Nat) (f : VIface → VIface) : (s.updIface k f).fresh = s.fresh := rfl
@[simp] theorem updIface_nextId (s : State) (k : Nat) (f : VIface → VIface) : (s.updIface k f).nextId = s.nextId := rfl
@[simp] theorem updIface_agenda (s : State) (k : Nat) (f : VIface → VIface) : (s.updIface k f).agenda = s.agenda := rfl
@[simp] theorem updIface_cur (s : State) (k : Nat) (f : VIface → VIface) : (s.updIface k f).cur = s.cur := rfl
@[simp] theorem updIface_second (s : State) (k : Nat) (f : VIface → VIface) : (s.updIface k f).second = s.second := rfl
@[simp] theorem updIface_stalled (s : State) (k : Nat) (f : VIface → VIface) : (s.updIface k f).stalled = s.stalled := rfl
@[simp] theorem due_clock (s : State) (e : Instr) : (s.due e).clock = s.clock := rfl
@[simp] theorem due_dmem (s : State) (e : Instr) : (s.due e).dmem = s.dmem := rfl
@[simp] theorem due_hmem (s : State) (e : Instr) : (s.due e).hmem = s.hmem := rfl
@[simp] theorem due_posted (s : State) (e : Instr) : (s.due e).posted = s.posted := rfl
@[simp] theorem due_hcache (s : State) (e : Instr) : (s.due e).hcache = s.hcache := rfl
@[simp] theorem due_hostBias (s : State) (e : Instr) : (s.due e).hostBias = s.hostBias := rfl
@[simp] theorem due_owned (s : State) (e : Instr) : (s.due e).owned = s.owned := rfl
@[simp] theorem due_reqs (s : State) (e : Instr) : (s.due e).reqs = s.reqs := rfl
@[simp] theorem due_cmds (s : State) (e : Instr) : (s.due e).cmds = s.cmds := rfl
@[simp] theorem due_cards (s : State) (e : Instr) : (s.due e).cards = s.cards := rfl
@[simp] theorem due_wgs (s : State) (e : Instr) : (s.due e).wgs = s.wgs := rfl
@[simp] theorem due_groups (s : State) (e : Instr) : (s.due e).groups = s.groups := rfl
@[simp] theorem due_launches (s : State) (e : Instr) : (s.due e).launches = s.launches := rfl
@[simp] theorem due_cores (s : State) (e : Instr) : (s.due e).cores = s.cores := rfl
@[simp] theorem due_clusters (s : State) (e : Instr) : (s.due e).clusters = s.clusters := rfl
@[simp] theorem due_slots (s : State) (e : Instr) : (s.due e).slots = s.slots := rfl
@[simp] theorem due_ifaces (s : State) (e : Instr) : (s.due e).ifaces = s.ifaces := rfl
@[simp] theorem due_pins (s : State) (e : Instr) : (s.due e).pins = s.pins := rfl
@[simp] theorem due_savebase (s : State) (e : Instr) : (s.due e).savebase = s.savebase := rfl
@[simp] theorem due_savepages (s : State) (e : Instr) : (s.due e).savepages = s.savepages := rfl
@[simp] theorem due_ctl (s : State) (e : Instr) : (s.due e).ctl = s.ctl := rfl
@[simp] theorem due_counters (s : State) (e : Instr) : (s.due e).counters = s.counters := rfl
@[simp] theorem due_boot (s : State) (e : Instr) : (s.due e).boot = s.boot := rfl
@[simp] theorem due_attest (s : State) (e : Instr) : (s.due e).attest = s.attest := rfl
@[simp] theorem due_vecs (s : State) (e : Instr) : (s.due e).vecs = s.vecs := rfl
@[simp] theorem due_linkUp (s : State) (e : Instr) : (s.due e).linkUp = s.linkUp := rfl
@[simp] theorem due_watches (s : State) (e : Instr) : (s.due e).watches = s.watches := rfl
@[simp] theorem due_walkCache (s : State) (e : Instr) : (s.due e).walkCache = s.walkCache := rfl
@[simp] theorem due_zeroed (s : State) (e : Instr) : (s.due e).zeroed = s.zeroed := rfl
@[simp] theorem due_hshared (s : State) (e : Instr) : (s.due e).hshared = s.hshared := rfl
@[simp] theorem due_lantern (s : State) (e : Instr) : (s.due e).lantern = s.lantern := rfl
@[simp] theorem due_rings (s : State) (e : Instr) : (s.due e).rings = s.rings := rfl
@[simp] theorem due_audited (s : State) (e : Instr) : (s.due e).audited = s.audited := rfl
@[simp] theorem due_turns (s : State) (e : Instr) : (s.due e).turns = s.turns := rfl
@[simp] theorem due_late (s : State) (e : Instr) : (s.due e).late = s.late := rfl
@[simp] theorem due_lateScratch (s : State) (e : Instr) : (s.due e).lateScratch = s.lateScratch := rfl
@[simp] theorem due_deferred (s : State) (e : Instr) : (s.due e).deferred = s.deferred := rfl
@[simp] theorem due_touched (s : State) (e : Instr) : (s.due e).touched = s.touched := rfl
@[simp] theorem due_delayed (s : State) (e : Instr) : (s.due e).delayed = s.delayed := rfl
@[simp] theorem due_reached (s : State) (e : Instr) : (s.due e).reached = s.reached := rfl
@[simp] theorem due_fresh (s : State) (e : Instr) : (s.due e).fresh = s.fresh := rfl
@[simp] theorem due_nextId (s : State) (e : Instr) : (s.due e).nextId = s.nextId := rfl
@[simp] theorem due_cur (s : State) (e : Instr) : (s.due e).cur = s.cur := rfl
@[simp] theorem due_second (s : State) (e : Instr) : (s.due e).second = s.second := rfl
@[simp] theorem due_stalled (s : State) (e : Instr) : (s.due e).stalled = s.stalled := rfl
@[simp] theorem stall_clock (s : State) : (s.stall).clock = s.clock := rfl
@[simp] theorem stall_dmem (s : State) : (s.stall).dmem = s.dmem := rfl
@[simp] theorem stall_hmem (s : State) : (s.stall).hmem = s.hmem := rfl
@[simp] theorem stall_posted (s : State) : (s.stall).posted = s.posted := rfl
@[simp] theorem stall_hcache (s : State) : (s.stall).hcache = s.hcache := rfl
@[simp] theorem stall_hostBias (s : State) : (s.stall).hostBias = s.hostBias := rfl
@[simp] theorem stall_owned (s : State) : (s.stall).owned = s.owned := rfl
@[simp] theorem stall_reqs (s : State) : (s.stall).reqs = s.reqs := rfl
@[simp] theorem stall_cmds (s : State) : (s.stall).cmds = s.cmds := rfl
@[simp] theorem stall_cards (s : State) : (s.stall).cards = s.cards := rfl
@[simp] theorem stall_wgs (s : State) : (s.stall).wgs = s.wgs := rfl
@[simp] theorem stall_groups (s : State) : (s.stall).groups = s.groups := rfl
@[simp] theorem stall_launches (s : State) : (s.stall).launches = s.launches := rfl
@[simp] theorem stall_cores (s : State) : (s.stall).cores = s.cores := rfl
@[simp] theorem stall_clusters (s : State) : (s.stall).clusters = s.clusters := rfl
@[simp] theorem stall_slots (s : State) : (s.stall).slots = s.slots := rfl
@[simp] theorem stall_ifaces (s : State) : (s.stall).ifaces = s.ifaces := rfl
@[simp] theorem stall_pins (s : State) : (s.stall).pins = s.pins := rfl
@[simp] theorem stall_savebase (s : State) : (s.stall).savebase = s.savebase := rfl
@[simp] theorem stall_savepages (s : State) : (s.stall).savepages = s.savepages := rfl
@[simp] theorem stall_ctl (s : State) : (s.stall).ctl = s.ctl := rfl
@[simp] theorem stall_counters (s : State) : (s.stall).counters = s.counters := rfl
@[simp] theorem stall_boot (s : State) : (s.stall).boot = s.boot := rfl
@[simp] theorem stall_attest (s : State) : (s.stall).attest = s.attest := rfl
@[simp] theorem stall_vecs (s : State) : (s.stall).vecs = s.vecs := rfl
@[simp] theorem stall_linkUp (s : State) : (s.stall).linkUp = s.linkUp := rfl
@[simp] theorem stall_watches (s : State) : (s.stall).watches = s.watches := rfl
@[simp] theorem stall_walkCache (s : State) : (s.stall).walkCache = s.walkCache := rfl
@[simp] theorem stall_zeroed (s : State) : (s.stall).zeroed = s.zeroed := rfl
@[simp] theorem stall_hshared (s : State) : (s.stall).hshared = s.hshared := rfl
@[simp] theorem stall_lantern (s : State) : (s.stall).lantern = s.lantern := rfl
@[simp] theorem stall_rings (s : State) : (s.stall).rings = s.rings := rfl
@[simp] theorem stall_audited (s : State) : (s.stall).audited = s.audited := rfl
@[simp] theorem stall_turns (s : State) : (s.stall).turns = s.turns := rfl
@[simp] theorem stall_late (s : State) : (s.stall).late = s.late := rfl
@[simp] theorem stall_lateScratch (s : State) : (s.stall).lateScratch = s.lateScratch := rfl
@[simp] theorem stall_deferred (s : State) : (s.stall).deferred = s.deferred := rfl
@[simp] theorem stall_touched (s : State) : (s.stall).touched = s.touched := rfl
@[simp] theorem stall_delayed (s : State) : (s.stall).delayed = s.delayed := rfl
@[simp] theorem stall_reached (s : State) : (s.stall).reached = s.reached := rfl
@[simp] theorem stall_fresh (s : State) : (s.stall).fresh = s.fresh := rfl
@[simp] theorem stall_nextId (s : State) : (s.stall).nextId = s.nextId := rfl
@[simp] theorem stall_agenda (s : State) : (s.stall).agenda = s.agenda := rfl
@[simp] theorem stall_cur (s : State) : (s.stall).cur = s.cur := rfl
@[simp] theorem stall_second (s : State) : (s.stall).second = s.second := rfl
@[simp] theorem wantUnit_clock (s : State) (k u : Nat) : (s.wantUnit k u).clock = s.clock := rfl
@[simp] theorem wantUnit_dmem (s : State) (k u : Nat) : (s.wantUnit k u).dmem = s.dmem := rfl
@[simp] theorem wantUnit_hmem (s : State) (k u : Nat) : (s.wantUnit k u).hmem = s.hmem := rfl
@[simp] theorem wantUnit_posted (s : State) (k u : Nat) : (s.wantUnit k u).posted = s.posted := rfl
@[simp] theorem wantUnit_hcache (s : State) (k u : Nat) : (s.wantUnit k u).hcache = s.hcache := rfl
@[simp] theorem wantUnit_hostBias (s : State) (k u : Nat) : (s.wantUnit k u).hostBias = s.hostBias := rfl
@[simp] theorem wantUnit_owned (s : State) (k u : Nat) : (s.wantUnit k u).owned = s.owned := rfl
@[simp] theorem wantUnit_reqs (s : State) (k u : Nat) : (s.wantUnit k u).reqs = s.reqs := rfl
@[simp] theorem wantUnit_cmds (s : State) (k u : Nat) : (s.wantUnit k u).cmds = s.cmds := rfl
@[simp] theorem wantUnit_cards (s : State) (k u : Nat) : (s.wantUnit k u).cards = s.cards := rfl
@[simp] theorem wantUnit_wgs (s : State) (k u : Nat) : (s.wantUnit k u).wgs = s.wgs := rfl
@[simp] theorem wantUnit_groups (s : State) (k u : Nat) : (s.wantUnit k u).groups = s.groups := rfl
@[simp] theorem wantUnit_launches (s : State) (k u : Nat) : (s.wantUnit k u).launches = s.launches := rfl
@[simp] theorem wantUnit_cores (s : State) (k u : Nat) : (s.wantUnit k u).cores = s.cores := rfl
@[simp] theorem wantUnit_slots (s : State) (k u : Nat) : (s.wantUnit k u).slots = s.slots := rfl
@[simp] theorem wantUnit_ifaces (s : State) (k u : Nat) : (s.wantUnit k u).ifaces = s.ifaces := rfl
@[simp] theorem wantUnit_pins (s : State) (k u : Nat) : (s.wantUnit k u).pins = s.pins := rfl
@[simp] theorem wantUnit_savebase (s : State) (k u : Nat) : (s.wantUnit k u).savebase = s.savebase := rfl
@[simp] theorem wantUnit_savepages (s : State) (k u : Nat) : (s.wantUnit k u).savepages = s.savepages := rfl
@[simp] theorem wantUnit_ctl (s : State) (k u : Nat) : (s.wantUnit k u).ctl = s.ctl := rfl
@[simp] theorem wantUnit_counters (s : State) (k u : Nat) : (s.wantUnit k u).counters = s.counters := rfl
@[simp] theorem wantUnit_boot (s : State) (k u : Nat) : (s.wantUnit k u).boot = s.boot := rfl
@[simp] theorem wantUnit_attest (s : State) (k u : Nat) : (s.wantUnit k u).attest = s.attest := rfl
@[simp] theorem wantUnit_vecs (s : State) (k u : Nat) : (s.wantUnit k u).vecs = s.vecs := rfl
@[simp] theorem wantUnit_linkUp (s : State) (k u : Nat) : (s.wantUnit k u).linkUp = s.linkUp := rfl
@[simp] theorem wantUnit_watches (s : State) (k u : Nat) : (s.wantUnit k u).watches = s.watches := rfl
@[simp] theorem wantUnit_walkCache (s : State) (k u : Nat) : (s.wantUnit k u).walkCache = s.walkCache := rfl
@[simp] theorem wantUnit_zeroed (s : State) (k u : Nat) : (s.wantUnit k u).zeroed = s.zeroed := rfl
@[simp] theorem wantUnit_hshared (s : State) (k u : Nat) : (s.wantUnit k u).hshared = s.hshared := rfl
@[simp] theorem wantUnit_lantern (s : State) (k u : Nat) : (s.wantUnit k u).lantern = s.lantern := rfl
@[simp] theorem wantUnit_rings (s : State) (k u : Nat) : (s.wantUnit k u).rings = s.rings := rfl
@[simp] theorem wantUnit_audited (s : State) (k u : Nat) : (s.wantUnit k u).audited = s.audited := rfl
@[simp] theorem wantUnit_turns (s : State) (k u : Nat) : (s.wantUnit k u).turns = s.turns := rfl
@[simp] theorem wantUnit_late (s : State) (k u : Nat) : (s.wantUnit k u).late = s.late := rfl
@[simp] theorem wantUnit_lateScratch (s : State) (k u : Nat) : (s.wantUnit k u).lateScratch = s.lateScratch := rfl
@[simp] theorem wantUnit_deferred (s : State) (k u : Nat) : (s.wantUnit k u).deferred = s.deferred := rfl
@[simp] theorem wantUnit_touched (s : State) (k u : Nat) : (s.wantUnit k u).touched = s.touched := rfl
@[simp] theorem wantUnit_delayed (s : State) (k u : Nat) : (s.wantUnit k u).delayed = s.delayed := rfl
@[simp] theorem wantUnit_reached (s : State) (k u : Nat) : (s.wantUnit k u).reached = s.reached := rfl
@[simp] theorem wantUnit_fresh (s : State) (k u : Nat) : (s.wantUnit k u).fresh = s.fresh := rfl
@[simp] theorem wantUnit_nextId (s : State) (k u : Nat) : (s.wantUnit k u).nextId = s.nextId := rfl
@[simp] theorem wantUnit_agenda (s : State) (k u : Nat) : (s.wantUnit k u).agenda = s.agenda := rfl
@[simp] theorem wantUnit_cur (s : State) (k u : Nat) : (s.wantUnit k u).cur = s.cur := rfl
@[simp] theorem wantUnit_second (s : State) (k u : Nat) : (s.wantUnit k u).second = s.second := rfl
@[simp] theorem wantUnit_stalled (s : State) (k u : Nat) : (s.wantUnit k u).stalled = s.stalled := rfl
@[simp] theorem takeCause_clock (s : State) (r : WaveRef) (sl : Slice) (em : Lanes) (pc : Word) (k : Cause) (x : Info) : (takeCause s r sl em pc k x).clock = s.clock := rfl
@[simp] theorem takeCause_dmem (s : State) (r : WaveRef) (sl : Slice) (em : Lanes) (pc : Word) (k : Cause) (x : Info) : (takeCause s r sl em pc k x).dmem = s.dmem := rfl
@[simp] theorem takeCause_hmem (s : State) (r : WaveRef) (sl : Slice) (em : Lanes) (pc : Word) (k : Cause) (x : Info) : (takeCause s r sl em pc k x).hmem = s.hmem := rfl
@[simp] theorem takeCause_posted (s : State) (r : WaveRef) (sl : Slice) (em : Lanes) (pc : Word) (k : Cause) (x : Info) : (takeCause s r sl em pc k x).posted = s.posted := rfl
@[simp] theorem takeCause_hcache (s : State) (r : WaveRef) (sl : Slice) (em : Lanes) (pc : Word) (k : Cause) (x : Info) : (takeCause s r sl em pc k x).hcache = s.hcache := rfl
@[simp] theorem takeCause_hostBias (s : State) (r : WaveRef) (sl : Slice) (em : Lanes) (pc : Word) (k : Cause) (x : Info) : (takeCause s r sl em pc k x).hostBias = s.hostBias := rfl
@[simp] theorem takeCause_owned (s : State) (r : WaveRef) (sl : Slice) (em : Lanes) (pc : Word) (k : Cause) (x : Info) : (takeCause s r sl em pc k x).owned = s.owned := rfl
@[simp] theorem takeCause_reqs (s : State) (r : WaveRef) (sl : Slice) (em : Lanes) (pc : Word) (k : Cause) (x : Info) : (takeCause s r sl em pc k x).reqs = s.reqs := rfl
@[simp] theorem takeCause_cmds (s : State) (r : WaveRef) (sl : Slice) (em : Lanes) (pc : Word) (k : Cause) (x : Info) : (takeCause s r sl em pc k x).cmds = s.cmds := rfl
@[simp] theorem takeCause_cards (s : State) (r : WaveRef) (sl : Slice) (em : Lanes) (pc : Word) (k : Cause) (x : Info) : (takeCause s r sl em pc k x).cards = s.cards := rfl
@[simp] theorem takeCause_groups (s : State) (r : WaveRef) (sl : Slice) (em : Lanes) (pc : Word) (k : Cause) (x : Info) : (takeCause s r sl em pc k x).groups = s.groups := rfl
@[simp] theorem takeCause_launches (s : State) (r : WaveRef) (sl : Slice) (em : Lanes) (pc : Word) (k : Cause) (x : Info) : (takeCause s r sl em pc k x).launches = s.launches := rfl
@[simp] theorem takeCause_cores (s : State) (r : WaveRef) (sl : Slice) (em : Lanes) (pc : Word) (k : Cause) (x : Info) : (takeCause s r sl em pc k x).cores = s.cores := rfl
@[simp] theorem takeCause_clusters (s : State) (r : WaveRef) (sl : Slice) (em : Lanes) (pc : Word) (k : Cause) (x : Info) : (takeCause s r sl em pc k x).clusters = s.clusters := rfl
@[simp] theorem takeCause_slots (s : State) (r : WaveRef) (sl : Slice) (em : Lanes) (pc : Word) (k : Cause) (x : Info) : (takeCause s r sl em pc k x).slots = s.slots := rfl
@[simp] theorem takeCause_ifaces (s : State) (r : WaveRef) (sl : Slice) (em : Lanes) (pc : Word) (k : Cause) (x : Info) : (takeCause s r sl em pc k x).ifaces = s.ifaces := rfl
@[simp] theorem takeCause_pins (s : State) (r : WaveRef) (sl : Slice) (em : Lanes) (pc : Word) (k : Cause) (x : Info) : (takeCause s r sl em pc k x).pins = s.pins := rfl
@[simp] theorem takeCause_savebase (s : State) (r : WaveRef) (sl : Slice) (em : Lanes) (pc : Word) (k : Cause) (x : Info) : (takeCause s r sl em pc k x).savebase = s.savebase := rfl
@[simp] theorem takeCause_savepages (s : State) (r : WaveRef) (sl : Slice) (em : Lanes) (pc : Word) (k : Cause) (x : Info) : (takeCause s r sl em pc k x).savepages = s.savepages := rfl
@[simp] theorem takeCause_ctl (s : State) (r : WaveRef) (sl : Slice) (em : Lanes) (pc : Word) (k : Cause) (x : Info) : (takeCause s r sl em pc k x).ctl = s.ctl := rfl
@[simp] theorem takeCause_counters (s : State) (r : WaveRef) (sl : Slice) (em : Lanes) (pc : Word) (k : Cause) (x : Info) : (takeCause s r sl em pc k x).counters = s.counters := rfl
@[simp] theorem takeCause_boot (s : State) (r : WaveRef) (sl : Slice) (em : Lanes) (pc : Word) (k : Cause) (x : Info) : (takeCause s r sl em pc k x).boot = s.boot := rfl
@[simp] theorem takeCause_attest (s : State) (r : WaveRef) (sl : Slice) (em : Lanes) (pc : Word) (k : Cause) (x : Info) : (takeCause s r sl em pc k x).attest = s.attest := rfl
@[simp] theorem takeCause_vecs (s : State) (r : WaveRef) (sl : Slice) (em : Lanes) (pc : Word) (k : Cause) (x : Info) : (takeCause s r sl em pc k x).vecs = s.vecs := rfl
@[simp] theorem takeCause_linkUp (s : State) (r : WaveRef) (sl : Slice) (em : Lanes) (pc : Word) (k : Cause) (x : Info) : (takeCause s r sl em pc k x).linkUp = s.linkUp := rfl
@[simp] theorem takeCause_watches (s : State) (r : WaveRef) (sl : Slice) (em : Lanes) (pc : Word) (k : Cause) (x : Info) : (takeCause s r sl em pc k x).watches = s.watches := rfl
@[simp] theorem takeCause_walkCache (s : State) (r : WaveRef) (sl : Slice) (em : Lanes) (pc : Word) (k : Cause) (x : Info) : (takeCause s r sl em pc k x).walkCache = s.walkCache := rfl
@[simp] theorem takeCause_zeroed (s : State) (r : WaveRef) (sl : Slice) (em : Lanes) (pc : Word) (k : Cause) (x : Info) : (takeCause s r sl em pc k x).zeroed = s.zeroed := rfl
@[simp] theorem takeCause_hshared (s : State) (r : WaveRef) (sl : Slice) (em : Lanes) (pc : Word) (k : Cause) (x : Info) : (takeCause s r sl em pc k x).hshared = s.hshared := rfl
@[simp] theorem takeCause_lantern (s : State) (r : WaveRef) (sl : Slice) (em : Lanes) (pc : Word) (k : Cause) (x : Info) : (takeCause s r sl em pc k x).lantern = s.lantern := rfl
@[simp] theorem takeCause_rings (s : State) (r : WaveRef) (sl : Slice) (em : Lanes) (pc : Word) (k : Cause) (x : Info) : (takeCause s r sl em pc k x).rings = s.rings := rfl
@[simp] theorem takeCause_audited (s : State) (r : WaveRef) (sl : Slice) (em : Lanes) (pc : Word) (k : Cause) (x : Info) : (takeCause s r sl em pc k x).audited = s.audited := rfl
@[simp] theorem takeCause_turns (s : State) (r : WaveRef) (sl : Slice) (em : Lanes) (pc : Word) (k : Cause) (x : Info) : (takeCause s r sl em pc k x).turns = s.turns := rfl
@[simp] theorem takeCause_late (s : State) (r : WaveRef) (sl : Slice) (em : Lanes) (pc : Word) (k : Cause) (x : Info) : (takeCause s r sl em pc k x).late = s.late := rfl
@[simp] theorem takeCause_lateScratch (s : State) (r : WaveRef) (sl : Slice) (em : Lanes) (pc : Word) (k : Cause) (x : Info) : (takeCause s r sl em pc k x).lateScratch = s.lateScratch := rfl
@[simp] theorem takeCause_deferred (s : State) (r : WaveRef) (sl : Slice) (em : Lanes) (pc : Word) (k : Cause) (x : Info) : (takeCause s r sl em pc k x).deferred = s.deferred := rfl
@[simp] theorem takeCause_touched (s : State) (r : WaveRef) (sl : Slice) (em : Lanes) (pc : Word) (k : Cause) (x : Info) : (takeCause s r sl em pc k x).touched = s.touched := rfl
@[simp] theorem takeCause_delayed (s : State) (r : WaveRef) (sl : Slice) (em : Lanes) (pc : Word) (k : Cause) (x : Info) : (takeCause s r sl em pc k x).delayed = s.delayed := rfl
@[simp] theorem takeCause_reached (s : State) (r : WaveRef) (sl : Slice) (em : Lanes) (pc : Word) (k : Cause) (x : Info) : (takeCause s r sl em pc k x).reached = s.reached := rfl
@[simp] theorem takeCause_fresh (s : State) (r : WaveRef) (sl : Slice) (em : Lanes) (pc : Word) (k : Cause) (x : Info) : (takeCause s r sl em pc k x).fresh = s.fresh := rfl
@[simp] theorem takeCause_nextId (s : State) (r : WaveRef) (sl : Slice) (em : Lanes) (pc : Word) (k : Cause) (x : Info) : (takeCause s r sl em pc k x).nextId = s.nextId := rfl
@[simp] theorem takeCause_agenda (s : State) (r : WaveRef) (sl : Slice) (em : Lanes) (pc : Word) (k : Cause) (x : Info) : (takeCause s r sl em pc k x).agenda = s.agenda := rfl
@[simp] theorem takeCause_cur (s : State) (r : WaveRef) (sl : Slice) (em : Lanes) (pc : Word) (k : Cause) (x : Info) : (takeCause s r sl em pc k x).cur = s.cur := rfl
@[simp] theorem takeCause_second (s : State) (r : WaveRef) (sl : Slice) (em : Lanes) (pc : Word) (k : Cause) (x : Info) : (takeCause s r sl em pc k x).second = s.second := rfl
@[simp] theorem takeCause_stalled (s : State) (r : WaveRef) (sl : Slice) (em : Lanes) (pc : Word) (k : Cause) (x : Info) : (takeCause s r sl em pc k x).stalled = s.stalled := rfl

/-! A workgroup. -/

@[simp] theorem updWaveG_id (g : Workgroup) (k : Nat) (f : Wave → Wave) : (g.updWave k f).id = g.id := rfl
@[simp] theorem updWaveG_launch (g : Workgroup) (k : Nat) (f : Wave → Wave) : (g.updWave k f).launch = g.launch := rfl
@[simp] theorem updWaveG_keeper (g : Workgroup) (k : Nat) (f : Wave → Wave) : (g.updWave k f).keeper = g.keeper := rfl
@[simp] theorem updWaveG_wgid (g : Workgroup) (k : Nat) (f : Wave → Wave) : (g.updWave k f).wgid = g.wgid := rfl
@[simp] theorem updWaveG_cg (g : Workgroup) (k : Nat) (f : Wave → Wave) : (g.updWave k f).cg = g.cg := rfl
@[simp] theorem updWaveG_flat (g : Workgroup) (k : Nat) (f : Wave → Wave) : (g.updWave k f).flat = g.flat := rfl
@[simp] theorem updWaveG_core (g : Workgroup) (k : Nat) (f : Wave → Wave) : (g.updWave k f).core = g.core := rfl
@[simp] theorem updWaveG_slot (g : Workgroup) (k : Nat) (f : Wave → Wave) : (g.updWave k f).slot = g.slot := rfl
@[simp] theorem updWaveG_scrbase (g : Workgroup) (k : Nat) (f : Wave → Wave) : (g.updWave k f).scrbase = g.scrbase := rfl
@[simp] theorem updWaveG_scratch (g : Workgroup) (k : Nat) (f : Wave → Wave) : (g.updWave k f).scratch = g.scratch := rfl
@[simp] theorem updWaveG_barriers (g : Workgroup) (k : Nat) (f : Wave → Wave) : (g.updWave k f).barriers = g.barriers := rfl
@[simp] theorem updWaveG_rings (g : Workgroup) (k : Nat) (f : Wave → Wave) : (g.updWave k f).rings = g.rings := rfl
@[simp] theorem updWaveG_graphs (g : Workgroup) (k : Nat) (f : Wave → Wave) : (g.updWave k f).graphs = g.graphs := rfl
@[simp] theorem updWaveG_raster (g : Workgroup) (k : Nat) (f : Wave → Wave) : (g.updWave k f).raster = g.raster := rfl
@[simp] theorem updWaveG_status (g : Workgroup) (k : Nat) (f : Wave → Wave) : (g.updWave k f).status = g.status := rfl
@[simp] theorem updWaveG_request (g : Workgroup) (k : Nat) (f : Wave → Wave) : (g.updWave k f).request = g.request := rfl
@[simp] theorem updWaveG_arrivedGrid (g : Workgroup) (k : Nat) (f : Wave → Wave) : (g.updWave k f).arrivedGrid = g.arrivedGrid := rfl
@[simp] theorem updWaveG_exchangeSince (g : Workgroup) (k : Nat) (f : Wave → Wave) : (g.updWave k f).exchangeSince = g.exchangeSince := rfl
@[simp] theorem updWaveG_released (g : Workgroup) (k : Nat) (f : Wave → Wave) : (g.updWave k f).released = g.released := rfl
@[simp] theorem updWaveG_saved (g : Workgroup) (k : Nat) (f : Wave → Wave) : (g.updWave k f).saved = g.saved := rfl

/-! A wave. -/

@[simp] theorem setSlice_id (w : Wave) (sl : Slice) (t : SliceSt) : (w.setSlice sl t).id = w.id := by cases sl <;> rfl
@[simp] theorem setSlice_wslot (w : Wave) (sl : Slice) (t : SliceSt) : (w.setSlice sl t).wslot = w.wslot := by cases sl <;> rfl
@[simp] theorem setSlice_role (w : Wave) (sl : Slice) (t : SliceSt) : (w.setSlice sl t).role = w.role := by cases sl <;> rfl
@[simp] theorem setSlice_allot (w : Wave) (sl : Slice) (t : SliceSt) : (w.setSlice sl t).allot = w.allot := by cases sl <;> rfl
@[simp] theorem setSlice_budget (w : Wave) (sl : Slice) (t : SliceSt) : (w.setSlice sl t).budget = w.budget := by cases sl <;> rfl
@[simp] theorem setSlice_active (w : Wave) (sl : Slice) (t : SliceSt) : (w.setSlice sl t).active = w.active := by cases sl <;> rfl
@[simp] theorem setSlice_unblocked (w : Wave) (sl : Slice) (t : SliceSt) : (w.setSlice sl t).unblocked = w.unblocked := by cases sl <;> rfl
@[simp] theorem setSlice_v (w : Wave) (sl : Slice) (t : SliceSt) : (w.setSlice sl t).v = w.v := by cases sl <;> rfl
@[simp] theorem setSlice_o (w : Wave) (sl : Slice) (t : SliceSt) : (w.setSlice sl t).o = w.o := by cases sl <;> rfl
@[simp] theorem setSlice_s (w : Wave) (sl : Slice) (t : SliceSt) : (w.setSlice sl t).s = w.s := by cases sl <;> rfl
@[simp] theorem setSlice_run (w : Wave) (sl : Slice) (t : SliceSt) : (w.setSlice sl t).run = w.run := by cases sl <;> rfl
@[simp] theorem setSlice_yielding (w : Wave) (sl : Slice) (t : SliceSt) : (w.setSlice sl t).yielding = w.yielding := by cases sl <;> rfl
@[simp] theorem setSlice_queues (w : Wave) (sl : Slice) (t : SliceSt) : (w.setSlice sl t).queues = w.queues := by cases sl <;> rfl
@[simp] theorem setSlice_recs (w : Wave) (sl : Slice) (t : SliceSt) : (w.setSlice sl t).recs = w.recs := by cases sl <;> rfl
@[simp] theorem setSlice_tiles (w : Wave) (sl : Slice) (t : SliceSt) : (w.setSlice sl t).tiles = w.tiles := by cases sl <;> rfl
@[simp] theorem setSlice_latchA (w : Wave) (sl : Slice) (t : SliceSt) : (w.setSlice sl t).latchA = w.latchA := by cases sl <;> rfl
@[simp] theorem setSlice_latchB (w : Wave) (sl : Slice) (t : SliceSt) : (w.setSlice sl t).latchB = w.latchB := by cases sl <;> rfl
@[simp] theorem setSlice_cards (w : Wave) (sl : Slice) (t : SliceSt) : (w.setSlice sl t).cards = w.cards := by cases sl <;> rfl
@[simp] theorem setSlice_copyTag (w : Wave) (sl : Slice) (t : SliceSt) : (w.setSlice sl t).copyTag = w.copyTag := by cases sl <;> rfl
@[simp] theorem setSlice_copyStatus (w : Wave) (sl : Slice) (t : SliceSt) : (w.setSlice sl t).copyStatus = w.copyStatus := by cases sl <;> rfl
@[simp] theorem setSlice_pmc (w : Wave) (sl : Slice) (t : SliceSt) : (w.setSlice sl t).pmc = w.pmc := by cases sl <;> rfl
@[simp] theorem setSlice_window (w : Wave) (sl : Slice) (t : SliceSt) : (w.setSlice sl t).window = w.window := by cases sl <;> rfl
@[simp] theorem setSlice_contribs (w : Wave) (sl : Slice) (t : SliceSt) : (w.setSlice sl t).contribs = w.contribs := by cases sl <;> rfl
@[simp] theorem setSlice_ringArrivals (w : Wave) (sl : Slice) (t : SliceSt) : (w.setSlice sl t).ringArrivals = w.ringArrivals := by cases sl <;> rfl
@[simp] theorem setSlice_gridA (w : Wave) (sl : Slice) (t : SliceSt) : (w.setSlice sl t).gridA = w.gridA := by cases sl <;> rfl
@[simp] theorem setSlice_gridX (w : Wave) (sl : Slice) (t : SliceSt) : (w.setSlice sl t).gridX = w.gridX := by cases sl <;> rfl
@[simp] theorem setSlice_gridPending (w : Wave) (sl : Slice) (t : SliceSt) : (w.setSlice sl t).gridPending = w.gridPending := by cases sl <;> rfl
@[simp] theorem setSlice_gridArrived (w : Wave) (sl : Slice) (t : SliceSt) : (w.setSlice sl t).gridArrived = w.gridArrived := by cases sl <;> rfl
@[simp] theorem setSlice_helper (w : Wave) (sl : Slice) (t : SliceSt) : (w.setSlice sl t).helper = w.helper := by cases sl <;> rfl
@[simp] theorem setSlice_tags (w : Wave) (sl : Slice) (t : SliceSt) : (w.setSlice sl t).tags = w.tags := by cases sl <;> rfl
@[simp] theorem setSlice_qbound (w : Wave) (sl : Slice) (t : SliceSt) : (w.setSlice sl t).qbound = w.qbound := by cases sl <;> rfl
@[simp] theorem setSlice_qwaits (w : Wave) (sl : Slice) (t : SliceSt) : (w.setSlice sl t).qwaits = w.qwaits := by cases sl <;> rfl
@[simp] theorem setSlice_ended (w : Wave) (sl : Slice) (t : SliceSt) : (w.setSlice sl t).ended = w.ended := by cases sl <;> rfl
@[simp] theorem wUpdSlice_id (w : Wave) (sl : Slice) (f : SliceSt → SliceSt) : (w.updSlice sl f).id = w.id := by cases sl <;> rfl
@[simp] theorem wUpdSlice_wslot (w : Wave) (sl : Slice) (f : SliceSt → SliceSt) : (w.updSlice sl f).wslot = w.wslot := by cases sl <;> rfl
@[simp] theorem wUpdSlice_role (w : Wave) (sl : Slice) (f : SliceSt → SliceSt) : (w.updSlice sl f).role = w.role := by cases sl <;> rfl
@[simp] theorem wUpdSlice_allot (w : Wave) (sl : Slice) (f : SliceSt → SliceSt) : (w.updSlice sl f).allot = w.allot := by cases sl <;> rfl
@[simp] theorem wUpdSlice_budget (w : Wave) (sl : Slice) (f : SliceSt → SliceSt) : (w.updSlice sl f).budget = w.budget := by cases sl <;> rfl
@[simp] theorem wUpdSlice_active (w : Wave) (sl : Slice) (f : SliceSt → SliceSt) : (w.updSlice sl f).active = w.active := by cases sl <;> rfl
@[simp] theorem wUpdSlice_unblocked (w : Wave) (sl : Slice) (f : SliceSt → SliceSt) : (w.updSlice sl f).unblocked = w.unblocked := by cases sl <;> rfl
@[simp] theorem wUpdSlice_v (w : Wave) (sl : Slice) (f : SliceSt → SliceSt) : (w.updSlice sl f).v = w.v := by cases sl <;> rfl
@[simp] theorem wUpdSlice_o (w : Wave) (sl : Slice) (f : SliceSt → SliceSt) : (w.updSlice sl f).o = w.o := by cases sl <;> rfl
@[simp] theorem wUpdSlice_s (w : Wave) (sl : Slice) (f : SliceSt → SliceSt) : (w.updSlice sl f).s = w.s := by cases sl <;> rfl
@[simp] theorem wUpdSlice_run (w : Wave) (sl : Slice) (f : SliceSt → SliceSt) : (w.updSlice sl f).run = w.run := by cases sl <;> rfl
@[simp] theorem wUpdSlice_yielding (w : Wave) (sl : Slice) (f : SliceSt → SliceSt) : (w.updSlice sl f).yielding = w.yielding := by cases sl <;> rfl
@[simp] theorem wUpdSlice_queues (w : Wave) (sl : Slice) (f : SliceSt → SliceSt) : (w.updSlice sl f).queues = w.queues := by cases sl <;> rfl
@[simp] theorem wUpdSlice_recs (w : Wave) (sl : Slice) (f : SliceSt → SliceSt) : (w.updSlice sl f).recs = w.recs := by cases sl <;> rfl
@[simp] theorem wUpdSlice_tiles (w : Wave) (sl : Slice) (f : SliceSt → SliceSt) : (w.updSlice sl f).tiles = w.tiles := by cases sl <;> rfl
@[simp] theorem wUpdSlice_latchA (w : Wave) (sl : Slice) (f : SliceSt → SliceSt) : (w.updSlice sl f).latchA = w.latchA := by cases sl <;> rfl
@[simp] theorem wUpdSlice_latchB (w : Wave) (sl : Slice) (f : SliceSt → SliceSt) : (w.updSlice sl f).latchB = w.latchB := by cases sl <;> rfl
@[simp] theorem wUpdSlice_cards (w : Wave) (sl : Slice) (f : SliceSt → SliceSt) : (w.updSlice sl f).cards = w.cards := by cases sl <;> rfl
@[simp] theorem wUpdSlice_copyTag (w : Wave) (sl : Slice) (f : SliceSt → SliceSt) : (w.updSlice sl f).copyTag = w.copyTag := by cases sl <;> rfl
@[simp] theorem wUpdSlice_copyStatus (w : Wave) (sl : Slice) (f : SliceSt → SliceSt) : (w.updSlice sl f).copyStatus = w.copyStatus := by cases sl <;> rfl
@[simp] theorem wUpdSlice_pmc (w : Wave) (sl : Slice) (f : SliceSt → SliceSt) : (w.updSlice sl f).pmc = w.pmc := by cases sl <;> rfl
@[simp] theorem wUpdSlice_window (w : Wave) (sl : Slice) (f : SliceSt → SliceSt) : (w.updSlice sl f).window = w.window := by cases sl <;> rfl
@[simp] theorem wUpdSlice_contribs (w : Wave) (sl : Slice) (f : SliceSt → SliceSt) : (w.updSlice sl f).contribs = w.contribs := by cases sl <;> rfl
@[simp] theorem wUpdSlice_ringArrivals (w : Wave) (sl : Slice) (f : SliceSt → SliceSt) : (w.updSlice sl f).ringArrivals = w.ringArrivals := by cases sl <;> rfl
@[simp] theorem wUpdSlice_gridA (w : Wave) (sl : Slice) (f : SliceSt → SliceSt) : (w.updSlice sl f).gridA = w.gridA := by cases sl <;> rfl
@[simp] theorem wUpdSlice_gridX (w : Wave) (sl : Slice) (f : SliceSt → SliceSt) : (w.updSlice sl f).gridX = w.gridX := by cases sl <;> rfl
@[simp] theorem wUpdSlice_gridPending (w : Wave) (sl : Slice) (f : SliceSt → SliceSt) : (w.updSlice sl f).gridPending = w.gridPending := by cases sl <;> rfl
@[simp] theorem wUpdSlice_gridArrived (w : Wave) (sl : Slice) (f : SliceSt → SliceSt) : (w.updSlice sl f).gridArrived = w.gridArrived := by cases sl <;> rfl
@[simp] theorem wUpdSlice_helper (w : Wave) (sl : Slice) (f : SliceSt → SliceSt) : (w.updSlice sl f).helper = w.helper := by cases sl <;> rfl
@[simp] theorem wUpdSlice_tags (w : Wave) (sl : Slice) (f : SliceSt → SliceSt) : (w.updSlice sl f).tags = w.tags := by cases sl <;> rfl
@[simp] theorem wUpdSlice_qbound (w : Wave) (sl : Slice) (f : SliceSt → SliceSt) : (w.updSlice sl f).qbound = w.qbound := by cases sl <;> rfl
@[simp] theorem wUpdSlice_qwaits (w : Wave) (sl : Slice) (f : SliceSt → SliceSt) : (w.updSlice sl f).qwaits = w.qwaits := by cases sl <;> rfl
@[simp] theorem wUpdSlice_ended (w : Wave) (sl : Slice) (f : SliceSt → SliceSt) : (w.updSlice sl f).ended = w.ended := by cases sl <;> rfl
@[simp] theorem setS_id (w : Wave) (k : Nat) (x : Word) : (w.setS k x).id = w.id := rfl
@[simp] theorem setS_wslot (w : Wave) (k : Nat) (x : Word) : (w.setS k x).wslot = w.wslot := rfl
@[simp] theorem setS_role (w : Wave) (k : Nat) (x : Word) : (w.setS k x).role = w.role := rfl
@[simp] theorem setS_allot (w : Wave) (k : Nat) (x : Word) : (w.setS k x).allot = w.allot := rfl
@[simp] theorem setS_budget (w : Wave) (k : Nat) (x : Word) : (w.setS k x).budget = w.budget := rfl
@[simp] theorem setS_active (w : Wave) (k : Nat) (x : Word) : (w.setS k x).active = w.active := rfl
@[simp] theorem setS_unblocked (w : Wave) (k : Nat) (x : Word) : (w.setS k x).unblocked = w.unblocked := rfl
@[simp] theorem setS_v (w : Wave) (k : Nat) (x : Word) : (w.setS k x).v = w.v := rfl
@[simp] theorem setS_o (w : Wave) (k : Nat) (x : Word) : (w.setS k x).o = w.o := rfl
@[simp] theorem setS_a (w : Wave) (k : Nat) (x : Word) : (w.setS k x).a = w.a := rfl
@[simp] theorem setS_x (w : Wave) (k : Nat) (x : Word) : (w.setS k x).x = w.x := rfl
@[simp] theorem setS_run (w : Wave) (k : Nat) (x : Word) : (w.setS k x).run = w.run := rfl
@[simp] theorem setS_yielding (w : Wave) (k : Nat) (x : Word) : (w.setS k x).yielding = w.yielding := rfl
@[simp] theorem setS_queues (w : Wave) (k : Nat) (x : Word) : (w.setS k x).queues = w.queues := rfl
@[simp] theorem setS_recs (w : Wave) (k : Nat) (x : Word) : (w.setS k x).recs = w.recs := rfl
@[simp] theorem setS_tiles (w : Wave) (k : Nat) (x : Word) : (w.setS k x).tiles = w.tiles := rfl
@[simp] theorem setS_latchA (w : Wave) (k : Nat) (x : Word) : (w.setS k x).latchA = w.latchA := rfl
@[simp] theorem setS_latchB (w : Wave) (k : Nat) (x : Word) : (w.setS k x).latchB = w.latchB := rfl
@[simp] theorem setS_cards (w : Wave) (k : Nat) (x : Word) : (w.setS k x).cards = w.cards := rfl
@[simp] theorem setS_copyTag (w : Wave) (k : Nat) (x : Word) : (w.setS k x).copyTag = w.copyTag := rfl
@[simp] theorem setS_copyStatus (w : Wave) (k : Nat) (x : Word) : (w.setS k x).copyStatus = w.copyStatus := rfl
@[simp] theorem setS_pmc (w : Wave) (k : Nat) (x : Word) : (w.setS k x).pmc = w.pmc := rfl
@[simp] theorem setS_window (w : Wave) (k : Nat) (x : Word) : (w.setS k x).window = w.window := rfl
@[simp] theorem setS_contribs (w : Wave) (k : Nat) (x : Word) : (w.setS k x).contribs = w.contribs := rfl
@[simp] theorem setS_ringArrivals (w : Wave) (k : Nat) (x : Word) : (w.setS k x).ringArrivals = w.ringArrivals := rfl
@[simp] theorem setS_gridA (w : Wave) (k : Nat) (x : Word) : (w.setS k x).gridA = w.gridA := rfl
@[simp] theorem setS_gridX (w : Wave) (k : Nat) (x : Word) : (w.setS k x).gridX = w.gridX := rfl
@[simp] theorem setS_gridPending (w : Wave) (k : Nat) (x : Word) : (w.setS k x).gridPending = w.gridPending := rfl
@[simp] theorem setS_gridArrived (w : Wave) (k : Nat) (x : Word) : (w.setS k x).gridArrived = w.gridArrived := rfl
@[simp] theorem setS_helper (w : Wave) (k : Nat) (x : Word) : (w.setS k x).helper = w.helper := rfl
@[simp] theorem setS_tags (w : Wave) (k : Nat) (x : Word) : (w.setS k x).tags = w.tags := rfl
@[simp] theorem setS_qbound (w : Wave) (k : Nat) (x : Word) : (w.setS k x).qbound = w.qbound := rfl
@[simp] theorem setS_qwaits (w : Wave) (k : Nat) (x : Word) : (w.setS k x).qwaits = w.qwaits := rfl
@[simp] theorem setS_ended (w : Wave) (k : Nat) (x : Word) : (w.setS k x).ended = w.ended := rfl
@[simp] theorem setQueue_id (w : Wave) (k : Nat) (q : Option Queue) : (w.setQueue k q).id = w.id := rfl
@[simp] theorem setQueue_wslot (w : Wave) (k : Nat) (q : Option Queue) : (w.setQueue k q).wslot = w.wslot := rfl
@[simp] theorem setQueue_role (w : Wave) (k : Nat) (q : Option Queue) : (w.setQueue k q).role = w.role := rfl
@[simp] theorem setQueue_allot (w : Wave) (k : Nat) (q : Option Queue) : (w.setQueue k q).allot = w.allot := rfl
@[simp] theorem setQueue_budget (w : Wave) (k : Nat) (q : Option Queue) : (w.setQueue k q).budget = w.budget := rfl
@[simp] theorem setQueue_active (w : Wave) (k : Nat) (q : Option Queue) : (w.setQueue k q).active = w.active := rfl
@[simp] theorem setQueue_unblocked (w : Wave) (k : Nat) (q : Option Queue) : (w.setQueue k q).unblocked = w.unblocked := rfl
@[simp] theorem setQueue_v (w : Wave) (k : Nat) (q : Option Queue) : (w.setQueue k q).v = w.v := rfl
@[simp] theorem setQueue_o (w : Wave) (k : Nat) (q : Option Queue) : (w.setQueue k q).o = w.o := rfl
@[simp] theorem setQueue_s (w : Wave) (k : Nat) (q : Option Queue) : (w.setQueue k q).s = w.s := rfl
@[simp] theorem setQueue_a (w : Wave) (k : Nat) (q : Option Queue) : (w.setQueue k q).a = w.a := rfl
@[simp] theorem setQueue_x (w : Wave) (k : Nat) (q : Option Queue) : (w.setQueue k q).x = w.x := rfl
@[simp] theorem setQueue_run (w : Wave) (k : Nat) (q : Option Queue) : (w.setQueue k q).run = w.run := rfl
@[simp] theorem setQueue_yielding (w : Wave) (k : Nat) (q : Option Queue) : (w.setQueue k q).yielding = w.yielding := rfl
@[simp] theorem setQueue_recs (w : Wave) (k : Nat) (q : Option Queue) : (w.setQueue k q).recs = w.recs := rfl
@[simp] theorem setQueue_tiles (w : Wave) (k : Nat) (q : Option Queue) : (w.setQueue k q).tiles = w.tiles := rfl
@[simp] theorem setQueue_latchA (w : Wave) (k : Nat) (q : Option Queue) : (w.setQueue k q).latchA = w.latchA := rfl
@[simp] theorem setQueue_latchB (w : Wave) (k : Nat) (q : Option Queue) : (w.setQueue k q).latchB = w.latchB := rfl
@[simp] theorem setQueue_cards (w : Wave) (k : Nat) (q : Option Queue) : (w.setQueue k q).cards = w.cards := rfl
@[simp] theorem setQueue_copyTag (w : Wave) (k : Nat) (q : Option Queue) : (w.setQueue k q).copyTag = w.copyTag := rfl
@[simp] theorem setQueue_copyStatus (w : Wave) (k : Nat) (q : Option Queue) : (w.setQueue k q).copyStatus = w.copyStatus := rfl
@[simp] theorem setQueue_pmc (w : Wave) (k : Nat) (q : Option Queue) : (w.setQueue k q).pmc = w.pmc := rfl
@[simp] theorem setQueue_window (w : Wave) (k : Nat) (q : Option Queue) : (w.setQueue k q).window = w.window := rfl
@[simp] theorem setQueue_contribs (w : Wave) (k : Nat) (q : Option Queue) : (w.setQueue k q).contribs = w.contribs := rfl
@[simp] theorem setQueue_ringArrivals (w : Wave) (k : Nat) (q : Option Queue) : (w.setQueue k q).ringArrivals = w.ringArrivals := rfl
@[simp] theorem setQueue_gridA (w : Wave) (k : Nat) (q : Option Queue) : (w.setQueue k q).gridA = w.gridA := rfl
@[simp] theorem setQueue_gridX (w : Wave) (k : Nat) (q : Option Queue) : (w.setQueue k q).gridX = w.gridX := rfl
@[simp] theorem setQueue_gridPending (w : Wave) (k : Nat) (q : Option Queue) : (w.setQueue k q).gridPending = w.gridPending := rfl
@[simp] theorem setQueue_gridArrived (w : Wave) (k : Nat) (q : Option Queue) : (w.setQueue k q).gridArrived = w.gridArrived := rfl
@[simp] theorem setQueue_helper (w : Wave) (k : Nat) (q : Option Queue) : (w.setQueue k q).helper = w.helper := rfl
@[simp] theorem setQueue_tags (w : Wave) (k : Nat) (q : Option Queue) : (w.setQueue k q).tags = w.tags := rfl
@[simp] theorem setQueue_qbound (w : Wave) (k : Nat) (q : Option Queue) : (w.setQueue k q).qbound = w.qbound := rfl
@[simp] theorem setQueue_qwaits (w : Wave) (k : Nat) (q : Option Queue) : (w.setQueue k q).qwaits = w.qwaits := rfl
@[simp] theorem setQueue_ended (w : Wave) (k : Nat) (q : Option Queue) : (w.setQueue k q).ended = w.ended := rfl

/-! A slice. -/

@[simp] theorem setMask_gf (t : SliceSt) (k : Nat) (x : Word) : (t.setMask k x).gf = t.gf := rfl
@[simp] theorem setMask_loops (t : SliceSt) (k : Nat) (x : Word) : (t.setMask k x).loops = t.loops := rfl
@[simp] theorem setMask_threads (t : SliceSt) (k : Nat) (x : Word) : (t.setMask k x).threads = t.threads := rfl
@[simp] theorem setMask_fbuf (t : SliceSt) (k : Nat) (x : Word) : (t.setMask k x).fbuf = t.fbuf := rfl
@[simp] theorem updThread_m (t : SliceSt) (i : Nat) (f : Thread → Thread) : (t.updThread i f).m = t.m := rfl
@[simp] theorem updThread_mgen (t : SliceSt) (i : Nat) (f : Thread → Thread) : (t.updThread i f).mgen = t.mgen := rfl
@[simp] theorem updThread_gf (t : SliceSt) (i : Nat) (f : Thread → Thread) : (t.updThread i f).gf = t.gf := rfl
@[simp] theorem updThread_loops (t : SliceSt) (i : Nat) (f : Thread → Thread) : (t.updThread i f).loops = t.loops := rfl
@[simp] theorem updThread_fbuf (t : SliceSt) (i : Nat) (f : Thread → Thread) : (t.updThread i f).fbuf = t.fbuf := rfl
@[simp] theorem updLanes_m (t : SliceSt) (m : Lanes) (f : Nat → Thread → Thread) : (t.updLanes m f).m = t.m := rfl
@[simp] theorem updLanes_mgen (t : SliceSt) (m : Lanes) (f : Nat → Thread → Thread) : (t.updLanes m f).mgen = t.mgen := rfl
@[simp] theorem updLanes_gf (t : SliceSt) (m : Lanes) (f : Nat → Thread → Thread) : (t.updLanes m f).gf = t.gf := rfl
@[simp] theorem updLanes_loops (t : SliceSt) (m : Lanes) (f : Nat → Thread → Thread) : (t.updLanes m f).loops = t.loops := rfl
@[simp] theorem updLanes_fbuf (t : SliceSt) (m : Lanes) (f : Nat → Thread → Thread) : (t.updLanes m f).fbuf = t.fbuf := rfl
@[simp] theorem updLoop_m (t : SliceSt) (k : Nat) (f : Loop → Loop) : (t.updLoop k f).m = t.m := rfl
@[simp] theorem updLoop_mgen (t : SliceSt) (k : Nat) (f : Loop → Loop) : (t.updLoop k f).mgen = t.mgen := rfl
@[simp] theorem updLoop_gf (t : SliceSt) (k : Nat) (f : Loop → Loop) : (t.updLoop k f).gf = t.gf := rfl
@[simp] theorem updLoop_threads (t : SliceSt) (k : Nat) (f : Loop → Loop) : (t.updLoop k f).threads = t.threads := rfl
@[simp] theorem updLoop_fbuf (t : SliceSt) (k : Nat) (f : Loop → Loop) : (t.updLoop k f).fbuf = t.fbuf := rfl
@[simp] theorem sArrive_m (b : Bool) (t : SliceSt) (i : Nat) (pc : Word) : (t.arrive b i pc).m = t.m := rfl
@[simp] theorem sArrive_mgen (b : Bool) (t : SliceSt) (i : Nat) (pc : Word) : (t.arrive b i pc).mgen = t.mgen := rfl
@[simp] theorem sArrive_gf (b : Bool) (t : SliceSt) (i : Nat) (pc : Word) : (t.arrive b i pc).gf = t.gf := rfl
@[simp] theorem sArrive_loops (b : Bool) (t : SliceSt) (i : Nat) (pc : Word) : (t.arrive b i pc).loops = t.loops := rfl
@[simp] theorem sArrive_fbuf (b : Bool) (t : SliceSt) (i : Nat) (pc : Word) : (t.arrive b i pc).fbuf = t.fbuf := rfl

end Sys2Proof.Machine
end

