-- ==== Sys2Proof/Laws/Lookup.lean ====
section
/-!
SUPPORT. What reading a part of the state gives after an update: workgroups, waves, slices, threads, elements of lists.
-/
namespace Sys2Proof.Machine

open Sys2Proof

/-! Lists. -/

theorem find?_map_upd {α : Type} (p : α → Bool) (f : α → α) (h : ∀ x, p (f x) = p x) (l : List α) :
    (l.map f).find? p = (l.find? p).map f := by
  induction l with
  | nil => rfl
  | cons x xs ih => by_cases hx : p x <;> simp [h, hx, ih]

@[simp] theorem length_updAt {α : Type} (f : α → α) (l : List α) (k : Nat) : (updAt f l k).length = l.length := by
  induction l generalizing k with
  | nil => rfl
  | cons x xs ih => cases k <;> simp [updAt, ih]

theorem getElem?_updAt {α : Type} (f : α → α) (l : List α) (k j : Nat) :
    (updAt f l k)[j]? = if k = j then (l[j]?).map f else l[j]? := by
  induction l generalizing k j with
  | nil => simp [updAt]
  | cons x xs ih => cases k <;> cases j <;> simp [updAt, ih]

@[simp] theorem getElem?_updAt_self {α : Type} (f : α → α) (l : List α) (k : Nat) :
    (updAt f l k)[k]? = (l[k]?).map f := by simp [getElem?_updAt]

theorem getElem?_updAt_ne {α : Type} (f : α → α) (l : List α) {k j : Nat} (h : k ≠ j) :
    (updAt f l k)[j]? = l[j]? := by simp [getElem?_updAt, h]

/-! Workgroups and waves. -/

/-- A change of a workgroup that keeps its name. -/
theorem wg_updWg (s : State) (k j : Nat) (f : Workgroup → Workgroup) (hf : ∀ g, (f g).id = g.id) :
    (s.updWg k f).wg j = if j = k then (s.wg j).map f else s.wg j := by
  unfold State.updWg State.wg
  rw [find?_map_upd]
  · cases hfind : s.wgs.find? fun g => g.id == j with
    | none => simp
    | some g =>
      have hg : g.id = j := by simpa using List.find?_some hfind
      by_cases hk : j = k <;> simp [hg, hk]
  · intro g
    by_cases hg : g.id = k <;> simp [hg, hf]

theorem wg_updWg_self {s : State} {k : Nat} {f : Workgroup → Workgroup} {g : Workgroup} (hf : ∀ g, (f g).id = g.id)
    (h : s.wg k = some g) : (s.updWg k f).wg k = some (f g) := by simp [wg_updWg s k k f hf, h]

theorem wg_updWg_ne (s : State) {k j : Nat} (f : Workgroup → Workgroup) (hf : ∀ g, (f g).id = g.id) (h : j ≠ k) :
    (s.updWg k f).wg j = s.wg j := by simp [wg_updWg s k j f hf, h]

/-- A change of a wave that keeps its name. -/
theorem wave_updWaveG (g : Workgroup) (k j : Nat) (f : Wave → Wave) (hf : ∀ w, (f w).id = w.id) :
    (g.updWave k f).wave j = if j = k then (g.wave j).map f else g.wave j := by
  unfold Workgroup.updWave Workgroup.wave
  rw [find?_map_upd]
  · cases hfind : g.waves.find? fun w => w.id == j with
    | none => simp
    | some w =>
      have hw : w.id = j := by simpa using List.find?_some hfind
      by_cases hk : j = k <;> simp [hw, hk]
  · intro w
    by_cases hw : w.id = k <;> simp [hw, hf]

theorem wg_updWave (s : State) (r : WaveRef) (j : Nat) (f : Wave → Wave) :
    (s.updWave r f).wg j = if j = r.wg then (s.wg j).map fun g => g.updWave r.wave f else s.wg j :=
  wg_updWg s r.wg j _ fun _ => rfl

theorem wg_updWave_self {s : State} {r : WaveRef} {f : Wave → Wave} {g : Workgroup} (h : s.wg r.wg = some g) :
    (s.updWave r f).wg r.wg = some (g.updWave r.wave f) := by simp [wg_updWave, h]

theorem wg_updWave_ne (s : State) {r : WaveRef} {j : Nat} (f : Wave → Wave) (h : j ≠ r.wg) :
    (s.updWave r f).wg j = s.wg j := by simp [wg_updWave, h]

theorem wave_updWave (s : State) (r q : WaveRef) (f : Wave → Wave) (hf : ∀ w, (f w).id = w.id) :
    (s.updWave r f).wave q = if q = r then (s.wave q).map f else s.wave q := by
  unfold State.wave
  rw [wg_updWave]
  by_cases hg : q.wg = r.wg
  · rw [if_pos hg]
    cases hs : s.wg q.wg with
    | none => simp
    | some g =>
      simp only [Option.map_some, Option.bind_some, wave_updWaveG g r.wave q.wave f hf]
      by_cases hw : q.wave = r.wave
      · rw [if_pos hw, if_pos (by cases q; cases r; simp_all)]
      · rw [if_neg hw, if_neg (by rintro rfl; exact hw rfl)]
  · rw [if_neg hg, if_neg (by rintro rfl; exact hg rfl)]

/-- Two changes of one wave are one change. -/
theorem updWave_updWave (s : State) (r : WaveRef) (f h : Wave → Wave) (hf : ∀ w, (f w).id = w.id) :
    (s.updWave r f).updWave r h = s.updWave r fun w => h (f w) := by
  simp only [State.updWave, State.updWg, Workgroup.updWave, List.map_map]
  congr 1
  apply List.map_congr_left
  intro g _
  by_cases hg : g.id = r.wg
  · simp only [Function.comp_apply, hg, beq_self_eq_true, ↓reduceIte, List.map_map]
    congr 1
    apply List.map_congr_left
    intro w _
    by_cases hw : w.id = r.wave <;> simp [hw, hf]
  · simp [hg]

/-! Slices and masks. -/

@[simp] theorem slice_setSlice_self (w : Wave) (sl : Slice) (t : SliceSt) : (w.setSlice sl t).slice sl = t := by
  cases sl <;> rfl
@[simp] theorem slice_updSlice_self (w : Wave) (sl : Slice) (f : SliceSt → SliceSt) :
    (w.updSlice sl f).slice sl = f (w.slice sl) := by cases sl <;> rfl
theorem slice_updSlice_other (w : Wave) {sl tl : Slice} (f : SliceSt → SliceSt) (h : tl ≠ sl) :
    (w.updSlice sl f).slice tl = w.slice tl := by cases sl <;> cases tl <;> first | rfl | exact absurd rfl h
@[simp] theorem updSlice_updSlice (w : Wave) (sl : Slice) (f h : SliceSt → SliceSt) :
    (w.updSlice sl f).updSlice sl h = w.updSlice sl fun t => h (f t) := by cases sl <;> rfl

theorem mask_setMask (t : SliceSt) (k j : Nat) (x : Word) :
    (t.setMask k x).mask j = if k = j ∧ j < t.m.length then x else t.mask j := by
  simp only [SliceSt.setMask, SliceSt.mask, getElem?_updAt]
  by_cases hk : k = j
  · subst hk
    by_cases hl : k < t.m.length <;> simp [hl]
  · simp [hk]

/-! Threads. -/

theorem thread_updThread (t : SliceSt) (i j : Nat) (f : Thread → Thread) :
    (t.updThread i f).thread j = if i = j ∧ j < t.threads.length then f (t.thread j) else t.thread j := by
  simp only [SliceSt.updThread, SliceSt.thread, getElem?_updAt]
  by_cases hi : i = j
  · subst hi
    by_cases hl : i < t.threads.length <;> simp [hl]
  · simp [hi]

theorem pc_arrive (b : Bool) (t : SliceSt) (i j : Nat) (pc : Word) :
    ((t.arrive b i pc).thread j).pc = if i = j ∧ j < t.threads.length then pc else (t.thread j).pc := by
  unfold SliceSt.arrive
  rw [thread_updThread]
  split <;> rfl

@[simp] theorem length_threads_arrive (b : Bool) (t : SliceSt) (i : Nat) (pc : Word) :
    (t.arrive b i pc).threads.length = t.threads.length := by simp [SliceSt.arrive, SliceSt.updThread]

end Sys2Proof.Machine
end

