-- ==== Sys2Proof/Laws/Registers.lean ====
section
/-!
SUPPORT. Register files, scratch and the writes of a lane's or a group's destination, read back.
-/
namespace Sys2Proof.Machine

open Sys2Proof

theorem find?_setPair {α : Type} (k j : Nat) (x : α) (l : List (Nat × α)) :
    (setPair k x l).find? (fun p => p.1 == j) = if j = k then some (k, x) else l.find? fun p => p.1 == j := by
  induction l with
  | nil =>
    by_cases h : j = k
    · simp [setPair, h]
    · simp [setPair, h, Ne.symm h]
  | cons p ps ih =>
    simp only [setPair]
    by_cases h1 : p.1 < k
    · rw [if_pos h1, List.find?_cons, ih]
      by_cases hj : j = k
      · have : (p.1 == k) = false := by simp; omega
        simp [this, hj]
      · simp [hj, List.find?_cons]
    · rw [if_neg h1]
      by_cases h2 : p.1 = k
      · by_cases hj : j = k
        · simp [h2, hj]
        · have : ¬ k = j := fun h => hj h.symm
          simp [h2, hj, this]
      · by_cases hj : j = k
        · simp [h2, hj]
        · have : ¬ k = j := fun h => hj h.symm
          simp [h2, hj, List.find?_cons, this]

theorem row_setRow (f : RegFile) (n k j : Nat) (ws : List Word) :
    (f.setRow k ws).row n j = if j = k then ws else f.row n j := by
  unfold RegFile.row RegFile.setRow
  simp only [find?_setPair]
  by_cases h : j = k <;> simp [h]

@[simp] theorem row_setRow_self (f : RegFile) (n k : Nat) (ws : List Word) : (f.setRow k ws).row n k = ws := by
  simp [row_setRow]
theorem row_setRow_ne (f : RegFile) (n : Nat) {k j : Nat} (ws : List Word) (h : j ≠ k) :
    (f.setRow k ws).row n j = f.row n j := by simp [row_setRow, h]

theorem get_set (f : RegFile) (k j : Nat) (x : Word) : (f.set k x).get j = if j = k then x else f.get j := by
  unfold RegFile.get RegFile.set
  rw [row_setRow]
  by_cases h : j = k <;> simp [h]

theorem byteGet_set (f : ByteFile) (a j : Nat) (b : Byte) : (f.set a b).get j = if j = a then b else f.get j := by
  unfold ByteFile.get ByteFile.set
  simp only [find?_setPair]
  by_cases h : j = a <;> simp [h]

theorem byteGet_write (f : ByteFile) (a j : Nat) (bs : List Byte) :
    (f.write a bs).get j = if a ≤ j ∧ j < a + bs.length then (bs[j - a]?).getD 0#8 else f.get j := by
  induction bs generalizing f a with
  | nil => simp [ByteFile.write] <;> omega
  | cons b bs ih =>
    simp only [ByteFile.write, ih, byteGet_set, List.length_cons]
    by_cases hj : j = a
    · subst hj
      rw [if_neg (by omega), if_pos rfl, if_pos (by omega)]
      simp
    · rw [if_neg hj]
      by_cases h1 : a + 1 ≤ j ∧ j < a + 1 + bs.length
      · have : j - a = (j - (a + 1)) + 1 := by omega
        rw [if_pos h1, if_pos (by omega), this, List.getElem?_cons_succ]
      · rw [if_neg h1, if_neg (by omega)]

/-! Rows of a wave. -/

theorem laneAt_mergeLanes (em : Lanes) (old : List Word) (g : Nat → Word) (i : Nat) (hi : i < 32) :
    laneAt (mergeLanes em old g) i = if em.getLsbD i then g i else laneAt old i := by
  have : (List.range 32)[i]? = some i := by simp [hi]
  simp [laneAt, mergeLanes, laneList, waveWidth, this]

theorem sreg_setS (w : Wave) (k j : Nat) (x : Word) : (w.setS k x).sreg j = if j = k then x else w.sreg j :=
  get_set w.s k j x

@[simp] theorem sreg_updSlice (w : Wave) (sl : Slice) (f : SliceSt → SliceSt) (j : Nat) :
    (w.updSlice sl f).sreg j = w.sreg j := by simp [Wave.sreg]
@[simp] theorem vrow_updSlice (w : Wave) (sl : Slice) (f : SliceSt → SliceSt) (j : Nat) :
    (w.updSlice sl f).vrow j = w.vrow j := by simp [Wave.vrow]
@[simp] theorem orow_updSlice (w : Wave) (sl : Slice) (f : SliceSt → SliceSt) (j : Nat) :
    (w.updSlice sl f).orow j = w.orow j := by simp [Wave.orow]
@[simp] theorem queue_updSlice (w : Wave) (sl : Slice) (f : SliceSt → SliceSt) (j : Nat) :
    (w.updSlice sl f).queue j = w.queue j := by simp [Wave.queue]
@[simp] theorem vrow_setS (w : Wave) (k j : Nat) (x : Word) : (w.setS k x).vrow j = w.vrow j := rfl
@[simp] theorem orow_setS (w : Wave) (k j : Nat) (x : Word) : (w.setS k x).orow j = w.orow j := rfl
@[simp] theorem queue_setS (w : Wave) (k j : Nat) (x : Word) : (w.setS k x).queue j = w.queue j := rfl
@[simp] theorem slice_setS (w : Wave) (k : Nat) (sl : Slice) (x : Word) : (w.setS k x).slice sl = w.slice sl := by
  cases sl <;> rfl

theorem queue_setQueue (w : Wave) (k j : Nat) (q : Option Queue) :
    (w.setQueue k q).queue j = if k = j ∧ j < w.queues.length then q else w.queue j := by
  simp only [Wave.queue, Wave.setQueue, getElem?_updAt]
  by_cases hk : k = j
  · subst hk
    by_cases hl : k < w.queues.length <;> simp [hl]
  · simp [hk]

/-- A row written for the lanes of `EM`, read back in a `v` row (R124). -/
theorem vlane_writeRow (em : Lanes) (code : BitVec 8) (k : Nat) (g : Nat → Word) (w : Wave) (r i : Nat) (hi : i < 32) :
    laneAt ((writeRow em code k g w).vrow r) i =
      if Form.isV code ∧ r = code.toNat + k ∧ em.getLsbD i then g i else laneAt (w.vrow r) i := by
  unfold writeRow
  by_cases hv : Form.isV code
  · simp only [hv, ↓reduceIte, Wave.vrow, row_setRow]
    by_cases hr : r = code.toNat + k
    · simp [hr, laneAt_mergeLanes _ _ _ _ hi]
    · simp [hr]
  · by_cases ho : Form.isO code <;> simp [hv, ho, Wave.vrow]

/-- A row written for the lanes of `EM`, read back in an `o` row (R124). -/
theorem olane_writeRow (em : Lanes) (code : BitVec 8) (k : Nat) (g : Nat → Word) (w : Wave) (r i : Nat) (hi : i < 32) :
    laneAt ((writeRow em code k g w).orow r) i =
      if Form.isV code = false ∧ Form.isO code ∧ r = Form.oIndex code + k ∧ em.getLsbD i then g i
      else laneAt (w.orow r) i := by
  unfold writeRow
  by_cases hv : Form.isV code
  · simp [hv, Wave.orow]
  · by_cases ho : Form.isO code
    · rw [if_neg hv, if_pos ho]
      simp only [Wave.orow, row_setRow]
      by_cases hr : r = Form.oIndex code + k
      · simp [hv, ho, hr, laneAt_mergeLanes _ _ _ _ hi]
      · simp [hr]
    · simp [hv, ho]

end Sys2Proof.Machine
end

