-- ==== Sys2Proof/Laws/Queues.lean ====
section
/-!
SUPPORT. What a pop and a push do to a wave's queues, and what they leave alone.
-/
namespace Sys2Proof.Machine

open Sys2Proof Sys2Proof.Safety

/-! The codes. -/

theorem isV_not_isQ {c : BitVec 8} (h : Form.isV c = true) : Form.isQ c = false := by
  unfold Form.isV at h
  unfold Form.isQ
  simp at h ⊢
  omega

theorem isO_not_isQ {c : BitVec 8} (h : Form.isO c = true) : Form.isQ c = false := by
  unfold Form.isO at h
  unfold Form.isQ
  simp at h ⊢
  omega

theorem isV_not_isO {c : BitVec 8} (h : Form.isV c = true) : Form.isO c = false := by
  unfold Form.isV at h
  unfold Form.isO
  simp at h ⊢
  omega

/-! Batches. -/

theorem take_only (i : Nat) (w : Wave) (e : QEntry) :
    ∃ h ts, Wave.take i w e = { w with helper := h, tags := ts } := by
  cases e <;> exact ⟨_, _, rfl⟩

theorem foldl_take_only (i : Nat) (es : List QEntry) (w : Wave) :
    ∃ h ts, es.foldl (Wave.take i) w = { w with helper := h, tags := ts } := by
  induction es generalizing w with
  | nil => exact ⟨_, _, rfl⟩
  | cons e es ih =>
    obtain ⟨h, ts, he⟩ := take_only i w e
    obtain ⟨h', ts', he'⟩ := ih { w with helper := h, tags := ts }
    exact ⟨h', ts', by rw [List.foldl_cons, he, he']⟩

theorem takeBatches_only (em : Lanes) (cols : List (List QEntry)) (n : Nat) (w : Wave) :
    ∃ h ts, takeBatches em cols n w = { w with helper := h, tags := ts } := by
  unfold takeBatches
  generalize lanesOf em = ls
  induction ls generalizing w with
  | nil => exact ⟨_, _, rfl⟩
  | cons l ls ih =>
    obtain ⟨h, ts, he⟩ := foldl_take_only l (((cols[l]?).getD []).take n) w
    obtain ⟨h', ts', he'⟩ := ih { w with helper := h, tags := ts }
    exact ⟨h', ts', by rw [List.foldl_cons, he, he']⟩

@[simp] theorem queue_takeBatches (em : Lanes) (cols : List (List QEntry)) (n : Nat) (w : Wave) (k : Nat) :
    (takeBatches em cols n w).queue k = w.queue k := by
  obtain ⟨h, ts, e⟩ := takeBatches_only em cols n w
  rw [e]; rfl

/-! Pops. -/

/-- A queue after `n` slots have left each column of a lane set. -/
def Queue.dropped (em : Lanes) (n : Nat) (q : Queue) : Queue :=
  { q with cols := laneList.map fun i => if em.getLsbD i then (q.col i).drop n else q.col i }

theorem col_map (q : Queue) (f : Nat → List QEntry) {i : Nat} (hi : i < 32) :
    ({ q with cols := laneList.map f } : Queue).col i = f i := by
  have : (List.range 32)[i]? = some i := by simp [hi]
  simp [Queue.col, laneList, waveWidth, this]

theorem col_dropped (em : Lanes) (n : Nat) (q : Queue) {i : Nat} (hi : i < 32) :
    (q.dropped em n).col i = if em.getLsbD i then (q.col i).drop n else q.col i := col_map q _ hi

/-- One span popped. -/
def popSpan (em : Lanes) (w : Wave) (p : Nat × Nat × Nat) : Wave :=
  match w.queue p.1 with
  | none => w
  | some q => takeBatches em q.cols p.2.2 (w.setQueue p.1 (some (q.dropped em p.2.2)))

theorem popAll_eq_foldl (em : Lanes) (us : List Use) (w : Wave) :
    popAll em us w = (popSpans us).foldl (popSpan em) w := by
  unfold popAll
  congr 1

theorem popSpan_only (em : Lanes) (w : Wave) (p : Nat × Nat × Nat) :
    ∃ qs h ts, popSpan em w p = { w with queues := qs, helper := h, tags := ts } := by
  unfold popSpan
  split
  · exact ⟨_, _, _, rfl⟩
  · rename_i q _
    obtain ⟨h, ts, e⟩ := takeBatches_only em q.cols p.2.2 (w.setQueue p.1 (some (q.dropped em p.2.2)))
    exact ⟨_, h, ts, by rw [e]; rfl⟩

/-- A pop changes nothing of a wave but its queues, and what a raster batch gives the lanes that take it. -/
theorem popAll_only (em : Lanes) (us : List Use) (w : Wave) :
    ∃ qs h ts, popAll em us w = { w with queues := qs, helper := h, tags := ts } := by
  rw [popAll_eq_foldl]
  generalize popSpans us = ps
  induction ps generalizing w with
  | nil => exact ⟨_, _, _, rfl⟩
  | cons p ps ih =>
    obtain ⟨qs, h, ts, e⟩ := popSpan_only em w p
    obtain ⟨qs', h', ts', e'⟩ := ih { w with queues := qs, helper := h, tags := ts }
    exact ⟨qs', h', ts', by rw [List.foldl_cons, e, e']⟩

theorem queue_lt {w : Wave} {k : Nat} {q : Queue} (h : w.queue k = some q) : k < w.queues.length := by
  unfold Wave.queue at h
  rcases Nat.lt_or_ge k w.queues.length with hk | hk
  · exact hk
  · simp [List.getElem?_eq_none hk] at h

theorem queue_popSpan (em : Lanes) (w : Wave) (p : Nat × Nat × Nat) (k : Nat) :
    (popSpan em w p).queue k = if p.1 = k then (w.queue k).map (Queue.dropped em p.2.2) else w.queue k := by
  unfold popSpan
  cases hq : w.queue p.1 with
  | none =>
    by_cases hk : p.1 = k
    · simp [← hk, hq]
    · simp [hk]
  | some q =>
    simp only [queue_takeBatches, queue_setQueue]
    by_cases hk : p.1 = k
    · subst hk
      simp [hq, queue_lt hq]
    · simp [hk]

theorem popped_cons (p : Nat × Nat × Nat) (ps : List (Nat × Nat × Nat)) (k : Nat) :
    popped (p :: ps) k = if p.1 = k then p.2.2 + popped ps k else popped ps k := rfl

/-- The columns of a queue after the pops of an instruction. -/
theorem queue_popAll (em : Lanes) (us : List Use) (w : Wave) (k : Nat) :
    ((w.queue k = none → (popAll em us w).queue k = none) ∧
      ∀ q, w.queue k = some q → ∃ q', (popAll em us w).queue k = some q' ∧ q'.kind = q.kind ∧ q'.depth = q.depth ∧
        q'.attach = q.attach ∧ ∀ i, i < 32 →
          q'.col i = if em.getLsbD i then (q.col i).drop (popped (popSpans us) k) else q.col i) := by
  rw [popAll_eq_foldl]
  generalize popSpans us = ps
  induction ps generalizing w with
  | nil =>
    refine ⟨fun h => h, fun q h => ⟨q, h, rfl, rfl, rfl, fun i _ => ?_⟩⟩
    simp [popped]
  | cons p ps ih =>
    have step := queue_popSpan em w p k
    obtain ⟨h0, h1⟩ := ih (popSpan em w p)
    rw [List.foldl_cons]
    refine ⟨fun h => h0 (by rw [step, h]; simp), fun q h => ?_⟩
    by_cases hk : p.1 = k
    · obtain ⟨q', e, hkind, hdepth, hatt, hcol⟩ := h1 (q.dropped em p.2.2) (by rw [step, if_pos hk, h]; rfl)
      refine ⟨q', e, hkind, hdepth, hatt, fun i hi => ?_⟩
      rw [hcol i hi, col_dropped em _ q hi, popped_cons, if_pos hk]
      by_cases he : em.getLsbD i
      · rw [if_pos he, if_pos he, if_pos he, List.drop_drop]
      · rw [if_neg he, if_neg he, if_neg he]
    · obtain ⟨q', e, hkind, hdepth, hatt, hcol⟩ := h1 q (by rw [step, if_neg hk, h])
      refine ⟨q', e, hkind, hdepth, hatt, fun i hi => ?_⟩
      rw [hcol i hi, popped_cons, if_neg hk]

/-! Pushes and blocks. -/

theorem pushWords_only (em : Lanes) (q : Nat) (g : Nat → List Word) (w : Wave) :
    ∃ qs, pushWords em q g w = { w with queues := qs } := by
  unfold pushWords
  split <;> exact ⟨_, rfl⟩

/-- The columns of every queue after a push. -/
theorem queue_pushWords (em : Lanes) (q : Nat) (g : Nat → List Word) (w : Wave) (k : Nat) :
    (w.queue k = none → (pushWords em q g w).queue k = none) ∧
      ∀ u, w.queue k = some u → ∃ u', (pushWords em q g w).queue k = some u' ∧ u'.kind = u.kind ∧ u'.depth = u.depth ∧
        u'.attach = u.attach ∧ ∀ i, i < 32 →
          u'.col i = u.col i ++ if q = k ∧ em.getLsbD i ∧ pushes w u i then (g i).map QEntry.ready else [] := by
  unfold pushWords
  cases hq : w.queue q with
  | none =>
    refine ⟨fun h => h, fun u h => ⟨u, h, rfl, rfl, rfl, fun i _ => ?_⟩⟩
    have : q ≠ k := by rintro rfl; simp [hq] at h
    simp [this]
  | some v =>
    simp only [queue_setQueue]
    by_cases hk : q = k
    · subst hk
      refine ⟨fun h => by simp [hq] at h, fun u h => ?_⟩
      have huv : u = v := by rw [hq] at h; exact (Option.some.inj h).symm
      subst huv
      refine ⟨_, if_pos ⟨rfl, queue_lt h⟩, rfl, rfl, rfl, fun i hi => ?_⟩
      rw [col_map u _ hi]
      by_cases hp : em.getLsbD i = true ∧ pushes w u i = true
      · simp [hp.1, hp.2]
      · have h2 : (em.getLsbD i && pushes w u i) = false := by simpa using hp
        have h3 : ¬ (q = q ∧ em.getLsbD i = true ∧ pushes w u i = true) := fun h => hp h.2
        rw [h2, if_neg h3]
        simp
    · simp only [hk, false_and, if_false]
      refine ⟨fun h => h, fun u h => ⟨u, h, rfl, rfl, rfl, fun i _ => by simp⟩⟩

theorem writeRow_only (em : Lanes) (code : BitVec 8) (k : Nat) (g : Nat → Word) (w : Wave) :
    ∃ v o, writeRow em code k g w = { w with v := v, o := o } := by
  unfold writeRow
  split
  · exact ⟨_, _, rfl⟩
  · split <;> exact ⟨_, _, rfl⟩

theorem foldl_writeRow_only (em : Lanes) (code : BitVec 8) (g : Nat → Nat → Word) (ks : List Nat) (w : Wave) :
    ∃ v o, ks.foldl (fun w k => writeRow em code k (g k) w) w = { w with v := v, o := o } := by
  induction ks generalizing w with
  | nil => exact ⟨_, _, rfl⟩
  | cons k ks ih =>
    obtain ⟨v, o, e⟩ := writeRow_only em code k (g k) w
    obtain ⟨v', o', e'⟩ := ih { w with v := v, o := o }
    exact ⟨v', o', by rw [List.foldl_cons, e, e']⟩

/-- A block write changes nothing of a wave but its `v` and `o` files and its queues. -/
theorem writeBlock_only (em : Lanes) (code : BitVec 8) (n : Nat) (g : Nat → List Word) (w : Wave) :
    ∃ v o qs, writeBlock em code n g w = { w with v := v, o := o, queues := qs } := by
  unfold writeBlock
  split
  · obtain ⟨qs, e⟩ := pushWords_only em (Form.qIndex code) g w
    exact ⟨_, _, qs, e⟩
  · obtain ⟨v, o, e⟩ := foldl_writeRow_only em code (fun k i => laneAt (g i) k) (List.range n) w
    exact ⟨v, o, _, e⟩

theorem vlane_foldl_writeRow (em : Lanes) (code : BitVec 8) (g : Nat → Nat → Word) (n : Nat) (w : Wave) (r i : Nat)
    (hi : i < 32) :
    laneAt (((List.range n).foldl (fun w k => writeRow em code k (g k) w) w).vrow r) i =
      if Form.isV code ∧ code.toNat ≤ r ∧ r < code.toNat + n ∧ em.getLsbD i then g (r - code.toNat) i
      else laneAt (w.vrow r) i := by
  induction n with
  | zero => simp; omega
  | succ n ih =>
    rw [List.range_succ, List.foldl_append, List.foldl_cons, List.foldl_nil, vlane_writeRow _ _ _ _ _ _ _ hi, ih]
    by_cases h1 : Form.isV code = true ∧ r = code.toNat + n ∧ em.getLsbD i = true
    · rw [if_pos h1, if_pos ⟨h1.1, by omega, by omega, h1.2.2⟩]
      congr 1
      omega
    · rw [if_neg h1]
      by_cases h2 : Form.isV code = true ∧ code.toNat ≤ r ∧ r < code.toNat + n ∧ em.getLsbD i = true
      · rw [if_pos h2, if_pos ⟨h2.1, h2.2.1, by omega, h2.2.2.2⟩]
      · rw [if_neg h2, if_neg]
        rintro ⟨a, b, d, e⟩
        by_cases hr : r = code.toNat + n
        · exact h1 ⟨a, hr, e⟩
        · exact h2 ⟨a, b, by omega, e⟩

theorem olane_foldl_writeRow (em : Lanes) (code : BitVec 8) (g : Nat → Nat → Word) (n : Nat) (w : Wave) (r i : Nat)
    (hi : i < 32) :
    laneAt (((List.range n).foldl (fun w k => writeRow em code k (g k) w) w).orow r) i =
      if Form.isO code ∧ Form.oIndex code ≤ r ∧ r < Form.oIndex code + n ∧ em.getLsbD i then
        g (r - Form.oIndex code) i
      else laneAt (w.orow r) i := by
  induction n with
  | zero => simp; omega
  | succ n ih =>
    rw [List.range_succ, List.foldl_append, List.foldl_cons, List.foldl_nil, olane_writeRow _ _ _ _ _ _ _ hi, ih]
    by_cases h1 : Form.isO code = true ∧ r = Form.oIndex code + n ∧ em.getLsbD i = true
    · have hv : Form.isV code = false := by
        cases hv : Form.isV code
        · rfl
        · rw [isV_not_isO hv] at h1; simp at h1
      have hn : r - Form.oIndex code = n := by omega
      rw [if_pos ⟨hv, h1⟩, if_pos ⟨h1.1, by omega, by omega, h1.2.2⟩, hn]
    · rw [if_neg (fun h => h1 h.2)]
      by_cases h2 : Form.isO code = true ∧ Form.oIndex code ≤ r ∧ r < Form.oIndex code + n ∧ em.getLsbD i = true
      · rw [if_pos h2, if_pos ⟨h2.1, h2.2.1, by omega, h2.2.2.2⟩]
      · rw [if_neg h2, if_neg]
        rintro ⟨a, b, d, e⟩
        by_cases hr : r = Form.oIndex code + n
        · exact h1 ⟨a, hr, e⟩
        · exact h2 ⟨a, b, by omega, e⟩

/-- A block written to D, read back in a `v` row. -/
theorem vlane_writeBlock (em : Lanes) (code : BitVec 8) (n : Nat) (g : Nat → List Word) (w : Wave) (r i : Nat)
    (hi : i < 32) :
    laneAt ((writeBlock em code n g w).vrow r) i =
      if Form.isV code ∧ code.toNat ≤ r ∧ r < code.toNat + n ∧ em.getLsbD i then laneAt (g i) (r - code.toNat)
      else laneAt (w.vrow r) i := by
  unfold writeBlock
  by_cases hq : Form.isQ code
  · have hv : Form.isV code = false := by
      cases hv : Form.isV code
      · rfl
      · rw [isV_not_isQ hv] at hq; simp at hq
    obtain ⟨qs, e⟩ := pushWords_only em (Form.qIndex code) g w
    rw [if_pos hq, e]
    simp [hv, Wave.vrow]
  · rw [if_neg hq]
    exact vlane_foldl_writeRow em code (fun k i => laneAt (g i) k) n w r i hi

/-- A block written to D, read back in an `o` row. -/
theorem olane_writeBlock (em : Lanes) (code : BitVec 8) (n : Nat) (g : Nat → List Word) (w : Wave) (r i : Nat)
    (hi : i < 32) :
    laneAt ((writeBlock em code n g w).orow r) i =
      if Form.isO code ∧ Form.oIndex code ≤ r ∧ r < Form.oIndex code + n ∧ em.getLsbD i then
        laneAt (g i) (r - Form.oIndex code)
      else laneAt (w.orow r) i := by
  unfold writeBlock
  by_cases hq : Form.isQ code
  · have ho : Form.isO code = false := by
      cases ho : Form.isO code
      · rfl
      · rw [isO_not_isQ ho] at hq; simp at hq
    obtain ⟨qs, e⟩ := pushWords_only em (Form.qIndex code) g w
    rw [if_pos hq, e]
    simp [ho, Wave.orow]
  · rw [if_neg hq]
    exact olane_foldl_writeRow em code (fun k i => laneAt (g i) k) n w r i hi

/-- The queues after a block write. -/
theorem queue_writeBlock (em : Lanes) (code : BitVec 8) (n : Nat) (g : Nat → List Word) (w : Wave) (k : Nat) :
    (w.queue k = none → (writeBlock em code n g w).queue k = none) ∧
      ∀ u, w.queue k = some u → ∃ u', (writeBlock em code n g w).queue k = some u' ∧ u'.kind = u.kind ∧
        u'.depth = u.depth ∧ u'.attach = u.attach ∧ ∀ i, i < 32 →
          u'.col i = u.col i ++
            if Form.isQ code ∧ Form.qIndex code = k ∧ em.getLsbD i ∧ pushes w u i then (g i).map QEntry.ready else [] := by
  unfold writeBlock
  by_cases hq : Form.isQ code
  · rw [if_pos hq]
    simpa [hq] using queue_pushWords em (Form.qIndex code) g w k
  · obtain ⟨v, o, e⟩ := foldl_writeRow_only em code (fun k i => laneAt (g i) k) (List.range n) w
    rw [if_neg hq, e]
    refine ⟨fun h => h, fun u h => ⟨u, h, rfl, rfl, rfl, fun i _ => by simp [hq]⟩⟩

end Sys2Proof.Machine
end

