-- ==== Sys2Proof/Laws/Issue.lean ====
section
/-!
SUPPORT. What `issue` answers: the next state of an instruction that nothing keeps from its own effect, a cause, a wait;
and what the shared writes of a lane or group instruction leave.
-/
namespace Sys2Proof.Machine

open Sys2Proof Sys2Proof.Safety

/-! Advancing. -/

/-- The slice after the threads of a lane set have come to new counters changes in its threads alone. -/
theorem arriveAll_only (b : Bool) (t : SliceSt) (m : Lanes) (g : Nat → Word) :
    ∃ ts, t.arriveAll b m g = { t with threads := ts } := by
  unfold SliceSt.arriveAll
  generalize lanesOf m = ls
  induction ls generalizing t with
  | nil => exact ⟨_, rfl⟩
  | cons l ls ih =>
    obtain ⟨ts, e⟩ := ih (t.arrive b l (g l))
    exact ⟨ts, by rw [List.foldl_cons, e]; rfl⟩

/-- The lists of lanes. -/
theorem mem_lanesOf (m : Lanes) (i : Nat) : i ∈ lanesOf m ↔ i < 32 ∧ m.getLsbD i = true := by
  simp [lanesOf, laneList, waveWidth]

theorem lanesOf_nodup (m : Lanes) : (lanesOf m).Nodup := List.Nodup.sublist List.filter_sublist List.nodup_range

/-- The counters after the threads of a lane set have come to theirs. -/
theorem pc_foldl_arrive (b : Bool) (g : Nat → Word) (ls : List Nat) (t : SliceSt) (j : Nat)
    (hj : j < t.threads.length) :
    ((ls.foldl (fun t i => t.arrive b i (g i)) t).thread j).pc = if j ∈ ls then g j else (t.thread j).pc := by
  induction ls generalizing t with
  | nil => simp
  | cons l ls ih =>
    rw [List.foldl_cons, ih _ (by simpa using hj), pc_arrive]
    by_cases h : j ∈ ls
    · simp [h]
    · by_cases hl : l = j
      · simp [h, hl, hj]
      · have : ¬ j = l := fun e => hl e.symm
        simp [h, hl, this]

theorem pc_arriveAll (b : Bool) (t : SliceSt) (m : Lanes) (g : Nat → Word) (j : Nat) (hl : j < 32)
    (hj : j < t.threads.length) :
    ((t.arriveAll b m g).thread j).pc = if m.getLsbD j then g j else (t.thread j).pc := by
  unfold SliceSt.arriveAll
  rw [pc_foldl_arrive b g _ t j hj]
  by_cases h : m.getLsbD j = true <;> simp [mem_lanesOf, hl, h]

/-- The wave after the advance changes in the threads of its slice and the position of an open run alone. -/
theorem advanceWave_only (c : Ctx) (i : Instr) (w : Wave) :
    ∃ ts r, advanceWave c i w = { w.setSlice c.sl { w.slice c.sl with threads := ts } with run := r } := by
  obtain ⟨ts, e⟩ := arriveAll_only (w.inRun c.sl) (w.slice c.sl) c.em fun _ => c.pc + stepBytes i
  have h : (w.updSlice c.sl fun t => t.arriveAll (w.inRun c.sl) c.em fun _ => c.pc + stepBytes i) =
      w.setSlice c.sl { w.slice c.sl with threads := ts } := by
    rw [← e]; rfl
  refine ⟨ts, ?_⟩
  unfold advanceWave
  rw [h]
  generalize hv : w.setSlice c.sl { w.slice c.sl with threads := ts } = v
  dsimp only
  split
  · split
    · exact ⟨_, rfl⟩
    · exact ⟨v.run, rfl⟩
  · exact ⟨v.run, rfl⟩

@[simp] theorem advanceWave_id (c : Ctx) (i : Instr) (w : Wave) : (advanceWave c i w).id = w.id := by
  obtain ⟨ts, r, e⟩ := advanceWave_only c i w
  rw [e]; simp

@[simp] theorem countIssue_id (i : Instr) (w : Wave) : (countIssue i w).id = w.id := rfl

/-! Issue. -/

/-- A change of the group's wave that keeps its name changes nothing else. -/
theorem onlyWave_updWave {c : Ctx} (hg : c.s.wg c.g.id = some c.g) (hw : c.g.wave c.w.id = some c.w) {f : Wave → Wave}
    (hf : ∀ w, (f w).id = w.id) : OnlyWave c (c.s.updWave c.ref f) (f c.w) where
  state := rfl
  otherGroups := fun _ hk => wg_updWave_ne c.s f hk
  group := by
    refine ⟨c.g.updWave c.w.id f, wg_updWave_self hg, rfl, ?_, fun k hk => ?_⟩
    · rw [wave_updWaveG _ _ _ _ hf, if_pos rfl, hw]; rfl
    · rw [wave_updWaveG _ _ _ _ hf, if_neg hk]

/-- The causes of a list without causes. -/
theorem lowestCause_nil : lowestCause [] = none := rfl

/-- A step that returned no replaced word and reached no line leaves nothing to note. -/
theorem credit_quiet {s : State} (h : s.touched = false) (hr : s.reached = []) (k : Nat) : s.credit k = s := by
  have ha (vi : Nat) : s.allocateAll vi = s := by
    have h0 : s.allocateAll vi = { s with reached := [] } := by
      simp only [State.allocateAll, State.allocateLines, hr, List.foldl_nil]
    rw [h0, ← hr]
  unfold State.credit
  generalize (s.wg k).bind (fun g => s.launch g.launch) = l
  cases l <;> simp [ha, h]

/-- An instruction that nothing keeps from its own effect takes it. -/
theorem issue_ok {i : Instr} {c : Ctx} (h : Issues i c) {body : Ctx → Eff State} {t : State} (hb : body c = .ok t)
    (ht : t.touched = false) (hr : t.reached = []) (hd : t.delayed = false) : issue i body c.s = .next (t.updWave c.ref (countIssue i)) := by
  have hc : (⟨c.s, c.g, c.w, c.sl, c.em, c.pc⟩ : Ctx) = c := rfl
  have hs : c.s.seenWave c.w ⟨c.g.id, c.w.id⟩ c.sl = c.w := h.seen
  unfold issue
  rw [h.cur]
  simp only [Ctx.ref, h.wg, h.wave, hs]
  rw [hc, h.noCause, lowestCause_nil]
  simp only [h.noPending, h.powered, hb, credit_quiet ht hr, hd]
  rfl

/-- What an instruction with an effect on its wave gives. -/
theorem issue_done {i : Instr} {c : Ctx} (h : Issues i c) {body : Ctx → Eff State} {f : Wave → Wave}
    (hb : body c = .ok (c.done i f)) (hf : ∀ w, (f w).id = w.id) :
    issue i body c.s = .next (c.s.updWave c.ref fun w => countIssue i (advanceWave c i (f w))) := by
  rw [issue_ok h hb (by simpa [Ctx.done] using h.quiet) (by simpa [Ctx.done] using h.unreached)
    (by simpa [Ctx.done] using h.onTime)]
  unfold Ctx.done
  rw [updWave_updWave c.s c.ref _ _ (by intro w; simp [hf])]

/-- The same, as the completion that a statement asks for. -/
theorem issue_done_onlyWave {i : Instr} {c : Ctx} (h : Issues i c) {body : Ctx → Eff State} {f : Wave → Wave}
    (hb : body c = .ok (c.done i f)) (hf : ∀ w, (f w).id = w.id) :
    ∃ t, issue i body c.s = .next t ∧ OnlyWave c t (countIssue i (advanceWave c i (f c.w))) :=
  ⟨_, issue_done h hb hf, onlyWave_updWave h.wg h.wave fun w => by simp [hf]⟩

/-- The same, for an instruction that changes its wave without the shared advance. -/
theorem issue_wave_onlyWave {i : Instr} {c : Ctx} (h : Issues i c) {body : Ctx → Eff State} {f : Wave → Wave}
    (hb : body c = .ok (c.s.updWave c.ref f)) (hf : ∀ w, (f w).id = w.id) :
    ∃ t, issue i body c.s = .next t ∧ OnlyWave c t (countIssue i (f c.w)) := by
  refine ⟨_, issue_ok h hb (by simpa using h.quiet) (by simpa using h.unreached) (by simpa using h.onTime), ?_⟩
  rw [updWave_updWave c.s c.ref _ _ hf]
  exact onlyWave_updWave h.wg h.wave fun w => by simp [hf]

/-- An instruction whose fields raise causes takes the lowest one. -/
theorem issue_cause {i : Instr} {s : State} {u : Issue} {g : Workgroup} {w : Wave} (hc : s.cur = some u)
    (hg : s.wg u.w.wg = some g) (hw : g.wave u.w.wave = some w) {k : Cause}
    (hk : lowestCause (staticCauses ⟨s, g, s.seenWave w u.w u.sl, u.sl, u.em, u.pc⟩ i) = some k) (body : Ctx → Eff State) :
    issue i body s = .next (takeCause s u.w u.sl u.em u.pc k {}) := by
  simp [issue, hc, hg, hw, hk]

/-! Gate. -/

theorem gate_flows {i : Instr} {c : Ctx} (h : Flows i c) : c.gate (usesOf i) [] = .ok () := by
  simp [Ctx.gate, h.ready, h.room, h.noToken, firstLowest]

theorem laneWrite_flows {i : Instr} {c : Ctx} (h : Flows i c) (d : BitVec 8) (n : Nat) (g : Nat → List Word)
    (extra : Wave → Wave) :
    c.laneWrite i d n g extra = .ok (c.done i fun w => extra (writeBlock c.em d n g (popAll c.em (usesOf i) w))) := by
  simp [Ctx.laneWrite, gate_flows h]

@[simp] theorem popAll_id (em : Lanes) (us : List Use) (w : Wave) : (popAll em us w).id = w.id := by
  obtain ⟨qs, h, ts, e⟩ := popAll_only em us w
  rw [e]
@[simp] theorem writeBlock_id (em : Lanes) (d : BitVec 8) (n : Nat) (g : Nat → List Word) (w : Wave) :
    (writeBlock em d n g w).id = w.id := by
  obtain ⟨v, o, qs, e⟩ := writeBlock_only em d n g w
  rw [e]
@[simp] theorem writeMaskBits_id (em : Lanes) (sl : Slice) (k : Nat) (p : Nat → Bool) (w : Wave) :
    (writeMaskBits em sl k p w).id = w.id := by simp [writeMaskBits]

end Sys2Proof.Machine
end

