-- ==== Sys2Proof/Laws/Lane.lean ====
section
/-!
SUPPORT. The shared write of a lane instruction: everything that it leaves of its wave, and the completion of an
instruction that makes it.
-/
namespace Sys2Proof.Machine
open Sys2Proof Sys2Proof.Safety

theorem run_advanceWave (c : Ctx) (i : Instr) (w : Wave) :
    (advanceWave c i w).run = w.run.map fun r => if r.sl = c.sl then { r with pos := r.pos + 1 } else r := by
  unfold advanceWave
  simp only [wUpdSlice_run]
  cases h : w.run with
  | none => simp [h]
  | some r =>
    by_cases hs : r.sl = c.sl
    · simp [hs]
    · have : (r.sl == c.sl) = false := by simpa using hs
      simp [h, hs, this]

/-- The lanes that a test admits. -/
theorem getLsbD_lanesWhere (p : Nat → Bool) (l : Nat) (hl : l < 32) : (lanesWhere p).getLsbD l = p l := by
  unfold lanesWhere laneList waveWidth
  have : ∀ n, n ≤ 32 → ∀ l, l < 32 →
      ((List.range n).foldl (fun acc i => if p i then acc ||| (1#32 <<< i) else acc) 0#32).getLsbD l =
        (decide (l < n) && p l) := by
    intro n
    induction n with
    | zero => intro _ l _; simp
    | succ n ih =>
      intro hn l hl
      rw [List.range_succ, List.foldl_append, List.foldl_cons, List.foldl_nil]
      by_cases hp : p n
      · rw [if_pos hp, BitVec.getLsbD_or, ih (by omega) l hl]
        by_cases hln : l = n
        · subst hln; simp [hp, hl]
        · have h1 : (1#32 <<< n).getLsbD l = false := by
            simp only [BitVec.getLsbD_shiftLeft, hl, decide_true, Bool.true_and]
            by_cases hlt : l < n
            · simp [hlt]
            · have : ¬ (l - n = 0) := by omega
              simp [hlt, this]
          rw [h1, Bool.or_false]
          by_cases hlt : l < n
          · simp [hlt, Nat.lt_succ_of_lt hlt]
          · have : ¬ l < n + 1 := by omega
            simp [hlt, this]
      · rw [if_neg hp, ih (by omega) l hl]
        by_cases hln : l = n
        · subst hln; simp [hp]
        · by_cases hlt : l < n
          · simp [hlt, Nat.lt_succ_of_lt hlt]
          · have : ¬ l < n + 1 := by omega
            simp [hlt, this]
  rw [this 32 (Nat.le_refl _) l hl]; simp [hl]

/-- The mask output of a lane instruction. -/
def maskOut (c : Ctx) (mask : Option (Nat × (Nat → Bool))) (w : Wave) : Wave :=
  match mask with
  | some (k, p) => writeMaskBits c.em c.sl k p w
  | none => w

theorem maskOut_only (c : Ctx) (mask : Option (Nat × (Nat → Bool))) (w : Wave) :
    ∃ m g, maskOut c mask w = w.setSlice c.sl { w.slice c.sl with m := m, mgen := g } := by
  unfold maskOut
  cases mask with
  | none =>
    refine ⟨(w.slice c.sl).m, (w.slice c.sl).mgen, ?_⟩
    cases c.sl <;> rfl
  | some kp => exact ⟨_, _, rfl⟩

theorem mask_maskOut (c : Ctx) (mask : Option (Nat × (Nat → Bool))) (w : Wave) (k l : Nat)
    (hk : k < (w.slice c.sl).m.length) (hl : l < 32) :
    (((maskOut c mask w).slice c.sl).mask k).getLsbD l =
      match mask with
      | some (j, p) => if k = j ∧ c.em.getLsbD l then p l else ((w.slice c.sl).mask k).getLsbD l
      | none => ((w.slice c.sl).mask k).getLsbD l := by
  cases mask with
  | none => rfl
  | some jp =>
    obtain ⟨j, p⟩ := jp
    simp only [maskOut, writeMaskBits, slice_updSlice_self, mask_setMask]
    by_cases hj : j = k
    · subst hj
      rw [if_pos ⟨rfl, hk⟩]
      simp only [BitVec.getLsbD_or, BitVec.getLsbD_and, BitVec.getLsbD_not, hl, decide_true, Bool.true_and,
        getLsbD_lanesWhere p l hl, true_and]
      by_cases he : c.em.getLsbD l = true <;> simp [he]
    · rw [if_neg (fun h => hj h.1), if_neg (fun h => hj h.1.symm)]

/-- Everything that the shared write of a lane instruction does to its wave. -/
theorem lane_effect (c : Ctx) (i : Instr) (d : BitVec 8) (n : Nat) (g : Nat → List Word)
    (mask : Option (Nat × (Nat → Bool))) :
    LaneEffect i c d n g mask
      (countIssue i (advanceWave c i (maskOut c mask (writeBlock c.em d n g (popAll c.em (usesOf i) c.w))))) := by
  obtain ⟨qs, h, tg, e1⟩ := popAll_only c.em (usesOf i) c.w
  obtain ⟨v, o, qs', e2⟩ := writeBlock_only c.em d n g (popAll c.em (usesOf i) c.w)
  obtain ⟨m, mg, e3⟩ := maskOut_only c mask (writeBlock c.em d n g (popAll c.em (usesOf i) c.w))
  obtain ⟨ts, r, e4⟩ := advanceWave_only c i (maskOut c mask (writeBlock c.em d n g (popAll c.em (usesOf i) c.w)))
  have hrun := run_advanceWave c i (maskOut c mask (writeBlock c.em d n g (popAll c.em (usesOf i) c.w)))
  generalize hw1 : popAll c.em (usesOf i) c.w = w1 at *
  generalize hw2 : writeBlock c.em d n g w1 = w2 at *
  generalize hw3 : maskOut c mask w2 = w3 at *
  generalize hw4 : advanceWave c i w3 = w4 at *
  have s2 : w2.slice c.sl = c.slice := by rw [e2, e1]; cases h : c.sl <;> simp [Ctx.slice, Wave.slice, h]
  have o2 : w2.slice (otherSlice c.sl) = c.w.slice (otherSlice c.sl) := by
    rw [e2, e1]; cases c.sl <;> rfl
  have f3 : w3 = { w2 with a := w3.a, x := w3.x } := by rw [e3]; cases c.sl <;> rfl
  have f4 : w4 = { w3 with a := w4.a, x := w4.x, run := w4.run } := by rw [e4]; cases c.sl <;> rfl
  have fv : (countIssue i w4).v = w2.v := by show w4.v = _; rw [f4, f3]
  have fo : (countIssue i w4).o = w2.o := by show w4.o = _; rw [f4, f3]
  have fq : (countIssue i w4).queues = w2.queues := by show w4.queues = _; rw [f4, f3]
  have fh : (countIssue i w4).helper = w1.helper := by show w4.helper = _; rw [f4, f3, e2]
  have ft : (countIssue i w4).tags = w1.tags := by show w4.tags = _; rw [f4, f3, e2]
  have fsl : ∀ sl, (countIssue i w4).slice sl = w4.slice sl := fun sl => by cases sl <;> rfl
  refine ⟨?_, ?_, ?_, ?_, ?_, ?_, ?_, ?_, ?_, ?_⟩
  · intro r l hl
    have := vlane_writeBlock c.em d n g w1 r l hl
    rw [hw2, e1] at this
    simpa [Wave.vrow, fv] using this
  · intro r l hl
    have := olane_writeBlock c.em d n g w1 r l hl
    rw [hw2, e1] at this
    simpa [Wave.orow, fo] using this
  · intro k
    have hp := queue_popAll c.em (usesOf i) c.w k
    rw [hw1] at hp
    have hb := queue_writeBlock c.em d n g w1 k
    rw [hw2] at hb
    have hq : (countIssue i w4).queue k = w2.queue k := by simp [Wave.queue, fq]
    refine ⟨fun hn => by rw [hq]; exact hb.1 (hp.1 hn), fun q hk => ?_⟩
    obtain ⟨q1, h1, k1, d1, a1, c1⟩ := hp.2 q hk
    obtain ⟨q2, h2, k2, d2, a2, c2⟩ := hb.2 q1 h1
    refine ⟨q2, by rw [hq, h2], k2.trans k1, d2.trans d1, a2.trans a1, fun l hl => ?_⟩
    rw [c2 l hl, c1 l hl, fh]
    congr 1
    have : pushes w1 q1 l = true ↔ ¬(q.kind = .stdata ∧ w1.helper.getLsbD l = true) := by
      cases hh : w1.helper.getLsbD l <;> simp [pushes, k1, hh]
    simp only [this]
  · intro hs
    have : w1 = c.w := by rw [← hw1, popAll_eq_foldl, hs]; rfl
    rw [fh, ft, this]
    exact ⟨rfl, rfl⟩
  · intro k l hk hl
    have hm := mask_maskOut c mask w2 k l (by rw [s2]; exact hk) hl
    rw [hw3, s2] at hm
    rw [fsl, e4]
    have : ({ w3.setSlice c.sl { w3.slice c.sl with threads := ts } with run := r } : Wave).slice c.sl =
        { w3.slice c.sl with threads := ts } := by cases c.sl <;> rfl
    rw [this]
    exact hm
  · have h3 : w3.slice c.sl = { w2.slice c.sl with m := m, mgen := mg } := by rw [e3]; cases c.sl <;> rfl
    have h4 : w4.slice c.sl = { w3.slice c.sl with threads := ts } := by rw [e4]; cases c.sl <;> rfl
    rw [fsl, h4, h3, s2]
  · intro l hl ht
    have h3 : w3.slice c.sl = { w2.slice c.sl with m := m, mgen := mg } := by rw [e3]; cases c.sl <;> rfl
    have h4 : w4.slice c.sl = (w3.slice c.sl).arriveAll (w3.inRun c.sl) c.em fun _ => c.pc + stepBytes i := by
      rw [← hw4]
      unfold advanceWave
      generalize hu : (w3.updSlice c.sl fun t => t.arriveAll (w3.inRun c.sl) c.em fun _ => c.pc + stepBytes i) = u
      have : u.slice c.sl = (w3.slice c.sl).arriveAll (w3.inRun c.sl) c.em fun _ => c.pc + stepBytes i := by
        rw [← hu]; exact slice_updSlice_self _ _ _
      rw [← this]
      dsimp only
      split
      · split
        · cases c.sl <;> rfl
        · rfl
      · rfl
    rw [fsl, h4, pc_arriveAll _ _ _ _ _ hl (by rw [h3, s2]; exact ht)]
    have : ∀ l, (w3.slice c.sl).thread l = c.slice.thread l := fun l => by rw [h3, s2]; rfl
    rw [this]
  · have h3 : w3.slice (otherSlice c.sl) = w2.slice (otherSlice c.sl) := by rw [e3]; cases c.sl <;> rfl
    have h4 : w4.slice (otherSlice c.sl) = w3.slice (otherSlice c.sl) := by rw [e4]; cases c.sl <;> rfl
    rw [fsl, h4, h3, o2]
  · show w4.run = _
    rw [hrun, f3, e2, e1]
  · have hp : (countIssue i w4).pmc = (countIssue i c.w).pmc := by
      show updAt _ w4.pmc _ = updAt _ c.w.pmc _
      rw [f4, f3, e2, e1]
    rw [← hp]
    clear hp hrun f4 f3 fv fo fq fh ft fsl s2 o2 hw1 hw2 hw3 hw4
    subst e1 e2 e3 e4
    generalize c.sl = sl
    cases sl <;> rfl

/-- An instruction whose meaning is the shared write completes with its effect. -/
theorem laneWrite_completes {i : Instr} {c : Ctx} (h : Issues i c) (hf : Flows i c) {body : Ctx → Eff State}
    (he : exec i c.s = issue i body c.s) {d : BitVec 8} {n : Nat} {g : Nat → List Word}
    (mask : Option (Nat × (Nat → Bool))) (hb : body c = c.laneWrite i d n g (maskOut c mask)) :
    LaneCompletes i c d n g mask := by
  rw [laneWrite_flows hf] at hb
  obtain ⟨t, ht, ho⟩ := issue_done_onlyWave h hb fun w => by
    cases mask with
    | none => simp [maskOut]
    | some kp => simp [maskOut]
  exact ⟨t, _, he.trans ht, ho, lane_effect c i d n g mask⟩

end Sys2Proof.Machine
end

