-- ==== Sys2Proof/Laws/Branch.lean ====
section
/-!
SUPPORT. Threads that come to new counters, and the shared effect of a branch.
-/
namespace Sys2Proof.Machine

open Sys2Proof Sys2Proof.Safety

/-- The innermost loop of a lane does not depend on the threads. -/
theorem innermost_threads (t : SliceSt) (ts : List Thread) (l : Nat) :
    ({ t with threads := ts } : SliceSt).innermost l = t.innermost l := rfl

theorem thread_arrive (t : SliceSt) (i j : Nat) (pc : Word) :
    (t.arrive false i pc).thread j =
      if i = j ∧ j < t.threads.length then comesTo t j pc else t.thread j := by
  unfold SliceSt.arrive
  rw [thread_updThread]
  by_cases h : i = j ∧ j < t.threads.length
  · obtain ⟨rfl, h⟩ := h
    rw [if_pos ⟨rfl, h⟩, if_pos ⟨rfl, h⟩]
    unfold comesTo
    cases t.innermost i with
    | none => rfl
    | some k => simp
  · rw [if_neg h, if_neg h]

theorem thread_foldl_arrive (g : Nat → Word) (ls : List Nat) (hn : ls.Nodup) (t : SliceSt) (j : Nat)
    (hj : j < t.threads.length) :
    (ls.foldl (fun t i => t.arrive false i (g i)) t).thread j = if j ∈ ls then comesTo t j (g j) else t.thread j := by
  induction ls generalizing t with
  | nil => simp
  | cons l ls ih =>
    obtain ⟨hl, hn⟩ := List.nodup_cons.1 hn
    rw [List.foldl_cons, ih hn _ (by simpa using hj)]
    have hc : comesTo (t.arrive false l (g l)) j (g j) =
        { (t.arrive false l (g l)).thread j with pc := g j, st := (comesTo t j (g j)).st } := rfl
    by_cases h : j ∈ ls
    · have hne : ¬ l = j := fun e => hl (e ▸ h)
      rw [if_pos h, if_pos (List.mem_cons_of_mem _ h), hc, thread_arrive, if_neg (fun e => hne e.1)]
      rfl
    · rw [if_neg h, thread_arrive]
      by_cases hlj : l = j
      · subst hlj; rw [if_pos ⟨rfl, hj⟩, if_pos (List.mem_cons_self ..)]
      · rw [if_neg (fun e => hlj e.1), if_neg]
        intro hm
        rcases List.mem_cons.1 hm with e | e
        · exact hlj e.symm
        · exact h e

/-- The threads after a lane set has come to its counters. -/
theorem arrives_arriveAll (t : SliceSt) (m : Lanes) (g : Nat → Word) : Arrives t m g (t.arriveAll false m g) := by
  intro l hl ht
  unfold SliceSt.arriveAll
  rw [thread_foldl_arrive g _ (lanesOf_nodup m) t l ht]
  by_cases h : m.getLsbD l = true <;> simp [mem_lanesOf, hl, h]

/-- The write of the register that D names, if any. -/
def linkWrite (em : Lanes) (d : Option (BitVec 8)) (val : Word) (w : Wave) : Wave :=
  match d with
  | some k => writeRow em k 0 (fun _ => val) w
  | none => w

/-- A write of a register row by the lanes of a set, for a code that names a `v` register or none. -/
theorem vlane_writeRow_option (em : Lanes) (d : Option (BitVec 8)) (val : Word) (w : Wave) (hd : ∀ k, d = some k → Form.isV k = true)
    (r l : Nat) (hl : l < 32) :
    laneAt ((linkWrite em d val w).vrow r) l =
      if (∃ k, d = some k ∧ Form.isV k = true ∧ k.toNat = r) ∧ em.getLsbD l = true then val else laneAt (w.vrow r) l := by
  cases d with
  | none => simp [linkWrite]
  | some k =>
    have hk := hd k rfl
    show laneAt ((writeRow em k 0 (fun _ => val) w).vrow r) l = _
    rw [vlane_writeRow em k 0 (fun _ => val) w r l hl]
    have hiff : (Form.isV k = true ∧ r = k.toNat + 0 ∧ em.getLsbD l = true) ↔
        ((∃ j, some k = some j ∧ Form.isV j = true ∧ j.toNat = r) ∧ em.getLsbD l = true) := by
      constructor
      · intro ⟨_, h, he⟩
        exact ⟨⟨k, rfl, hk, h.symm⟩, he⟩
      · intro ⟨⟨j, hj, _, h⟩, he⟩
        cases hj
        exact ⟨hk, h.symm, he⟩
    by_cases hc : Form.isV k = true ∧ r = k.toNat + 0 ∧ em.getLsbD l = true
    · rw [if_pos hc, if_pos (hiff.1 hc)]
    · rw [if_neg hc, if_neg (fun h => hc (hiff.2 h))]

/-- Everything that a branch does to its wave. -/
theorem branch_effect (c : Ctx) (i : Instr) (us : List Use) (d : Option (BitVec 8)) (val : Word) (g : Nat → Word)
    (hd : ∀ k, d = some k → Form.isV k = true) :
    BranchEffect i c (popSpans us) d val g (countIssue i
      ((linkWrite c.em d val (popAll c.em us c.w)).updSlice c.sl fun t => t.arriveAll false c.em g)) := by
  obtain ⟨qs, h, tg, e1⟩ := popAll_only c.em us c.w
  have hpp := fun k => queue_popAll c.em us c.w k
  have hnop : popSpans us = [] → popAll c.em us c.w = c.w := fun hs => by rw [popAll_eq_foldl, hs]; rfl
  generalize hw1 : popAll c.em us c.w = w1 at *
  have hv := vlane_writeRow_option c.em d val w1 hd
  have e2 : ∃ v, linkWrite c.em d val w1 = { w1 with v := v } := by
    cases d with
    | none => exact ⟨w1.v, rfl⟩
    | some k =>
      refine ⟨w1.v.setRow (k.toNat + 0) (mergeLanes c.em (w1.vrow (k.toNat + 0)) fun _ => val), ?_⟩
      show writeRow c.em k 0 (fun _ => val) w1 = _
      unfold writeRow
      rw [if_pos (hd k rfl)]
  obtain ⟨v, e2⟩ := e2
  generalize hw2 : linkWrite c.em d val w1 = w2 at *
  obtain ⟨ts, e3⟩ := arriveAll_only false (w2.slice c.sl) c.em g
  have s2 : w2.slice c.sl = c.slice := by rw [e2, e1]; unfold Ctx.slice; cases c.sl <;> rfl
  have hthr := arrives_arriveAll c.slice c.em g
  rw [s2] at e3
  have hu : (w2.updSlice c.sl fun t => t.arriveAll false c.em g) = w2.setSlice c.sl { c.slice with threads := ts } := by
    rw [← e3, ← s2]; rfl
  rw [hu]
  rw [e3] at hthr
  have hsl : (countIssue i (w2.setSlice c.sl { c.slice with threads := ts })).slice c.sl = { c.slice with threads := ts } := by
    cases c.sl <;> rfl
  refine ⟨?_, ?_, ?_, ?_, ?_, ?_, ?_⟩
  · intro r l hl
    have := hv r l hl
    rw [show (countIssue i (w2.setSlice c.sl { c.slice with threads := ts })).vrow r = w2.vrow r by cases c.sl <;> rfl, this,
      show w1.vrow r = c.w.vrow r by rw [e1]; rfl]
  · intro k
    have : (countIssue i (w2.setSlice c.sl { c.slice with threads := ts })).queue k = w1.queue k := by
      rw [e2]; cases c.sl <;> rfl
    rw [this]
    exact hpp k
  · intro hs
    rw [← hnop hs, e2]
    cases c.sl <;> exact ⟨rfl, rfl⟩
  · rw [hsl]; exact hthr
  · rw [hsl]
  · rw [show (countIssue i (w2.setSlice c.sl { c.slice with threads := ts })).slice (otherSlice c.sl) =
      w2.slice (otherSlice c.sl) by cases c.sl <;> rfl, e2, e1]
    cases c.sl <;> rfl
  · have hp : (countIssue i (w2.setSlice c.sl { c.slice with threads := ts })).pmc = (countIssue i c.w).pmc := by
      rw [e2, e1]; cases c.sl <;> rfl
    rw [← hp]
    clear hp hsl hthr hu e3 s2 hv hpp hnop hw1 hw2
    subst e1 e2
    generalize c.sl = sl
    cases sl <;> rfl

/-- A branch whose meaning is the shared one completes with its effect. -/
theorem goto_completes {i : Instr} {c : Ctx} (h : Issues i c) {body : Ctx → Eff State}
    (he : exec i c.s = issue i body c.s) {us : List Use} {d : Option (BitVec 8)} {val : Word} {g : Nat → Word}
    (hd : ∀ k, d = some k → Form.isV k = true) {f : Wave → Wave}
    (hf : f c.w = linkWrite c.em d val (popAll c.em us c.w)) (hid : ∀ w, (f w).id = w.id) (hb : body c = .ok (c.goto f g)) :
    BranchCompletes i c (popSpans us) d val g := by
  obtain ⟨t, ht, ho⟩ := issue_wave_onlyWave h hb fun w => by simp [hid]
  refine ⟨t, _, he.trans ht, ho, ?_⟩
  rw [hf]
  exact branch_effect c i us d val g hd

end Sys2Proof.Machine
end

