-- ==== Sys2Proof/Laws/GroupWrite.lean ====
section
/-!
SUPPORT. The shared writes of a group instruction: everything that they leave of its wave, and the completion of an
instruction that makes one.
-/
namespace Sys2Proof.Machine

open Sys2Proof Sys2Proof.Safety

/-- Registers written one after another, and a mask. -/
def putGroup (sl : Slice) (sregs : List (Nat × Word)) (mask : Option (Nat × Word)) (gf : BitVec 5) (w : Wave) : Wave :=
  let w := sregs.foldr (fun p w => w.setS p.1 p.2) w
  let w := match mask with
    | some (k, x) => w.updSlice sl fun t => t.setMask k x
    | none => w
  w.updSlice sl fun t => { t with gf := gf }

theorem foldr_setS_only (l : List (Nat × Word)) (w : Wave) :
    ∃ s, l.foldr (fun p w => w.setS p.1 p.2) w = { w with s := s } := by
  induction l with
  | nil => exact ⟨_, rfl⟩
  | cons p l ih =>
    obtain ⟨s, e⟩ := ih
    exact ⟨_, by rw [List.foldr_cons, e]; rfl⟩

theorem sreg_foldr_setS (l : List (Nat × Word)) (w : Wave) (k : Nat) :
    (l.foldr (fun p w => w.setS p.1 p.2) w).sreg k = (l.lookup k).getD (w.sreg k) := by
  induction l with
  | nil => rfl
  | cons p l ih =>
    rw [List.foldr_cons, sreg_setS, ih, List.lookup_cons]
    by_cases h : k = p.1
    · simp [h]
    · have : (k == p.1) = false := by simpa using h
      simp [h, this]

theorem putGroup_only (sl : Slice) (sregs : List (Nat × Word)) (mask : Option (Nat × Word)) (gf : BitVec 5) (w : Wave) :
    ∃ s m g, putGroup sl sregs mask gf w =
      ({ w with s := s } : Wave).setSlice sl { w.slice sl with m := m, mgen := g, gf := gf } := by
  obtain ⟨s, e⟩ := foldr_setS_only sregs w
  unfold putGroup
  rw [e]
  cases mask with
  | none =>
    refine ⟨s, (w.slice sl).m, (w.slice sl).mgen, ?_⟩
    cases sl <;> rfl
  | some kx =>
    obtain ⟨k, x⟩ := kx
    refine ⟨s, ((w.slice sl).setMask k x).m, ((w.slice sl).setMask k x).mgen, ?_⟩
    cases sl <;> rfl

theorem mask_putGroup (sl : Slice) (sregs : List (Nat × Word)) (mask : Option (Nat × Word)) (gf : BitVec 5) (w : Wave)
    (k : Nat) (hk : k < (w.slice sl).m.length) :
    ((putGroup sl sregs mask gf w).slice sl).mask k =
      match mask with
      | some (j, x) => if k = j then x else (w.slice sl).mask k
      | none => (w.slice sl).mask k := by
  obtain ⟨s, e⟩ := foldr_setS_only sregs w
  unfold putGroup
  rw [e]
  cases mask with
  | none => cases sl <;> rfl
  | some jx =>
    obtain ⟨j, x⟩ := jx
    simp only [updSlice_updSlice, slice_updSlice_self]
    have hs : ({ w with s := s } : Wave).slice sl = w.slice sl := by cases sl <;> rfl
    rw [hs]
    show ((w.slice sl).setMask j x).mask k = _
    rw [mask_setMask]
    by_cases h : j = k
    · subst h; rw [if_pos ⟨rfl, hk⟩, if_pos rfl]
    · rw [if_neg (fun e => h e.1), if_neg (fun e => h e.symm)]

/-- Everything that the shared write of a group instruction does to its wave. -/
theorem group_effect (c : Ctx) (i : Instr) (sregs : List (Nat × Word)) (mask : Option (Nat × Word)) (gf : BitVec 5) :
    GroupEffect i c sregs mask gf (countIssue i (advanceWave c i (putGroup c.sl sregs mask gf c.w))) := by
  obtain ⟨s, m, mg, e3⟩ := putGroup_only c.sl sregs mask gf c.w
  obtain ⟨ts, r, e4⟩ := advanceWave_only c i (putGroup c.sl sregs mask gf c.w)
  have hrun := run_advanceWave c i (putGroup c.sl sregs mask gf c.w)
  have hs : ∀ k, (putGroup c.sl sregs mask gf c.w).sreg k = (sregs.lookup k).getD (c.w.sreg k) := by
    intro k
    rw [← sreg_foldr_setS sregs c.w k]
    unfold putGroup
    cases mask <;> simp [Wave.sreg]
  have hm := mask_putGroup c.sl sregs mask gf c.w
  generalize hw3 : putGroup c.sl sregs mask gf c.w = w3 at *
  generalize hw4 : advanceWave c i w3 = w4 at *
  have f4 : w4 = { w3 with a := w4.a, x := w4.x, run := w4.run } := by rw [e4]; cases c.sl <;> rfl
  have fsl : ∀ sl, (countIssue i w4).slice sl = w4.slice sl := fun sl => by cases sl <;> rfl
  have h3 : w3.slice c.sl = { c.slice with m := m, mgen := mg, gf := gf } := by
    rw [e3]; unfold Ctx.slice; cases c.sl <;> rfl
  have h4 : w4.slice c.sl = { w3.slice c.sl with threads := ts } := by rw [e4]; cases c.sl <;> rfl
  refine ⟨?_, ?_, ?_, ?_, ?_, ?_, ?_, ?_⟩
  · intro k
    rw [← hs k]
    show w4.s.get k = w3.s.get k
    rw [f4]
  · intro k hk
    rw [fsl, h4]
    exact hm k hk
  · rw [fsl, h4, h3]
  · rw [fsl, h4, h3]
  · intro l hl ht
    have h5 : w4.slice c.sl = (w3.slice c.sl).arriveAll (w3.inRun c.sl) c.em fun _ => c.pc + stepBytes i := by
      rw [← hw4]
      unfold advanceWave
      generalize hu : (w3.updSlice c.sl fun t => t.arriveAll (w3.inRun c.sl) c.em fun _ => c.pc + stepBytes i) = u
      have : u.slice c.sl = (w3.slice c.sl).arriveAll (w3.inRun c.sl) c.em fun _ => c.pc + stepBytes i := by
        rw [← hu]; exact slice_updSlice_self _ _ _
      rw [← this]
      dsimp only
      split
      · split
        · cases c.sl <;> rfl
        · rfl
      · rfl
    rw [fsl, h5, pc_arriveAll _ _ _ _ _ hl (by rw [h3]; exact ht)]
    have : ∀ l, (w3.slice c.sl).thread l = c.slice.thread l := fun l => by rw [h3]; rfl
    rw [this]
  · have : w4.slice (otherSlice c.sl) = w3.slice (otherSlice c.sl) := by rw [e4]; cases c.sl <;> rfl
    rw [fsl, this, e3]
    cases c.sl <;> rfl
  · show w4.run = _
    rw [hrun, e3]
    cases c.sl <;> rfl
  · have hp : (countIssue i w4).pmc = (countIssue i c.w).pmc := by
      show updAt _ w4.pmc _ = updAt _ c.w.pmc _
      rw [f4, e3]
      cases c.sl <;> rfl
    rw [← hp]
    clear hp hrun f4 h4 h3 fsl hs hm hw3 hw4
    subst e3 e4
    generalize c.sl = sl
    cases sl <;> rfl

/-- The write of a group destination as registers and a mask. -/
theorem writeGroup_eq (sl : Slice) (code : BitVec 7) (x : Word) (ff : Flags → Flags) (w : Wave) :
    updFlags sl ff (writeGroup sl code x w) =
      putGroup sl (if code.toNat < 0x60 then [(code.toNat, x)] else [])
        (if code.toNat < 0x60 then none else some (code.toNat - 0x60, x)) (ff (Flags.ofGf (w.slice sl).gf)).gf w := by
  unfold writeGroup updFlags putGroup
  by_cases h : code.toNat < 0x60
  · simp only [h, if_true, List.foldr_cons, List.foldr_nil]
    cases sl <;> rfl
  · simp only [h, if_false, List.foldr_nil]
    cases sl <;> rfl

theorem writeGroup_quiet_eq (sl : Slice) (code : BitVec 7) (x : Word) (w : Wave) :
    writeGroup sl code x w =
      putGroup sl (if code.toNat < 0x60 then [(code.toNat, x)] else [])
        (if code.toNat < 0x60 then none else some (code.toNat - 0x60, x)) (w.slice sl).gf w := by
  unfold writeGroup putGroup
  by_cases h : code.toNat < 0x60
  · simp only [h, if_true, List.foldr_cons, List.foldr_nil]
    cases sl <;> rfl
  · simp only [h, if_false, List.foldr_nil]
    cases sl <;> rfl

theorem writeGroup64_eq (sl : Slice) (code : BitVec 7) (x : DWord) (ff : Flags → Flags) (w : Wave) :
    updFlags sl ff (writeGroup64 code x w) =
      putGroup sl [(code.toNat + 1, highWord x), (code.toNat, lowWord x)] none (ff (Flags.ofGf (w.slice sl).gf)).gf w := by
  unfold writeGroup64 updFlags putGroup
  cases sl <;> rfl

/-- An instruction whose meaning is a shared group write completes with its effect. -/
theorem putGroup_completes {i : Instr} {c : Ctx} (h : Issues i c) {body : Ctx → Eff State}
    (he : exec i c.s = issue i body c.s) {sregs : List (Nat × Word)} {mask : Option (Nat × Word)} {gf : BitVec 5}
    {f : Wave → Wave} (hb : body c = .ok (c.done i f)) (hf : ∀ w, (f w).id = w.id)
    (hp : f c.w = putGroup c.sl sregs mask gf c.w) : GroupCompletes i c sregs mask gf := by
  obtain ⟨t, ht, ho⟩ := issue_done_onlyWave h hb hf
  rw [hp] at ho
  exact ⟨t, _, he.trans ht, ho, group_effect c i sregs mask gf⟩

@[simp] theorem updFlags_id (sl : Slice) (ff : Flags → Flags) (w : Wave) : (updFlags sl ff w).id = w.id := by
  simp [updFlags]
@[simp] theorem writeGroup_id (sl : Slice) (code : BitVec 7) (x : Word) (w : Wave) : (writeGroup sl code x w).id = w.id := by
  unfold writeGroup; split <;> simp
@[simp] theorem writeGroup64_id (code : BitVec 7) (x : DWord) (w : Wave) : (writeGroup64 code x w).id = w.id := rfl

end Sys2Proof.Machine
end

