-- ==== Sys2Proof/Laws/CrossLane.lean ====
section
/-!
SUPPORT. Cross-lane instructions: everything that a form with a group destination leaves of its wave.
-/
namespace Sys2Proof.Machine

open Sys2Proof Sys2Proof.Safety

/-- Everything that a pop, a write of one word of D in the lanes of a set and a group write do to a wave. -/
theorem cross_effect (c : Ctx) (i : Instr) (d : BitVec 8) (m : Lanes) (val : Nat → Word) (sregs : List (Nat × Word))
    (mask : Option (Nat × Word)) (gf : BitVec 5) :
    CrossEffect i c d m val sregs mask gf (countIssue i (advanceWave c i (putGroup c.sl sregs mask gf
      (writeBlock m d 1 (fun l => [val l]) (popAll c.em (usesOf i) c.w))))) := by
  obtain ⟨qs, h, tg, e1⟩ := popAll_only c.em (usesOf i) c.w
  obtain ⟨v, o, qs', e2⟩ := writeBlock_only m d 1 (fun l => [val l]) (popAll c.em (usesOf i) c.w)
  have hpv := fun r l hl => vlane_writeBlock m d 1 (fun l => [val l]) (popAll c.em (usesOf i) c.w) r l hl
  have hpo := fun r l hl => olane_writeBlock m d 1 (fun l => [val l]) (popAll c.em (usesOf i) c.w) r l hl
  have hpq := fun k => queue_writeBlock m d 1 (fun l => [val l]) (popAll c.em (usesOf i) c.w) k
  have hpp := fun k => queue_popAll c.em (usesOf i) c.w k
  have hnop : popSpans (usesOf i) = [] → popAll c.em (usesOf i) c.w = c.w := fun hs => by
    rw [popAll_eq_foldl, hs]; rfl
  generalize hw1 : popAll c.em (usesOf i) c.w = w1 at *
  generalize hw2 : writeBlock m d 1 (fun l => [val l]) w1 = w2 at *
  have s2 : ∀ sl, w2.slice sl = c.w.slice sl := fun sl => by rw [e2, e1]; cases sl <;> rfl
  obtain ⟨s, mm, mg, e3⟩ := putGroup_only c.sl sregs mask gf w2
  obtain ⟨ts, r, e4⟩ := advanceWave_only c i (putGroup c.sl sregs mask gf w2)
  have hrun := run_advanceWave c i (putGroup c.sl sregs mask gf w2)
  have hs : ∀ k, (putGroup c.sl sregs mask gf w2).sreg k = (sregs.lookup k).getD (w2.sreg k) := by
    intro k
    rw [← sreg_foldr_setS sregs w2 k]
    unfold putGroup
    cases mask <;> simp [Wave.sreg]
  have hm := mask_putGroup c.sl sregs mask gf w2
  generalize hw3 : putGroup c.sl sregs mask gf w2 = w3 at *
  generalize hw4 : advanceWave c i w3 = w4 at *
  have f4 : w4 = { w3 with a := w4.a, x := w4.x, run := w4.run } := by rw [e4]; cases c.sl <;> rfl
  have f3 : w3 = { w2 with s := w3.s, a := w3.a, x := w3.x } := by rw [e3]; cases c.sl <;> rfl
  have fsl : ∀ sl, (countIssue i w4).slice sl = w4.slice sl := fun sl => by cases sl <;> rfl
  have h3 : w3.slice c.sl = { c.slice with m := mm, mgen := mg, gf := gf } := by
    rw [e3, s2]; unfold Ctx.slice; cases c.sl <;> rfl
  have h4 : w4.slice c.sl = { w3.slice c.sl with threads := ts } := by rw [e4]; cases c.sl <;> rfl
  have fv : (countIssue i w4).v = w2.v := by show w4.v = _; rw [f4, f3]
  have fo : (countIssue i w4).o = w2.o := by show w4.o = _; rw [f4, f3]
  have fq : (countIssue i w4).queues = w2.queues := by show w4.queues = _; rw [f4, f3]
  have fh : (countIssue i w4).helper = w1.helper := by show w4.helper = _; rw [f4, f3, e2]
  have ft : (countIssue i w4).tags = w1.tags := by show w4.tags = _; rw [f4, f3, e2]
  refine ⟨?_, ?_, ?_, ?_, ?_, ?_, ?_, ?_, ?_, ?_, ?_⟩
  · intro r l hl
    have := hpv r l hl
    rw [e1] at this
    have hv : (countIssue i w4).vrow r = w2.vrow r := by simp [Wave.vrow, fv]
    rw [hv, this]
    by_cases hc : Form.isV d = true ∧ d.toNat = r ∧ m.getLsbD l = true
    · rw [if_pos hc, if_pos ⟨hc.1, by omega, by omega, hc.2.2⟩]
      simp [laneAt, show r - d.toNat = 0 by omega]
    · rw [if_neg hc, if_neg (fun h => hc ⟨h.1, by omega, h.2.2.2⟩)]
      rfl
  · intro r l hl
    have := hpo r l hl
    rw [e1] at this
    have hv : (countIssue i w4).orow r = w2.orow r := by simp [Wave.orow, fo]
    rw [hv, this]
    by_cases hc : Form.isO d = true ∧ Form.oIndex d = r ∧ m.getLsbD l = true
    · rw [if_pos hc, if_pos ⟨hc.1, by omega, by omega, hc.2.2⟩]
      simp [laneAt, show r - Form.oIndex d = 0 by omega]
    · rw [if_neg hc, if_neg (fun h => hc ⟨h.1, by omega, h.2.2.2⟩)]
      rfl
  · intro k
    have hp := hpp k
    have hb := hpq k
    have hq : (countIssue i w4).queue k = w2.queue k := by simp [Wave.queue, fq]
    refine ⟨fun hn => by rw [hq]; exact hb.1 (hp.1 hn), fun q hk => ?_⟩
    obtain ⟨q1, h1, k1, d1, a1, c1⟩ := hp.2 q hk
    obtain ⟨q2, h2, k2, d2, a2, c2⟩ := hb.2 q1 h1
    refine ⟨q2, by rw [hq, h2], k2.trans k1, d2.trans d1, a2.trans a1, fun l hl => ?_⟩
    rw [c2 l hl, c1 l hl, fh]
    congr 1
    have : pushes w1 q1 l = true ↔ ¬(q.kind = .stdata ∧ w1.helper.getLsbD l = true) := by
      cases hh : w1.helper.getLsbD l <;> simp [pushes, k1, hh]
    simp only [this, List.map_cons, List.map_nil]
  · intro hsp
    rw [fh, ft, hnop hsp]
    exact ⟨rfl, rfl⟩
  · intro k
    have : w2.sreg k = c.w.sreg k := by simp [Wave.sreg, e2, e1]
    rw [← this, ← hs k]
    show w4.s.get k = w3.s.get k
    rw [f4]
  · intro k hk
    rw [fsl, h4]
    have := hm k (by rw [s2]; exact hk)
    rw [s2] at this
    exact this
  · rw [fsl, h4, h3]
  · intro l hl ht
    have h5 : w4.slice c.sl = (w3.slice c.sl).arriveAll (w3.inRun c.sl) c.em fun _ => c.pc + stepBytes i := by
      rw [← hw4]
      unfold advanceWave
      generalize hu : (w3.updSlice c.sl fun t => t.arriveAll (w3.inRun c.sl) c.em fun _ => c.pc + stepBytes i) = u
      have : u.slice c.sl = (w3.slice c.sl).arriveAll (w3.inRun c.sl) c.em fun _ => c.pc + stepBytes i := by
        rw [← hu]; exact slice_updSlice_self _ _ _
      rw [← this]
      dsimp only
      split
      · split
        · cases c.sl <;> rfl
        · rfl
      · rfl
    rw [fsl, h5, pc_arriveAll _ _ _ _ _ hl (by rw [h3]; exact ht)]
    have : ∀ l, (w3.slice c.sl).thread l = c.slice.thread l := fun l => by rw [h3]; rfl
    rw [this]
  · have : w4.slice (otherSlice c.sl) = w3.slice (otherSlice c.sl) := by rw [e4]; cases c.sl <;> rfl
    rw [fsl, this, e3, e2, e1]
    cases c.sl <;> rfl
  · show w4.run = _
    rw [hrun, f3, e2, e1]
  · have hp : (countIssue i w4).pmc = (countIssue i c.w).pmc := by
      show updAt _ w4.pmc _ = updAt _ c.w.pmc _
      rw [f4, f3, e2, e1]
    rw [← hp]
    clear hp hrun f4 h4 h3 fsl hs hm hw3 hw4 f3 fv fo fq fh ft hpv hpo hpq hpp hnop s2 hw1 hw2
    subst e1 e2 e3 e4
    generalize c.sl = sl
    cases sl <;> rfl

end Sys2Proof.Machine
end

