-- ==== Sys2Proof/Laws/Memory.lean ====
section
/-!
SUPPORT. Byte memories: a write of one byte and of many keeps the canonical form, gives the written bytes back and leaves
every other address alone.
-/
namespace Sys2Proof.Machine

open Sys2Proof

theorem wfFrom_mono {lo lo' : Nat} (h : lo' ≤ lo) {m : List Host.Cell} (hm : Mem.wfFrom lo m = true) :
    Mem.wfFrom lo' m = true := by
  cases m with
  | nil => rfl
  | cons c cs =>
    simp only [Mem.wfFrom, Bool.and_eq_true, decide_eq_true_eq] at hm ⊢
    exact ⟨⟨by omega, hm.1.2⟩, hm.2⟩

theorem wfFrom_set {lo : Nat} {m : List Host.Cell} (hm : Mem.wfFrom lo m = true) {a : Nat} (ha : lo ≤ a) (b : Byte) :
    Mem.wfFrom lo (Mem.set m a b) = true := by
  induction m generalizing lo with
  | nil => by_cases hb : b = Mem.unlisted <;> simp [Mem.set, Mem.wfFrom, hb, ha]
  | cons c cs ih =>
    simp only [Mem.wfFrom, Bool.and_eq_true, decide_eq_true_eq] at hm
    unfold Mem.set
    by_cases h1 : c.1 < a
    · rw [if_pos h1]
      simp only [Mem.wfFrom, Bool.and_eq_true, decide_eq_true_eq]
      exact ⟨hm.1, ih hm.2 (by omega)⟩
    · rw [if_neg h1]
      by_cases h2 : c.1 = a
      · rw [if_pos h2]
        by_cases hb : b = Mem.unlisted
        · rw [if_pos hb]
          exact wfFrom_mono (by omega) hm.2
        · rw [if_neg hb]
          simp only [Mem.wfFrom, Bool.and_eq_true, decide_eq_true_eq, bne_iff_ne, ne_eq]
          exact ⟨⟨ha, hb⟩, h2 ▸ hm.2⟩
      · rw [if_neg h2]
        by_cases hb : b = Mem.unlisted
        · rw [if_pos hb]
          simp only [Mem.wfFrom, Bool.and_eq_true, decide_eq_true_eq]
          exact hm
        · rw [if_neg hb]
          simp only [Mem.wfFrom, Bool.and_eq_true, decide_eq_true_eq, bne_iff_ne, ne_eq]
          exact ⟨⟨ha, hb⟩, ⟨⟨by omega, by simpa using hm.1.2⟩, hm.2⟩⟩

/-- A write of one byte keeps the canonical form. -/
theorem wf_set {m : List Host.Cell} (hm : Mem.wf m = true) (a : Nat) (b : Byte) : Mem.wf (Mem.set m a b) = true :=
  wfFrom_set hm (Nat.zero_le a) b

/-- A write of bytes keeps the canonical form. -/
theorem wf_write {m : List Host.Cell} (hm : Mem.wf m = true) (a : Nat) (bs : List Byte) :
    Mem.wf (Mem.write m a bs) = true := by
  induction bs generalizing m a with
  | nil => exact hm
  | cons b bs ih => exact ih (wf_set hm a b) (a + 1)

theorem get_below {lo : Nat} {m : List Host.Cell} (hm : Mem.wfFrom lo m = true) {a : Nat} (ha : a < lo) :
    Mem.get m a = Mem.unlisted := by
  induction m generalizing lo with
  | nil => rfl
  | cons c cs ih =>
    simp only [Mem.wfFrom, Bool.and_eq_true, decide_eq_true_eq] at hm
    have hc : (c.1 == a) = false := by simp; omega
    have := ih hm.2 (by omega)
    simpa [Mem.get, List.find?_cons, hc] using this

theorem get_cons (c : Host.Cell) (cs : List Host.Cell) (a : Nat) :
    Mem.get (c :: cs) a = if c.1 = a then c.2 else Mem.get cs a := by
  by_cases h : c.1 = a <;> simp [Mem.get, h]

theorem get_setFrom {lo : Nat} {m : List Host.Cell} (hm : Mem.wfFrom lo m = true) (a j : Nat) (b : Byte) :
    Mem.get (Mem.set m a b) j = if j = a then b else Mem.get m j := by
  induction m generalizing lo with
  | nil =>
    unfold Mem.set
    by_cases hb : b = Mem.unlisted
    · rw [if_pos hb]
      by_cases hj : j = a <;> simp [Mem.get, hj, hb]
    · rw [if_neg hb, get_cons]
      by_cases hj : j = a
      · simp [hj]
      · simp [hj, Ne.symm hj, Mem.get]
  | cons c cs ih =>
    simp only [Mem.wfFrom, Bool.and_eq_true, decide_eq_true_eq] at hm
    unfold Mem.set
    by_cases h1 : c.1 < a
    · rw [if_pos h1, get_cons, get_cons, ih hm.2]
      by_cases hj : j = a
      · have : ¬ c.1 = j := by omega
        simp [hj, hj ▸ this]
      · simp [hj]
    · rw [if_neg h1]
      by_cases h2 : c.1 = a
      · rw [if_pos h2]
        by_cases hb : b = Mem.unlisted
        · rw [if_pos hb, get_cons]
          by_cases hj : j = a
          · rw [if_pos hj, hj, get_below hm.2 (by omega), hb]
          · have : ¬ c.1 = j := by omega
            simp [hj, this]
        · rw [if_neg hb, get_cons, get_cons]
          by_cases hj : j = a
          · simp [hj]
          · have h3 : ¬ c.1 = j := by omega
            have h4 : ¬ a = j := by omega
            simp [hj, h3, h4]
      · rw [if_neg h2]
        have hbelow : j = a → Mem.get (c :: cs) j = Mem.unlisted := by
          intro hj
          rw [get_cons, if_neg (by omega)]
          exact get_below hm.2 (by omega)
        by_cases hb : b = Mem.unlisted
        · rw [if_pos hb]
          by_cases hj : j = a
          · rw [if_pos hj, hbelow hj, hb]
          · rw [if_neg hj]
        · rw [if_neg hb, get_cons]
          by_cases hj : j = a
          · simp [hj]
          · simp [hj, Ne.symm hj]

/-- A byte read after a write of one byte. -/
theorem get_set_mem {m : List Host.Cell} (hm : Mem.wf m = true) (a j : Nat) (b : Byte) :
    Mem.get (Mem.set m a b) j = if j = a then b else Mem.get m j := get_setFrom hm a j b

/-- A byte read after a write of bytes. -/
theorem get_write {m : List Host.Cell} (hm : Mem.wf m = true) (a j : Nat) (bs : List Byte) :
    Mem.get (Mem.write m a bs) j = if a ≤ j ∧ j < a + bs.length then (bs[j - a]?).getD 0#8 else Mem.get m j := by
  induction bs generalizing m a with
  | nil =>
    have : ¬ (a ≤ j ∧ j < a + ([] : List Byte).length) := by simp
    rw [if_neg this]; rfl
  | cons b bs ih =>
    simp only [Mem.write, ih (wf_set hm a b), get_set_mem hm, List.length_cons]
    by_cases hj : j = a
    · subst hj
      rw [if_neg (by omega), if_pos rfl, if_pos (by omega)]
      simp
    · rw [if_neg hj]
      by_cases h1 : a + 1 ≤ j ∧ j < a + 1 + bs.length
      · have : j - a = (j - (a + 1)) + 1 := by omega
        rw [if_pos h1, if_pos (by omega), this, List.getElem?_cons_succ]
      · rw [if_neg h1, if_neg (by omega)]

/-- Bytes outside a written range read as before. -/
theorem get_write_outside {m : List Host.Cell} (hm : Mem.wf m = true) {a j : Nat} {bs : List Byte}
    (h : j < a ∨ a + bs.length ≤ j) : Mem.get (Mem.write m a bs) j = Mem.get m j := by
  rw [get_write hm, if_neg (by omega)]

/-- Bytes read back from where they were written. -/
theorem read_write_self {m : List Host.Cell} (hm : Mem.wf m = true) (a : Nat) (bs : List Byte) :
    Mem.read (Mem.write m a bs) a bs.length = bs := by
  apply List.ext_getElem?
  intro k
  by_cases hk : k < bs.length
  · simp [Mem.read, hk, get_write hm]
  · simp [Mem.read, hk]

/-- The bytes of a line's write-back keep the canonical form. -/
theorem wf_writeDirty {m : List Host.Cell} (hm : Mem.wf m = true) (l : L1Line) : Mem.wf (writeDirty m l) = true := by
  unfold writeDirty
  generalize List.range 128 = ks
  induction ks generalizing m with
  | nil => exact hm
  | cons k ks ih =>
    rw [List.foldl_cons]
    split
    · exact ih (wf_set hm _ _)
    · exact ih hm

theorem wf_foldl_set {m : List Host.Cell} (hm : Mem.wf m = true) (cs : List Host.Cell) :
    Mem.wf (cs.foldl (fun m c => Mem.set m c.1 c.2) m) = true := by
  induction cs generalizing m with
  | nil => exact hm
  | cons c cs ih => exact ih (wf_set hm _ _)

/-- The accepted stores to host memory keep its canonical form. -/
theorem wf_posted {m : List Host.Cell} (hm : Mem.wf m = true) (xs : List Posted) :
    Mem.wf (xs.foldl (fun m x => Mem.write m x.pa x.bytes) m) = true := by
  induction xs generalizing m with
  | nil => exact hm
  | cons x xs ih => exact ih (wf_write hm _ _)

theorem wf_hostView {s : State} (hm : Mem.wf s.hmem = true) : Mem.wf s.hostView = true := wf_posted hm _

/-- Accepted stores that host memory takes change nothing of what the device finds there. -/
@[simp] theorem hostView_landHits (s : State) (hit : Posted → Bool) : (s.landHits hit).hostView = s.hostView := by
  simp only [State.hostView, State.landHits, ← List.foldl_append, List.take_append_drop]

theorem wf_landHits {s : State} (hm : Mem.wf s.hmem = true) (hit : Posted → Bool) : Mem.wf (s.landHits hit).hmem = true :=
  wf_posted hm _

theorem wf_hostPut {s : State} (hm : Mem.wf s.hmem = true) (pa : Nat) (bs : List Byte) :
    Mem.wf (s.hostPut pa bs).hmem = true := wf_write (wf_landHits hm _) _ _

theorem wf_landPosted {s : State} (hm : Mem.wf s.hmem = true) (p : Nat → Bool) : Mem.wf (s.landPosted p).hmem = true := by
  unfold State.landPosted
  generalize s.posted.zipIdx = xs
  suffices h : ∀ acc : List Posted × List Host.Cell, Mem.wf acc.2 = true → Mem.wf (xs.foldl (fun acc x =>
      if p x.2 && !acc.1.any fun y => y.before x.1 then (acc.1, Mem.write acc.2 x.1.pa x.1.bytes) else (acc.1 ++ [x.1], acc.2))
        acc).2 = true from h ([], s.hmem) hm
  induction xs with
  | nil => exact fun _ h => h
  | cons x xs ih =>
    intro acc h
    rw [List.foldl_cons]
    apply ih
    split
    · exact wf_write h _ _
    · exact h

end Sys2Proof.Machine
end

