-- ==== Sys2Proof/Tests/Slice0.lean ====
section
/-!
SUPPORT. Tests: the ill-formed terms that each check of WellFormed refuses, words written out from the encodings, results
computed by hand from the rules, and for each statement a state and operands that meet its hypotheses.
-/
namespace Sys2Proof.Tests.Slice0

open Sys2Proof Sys2Proof.Machine Sys2Proof.Safety Sys2Proof.Claims

set_option Elab.async false

/-! Machines that are about to issue one instruction. -/

/-- The machine with the words of `i` as a loaded program. -/
def bench (i : Instr) : State := State.reset.loadWords (encode i)

/-- The issue of `i` in that machine, after its wave, its workgroup, its launch and the state have been set. -/
def rig (i : Instr) (fw : Wave → Wave := id) (fg : Workgroup → Workgroup := id) (fl : Launch → Launch := id)
    (fs : State → State := id) : Ctx :=
  let s := bench i
  let sl := loadSlice (some i)
  let g0 := (s.wgs.head?).getD (loadGroup 0 0 false (loadWave .vector .x 0))
  let w := fw ((g0.waves.head?).getD (loadWave .vector .x 0))
  let g := fg { g0 with waves := [w] }
  ⟨fs { s with wgs := [g], launches := s.launches.map fl }, g, w, sl, BitVec.allOnes 32,
    if loadKeeper (some i) then 0x100000 else 0⟩

/-- `Issues` as a test. -/
def issuesB (i : Instr) (c : Ctx) : Bool :=
  decide (c.s.cur = some ⟨c.ref, c.sl, c.em, c.pc⟩) && decide (c.s.wg c.g.id = some c.g) &&
  decide (c.g.wave c.w.id = some c.w) && decide (staticCauses c i = []) && !c.pendingResult i &&
  decide (c.s.wakes c.g c.w i = none) && decide (c.s.seenWave c.w c.ref c.sl = c.w) && !c.s.touched &&
  decide (c.s.reached = []) && !c.s.delayed

theorem issues_of {i : Instr} {c : Ctx} (h : issuesB i c = true) : Issues i c := by
  simp only [issuesB, Bool.and_eq_true, decide_eq_true_eq, Bool.not_eq_true'] at h
  obtain ⟨⟨⟨⟨⟨⟨⟨⟨⟨a, b⟩, d⟩, e⟩, f⟩, g⟩, k⟩, l⟩, m⟩, n⟩ := h
  exact ⟨a, b, d, e, f, g, k, l, m, n⟩

/-- `Flows` as a test. -/
def flowsB (i : Instr) (c : Ctx) : Bool :=
  c.popsReady (usesOf i) && c.roomFor (usesOf i) && (c.tokenMet (usesOf i)).isNone

theorem flows_of {i : Instr} {c : Ctx} (h : flowsB i c = true) : Flows i c := by
  simp only [flowsB, Bool.and_eq_true, Option.isNone_iff_eq_none] at h
  exact ⟨h.1.1, h.1.2, h.2⟩

/-- Queues of each kind: q0 load and q1 back with two ready slots, q2 staddr with q3 stdata, q4 and q5 result queues of the
intersection and filter islands, q6 a result queue without a link. -/
def stock (w : Wave) : Wave :=
  let two : List (List QEntry) := List.replicate 32 [.ready 5, .ready 6]
  let none_ : List (List QEntry) := List.replicate 32 []
  { w with
    budget := 64
    queues := [some ⟨.load, 8, two, .none⟩, some ⟨.back, 8, two, .none⟩, some ⟨.staddr, 8, none_, .none⟩,
      some ⟨.stdata, 8, none_, .none⟩, some ⟨.result, 8, none_, .island .intersection⟩,
      some ⟨.result, 8, none_, .island .filter⟩, some ⟨.result, 8, none_, .none⟩] ++ List.replicate 9 none }

/-- One stage ring of two slots, each side with one expected arrival. -/
def ringed (g : Workgroup) : Workgroup :=
  { g with rings := [⟨0, 2, 64, 0, 1, 1, [⟨false, 0, 0⟩, ⟨false, 0, 0⟩], [⟨false, 0, 0⟩, ⟨false, 0, 0⟩]⟩] }

/-- A constant bank of eight bytes, and 4096 bytes of scratch. -/
def supplied (l : Launch) : Launch :=
  { l with bank := [1, 2, 3, 4, 5, 6, 7, 8], kernel := { l.kernel with constants := 8, scratch := 4096, barriers := 4 } }

/-- The issue of `i` with all of these. -/
def full (i : Instr) : Ctx := rig i stock ringed supplied

/-- Lane fields of one word, and of two. -/
def lane1 (d a b : BitVec 8) : LaneFields := ⟨false, d, a, b, 0, 0x7F, 0, 0, none⟩
def lane2 (d a b c : BitVec 8) (s : BitVec 7) (mode : BitVec 4) (flags : BitVec 8) : LaneFields :=
  ⟨true, d, a, b, c, s, mode, flags, none⟩
def group (sd sa sb : BitVec 7) : GroupFields := ⟨sd, sa, sb, none⟩

/-- Every lane of these `v` registers set to a word. -/
def withV (rows : List (Nat × Word)) (w : Wave) : Wave := { w with v := ⟨rows.map fun r => (r.1, List.replicate 32 r.2), none⟩ }
/-- These `s` registers. -/
def withS (rows : List (Nat × Word)) (w : Wave) : Wave := { w with s := ⟨rows.map fun r => (r.1, [r.2]), none⟩ }

/-- What a step leaves. -/
def next? (o : Host.Outcome State Fault Refusal) : Option State := match o with
  | .next t => some t
  | _ => none
/-- The wave of the issue after it. -/
def waveOf (c : Ctx) (i : Instr) : Option Wave := (next? (exec i c.s)).bind fun t => t.wave c.ref
/-- Lane 0 of `v` register r, and `s` register r, after the instruction. -/
def vAfter (c : Ctx) (i : Instr) (r : Nat) : Option Word := (waveOf c i).map fun w => laneAt (w.vrow r) 0
def sAfter (c : Ctx) (i : Instr) (r : Nat) : Option Word := (waveOf c i).map fun w => w.sreg r
/-- The flags of the issuing slice, a mask of it, and the counter of a lane after the instruction. -/
def gfAfter (c : Ctx) (i : Instr) : Option (BitVec 5) := (waveOf c i).map fun w => (w.slice c.sl).gf
def maskAfter (c : Ctx) (i : Instr) (k : Nat) : Option Word := (waveOf c i).map fun w => (w.slice c.sl).mask k
def pcAfter (c : Ctx) (i : Instr) (l : Nat) : Option Word := (waveOf c i).map fun w => ((w.slice c.sl).thread l).pc
/-- The cause that the workgroup of the issue halts with after the instruction. -/
def causeAfter (c : Ctx) (i : Instr) : Option Cause := ((next? (exec i c.s)).bind fun t => t.wg c.g.id).bind fun g =>
  match g.status with
  | .halting h => some h.cause
  | _ => none
/-- Whether the instruction has waited. -/
def waits (c : Ctx) (i : Instr) : Bool := match exec i c.s with
  | .next t => t.stalled
  | _ => false

/-- Lane 0 of the destination v3 of a one-word form of v1 and v2 that hold `a` and `b`, with v0 as source C. -/
def lane (k : LaneFields → Instr) (a b c : Word) : Option Word :=
  let i := k (lane2 3 1 2 0 0x7F 0 0)
  vAfter (rig i (withV [(0, c), (1, a), (2, b)])) i 3
/-- The same with B at 0x00, for forms that do not read it. -/
def lane0 (k : LaneFields → Instr) (a : Word) : Option Word :=
  let i := k (lane1 3 1 0)
  vAfter (rig i (withV [(1, a)])) i 3

/-! Well-formedness: a term for each check that it refuses. -/

theorem test_wellFormed : (Instr.iadd (lane1 3 1 2)).wellFormed = true := by decide +kernel
/-- A destination that is no register or queue (R76). -/
theorem test_ill_destination : (Instr.iadd (lane1 0xFF 1 2)).wellFormed = false := by decide +kernel
/-- Fields of a modifier word that is not present (R72). -/
theorem test_ill_default : (Instr.iadd { lane1 3 1 2 with s := 0x30 }).wellFormed = false := by decide +kernel
/-- A function other than 0 without a modifier word (R72). -/
theorem test_ill_function : (Instr.imulhi (lane1 3 1 2)).wellFormed = false := by decide +kernel
/-- A literal that no field asks for, and one that a field asks for and that is missing (R65). -/
theorem test_ill_literal : (Instr.iadd { lane1 3 1 2 with lit := some 7 }).wellFormed = false ∧
    (Instr.iadd (lane1 3 1 0xFF)).wellFormed = false := by decide +kernel
/-- A mode and flags that the form does not list (R73, R74). -/
theorem test_ill_mode : (Instr.and (lane2 3 1 2 0 0x7F 8 0)).wellFormed = false ∧
    (Instr.iadd (lane2 3 1 2 0 0x7F 0 1)).wellFormed = false := by decide +kernel
/-- An odd pair (R136), and a mask selector out of range (R129). -/
theorem test_ill_pair : (Instr.iadd64 (lane1 5 2 6)).wellFormed = false ∧
    (Instr.sel (lane2 3 1 2 0x8C 0x7F 0 0)).wellFormed = false := by decide +kernel
/-- A group source of the literal without one (R85), and a field that the form leaves at 0 (R108). -/
theorem test_ill_group : (Instr.sadd (group 0x30 0x7F 0x31)).wellFormed = false ∧
    (Instr.snot (group 0x30 0x31 0x32)).wellFormed = false := by decide +kernel
/-- Hints of `endrun` that name no register (R205). -/
theorem test_ill_hints : (Instr.endrunHinted 0x0000D000).wellFormed = false := by decide +kernel
/-- An event has no check. -/
theorem test_event : Instr.linkDown.wellFormed = true ∧ Instr.linkDown.isEvent = true := by decide +kernel

/-! Words of the specification's examples, and words put together bit by bit from R70, R71, R80 and R82. -/

/-- `iadd v3, v1, v2`: opcode 0x00, D, A, B. -/
theorem test_decode_iadd : decode [0x00030102] = .instr (.iadd (lane1 3 1 2)) := by decide +kernel
/-- `fadd v5, v5, v242`'s constant code 0xF2. -/
theorem test_decode_fadd : decode [0x100505F2] = .instr (.fadd (lane1 5 5 0xF2)) := by decide +kernel
/-- The literal word follows when a field holds 0xFF (R65). -/
theorem test_decode_fmul : decode [0x120602FF] = .more ∧
    decode [0x120602FF, 0x40400000] = .instr (.fmul { lane1 6 2 0xFF with lit := some 0x40400000 }) := by decide +kernel
/-- X = 1, opcode 0x13; the modifier word holds C in [31:24], S in [23:17] and the function below (R71). -/
theorem test_decode_ffma : decode [0x53040100, 0x04640000] = .instr (.ffma (lane2 4 1 0 4 0x32 0 0)) := by decide +kernel
theorem test_decode_ald : decode [0x70C80100, 0x00002000] = .instr (.ald .w (lane2 0xC8 1 0 0 0 0 0)) := by decide +kernel
theorem test_decode_bnz : decode [0x2B07FFFD] = .instr (.bnz 7 0xFFFD) := by decide +kernel
/-- `sadd s48, s48, m…`: the fields of 7 bits and the function of 3 (R82). -/
theorem test_decode_sadd : decode [0x8060C380] = .instr (.sadd (group 0x30 0x30 0x70)) := by decide +kernel
theorem test_decode_scmp : decode [0x8964CDA2] = .instr (.scmp .lt (group 0x32 0x33 0x34)) := by decide +kernel
theorem test_decode_exit : decode [0x2F000001] = .instr .exit := by decide +kernel
theorem test_decode_barSync : decode [0xA9060000] = .instr (.barSync (group 3 0 0)) := by decide +kernel
/-- The literal of a group instruction with X = 1 (R85). -/
theorem test_decode_loop : decode [0xE20050B0] = .more ∧
    decode [0xE20050B0, 0x00010010] = .instr (.loop ⟨0, 0x14, 0x16, some 0x00010010⟩) := by decide +kernel
theorem test_decode_sbr : decode [0xE000C002, 0x00000004] = .instr (.sbr .nz ⟨0, 0x30, 0, some 4⟩) := by decide +kernel
theorem test_decode_mma : decode [0x7C000800, 0x00642000] = .instr (.mma .e4m3 (lane2 0 8 0 0 0x32 0 0)) := by decide +kernel
theorem test_decode_copyTile : decode [0xB8504000] = .instr (.cpyTile .gs (group 0x28 0x10 0)) := by decide +kernel
theorem test_decode_jpost : decode [0x7E0A0100, 0x12048000] = .instr (.jpostR (lane2 0xA 1 0 0x12 2 0 0)) := by decide +kernel
theorem test_decode_rtri : decode [0x7D000000, 0x04646000] = .instr (.rtri (lane2 0 0 0 4 0x32 0 0)) := by decide +kernel
theorem test_decode_run : decode [0xA3001800] = .instr (.run (group 0 6 0)) ∧
    decode [0xA3000001] = .instr .endrun ∧ decode [0xE3000001, 0x00FF0D0C] = .instr (.endrunHinted 0x00FF0D0C) := by decide +kernel
theorem test_decode_system : decode [0x3F000500] = .instr (.trap 5) ∧ decode [0x3F000001] = .instr .brk ∧
    decode [0xBE205045] = .instr (.ktk (group 0x10 0x14 8)) ∧ decode [0xA4000000] = .instr .yield := by decide +kernel
/-- Opcode 0x37 and function 0x7F of opcode 0 are not assigned (R86, R88). -/
theorem test_decode_unassigned : decode [0x37000000] = .illegal .unassignedOp ∧
    decode [0x40030102, 0x0000E000] = .illegal .unassignedOp := by decide +kernel
/-- The words of an instruction are decoded wherever the next words lead. -/
theorem test_round_trip : decode (encode (.sadd (group 0x30 0x30 0x70)) ++ [0xFFFFFFFF]) = .instr (.sadd (group 0x30 0x30 0x70)) ∧
    (Instr.sadd (group 0x30 0x30 0x70)).wellFormed = true := by decide +kernel

/-! Lane instructions: results computed by hand from the rules (05, 06, 07). -/

theorem test_iadd_wraps : lane .iadd 0xFFFFFFFF 2 0 = some 1 := by decide +kernel
/-- Saturated with mode bit 3 (R128): 2^31 − 1 + 1. -/
theorem test_iadd_saturates : vAfter (rig (.iadd (lane2 3 1 2 0 0x7F 8 0)) (withV [(1, 0x7FFFFFFF), (2, 1)]))
    (.iadd (lane2 3 1 2 0 0x7F 8 0)) 3 = some 0x7FFFFFFF := by decide +kernel
/-- The carry of `isub` is that of a + ¬b + 1 (R131): 1 for 5 − 3, 0 for 3 − 5. -/
theorem test_isub_carry : let i : Instr := .isub (lane2 3 1 2 0x81 0x7F 0 0)
    maskAfter (rig i (withV [(1, 5), (2, 3)])) i 1 = some 0xFFFFFFFF ∧ maskAfter (rig i (withV [(1, 3), (2, 5)])) i 1 = some 0 := by
  decide +kernel
theorem test_imul : lane .imul 0x10000 0x10001 0 = some 0x10000 ∧ lane .imulhi 0xFFFFFFFF 2 0 = some 0xFFFFFFFF ∧
    lane .imulhu 0xFFFFFFFF 2 0 = some 1 ∧ lane .imad 3 5 7 = some 22 := by decide +kernel
theorem test_logic : lane .and 0xF0F0 0xFF00 0 = some 0xF000 ∧ lane .or 0xF0F0 0x0F00 0 = some 0xFFF0 ∧
    lane .xor 0xFF 0x0F 0 = some 0xF0 ∧ lane .andn 0xFF 0x0F 0 = some 0xF0 ∧ lane0 .not 0xFFFFFFF0 = some 0xF := by decide +kernel
/-- A shift by 32 or more gives 0, and `sar` shifts by at most 31 (R130). -/
theorem test_shifts : lane .shl 1 31 0 = some 0x80000000 ∧ lane .shl 1 32 0 = some 0 ∧ lane .shr 0x80000000 31 0 = some 1 ∧
    lane .shr 0xFFFFFFFF 32 0 = some 0 ∧ lane .sar 0x80000000 40 0 = some 0xFFFFFFFF ∧ lane .rotl 0x80000001 33 0 = some 3 := by decide +kernel
/-- Offset 4 and length 4; a length of 0; an offset whose field is cut at bit 31 (R132). -/
theorem test_fields : lane .bfe 0xF0 0x404 0 = some 0xFFFFFFFF ∧ lane .bfeu 0xF0 0x404 0 = some 0xF ∧
    lane .bfe 0xF0 4 0 = some 0 ∧ lane .bfeu 0xF0000000 0x91C 0 = some 0xF ∧ lane .bfi 0xAB 0x808 0x11111111 = some 0x1111AB11 := by
  decide +kernel
theorem test_counts : lane0 .bfrev 1 = some 0x80000000 ∧ lane0 .popc 0xF0F = some 8 ∧ lane0 .clz 0 = some 32 ∧ lane0 .clz 1 = some 31 ∧
    lane0 .ctz 0x80 = some 7 ∧ lane0 .ctz 0 = some 32 := by decide +kernel
theorem test_extremes : lane .imin 0xFFFFFFFF 1 0 = some 0xFFFFFFFF ∧ lane .imax 0xFFFFFFFF 1 0 = some 1 ∧
    lane .uimin 0xFFFFFFFF 1 0 = some 1 ∧ lane .uimax 0xFFFFFFFF 1 0 = some 0xFFFFFFFF ∧ lane0 .iabs 0x80000000 = some 0x80000000 ∧
    lane0 .ineg 1 = some 0xFFFFFFFF := by decide +kernel
/-- The example of `prmt` (R135): a = 0x11223344, b = 0x8899AABB, c = 0x40140503. -/
theorem test_prmt : lane .prmt 0x11223344 0x8899AABB 0x40140503 = some 0x00FFAA11 := by decide +kernel
theorem test_dots : lane .sad8 0x01020304 0x04030201 10 = some 18 ∧ lane .idot4 0x01FF0201 0x01010301 0 = some 7 ∧
    lane .idot2 0x0002FFFF 0x00030001 0 = some 5 ∧ (let i : Instr := .lea (lane2 3 1 2 4 0x7F 0 0)
      vAfter (rig i (withV [(1, 0x100), (2, 3)])) i 3 = some 0x130) ∧ lane0 .mov 77 = some 77 := by decide +kernel
/-- Pairs: the low word in the lower register (R136). -/
theorem test_pairs : let add : Instr := .iadd64 (lane1 4 2 6)
    let c := rig add (withV [(2, 0xFFFFFFFF), (3, 0), (6, 1), (7, 0)])
    vAfter c add 4 = some 0 ∧ vAfter c add 5 = some 1 ∧
    (let sub : Instr := .isub64 (lane1 4 2 6)
     let c := rig sub (withV [(2, 0), (3, 1), (6, 1), (7, 0)])
     vAfter c sub 4 = some 0xFFFFFFFF ∧ vAfter c sub 5 = some 0) := by decide +kernel
theorem test_pair_shifts : let i : Instr := .shl64 (lane1 4 2 6)
    let j : Instr := .shr64 (lane1 4 2 6)
    let m : Instr := .imul64 (lane1 4 2 6)
    vAfter (rig i (withV [(2, 1), (3, 0), (6, 33)])) i 5 = some 2 ∧ vAfter (rig j (withV [(2, 0), (3, 2), (6, 33)])) j 4 = some 1 ∧
    vAfter (rig m (withV [(2, 0x80000000), (3, 0), (6, 4), (7, 0)])) m 5 = some 2 := by decide +kernel
theorem test_extensions : let i : Instr := .sext (lane1 4 2 6)
    let j : Instr := .zext (lane1 4 2 6)
    vAfter (rig i (withV [(2, 0x80), (6, 8)])) i 4 = some 0xFFFFFF80 ∧ vAfter (rig i (withV [(2, 0x80), (6, 8)])) i 5 = some 0xFFFFFFFF ∧
    vAfter (rig j (withV [(2, 0x1FF), (6, 8)])) j 4 = some 0xFF ∧ vAfter (rig j (withV [(2, 0x1FF), (6, 8)])) j 5 = some 0 := by decide +kernel
/-- With a mask selector `icmp` writes the mask (R133); `sel` chooses by a mask bit; `movs` 0 is the lane number (R134). -/
theorem test_icmp : lane (.icmp .lt) 0xFFFFFFFF 1 0 = some 1 ∧ lane (.icmp .ltu) 0xFFFFFFFF 1 0 = some 0 ∧
    (let i : Instr := .icmp .eq (lane2 0 1 2 0x82 0x7F 0 0)
     maskAfter (rig i (withV [(1, 4), (2, 4)])) i 2 = some 0xFFFFFFFF) := by decide +kernel
theorem test_sel_movs : let i : Instr := .sel (lane2 3 1 2 0x80 0x7F 0 0)
    vAfter (rig i (withV [(1, 4), (2, 5)])) i 3 = some 5 ∧
    (let i : Instr := .movs (lane1 3 0 0)
     (waveOf (rig i) i).map (fun w => laneAt (w.vrow 3) 7) = some 7) := by decide +kernel

theorem test_fadd : lane .fadd 0x3F800000 0x40000000 0 = some 0x40400000 ∧ lane .fsub 0x3F800000 0x3F800000 0 = some 0 := by decide +kernel
/-- ∞ − ∞ is the canonical NaN (R142, R162). -/
theorem test_fadd_nan : lane .fadd 0x7F800000 0xFF800000 0 = some 0x7FC00000 ∧ lane .fmul 0 0x7F800000 0 = some 0x7FC00000 := by decide +kernel
/-- 1 + 2^−24 is a tie, and 1 + 3 · 2^−24 another: both go to the even value (R148); `rp` is mode 2. -/
theorem test_rounding : lane .fadd 0x3F800000 0x33800000 0 = some 0x3F800000 ∧ lane .fadd 0x3F800001 0x33800000 0 = some 0x3F800002 ∧
    lane .ffma 0x40000000 0x40400000 0x3F800000 = some 0x40E00000 := by decide +kernel
theorem test_fmin : lane .fmin 0x7FC00001 0x3F800000 0 = some 0x7FC00000 ∧ lane .fminnum 0x7FC00001 0x3F800000 0 = some 0x3F800000 ∧
    lane .fmax 0x3F800000 0xC0000000 0 = some 0x3F800000 ∧ lane .fmaxnum 0x3F800000 0x7FC00000 0 = some 0x3F800000 := by decide +kernel
theorem test_fcmp : lane (.fcmp .lt) 0x7FC00000 0 0 = some 0 ∧ lane (.fcmp .un) 0x7FC00000 0 0 = some 1 ∧
    lane (.fcmp .eq) 0x80000000 0 0 = some 1 ∧ lane0 .fclass 0x80000001 = some 4 := by decide +kernel
theorem test_splits : lane0 (.fround .rn) 0x40200000 = some 0x40000000 ∧ lane0 .ffract 0x40200000 = some 0x3F000000 ∧
    lane .fldexp 0x3F800000 3 0 = some 0x41000000 ∧ (let i : Instr := .ffrexp (lane1 4 2 0)
      let c := rig i (withV [(2, 0x41000000)])
      vAfter c i 4 = some 0x3F000000 ∧ vAfter c i 5 = some 4) := by decide +kernel
/-- Exact results (R168): 1/2, √4, 1/√4, 2^3, log2 8, sin π/2, cos π; tanh 0. -/
theorem test_transcendentals : lane0 .frcp 0x40000000 = some 0x3F000000 ∧ lane0 .fsqrt 0x40800000 = some 0x40000000 ∧
    lane0 .frsq 0x00000000 = some 0x7F800000 ∧ lane0 .fexp2 0x40400000 = some 0x41000000 ∧ lane0 .flog2 0x41000000 = some 0x40400000 ∧
    lane0 .fsinpi 0x7F800000 = some 0x7FC00000 ∧ lane0 .fcospi 0x00000000 = some 0x3F800000 ∧ lane0 .ftanh 0xFF800000 = some 0xBF800000 := by
  decide +kernel
/-- 1 + 1 and 2 + 1 in FP16, 2 · 2 and 3 · 2, and 1 · 1 + 1 in BF16. -/
theorem test_packed : lane .hadd2 0x40003C00 0x3C003C00 0 = some 0x42004000 ∧ lane .hsub2 0x40003C00 0x3C003C00 0 = some 0x3C000000 ∧
    lane .hmul2 0x42004000 0x40004000 0 = some 0x46004400 ∧ lane .hfma2 0x3C003C00 0x3C003C00 0x3C003C00 = some 0x40004000 ∧
    lane .hmin2 0x3C004000 0x40003C00 0 = some 0x3C003C00 ∧ lane .hmax2 0x3C004000 0x40003C00 0 = some 0x40004000 ∧
    lane .bfma2 0x3F803F80 0x3F803F80 0x3F803F80 = some 0x40004000 := by decide +kernel
/-- 1 + 2, 2 · 3 and 1 · 2 + 1 in FP64: the high words. -/
theorem test_double : let add : Instr := .dadd (lane1 4 2 6)
    let mul : Instr := .dmul (lane1 4 2 6)
    let fma : Instr := .dfma (lane2 4 2 6 8 0x7F 0 0)
    vAfter (rig add (withV [(2, 0), (3, 0x3FF00000), (6, 0), (7, 0x40000000)])) add 5 = some 0x40080000 ∧
    vAfter (rig mul (withV [(2, 0), (3, 0x40000000), (6, 0), (7, 0x40080000)])) mul 5 = some 0x40180000 ∧
    vAfter (rig fma (withV [(2, 0), (3, 0x3FF00000), (6, 0), (7, 0x40000000), (8, 0), (9, 0x3FF00000)])) fma 5 = some 0x40080000 := by
  decide +kernel
/-- −1.5 to an integer, saturated 2^32, 3 to FP32 (R173), 1 to FP64 and back, and FP16 halves (R172). -/
theorem test_cvt : lane0 (.cvt .ui32F32) 0xBF800000 = some 0 ∧ (let i : Instr := .cvt .i32F32 (lane2 3 1 0 0 0x7F 1 0)
      vAfter (rig i (withV [(1, 0xBFC00000)])) i 3 = some 0xFFFFFFFF) ∧
    (let i : Instr := .cvt .f32I32 (lane2 3 1 0 0 0x7F 0 0)
     vAfter (rig i (withV [(1, 3)])) i 3 = some 0x40400000) ∧
    (let i : Instr := .cvt .f64F32 (lane2 4 1 0 0 0x7F 0 0)
     vAfter (rig i (withV [(1, 0x3F800000)])) i 5 = some 0x3FF00000) := by decide +kernel
/-- 1 and 2 in E4M3 are 0x38 and 0x40; back from element 1 (R174). -/
theorem test_cvt_fp8 : (let i : Instr := .cvtFp8Fp4 .e4m3F32 (lane2 3 1 2 0 0x7F 0 0)
      vAfter (rig i (withV [(1, 0x3F800000), (2, 0x40000000)])) i 3 = some 0x4038) ∧
    (let i : Instr := .cvtFp8Fp4 .f32E4m3 (lane2 3 1 0 1 0x7F 0 0)
     vAfter (rig i (withV [(1, 0x4038)])) i 3 = some 0x40000000) := by decide +kernel

/-! Cross-lane and group instructions (09, 04). -/

/-- Every lane of v1 holds ten times its number. -/
def tens (w : Wave) : Wave := { w with v := ⟨[(1, (List.range 32).map fun l => BitVec.ofNat 32 (10 * l)), (2, List.replicate 32 1)], none⟩ }
/-- Lane l of v3 after the instruction. -/
def vLane (c : Ctx) (i : Instr) (l : Nat) : Option Word := (waveOf c i).map fun w => laneAt (w.vrow 3) l

theorem test_shfl : let up : Instr := .shfl .up (lane2 3 1 2 0 0x7F 0 0)
    let dn : Instr := .shfl .dn (lane2 3 1 2 3 0x7F 0 0)
    let x : Instr := .shfl .xor (lane2 3 1 2 0 0x7F 0 0)
    let at_ : Instr := .shfl .idx (lane2 3 1 2 3 0x7F 0 0)
    vLane (rig up tens) up 0 = some 0 ∧ vLane (rig up tens) up 5 = some 40 ∧ vLane (rig dn tens) dn 7 = some 70 ∧
    vLane (rig dn tens) dn 6 = some 70 ∧ vLane (rig x tens) x 6 = some 70 ∧ vLane (rig at_ tens) at_ 12 = some 90 := by decide +kernel
theorem test_quads : let h : Instr := .qswp .h (lane1 3 1 0)
    let v : Instr := .qswp .v (lane2 3 1 0 0 0x7F 0 0)
    let d : Instr := .qswp .d (lane2 3 1 0 0 0x7F 0 0)
    let b : Instr := .qbc (lane2 3 1 0 2 0x7F 0 0)
    vLane (rig h tens) h 4 = some 50 ∧ vLane (rig v tens) v 4 = some 60 ∧ vLane (rig d tens) d 4 = some 70 ∧
    vLane (rig b tens) b 9 = some 100 ∧ (let i : Instr := .lbc (lane1 3 1 2); vLane (rig i tens) i 20 = some 10) := by decide +kernel
/-- The sum 0 + 10 + … + 310 is 4960; E is 0 because the set is not empty (R106, R219). -/
theorem test_lred : let i : Instr := .lred .add (lane2 0x30 1 0 0 0x7F 0 0)
    sAfter (rig i tens) i 0x30 = some 4960 ∧ gfAfter (rig i tens) i = some 0 := by decide +kernel
/-- An exclusive scan of ones, with its total, in the lanes of an empty mask and of all (R221). -/
theorem test_lscan : let i : Instr := .lscan true .add (lane2 3 2 0 0 0x30 0 0)
    vLane (rig i tens) i 0 = some 0 ∧ vLane (rig i tens) i 9 = some 9 ∧ sAfter (rig i tens) i 0x30 = some 32 ∧
    (let j : Instr := .lscan false .add (lane2 3 2 0 0x81 0x30 0 0)
     sAfter (rig j tens) j 0x30 = some 0 ∧ gfAfter (rig j tens) j = some 0x11) := by decide +kernel
/-- Lane 0 holds 0 and every other lane not (R223). -/
theorem test_votes : let any : Instr := .lvoteAny (lane2 0x30 1 0 0 0x7F 0 0)
    let all : Instr := .lvoteAll (lane2 0x30 1 0 0 0x7F 0 0)
    let bal : Instr := .lvoteBal (lane2 0x30 1 0 0 0x7F 0 0)
    let first : Instr := .lfirst (lane2 0x30 1 0 0 0x7F 0 0)
    sAfter (rig any tens) any 0x30 = some 1 ∧ sAfter (rig all tens) all 0x30 = some 0 ∧
    sAfter (rig bal tens) bal 0x30 = some 0xFFFFFFFE ∧ sAfter (rig first tens) first 0x30 = some 0 := by decide +kernel

/-- `s` register 0x30 after a group instruction on s0x31 = a and s0x32 = b, and the flags after it. -/
def groupOf (k : GroupFields → Instr) (a b : Word) (sb : BitVec 7 := 0x32) : Option Word × Option (BitVec 5) :=
  let i := k (group 0x30 0x31 sb)
  let c := rig i (withS [(0x31, a), (0x32, b)])
  (sAfter c i 0x30, gfAfter c i)

/-- GF is E, V, C, N, Z from bit 4 down (R105). -/
theorem test_sadd : groupOf .sadd 0xFFFFFFFF 1 = (some 0, some 0b00101) ∧ groupOf .sadd 0x7FFFFFFF 1 = (some 0x80000000, some 0b01010) := by
  decide +kernel
theorem test_ssub : groupOf .ssub 5 5 = (some 0, some 0b00101) ∧ groupOf .ssub 0 1 = (some 0xFFFFFFFF, some 0b00010) := by decide +kernel
theorem test_smul : groupOf .smul 3 5 = (some 15, some 0) ∧ (groupOf .smulhi 0xFFFFFFFF 2).1 = some 0xFFFFFFFF ∧
    (groupOf .smulhu 0xFFFFFFFF 2).1 = some 1 := by decide +kernel
theorem test_slogic : (groupOf .sand 12 10).1 = some 8 ∧ (groupOf .sor 12 10).1 = some 14 ∧ (groupOf .sxor 12 10).1 = some 6 ∧
    (groupOf .sandn 12 10).1 = some 4 ∧ (groupOf .snot 0 0 0).1 = some 0xFFFFFFFF ∧ (groupOf .smov 9 0 0).1 = some 9 := by decide +kernel
theorem test_sshifts : (groupOf .sshl 1 32).1 = some 0 ∧ (groupOf .sshr 0x80000000 31).1 = some 1 ∧
    (groupOf .ssar 0x80000000 32).1 = some 0xFFFFFFFF := by decide +kernel
/-- `sabs` of the most negative word sets V and gives it back (R111). -/
theorem test_sextremes : (groupOf .smin 0xFFFFFFFF 1).1 = some 0xFFFFFFFF ∧ (groupOf .smax 0xFFFFFFFF 1).1 = some 1 ∧
    (groupOf .sminu 0xFFFFFFFF 1).1 = some 1 ∧ (groupOf .smaxu 0xFFFFFFFF 1).1 = some 0xFFFFFFFF ∧
    groupOf .sabs 0x80000000 0 0 = (some 0x80000000, some 0b01010) ∧ groupOf .sneg 1 0 0 = (some 0xFFFFFFFF, some 0b00010) := by decide +kernel
theorem test_scompare : (groupOf (.scmp .lt) 0xFFFFFFFF 1) = (some 1, some 0) ∧ (groupOf (.scmp .ltu) 0xFFFFFFFF 1) = (some 0, some 1) ∧
    (groupOf .ssel 4 5).1 = some 4 := by decide +kernel
theorem test_sfields : (groupOf .sbfe 0xF0 0x404).1 = some 0xF ∧ (groupOf .sbfi 0xAB 0x808).1 = some 0xAB00 ∧
    (groupOf .spopc 0xF0F 0 0).1 = some 8 ∧ (groupOf .sclz 1 0 0).1 = some 31 ∧ (groupOf .sctz 0 0 0) = (some 32, some 0) ∧
    (let i : Instr := .sli 0x30 0x3FFF; sAfter (rig i) i 0x30 = some 0xFFFFFFFF) := by decide +kernel
theorem test_spairs : let add : Instr := .sadd64 (group 0x30 0x32 0x34)
    let sub : Instr := .ssub64 (group 0x30 0x32 0x34)
    let mul : Instr := .smul64 (group 0x30 0x32 0x34)
    let vals (a b c d : Word) : Wave → Wave := withS [(0x32, a), (0x33, b), (0x34, c), (0x35, d)]
    sAfter (rig add (vals 0xFFFFFFFF 0 1 0)) add 0x31 = some 1 ∧ gfAfter (rig sub (vals 0 0 1 0)) sub = some 0b00010 ∧
    sAfter (rig mul (vals 0 1 4 0)) mul 0x31 = some 4 := by decide +kernel
theorem test_masks : let i : Instr := .mnot (group 0x61 0x60 0)
    let j : Instr := .mlane (group 0x61 0x31 0x32)
    let e : Instr := .mpopc (group 0x30 0x60 0)
    let f : Instr := .mffs (group 0x30 0x60 0)
    maskAfter (rig i) i 1 = some 0xFFFFFFFF ∧ maskAfter (rig j (withS [(0x31, 4), (0x32, 4)])) j 1 = some 0xF0 ∧
    gfAfter (rig e) e = some 0b10001 ∧ sAfter (rig f) f 0x30 = some 0xFFFFFFFF := by decide +kernel
/-- The other mask forms, on m0 = 0xC and m2 = 0xA. -/
theorem test_mask_logic :
    let ms (w : Wave) : Wave := { w with x := { w.x with m := [0xC, 0, 0xA] ++ List.replicate 9 0 }, a := { w.a with m := [0xC, 0, 0xA] ++ List.replicate 9 0 } }
    let two (k : GroupFields → Instr) (sb : BitVec 7) : Option Word := let i := k (group 0x61 0x60 sb); maskAfter (rig i ms) i 1
    two .mand 0x62 = some 8 ∧ two .mor 0x62 = some 14 ∧ two .mxor 0x62 = some 6 ∧ two .mandn 0x62 = some 4 ∧ two .mmov 0 = some 12 ∧
    (let i : Instr := .mtos (group 0x30 0x60 0); sAfter (rig i ms) i 0x30 = some 12) ∧
    (let i : Instr := .stom (group 0x61 0x31 0); maskAfter (rig i (withS [(0x31, 9)])) i 1 = some 9) ∧
    (let i : Instr := .mclr (group 0x60 0 0); maskAfter (rig i ms) i 0 = some 0) ∧
    (let i : Instr := .mset (group 0x61 0 0); maskAfter (rig i ms) i 1 = some 0xFFFFFFFF) := by decide +kernel
/-- The bank holds 01 to 08: word 1 is 0x08070605; the last legal byte is 8 (R117). -/
theorem test_sldk : let i (sb : BitVec 7) : Instr := .sldk (group 0x30 0x31 sb)
    let c (a : Word) (sb : BitVec 7) : Ctx := rig (i sb) (withS [(0x31, a)]) id supplied
    sAfter (c 4 0) (i 0) 0x30 = some 0x08070605 ∧ causeAfter (c 4 1) (i 1) = some .constRange ∧
    causeAfter (c 7 0) (i 0) = some .misaligned := by decide +kernel
/-- `sget` of a special register leaves the flags; `sset` writes them (R118, R119). -/
theorem test_special : let i : Instr := .sset (group 0x14 0x31 0)
    gfAfter (rig i (withS [(0x31, 0x1F)])) i = some 0x1F ∧
    (let j : Instr := .sget (group 0x30 0x1B 0); sAfter (rig j id id id fun s => { s with clock := 2 ^ 32 + 7 }) j 0x30 = some 7 ∧
      sAfter (rig j id id id fun s => { s with clock := 2 ^ 32 + 7 }) j 0x31 = some 1) ∧
    (let k : Instr := .sset (group 0x1C 0x31 0)
     (next? (exec k (rig k (withS [(0x31, 1)]) id id fun s => s.updSlot 0 fun q => { q with errsticky := 3 }).s)).map (fun t =>
       ((t.slot 0).errsticky, ((t.slot 0).settleClears (t.clock + 2)).errsticky)) = some (3, 2)) := by
  decide +kernel

/-! Control flow, `exit`, the system instructions and the wave's scheduling (08, 17, 02). -/

/-- The state of a thread, the loops and the wave itself after an instruction. -/
def stAfter (c : Ctx) (i : Instr) (l : Nat) : Option ThreadState := (waveOf c i).map fun w => ((w.slice c.sl).thread l).st
/-- The slice of the issue changed. -/
def slice (sl : Slice) (f : SliceSt → SliceSt) (w : Wave) : Wave := match sl with
  | .a => { w with a := f w.a }
  | .x => { w with x := f w.x }
/-- The threads where `p` holds stand elsewhere, live. -/
def strays (p : Nat → Bool) (pc : Word) (t : SliceSt) : SliceSt :=
  { t with threads := (List.range 32).map fun l => ⟨if p l then pc else 0, .live, 0⟩ }

/-- The issue by some lanes alone. -/
def narrowed (c : Ctx) (em : Lanes) : Ctx := { c with em := em, s := { c.s with cur := some ⟨c.ref, c.sl, em, c.pc⟩ } }
/-- The issue of `i` at counter 0x20, with v7 = v. -/
def farther (i : Instr) (v : Word) : Ctx :=
  let c := rig i fun w => slice .x (fun t => { t with threads := List.replicate 32 ⟨0x20, .live, 0⟩ }) (withV [(7, v)] w)
  { c with pc := 0x20, s := { c.s with cur := some ⟨c.ref, .x, BitVec.allOnes 32, 0x20⟩ } }
/-- A branch backwards by three words from counter 0x20; the next instruction follows where the condition fails. -/
theorem test_branches : let target (i : Instr) (v : Word) : Option Word := pcAfter (farther i v) i 0;
    target (.bnz 7 0xFFFD) 1 = some 0x14 ∧ target (.bnz 7 0xFFFD) 0 = some 0x24 ∧ target (.bz 7 0xFFFD) 0 = some 0x14 ∧
    target (.blt 7 2) 0x80000000 = some 0x28 ∧ target (.bge 7 2) 0x80000000 = some 0x24 ∧ target (.jmp 0xFFFFFF) 0 = some 0x1C ∧
    target .nop 0 = some 0x24 := by decide +kernel
/-- `call` writes the return address to each lane; indirect branches fault on a target that is no multiple of 4 (R184). -/
theorem test_calls : let i : Instr := .call 3 5
    pcAfter (rig i) i 0 = some 20 ∧ vAfter (rig i) i 3 = some 4 ∧
    (let j : Instr := .callx 4 3
     pcAfter (rig j (withV [(3, 0x40)])) j 9 = some 0x40 ∧ vAfter (rig j (withV [(3, 0x40)])) j 4 = some 4 ∧
     causeAfter (rig j (withV [(3, 0x42)])) j = some .misaligned) ∧
    (let k : Instr := .brx 3; pcAfter (rig k (withV [(3, 0x80)])) k 0 = some 0x80) ∧
    (let k : Instr := .ret 3; pcAfter (rig k (withV [(3, 0x84)])) k 0 = some 0x84) := by decide +kernel
theorem test_sbr : let i : Instr := .sbr .z ⟨0, 0x30, 0, some 4⟩
    pcAfter (rig i (withS [(0x30, 0)])) i 0 = some 16 ∧ pcAfter (rig i (withS [(0x30, 1)])) i 0 = some 8 := by decide +kernel
/-- `join` and `leave`; at `mwait` a thread of the mask parks and another goes on (R190, R191). -/
theorem test_masks_join : let j : Instr := .join (group 0x61 0 0)
    let k : Instr := .leave (group 0x61 0 0)
    let m : Instr := .mwait (group 0 0x61 0)
    let half : Wave → Wave := slice .x fun t => { t with m := [0, 0x0000FFFF] ++ List.replicate 10 0 }
    maskAfter (rig j) j 1 = some 0xFFFFFFFF ∧ maskAfter (rig k half) k 1 = some 0 ∧
    stAfter (rig m half) m 3 = some (.parked (.mwait 1)) ∧ pcAfter (rig m half) m 20 = some 4 := by decide +kernel
/-- The release of `mwait`, when every live thread of the mask is parked there, and when lane 1 is not. -/
theorem test_mwaitRelease : let at_ (p : Nat → Bool) : Wave → Wave := slice .x fun t =>
      { t with m := [0, 3] ++ List.replicate 10 0, threads := (List.range 32).map fun l => ⟨0, if p l then .parked (.mwait 1) else .live, 0⟩ }
    let c := rig .nop (at_ fun l => l < 2)
    let d := rig .nop (at_ fun l => l < 1)
    let i : Instr := .mwaitRelease c.ref .x 1 0
    stAfter c i 0 = some .live ∧ pcAfter c i 1 = some 4 ∧ stAfter d i 0 = some (.parked (.mwait 1)) := by decide +kernel
/-- `loop` from 0 to 3 by 1 opens three trips; by 0 it faults; from 3 to 3 it goes to its end (R195). -/
theorem test_loop : let i (step : Word) : Instr := .loop ⟨0, 0x30, 0x32, some (step <<< 16 ||| 0x10)⟩
    let c (step a b : Word) : Ctx := rig (i step) (withS [(0x30, a), (0x32, b)])
    (waveOf (c 1 0 3) (i 1)).map (fun w => (w.x.loop 0).count) = some 3 ∧ pcAfter (c 1 0 3) (i 1) 0 = some 8 ∧
    causeAfter (c 0 0 3) (i 0) = some .loopStep ∧ pcAfter (c 1 3 3) (i 1) 0 = some 0x40 ∧
    (waveOf (c 1 3 3) (i 1)).map (fun w => (w.x.loop 0).active) = some false := by decide +kernel
/-- Negative steps count down; a trip count of 2^32 faults; a live thread elsewhere is LOOP_DIVERGED (R195). -/
theorem test_loop_corners : let i (step : Word) : Instr := .loop ⟨0, 0x30, 0x32, some (step <<< 16 ||| 0x10)⟩
    let c (step : Word) (a1 a0 b : Word) : Ctx := rig (i step) (withS [(0x30, a0), (0x31, a1), (0x32, b)])
    (waveOf (c 0xFFFF 0 5 1) (i 0xFFFF)).map (fun w => (w.x.loop 0).count) = some 4 ∧
    (let j : Instr := .loop ⟨0, 0x30, 0x32, some 0x10010⟩
     causeAfter (rig j (withS [(0x30, 0), (0x32, 0), (0x33, 1)])) j = some .loopRange ∧
     causeAfter (narrowed (rig j (slice .x (strays (fun l => 16 ≤ l) 0x40))) 0xFFFF) j = some .loopDiverged) := by decide +kernel
theorem test_lbrk : let i : Instr := .lbrk (group 0 0 0)
    causeAfter (rig i) i = some .loopInactive ∧
    (let c := rig i (slice .x fun t => { t with loops := [⟨3, true, 8, 0x40, BitVec.allOnes 32, 0, 0⟩] ++ t.loops.drop 1 })
     pcAfter c i 0 = some 0x40) := by decide +kernel
/-- The end of a loop's body: with trips left the threads go back to its start (R196). -/
theorem test_loopEnd : let c := rig .nop (slice .x fun t => { t with
        loops := [⟨3, true, 8, 0x40, BitVec.allOnes 32, 0, 0⟩] ++ t.loops.drop 1
        threads := List.replicate 32 ⟨0x40, .parked (.loopEnd 0), 0⟩ })
    let i : Instr := .loopEndReached c.ref .x 0
    pcAfter c i 0 = some 8 ∧ (waveOf c i).map (fun w => (w.x.loop 0).count) = some 2 := by decide +kernel
/-- `run` opens the wave's run; a second one waits; `endrun` closes it (R201). -/
theorem test_run : let i : Instr := .run (group 0 2 0)
    (waveOf (rig i) i).map (fun w => w.run) = some (some ⟨.x, BitVec.allOnes 32, 0, 2⟩) ∧
    waits (rig i fun w => { w with run := some ⟨.a, 1, 0, 1⟩ }) i = true ∧
    (let c := rig .endrun fun w => { w with run := some ⟨.x, BitVec.allOnes 32, 1, 1⟩ }
     issuesB .endrun c = true ∧ (waveOf c .endrun).map (fun w => w.run) = some none) := by decide +kernel
/-- The threads of the group end; others stay (R186). -/
theorem test_exit : let d := narrowed (rig .exit (slice .x (strays (fun l => 16 ≤ l) 0x40))) 0xFFFF
    issuesB .exit d = true ∧ stAfter d .exit 0 = some .exited ∧ stAfter d .exit 16 = some .live := by decide +kernel
theorem test_exit_last : ((next? (exec .exit (rig .exit).s)).bind fun t => (t.wg 1).map fun g => g.status) = some .ended := by decide +kernel
theorem test_trap : causeAfter (rig (.trap 5)) (.trap 5) = some .trap ∧ causeAfter (rig .brk) .brk = some .brk := by decide +kernel
/-- A window opens, a second `pmask` faults, and `punmask` closes it (R409). -/
theorem test_window : (waveOf (rig .pmask) .pmask).map (fun w => w.window) = some (some ⟨.x, 0⟩) ∧
    causeAfter (rig .pmask fun w => { w with window := some ⟨.x, 0⟩ }) .pmask = some .pmaskState ∧
    waits (rig .pmask id fun g => { g with request := some false }) .pmask = true ∧
    (waveOf (rig .punmask fun w => { w with window := some ⟨.x, 0⟩ }) .punmask).map (fun w => w.window) = some none := by decide +kernel
/-- `sclk` parks until the value, at most 2^24 cycles away, and goes on when it has passed (R410). -/
theorem test_sclk : let i : Instr := .sclk (group 0 0x30 0)
    stAfter (rig i (withS [(0x30, 9)])) i 0 = some (.parked (.clock 9)) ∧ pcAfter (rig i (withS [(0x30, 0)])) i 0 = some 4 ∧
    (let c := rig .nop (slice .x fun t => { t with threads := (List.range 32).map fun l => ⟨0, .parked (.clock l), 0⟩ }) id id fun s => { s with clock := 4 }
     let j : Instr := .sclkWake c.ref .x
     stAfter c j 4 = some .live ∧ stAfter c j 5 = some (.parked (.clock 5))) := by decide +kernel
theorem test_pmc : let i : Instr := .pmc (group 0x30 9 0)
    sAfter (rig i fun w => { w with pmc := [0, 2 ^ 32 * 3 + 4, 0, 0, 0, 0, 0, 0] }) i 0x30 = some 3 := by decide +kernel

/-- Two waves of one quarter-core, the second pending and unblocked at cycle 3. -/
def twoWaves (i : Instr) : Ctx :=
  let c := rig i
  let v : Wave := { c.w with id := 4, active := false, unblocked := some 3 }
  let g := { c.g with waves := [c.w, v] }
  { c with g := g, s := { c.s with wgs := [g], clock := 9 } }
/-- `yield` exchanges its wave with the pending one (R52, R188). -/
theorem test_yield : let c := twoWaves .yield
    issuesB .yield c = true ∧ c.s.earliest c.core c.w.quarter = some ⟨1, 4⟩ ∧
    ((next? (exec .yield c.s)).bind fun t => (t.wave c.ref).map fun w => (w.active, w.unblocked)) = some (false, some 9) ∧
    ((next? (exec .yield c.s)).bind fun t => (t.wave ⟨1, 4⟩).map fun w => (w.active, w.unblocked)) = some (true, none) ∧
    pcAfter c .yield 0 = some 4 ∧ pcAfter (rig .yield) .yield 0 = some 4 := by decide +kernel
/-- A blocked wave is exchanged, and a pending one enters a set with room (R52). -/
theorem test_scheduling : let c := twoWaves .nop
    let b : Wave := slice .x (fun t => { t with threads := List.replicate 32 ⟨0, .parked .grid, 0⟩ }) c.w
    let g := { c.g with waves := [b, { c.w with id := 4, active := false, unblocked := some 3 }] }
    let s := { c.s with wgs := [g] }
    let i : Instr := .waveExchange ⟨1, 0⟩ ⟨1, 4⟩
    let j : Instr := .activeSetEntry ⟨1, 4⟩
    b.blocked = true ∧ s.sameQuarter ⟨1, 0⟩ ⟨1, 4⟩ = true ∧
    ((next? (exec i s)).bind fun t => (t.wave ⟨1, 0⟩).map fun w => w.active) = some false ∧
    ((next? (exec j c.s)).bind fun t => (t.wave ⟨1, 4⟩).map fun w => w.active) = some true := by decide +kernel
/-- A keeper agent's instructions: the handler ends; tickets 5 to 6 of 6 are claimed; `halt` asks for a cut (R412, R451). -/
theorem test_keeper : let k : Instr := .ktk (group 0x10 0x14 8)
    let c := rig k (withS [(0x14, 0x200)]) id id fun s => { s with dmem := Mem.write s.dmem 0x200 [4, 0, 0, 0, 6, 0, 0, 0] }
    issuesB k c = true ∧ sAfter c k 0x10 = some 4 ∧ ((next? (exec k c.s)).map fun t => (Mem.get t.dmem 0x200)) = some 6 ∧
    ((next? (exec .rfe (rig .rfe id id id fun s => s.updCore 0 fun k => { k with handler := some 1 }).s)).map fun t => (t.core 0).handler) = some none ∧
    (let h : Instr := .halt (group 0 0x30 0); issuesB h (rig h) = true) := by decide +kernel
/-- A pre-emption request, and causes at their limits (R418, R409). -/
theorem test_requests : let c := rig .nop fun w => { w with window := some ⟨.x, 0⟩ }
    ((next? (exec (.preemptionRequest c.g.id false) c.s)).bind fun t => (t.wg c.g.id).map fun g => g.request) = some (some false) ∧
    causeAfter { c with s := { c.s with clock := 65536 } } (.pmaskLong c.ref) = some .pmaskLong ∧
    causeAfter { c with s := { c.s with clock := 65535 } } (.pmaskLong c.ref) = none := by decide +kernel
/-- An unassigned encoding at the current issue (R88). -/
theorem test_unassigned : causeAfter (rig .nop) (.unassignedEncoding .unassignedOp) = some .unassignedOp ∧
    causeAfter (rig .nop) (.instructionFetchFault .pageExec 0x40) = some .pageExec := by decide +kernel

/-! Ordering, queues, accesses and atomics (12, 10, 11). -/

/-- The columns of queue k after an instruction. -/
def colAfter (c : Ctx) (i : Instr) (k l : Nat) : Option (List QEntry) := (waveOf c i).bind fun w => (w.queue k).map fun q => q.col l
/-- The addresses of lanes for s0x30 as base and v1 as index: 0x100000 and 4 times the lane's number. -/
def lined (w : Wave) : Wave :=
  let w := stock w
  { w with v := ⟨[(1, (List.range 32).map fun l => BitVec.ofNat 32 (4 * l)), (4, List.replicate 32 7)], none⟩
           s := ⟨[(0x30, [0x100000])], none⟩ }
/-- The issue with these addresses. -/
def aimed (i : Instr) : Ctx := rig i lined ringed supplied
/-- The requests after an instruction. -/
def reqsAfter (c : Ctx) (i : Instr) : Option Nat := (next? (exec i c.s)).map fun t => t.reqs.length

theorem test_ald : let i : Instr := .ald .w (lane2 0xC8 1 0 0 0x30 0 0)
    issuesB i (aimed i) = true ∧ reqsAfter (aimed i) i = some 32 ∧ (colAfter (aimed i) i 0 3).map List.length = some 3 ∧
    (let j : Instr := .ald .w (lane2 0xC8 4 0 0 0x30 0 0)
     causeAfter (aimed j) j = some .misaligned) ∧
    (let k : Instr := .ald .w (lane2 0xC8 1 0 0 0x30 0 0)
     waits (rig k fun w => { lined w with queues := [some ⟨.load, 2, List.replicate 32 [.ready 5, .ready 6], .none⟩] ++ (lined w).queues.drop 1 }) k = true) := by
  decide +kernel
/-- A performed load gives its slot the bytes of memory, the lowest first (R3, R239). -/
theorem test_loadCompletion : let c := rig .nop stock ringed supplied
    let q : Queue := ⟨.load, 8, List.replicate 32 [.pending 77 0], .none⟩
    let w := { c.w with queues := [some q] ++ c.w.queues.drop 1 }
    let s := { c.s with
      dmem := Mem.write c.s.dmem 0x100040 [1, 2, 3, 4], wgs := [{ c.g with waves := [w] }], reqs := [⟨77, none, c.ref, .x, 0, 0, 0, .load 0 2 0x100040 .w 0 false true⟩] }
    ((next? (exec (.loadCompletion 77) s)).bind fun t => (t.wave c.ref).bind fun w => (w.queue 0).map fun q => q.col 2) =
      some [.ready 0x04030201] := by decide +kernel
theorem test_aldu : let i : Instr := .aldu .w (group 4 0x30 0)
    issuesB i (aimed i) = true ∧ reqsAfter (aimed i) i = some 1 ∧
    causeAfter (rig i (withS [(0x30, 2)])) i = some .misaligned := by decide +kernel
/-- A store forms one record, and is performed with its data: the bytes at its address, the lowest first (R240). -/
theorem test_ast : let i : Instr := .ast .w (lane2 0xCA 1 0 0 0x30 0 3)
    issuesB i (aimed i) = true ∧ (waveOf (aimed i) i).map (fun w => w.recs.map fun r => r.lanes.length) = some [32] ∧
    (let c := rig .nop fun w => { stock w with
       recs := [⟨5, false, 2, .w, 3, [⟨0, 0x100040, ⟨0, 0x100040⟩⟩], [], none⟩],
       queues := (stock w).queues.set 3 (some ⟨.stdata, 8, List.replicate 32 [.ready 0x04030201], .none⟩) }
     ((next? (exec (.storeRecordPerform c.ref) c.s)).map fun t => Mem.read t.dmem 0x100040 4) = some [1, 2, 3, 4]) := by decide +kernel
theorem test_lines : let p : Instr := .apf (lane2 0 1 0 0 0x30 0 0)
    let f : Instr := .aflush (lane2 0 1 0 0 0x30 0 3)
    let v : Instr := .ainv (lane2 0 1 0 0 0x30 0 3)
    issuesB p (aimed p) = true ∧ pcAfter (aimed v) v 0 = some 8 ∧ issuesB f (aimed f) = true ∧
    (waveOf (aimed f) f).map (fun w => w.recs.map fun r => r.flush) = some [true] := by decide +kernel
/-- A lane's word to scratch and back; an offset beyond the workgroup's scratch (R246, R247). -/
theorem test_scratch : let i : Instr := .sts .h (lane2 4 1 0 0 0x7F 0 0)
    let j : Instr := .lds .w (lane2 3 1 0 0 0x7F 0 0)
    ((next? (exec i (aimed i).s)).map fun t => (t.lateScratch.map fun x => (x.off, x.bytes, x.until_)).take 2) =
      some [(0, [7, 0], (aimed i).s.clock + 8), (4, [7, 0], (aimed i).s.clock + 8)] ∧
    ((next? (exec i (aimed i).s)).bind fun t => ((State.settleLate { t with clock := t.clock + 8 } 0).wg (aimed i).g.id).map fun g : Workgroup => (g.scratch.get 8, g.scratch.get 9)) = some (7, 0) ∧
    vLane (rig j lined (fun g => { g with scratch := ⟨[(12, 5), (14, 1)], none⟩ }) supplied) j 3 = some 0x10005 ∧
    causeAfter (rig j (withV [(1, 4096)]) id supplied) j = some .scratchRange ∧ causeAfter (rig j (withV [(1, 2)]) id supplied) j = some .misaligned := by
  decide +kernel
theorem test_queues : let push : Instr := .qpush (lane2 0xCB 4 0 0 0x7F 0 0)
    let pop : Instr := .qpop (lane2 3 0xC8 0 0 0x7F 0 0)
    let peek : Instr := .qpeek (lane2 3 0xC8 0 1 0x7F 0 0)
    let drop : Instr := .qdrop (lane2 0 0xC8 0 1 0x7F 0 0)
    let wait : Instr := .qwait (lane2 0 0xC8 0 2 0x7F 0 0)
    colAfter (aimed push) push 3 9 = some [.ready 7] ∧ vLane (aimed pop) pop 0 = some 5 ∧ colAfter (aimed pop) pop 0 0 = some [.ready 6] ∧
    vLane (aimed peek) peek 0 = some 6 ∧ colAfter (aimed drop) drop 0 0 = some [] ∧ waits (aimed wait) wait = true := by decide +kernel
/-- Status: kind 1, depth 8, two slots, both ready (R234); a token in a peeked slot is raised (R500). -/
theorem test_qstat : let i : Instr := .qstat (lane2 3 0xC8 0 0 0x7F 0 0)
    vLane (aimed i) i 0 = some 0x00280820 ∧
    (let j : Instr := .qpeek (lane2 3 0xC8 0 0 0x7F 0 0)
     causeAfter (rig j fun w => { stock w with queues := [some ⟨.load, 8, List.replicate 32 [.token ⟨.pageRead, 0, 0, 0, 0⟩], .none⟩] ++ (stock w).queues.drop 1 }) j =
       some .pageRead) := by decide +kernel
theorem test_qbind : let i : Instr := .qbind (lane2 0xCF 1 4 0 0x7F 0 0)
    let u : Instr := .qunbind (lane2 0xCE 0 0 0 0x7F 0 0)
    (waveOf (aimed i) i).map (fun w => (w.queue 7).map fun q => (q.kind, q.depth)) = some (some (.load, 4)) ∧
    (waveOf (aimed u) u).map (fun w => (w.queue 6).isNone) = some true ∧
    (let v : Instr := .qunbind (lane2 0xC8 0 0 0 0x7F 0 0); causeAfter (aimed v) v = some .queueBind) ∧
    (let b : Instr := .qbind (lane2 0xC8 1 4 0 0x7F 0 0); causeAfter (aimed b) b = some .queueBind) := by decide +kernel
/-- A release waits for a store that is not acknowledged, and completes without one (R286). -/
theorem test_fence : let i : Instr := .fence .rel (group 0 3 0)
    pcAfter (rig i) i 0 = some 4 ∧
    waits (rig i id id id fun s => { s with nextId := 9, reqs := [⟨5, none, ⟨1, 0⟩, loadSlice (some i), 0, 0, 0, .ack 3 ⟨0, 0x40⟩⟩] }) i = true := by
  decide +kernel
/-- A dirty byte goes to memory with its line (R277). -/
theorem test_writeBack : let l : L1Line := ⟨0x80, List.replicate 128 7, BitVec.allOnes 128, 2, 1, false, 0, 0⟩
    let s := State.reset.updCluster 0 fun k => { k with l1 := [l] }
    Mem.wf s.dmem = true ∧ (s.cluster 0).l1Line 0x80 = some l ∧ Mem.get (s.cleanLine 0 0x80).dmem 0x81 = 7 ∧
    Mem.get (s.cleanLine 0 0x80).dmem 0x82 = 0 ∧ ((s.dropCopies 0 3).cluster 0).l1Line 0x80 = some { l with valid := 2 } := by decide +kernel

/-- A barrier of two arrivals that counts slice x. -/
def barred (g : Workgroup) : Workgroup := { ringed g with barriers := g.barriers.set 1 ⟨2, false, true, 0, [], 0⟩ }
theorem test_barriers : let sync : Instr := .barSync (group 1 0 0)
    let arr : Instr := .barArr (group 1 0 0)
    let wait : Instr := .barWait (group 1 0 0)
    let init : Instr := .barInit (group 1 0x30 1)
    let c (i : Instr) : Ctx := rig i (withS [(0x30, 3)]) barred supplied
    issuesB sync (c sync) = true ∧ stAfter (c sync) sync 0 = some (.parked (.barrier 1)) ∧
    (waveOf (c arr) arr).map (fun w => (w.contrib 1).pending.isSome) = some true ∧ pcAfter (c wait) wait 0 = some 4 ∧
    ((next? (exec init (c init).s)).bind fun t => (t.wg 1).bind fun g => (g.barriers[1]?).map fun b => (b.expected, b.sliceA, b.sliceX)) =
      some (3, false, true) := by decide +kernel
/-- A barrier that is not declared, and an arrival that is already part of the phase (R290, R291). -/
theorem test_barState : let arr (k : BitVec 7) : Instr := .barArr (group k 0 0)
    causeAfter (rig (arr 9) id barred supplied) (arr 9) = some .barState ∧
    waits (rig (arr 1) (fun w => { w with contribs := [⟨1, 0, 1, none, none⟩] }) barred supplied) (arr 1) = true := by decide +kernel
/-- Every thread of slice x is parked. -/
def parkedOn (p : Park) (w : Wave) : Wave := slice .x (fun t => { t with threads := List.replicate 32 ⟨0, .parked p, 0⟩ }) w
/-- The second of two arrivals completes the phase and lets the parked threads go on (R292). -/
theorem test_barrierPhase : let c := rig .nop (fun w => parkedOn (.barrier 1) { w with contribs := [⟨1, 0, 0, some 0, none⟩] }) (fun g => { barred g with barriers := g.barriers.set 1 ⟨2, false, true, 1, [(1, 3)], 0⟩ }) supplied
    let i : Instr := .barrierArrivalEffect c.ref 1
    c.s.arrivalReady c.g c.w 1 = true ∧ pcAfter c i 0 = some 4 ∧
    ((next? (exec i c.s)).bind fun t => (t.wg 1).bind fun g => (g.barriers[1]?).map fun b => (b.arrivals, b.phase)) = some (0, 1) := by decide +kernel
theorem test_rings : let arr : Instr := .ringArr (group 0 0x30 0)
    let wait : Instr := .ringWait (group 0 0x30 0x31)
    (waveOf (full arr) arr).map (fun w => w.ringArrivals.length) = some 1 ∧
    stAfter (full wait) wait 0 = some (.parked (.ring false 0 0 false false)) ∧
    pcAfter (rig wait (withS [(0x31, 1)]) ringed supplied) wait 0 = some 4 ∧
    (let c := rig .nop (fun w => { w with ringArrivals := [⟨false, 0, 1, .x, 0⟩] }) ringed supplied
     ((next? (exec (.ringArrivalEffect 1 false 0 1) c.s)).bind fun t => (t.wg 1).bind fun g => (g.ring 0).bind fun r => (r.side false 1).map fun p => p.phase) =
       some true) := by decide +kernel
theorem test_ring_state : let arr : Instr := .ringArr (group 0 0x30 0)
    causeAfter (rig arr (withS [(0x30, 2)]) ringed supplied) arr = some .barState := by decide +kernel
theorem test_gbar : stAfter (rig .gbar) .gbar 0 = some (.parked .grid) ∧
    (waveOf (rig .gbar) .gbar).map (fun w => w.gridPending.isSome) = some true := by decide +kernel
theorem test_gridPhase : let c := rig .nop fun w => parkedOn .grid { w with gridArrived := true }
    ((next? (exec (.gridPhaseComplete 0) c.s)).bind fun t => (t.launch 0).map fun l => l.gridPhase) = some 1 ∧ pcAfter c (.gridPhaseComplete 0) 0 = some 4 := by
  decide +kernel
theorem test_code : let i : Instr := .icinv (group 0 0x30 0)
    issuesB i (aimed i) = true ∧ reqsAfter (aimed i) i = some 1 ∧
    waits (rig .ifence id id id fun s => { s with reqs := [⟨5, none, ⟨1, 0⟩, .x, 0, 0, 0, .icinv 0x100000⟩] }) .ifence = true ∧
    (let c := rig .ifence fun w => slice .x (fun t => { t with fbuf := [(0, 7)] }) w
     (waveOf c .ifence).map (fun w => w.x.fbuf) = some []) ∧
    causeAfter (rig i (withS [(0x30, 0), (0x31, 0x80000000)])) i = some .addrNoncanon := by decide +kernel
theorem test_icinvComplete : let s := (bench .nop).updCore 3 fun c => { c with icache := [⟨0, 0x100000, [], 0⟩] }
    let t := { s with reqs := [⟨5, none, ⟨1, 0⟩, .x, 0, 0, 0, .icinv 0x100000⟩] }
    ((next? (exec (.icinvComplete 5) t)).map fun u => ((u.core 3).icache.length, u.reqs.length)) = some (0, 0) := by decide +kernel

/-! Atomics, matrix, islands, copies and graphs (11, 13 to 16). -/

/-- Every lane adds v4 at one address: the page allows it, one request is formed for all lanes (R256, R265). -/
def oneAddress (w : Wave) : Wave := { lined w with v := ⟨[(1, List.replicate 32 0), (4, List.replicate 32 1), (5, List.replicate 32 9)], none⟩ }
/-- The page of the loaded program may be read and written. -/
def reachable : Tlb := ⟨0, 0x100000, 4096, ⟨0, 0x100000⟩, true, true, true⟩
def writable (s : State) : State := (s.updCore 0 fun c => { c with tlb := [reachable] }).updCluster 0 fun c => { c with tlb := [reachable] }
def aimedOne (i : Instr) : Ctx := rig i oneAddress ringed supplied writable

theorem test_aatom : let i : Instr := .aatom .add (lane2 0xC8 1 0 4 0x30 0 3)
    issuesB i (aimedOne i) = true ∧ flowsB i (aimedOne i) = true ∧ reqsAfter (aimedOne i) i = some 1 ∧
    (colAfter (aimedOne i) i 0 31).map List.length = some 3 ∧
    (let j : Instr := .aatom .xchg (lane2 0xC8 1 0 4 0x30 0 3); reqsAfter (aimedOne j) j = some 32) := by decide +kernel
/-- A misaligned lane faults, and gives a status under `.nf` (R256, R267). -/
theorem test_aatom_faults : let at_ (flags : BitVec 8) : Instr := .aatom .add (lane2 0xC8 4 0 4 0x30 0 flags)
    causeAfter (rig (at_ 3) oneAddress ringed supplied writable) (at_ 3) = some .misaligned ∧
    (colAfter (rig (at_ 0x13) oneAddress ringed supplied writable) (at_ 0x13) 0 0).map (fun c => c.drop 2) = some [.ready 0x80000018, .ready 0] := by
  decide +kernel
theorem test_other_atomics : let cas : Instr := .acas .w (lane2 0xC8 1 0 4 0x30 0 3)
    let red : Instr := .ared .add (lane2 0 1 0 4 0x30 0 3)
    let enq : Instr := .aenq (lane2 0xC8 1 0 4 0x30 4 3)
    let deq : Instr := .adeq (lane2 0xC8 1 0 0 0x30 4 3)
    reqsAfter (aimedOne cas) cas = some 32 ∧ reqsAfter (aimedOne red) red = some 1 ∧ reqsAfter (aimedOne enq) enq = some 32 ∧
    reqsAfter (aimedOne deq) deq = some 32 := by decide +kernel
/-- The machine with one atomic request of lane 0 at device address 0x200, and its queue slots pending. -/
def atomicAt (work : AtomWork) (size : Nat) (ops : List (Nat × List Word)) (slots : Nat) (bytes : List Byte) : State :=
  let c := rig .nop stock
  let q : Queue := ⟨.load, 8, List.replicate 32 ((List.range slots).map fun k => .pending 77 k), .none⟩
  { c.s with
    wgs := [{ c.g with waves := [{ c.w with queues := [some q] ++ c.w.queues.drop 1 }] }]
    dmem := Mem.write c.s.dmem 0x200 bytes
    reqs := [⟨77, none, c.ref, .x, 0, 0, 0, .atomic work ⟨0, 0x200⟩ 0x200 3 size ops (some 0) false⟩] }
/-- Memory and lane l's column after it. -/
def performed (s : State) (a n l : Nat) : Option (List Byte × List QEntry) :=
  (next? (exec (.atomicPerform 77) s)).bind fun t => (t.wave ⟨1, 0⟩).bind fun w => (w.queue 0).map fun q => (Mem.read t.dmem a n, q.col l)
/-- 5 + 1 + 2: lane 0 finds 5 and lane 1 finds 6 (R265). -/
theorem test_rmw : performed (atomicAt (.rmw .add) 4 [(0, [1]), (1, [2])] 1 [5, 0, 0, 0]) 0x200 4 1 = some ([8, 0, 0, 0], [.ready 6]) ∧
    performed (atomicAt (.rmw .min) 4 [(0, [0xFFFFFFFF])] 1 [5, 0, 0, 0]) 0x200 1 0 = some ([0xFF], [.ready 5]) := by decide +kernel
theorem test_cas : performed (atomicAt .cas 4 [(0, [5, 9])] 1 [5, 0, 0, 0]) 0x200 1 0 = some ([9], [.ready 5]) ∧
    performed (atomicAt .cas 4 [(0, [6, 9])] 1 [5, 0, 0, 0]) 0x200 1 0 = some ([5], [.ready 5]) := by decide +kernel
/-- A ring of two elements: head 0, tail 1; full at 2; empty at 0; a bad count is RING_FORM (R262 to R264). -/
theorem test_ringBlock :
    (performed (atomicAt (.enq 1) 4 [(0, [7])] 1 [0, 0, 0, 0, 1]) 0x204 1 0) = some ([2], [.ready 1]) ∧
    (performed (atomicAt (.enq 1) 4 [(0, [7])] 1 [0, 0, 0, 0, 1]) 0x224 1 0).map Prod.fst = some [7] ∧
    (performed (atomicAt (.enq 1) 4 [(0, [7])] 1 [0, 0, 0, 0, 2]) 0x204 1 0) = some ([2], [.ready 0]) ∧
    (performed (atomicAt (.deq 1) 4 [(0, [])] 2 [0, 0, 0, 0, 0]) 0x200 1 0) = some ([0], [.ready 0, .ready 0]) ∧
    (performed (atomicAt (.enq 1) 4 [(0, [7])] 1 [0, 0, 0, 0, 3]) 0x204 1 0).map Prod.snd = some [.token ⟨.ringForm, 0x200, 0, 0, 0⟩] := by decide +kernel
/-- An atomic on host memory that fails gives its lane a token (R465). -/
theorem test_host : let c := rig .nop stock
    let s := { c.s with
      wgs := [{ c.g with waves := [{ c.w with queues := [some ⟨.load, 8, List.replicate 32 [.pending 77 0], .none⟩] ++ c.w.queues.drop 1 }] }],
      reqs := [⟨77, some 0, c.ref, .x, 0, 0, 0, .atomic (.rmw .add) ⟨1, 0x200⟩ 0x200 4 4 [(0, [1])] (some 0) false⟩] }
    let col (o : Option State) : Option (List QEntry) := o.bind fun t => (t.wave ⟨1, 0⟩).bind fun w => (w.queue 0).map fun q => q.col 0
    col (next? (exec (.hostAtomicCompletion 77 false) s)) = some [.token ⟨.hostAtomic, 0x200, 0, 0, 0⟩] ∧
    col (next? (exec (.hostAtomicCompletion 77 true) s)) = some [.ready 0] ∧
    col (next? (exec (.hostCompletionTimeout 77) { s with clock := 10000 * 2400 })) = some [.token ⟨.hostAtomic, 0x200, 0, 0, 0⟩] ∧
    col (next? (exec (.hostCompletionTimeout 77) { s with clock := 10000 * 2400 - 1 })) = some [.pending 77 0] := by decide +kernel

/-- FP16 ones in A and B: each element is 16 (R315, R319). -/
theorem test_mma : let i : Instr := .mma .f16 (lane2 0 8 0 0 0x30 0 0)
    let ones : Wave → Wave := fun w => { w with v := ⟨(List.range 8).map fun k => (8 + k, List.replicate 32 0x3C003C00), none⟩ }
    let c := rig i ones (fun g => { g with scratch := ⟨(List.range 512).map fun k => (2 * k + 1, 0x3C), none⟩ }) supplied
    issuesB i c = true ∧ (waveOf c i).map (fun w => (laneAt (w.tileRow 0 3) 5, w.latchB.isSome)) = some (0x41800000, true) := by decide +kernel
/-- A latch of another tag, a partial group with a queue, scratch misaligned and out of range (R329). -/
theorem test_mma_causes : let rb : Instr := .mma .f16 (lane2 0 8 0 0 0x7F 0 0x20)
    let i : Instr := .mma .f16 (lane2 0 8 0 0 0x30 0 0)
    let sp : Instr := .mmasp .f16 (lane2 0 8 0 40 0x30 0 0)
    causeAfter (rig rb id id supplied) rb = some .mmaLatch ∧ causeAfter (rig i (withS [(0x30, 64)]) id supplied) i = some .misaligned ∧
    causeAfter (rig i (withS [(0x30, 4096)]) id supplied) i = some .scratchRange ∧ issuesB sp (rig sp id id supplied) = true := by decide +kernel
/-- Sixteen products of 1 · 1 and 2 (R323); a tile's row to registers and back, and cleared (R324). -/
theorem test_tiles : let dot : Instr := .fdot16 .e4m3 (lane2 3 8 12 0 0x7F 0 0)
    let va : Instr := .amovVa (lane2 8 1 0 2 0x7F 0 0)
    let av : Instr := .amovAv (lane2 1 8 0 2 0x7F 0 0)
    let clr : Instr := .aclr (lane2 1 0 0 0 0x7F 0 0)
    let row (w : Wave) : Wave := { w with tiles := ⟨(List.range 32).map fun l => (32 + l, (List.range 32).map fun n => BitVec.ofNat 32 (100 * l + n)), none⟩ }
    vLane (rig dot fun w => { w with v := ⟨[(0, List.replicate 32 0x40000000)] ++ (List.range 8).map (fun k => (8 + k, List.replicate 32 0x38383838)), none⟩ }) dot 0 =
      some 0x41900000 ∧
    (waveOf (rig va row) va).map (fun w => laneAt (w.vrow 9) 3) = some 317 ∧
    (waveOf (rig av fun w => { row w with v := ⟨[(9, List.replicate 32 6)], none⟩ }) av).map (fun w => laneAt (w.tileRow 1 3) 17) = some 6 ∧
    (waveOf (rig clr row) clr).map (fun w => laneAt (w.tileRow 1 3) 17) = some 0 := by decide +kernel
/-- One product and an addend: 3 + 2^−30 is cut 20 bits below its leading bit (R315). -/
theorem test_chunk : chunkAdd [.fin false 3 0, .fin false 1 (-30)] (.fin false 1 0) = 0x40800000 ∧
    chunkAdd [.inf false] (.inf true) = 0x7FC00000 ∧ Log2Is (.fin false 3 0) 1 ∧ Truncates 1 (.fin false 1 (-30)) 0 := by
  refine ⟨by decide +kernel, by decide +kernel, ⟨false, 3, 0, rfl, by decide +kernel⟩, ⟨false, 1, -30, rfl, 0, by decide +kernel, by decide +kernel⟩⟩

theorem test_islands : let box : Instr := .ibox (lane2 0xCC 8 16 0 0x7F 0 0)
    let tri : Instr := .itri (lane2 0xCC 8 16 0 0x7F 0 0)
    let sample : Instr := .tsmp (lane2 0xCD 8 0 0 0x30 0 0)
    reqsAfter (full box) box = some 1 ∧ (colAfter (full box) box 4 0).map List.length = some 1 ∧ (colAfter (full tri) tri 4 0).map List.length = some 3 ∧
    reqsAfter (full sample) sample = some 1 ∧
    (let bad : Instr := .ibox (lane2 0xCD 8 16 0 0x7F 0 0); causeAfter (full bad) bad = some .islandLink) ∧
    (let prim : Instr := .iprim (lane2 0xCC 8 16 0 0x7F 0 0); causeAfter (full prim) prim = some .islandFn) ∧
    waits (rig box stock id id fun s => s.updCluster 0 fun k => { k with channels := List.replicate 128 ⟨0, false⟩ }) box = true := by decide +kernel
theorem test_pixel_requests : let st : Instr := .ist (lane2 0 8 0 0 0x30 0 0)
    let r : Instr := .rtri (lane2 0 8 0 4 0x30 0 0)
    let b : Instr := .bpx (lane2 0 8 0 0 0x30 0 0)
    let l : Instr := .ilink (lane2 0xCE 0 0 1 0x7F 0 0)
    reqsAfter (full st) st = some 1 ∧ causeAfter (full r) r = some .islandDesc ∧
    ((next? (exec r (rig r (withS [(0x30, 0x00100010)])).s)).bind fun t => (t.wg 1).map fun g => g.raster.items.length) = some 33 ∧
    issuesB b (full b) = true ∧ (waveOf (full l) l).map (fun w => (w.queue 6).map fun q => q.attach) = some (some (.island .filter)) ∧
    (let u : Instr := .ilink (lane2 0xCC 0 0 3 0x7F 0 0)
     (waveOf (full u) u).map (fun w => (w.queue 4).map fun q => q.attach) = some (some .none)) := by decide +kernel
/-- A ray along x from −1 enters the box [0, 1]³'s face at parameter 1; a ray with a NaN hits nothing (R338). -/
theorem test_ibox : iboxResult ([0xBF800000, 0x3F000000, 0x3F000000, 0x3F800000, 0, 0, 0, 0x7F800000] ++
      [0, 0, 0, 0x3F800000, 0x3F800000, 0x3F800000]) = [0x3F800000] ∧
    iboxResult ([0x7FC00000, 0, 0, 0x3F800000, 0, 0, 0, 0x7F800000] ++ [0, 0, 0, 0x3F800000, 0x3F800000, 0x3F800000]) = [0x7F800000] := by decide +kernel
/-- A ray down the z axis meets the triangle (0,0,1), (1,0,1), (0,1,1) at t = 1 from (1/4, 1/4, 0) (R339). -/
theorem test_itri : itriResult ([0x3E800000, 0x3E800000, 0, 0, 0, 0x3F800000, 0, 0x7F800000] ++
      [0, 0, 0x3F800000, 0x3F800000, 0, 0x3F800000, 0, 0x3F800000, 0x3F800000]) = [0x3F800000, 0x3E800000, 0x3E800000] := by decide +kernel
/-- `tfch` of a texel in its level and of one outside (R342). -/
theorem test_texel : let d : TexDesc := ⟨0, 4, 4, 1, false, 1, 0, 64⟩
    (texPlan 5 0 d [1, 2, 0]).coords = [(1, 2, 0)] ∧ (texPlan 5 0 d [4, 2, 0]).coords = [] ∧
    (texPlan 3 0 d [0x7FC00000, 0, 0]).coords = [] ∧ (texPlan 3 0 d [0x3F000000, 0x3F000000, 0]).coords = [(2, 2, 0)] := by decide +kernel

/-! Raster and blend, the copy engine and spatial mode (14, 16, 15). -/

/-- The triangle (0,0), (4,0), (0,4) at z = 0.5: vertices as x, y, z triples, then the primitive. -/
def corner : List Word := [0, 0, 0x3F000000, 0x40800000, 0, 0x3F000000, 0, 0x40800000, 0x3F000000, 9]
/-- Its quads stand at even corners in rows; pixel (3, 3) is outside (R345, R346). -/
theorem test_coverage : (triOf corner 0).isSome = true ∧
    (triQuads corner 0 0x00100010).map cornerOf = [(0, 0), (2, 0), (0, 2)] ∧
    ((triOf corner 0).map fun t => (t.covers 0x00100010 0 0, t.covers 0x00100010 3 3)) = some (true, false) := by decide +kernel
/-- The emission of its quads, and of the end of a stream (R346, R348). -/
theorem test_raster : let items (n : Nat) : List RasterItem := [⟨n, corner, 0, 0x00100010, false, false⟩, ⟨n, [], 0, 0, true, false⟩]
    let c := rig .nop id (fun g => { g with raster := ⟨items 5, false, [], [], [], 0, []⟩ })
    ((next? (exec (.rasterQuadEmit 1) c.s)).bind fun t => (t.wg 1).map fun g => (g.raster.batch.length, g.raster.nextPlace, g.raster.items.length)) =
      some (3, 12, 1) ∧
    (let d := rig .nop id (fun g => { g with raster := ⟨(items 5).drop 1, false, [⟨0, []⟩], [], [], 4, []⟩ })
     ((next? (exec (.rasterQuadEmit 1) d.s)).bind fun t => (t.wg 1).map fun g => (g.raster.ended, g.raster.closed.length)) = some (true, 1)) := by
  decide +kernel
def endedStream (g : Workgroup) : Workgroup := { g with raster := ⟨[], true, [], [], [(0, 0)], 0, []⟩ }
def rasterQueue (w : Wave) : Wave := { w with queues := [some ⟨.result, 8, List.replicate 32 [], .island .raster⟩] ++ w.queues.drop 1 }
/-- An empty batch after the end of the stream detaches the earliest link (R348). -/
theorem test_rasterBatch : let c := rig .nop rasterQueue endedStream
    c.g.firstLink = some ((0, 0), true) ∧
    ((next? (exec (.rasterBatchPlace 1) c.s)).bind fun t => (t.wave ⟨1, 0⟩).bind fun w => (w.queue 0).map fun q => (q.attach, (q.col 0).length)) =
      some (.none, 5) := by decide +kernel
/-- A line of the blend island goes to memory (R352). -/
theorem test_blendWriteback : let s := State.reset.updCluster 0 fun k => { k with blend := [⟨0x80, List.replicate 128 7, [], []⟩] }
    let t := { s with owned := [⟨0x80, .blend 0⟩] }
    heldLine t 0 0x80 = some (List.replicate 128 7) ∧
    ((next? (exec (.blendWriteback 0 0x80) t)).map fun u => (Mem.get u.dmem 0xFF, u.owned.length, (u.cluster 0).blend.length)) = some (7, 0, 0) := by
  decide +kernel
/-- A request without a lane left is done; one with a misaligned table halts its workgroup (R351). -/
theorem test_blendApply : let s (lanes : List (Nat × List Word)) (obj : DWord) : State :=
      { bench .nop with reqs := [⟨77, none, ⟨1, 0⟩, .x, 0, 0, 0, .island 9 0 96 lanes [] obj none 0 true⟩] }
    ((next? (exec (.blendApply 77) (s [] 0))).map fun t => t.reqs.length) = some 0 ∧
    ((next? (exec (.blendApply 77) (writable (s [(0, [0, 0, 0, 0, 0])] 0x100040)))).bind fun t => (t.wg 1).map fun g => match g.status with
      | .halting h => some h.cause
      | _ => none) = some (some .islandDesc) := by decide +kernel
/-- A result comes to its slots, and an accepted entry gives its slot back (R336, R355). -/
theorem test_islandEvents : let c := rig .nop fun w => { stock w with queues := [some ⟨.result, 8, List.replicate 32 [.pending 77 0], .island .intersection⟩] ++ (stock w).queues.drop 1 }
    let s (accepted : Bool) : State := { c.s with reqs := [⟨77, none, ⟨1, 0⟩, .x, 0, 0, 0, .island 0 0 3 [(2, List.replicate 14 0)] [] 0 (some 0) 1 accepted⟩] }
    ((next? (exec (.islandRequestComplete 77) (s true))).bind fun t => (t.wave ⟨1, 0⟩).bind fun w => (w.queue 0).map fun q => (q.col 2, q.col 1)) =
      some ([.ready 0x7F800000], [.pending 77 0]) ∧
    ((next? (exec (.channelSlotReturn 77) (s false))).map fun t => ((t.channel 0 3).free, (s false |>.channel 0 3).free)) = some (17, 16) := by decide +kernel
/-- An audit that finds the count right, wrong, and wrong again (R356); an image taken and one held off (R332). -/
theorem test_audit : let s (n : Nat) (bad : Bool) : State := { State.reset with
      reqs := [⟨77, none, ⟨1, 0⟩, .x, 0, 0, 0, .island 0 0 3 [] [] 0 (some 0) 1 false⟩] }.updChannel 0 3 fun _ => ⟨n, bad⟩
    let after (n : Nat) (bad : Bool) : Option (Channel × Nat) := (next? (exec (.slotAudit 0 3 16 1) (s n bad))).map fun t => (t.channel 0 3, t.reqs.length)
    after 15 true = some (⟨15, false⟩, 1) ∧ after 10 false = some (⟨15, true⟩, 1) ∧ after 10 true = some (⟨16, false⟩, 0) ∧
    after 17 false = some (⟨16, false⟩, 0) ∧
    ((next? (exec (.slotAudit 0 3 14 0) (s 10 false))).map fun t => t.channel 0 3) = some ⟨10, false⟩ ∧ (s 15 true).freeSlots 0 3 = 15 ∧
    ((next? (exec (.islandImageLoad 0 .filter 0) State.reset)).map fun t => (t.image 0 .filter).isSome) = some true ∧
    (bench .nop).clusterBusy 0 = true := by decide +kernel

/-- `cpy.lin.gs` of 16 bytes from 0x100000 to scratch 64, at `.dev`. -/
def copyRegs (n : Word) (w : Wave) : Wave :=
  withS [(0x30, 0x100000), (0x31, 0), (0x32, 64), (0x33, 0), (0x34, n), (0x35, 0), (0x36, 0), (0x37, 3)] w
theorem test_cpyLin : let i : Instr := .cpyLin .gs (group 0x10 0x30 0)
    let c (n : Word) : Ctx := rig i (copyRegs n) ringed supplied
    issuesB i (c 16) = true ∧ ((next? (exec i (c 16).s)).map fun t => t.cmds.map fun k => (k.todo.length, k.scope)) = some [(1, 3)] ∧
    sAfter (c 16) i 0x10 = some 0 ∧ causeAfter (c 0) i = some .copyForm ∧ causeAfter (c 4096) i = some .scratchRange := by decide +kernel
theorem test_cpyLane : let i : Instr := .cpyGth (lane2 0x20 1 0 0 0x30 2 3)
    let j : Instr := .cpySct (lane2 0x20 1 0 0 0x30 2 3)
    let c (i : Instr) : Ctx := rig i (fun w => { lined w with s := ⟨[(0x20, [0x80]), (0x21, [0]), (0x30, [0x100000])], none⟩ }) ringed supplied
    issuesB i (c i) = true ∧ ((next? (exec i (c i).s)).map fun t => t.cmds.map fun k => k.todo.length) = some [32] ∧
    ((next? (exec j (c j).s)).map fun t => t.cmds.map fun k => k.todo.length) = some [32] := by decide +kernel
/-- A record of format 3, four rows and columns with a pitch of 16 (R390). -/
def record : List Byte := [0, 0, 0x10, 0, 0, 0, 0, 0] ++ List.replicate 8 0 ++ [16, 0, 0, 0] ++ List.replicate 4 0 ++
  [4, 0, 0, 0, 4, 0, 0, 0, 3, 0, 0, 0] ++ List.replicate 28 0
theorem test_layout : record.length = 64 ∧ layoutOf record = some ⟨0x100000, 0, 16, 0, 4, 4, 3⟩ ∧ layoutOf (record.set 40 1) = none := by decide +kernel
/-- A tile of two rows and two columns, with the record in the layout cache; its status while it runs (R393, R400). -/
theorem test_cpyTile : let i : Instr := .cpyTile .gs (group 0x10 0x20 0)
    let cached (s : State) : State := s.updCluster 0 fun k => { k with layouts := [⟨0, 0x100000, record⟩] }
    let c := rig i (withS [(0x20, 0x100000), (0x24, 0x00020002), (0x25, 64), (0x27, 3)]) ringed supplied cached
    issuesB i c = true ∧ ((next? (exec i c.s)).map fun t => t.cmds.map fun k => k.todo.map fun m => m.n) = some [[4, 4]] ∧
    (let r : Instr := .lrec (group 0x10 0x20 0); sAfter (rig r (withS [(0x20, 0x100000)]) id id cached) r 0x10 = some 0) ∧
    (let j : Instr := .cpyStat (group 0x10 0x20 0)
     sAfter (rig j fun w => { w with copyStatus := [(0, 0x80000000)] }) j 0x10 = some 0x80000000 ∧ sAfter (rig j) j 0x10 = some 0x20000000) ∧
    ((next? (exec .tfence (rig .tfence id id id cached).s)).map fun t => (t.cluster 0).layouts.length) = some 0 := by decide +kernel
/-- 200 bytes from 0x100040: in memory the pieces end at lines, and scratch is written by its units of 16 bytes (R279, R395). -/
theorem test_pieces : (splitMoves [⟨.global 0x100040, .global 0x200040, 200⟩]).map (fun m => m.n) = [64, 128, 8] ∧
    (splitMoves [⟨.global 0x100042, .scratch 6, 27⟩]).map (fun m => (m.dst, m.n)) = [(.scratch 6, 10), (.scratch 16, 16), (.scratch 32, 1)] := by
  decide +kernel
/-- A command is admitted, moves its bytes into scratch, and completes with status 0 (R399, R400). -/
theorem test_copyEvents : let k (started : Bool) (todo : List Move) : Command := ⟨9, ⟨1, 0⟩, 0, 0, 0, 0, 3, false, todo, none, 0, started, none, none, []⟩
    let c := rig .nop (fun w => { w with copyStatus := [(0, 0x80000000)] }) ringed supplied writable
    let s (k : Command) : State := { c.s with cmds := [k], dmem := Mem.write c.s.dmem 0x100040 [1, 2, 3, 4] }
    let move : Move := ⟨.global 0x100040, .scratch 8, 4⟩
    ((next? (exec (.copyEngineServe 0) (s (k false [move])))).map fun t => t.cmds.map fun k => k.started) = some [true] ∧
    ((next? (exec (.copyEngineServe 0) (s (k true [move])))).bind fun t => (t.wg 1).map fun g => g.scratch.read 8 4) = some [1, 2, 3, 4] ∧
    ((next? (exec (.copyCommandComplete 9) (s (k true [])))).bind fun t => (t.wave ⟨1, 0⟩).map fun w => w.copyStatus) = some [(0, 0)] := by decide +kernel
theorem test_copyFailure : let c := rig .nop fun w => { w with copyStatus := [(0, 0x80000000)] }
    let s : State := { c.s with cmds := [⟨9, ⟨1, 0⟩, 0, 0, 0, 0, 3, false, [], none, 0, true, some (.pageAbsent, 0x40), none, []⟩] }
    causeAfter { c with s := s } (.copyDataFailure 9) = some .pageAbsent ∧
    ((next? (exec (.directoryRecall 0 0x80) { s with owned := [⟨0x80, .command 3⟩] })).map fun t => t.owned.length) = some 0 := by decide +kernel

/-- A graph image of one result node at row 1, one hop from its input (R361 to R366). -/
def image : List Word := [0x47460100, 0x00020001, 0x01010001, 0x00010110, 0x40, 0, 0, 0, 0xE0001000] ++ List.replicate 7 0 ++
  [0x60001000, 0, 0x80000000, 0] ++ List.replicate 12 0
theorem test_image : (imageNodes image).isSome = true ∧ imageNodes (image.set 16 0x60002000) = none := by decide +kernel
/-- The cluster's context 2 holds it, with a share of two columns for slot 0. -/
def contexted (s : State) : State := s.updCluster 0 fun k =>
  { k with contexts := k.contexts.set 2 ⟨0, 0, 0x100000, image, 1, none, 64, none, 0⟩, ranges := [(0, 0, 2)] }
def graphed (g : Workgroup) : Workgroup := { g with graphs := g.graphs.set 1 (some 2) }
theorem test_jpost : let i : Instr := .jpostR (lane2 3 8 1 0x11 0x7F 4 0)
    let c := rig i id graphed supplied contexted
    issuesB i c = true ∧ ((next? (exec i c.s)).map fun t => t.cards.map fun k => (k.ctx, k.slot, k.tokens.length)) = some [(2, 1, 32)] ∧
    causeAfter (rig i) i = some .graphState ∧ (let j : Instr := .jpostR (lane2 3 8 1 0x12 0x7F 4 0); causeAfter (rig j id graphed supplied contexted) j = some .jobForm) := by
  decide +kernel
/-- A card of one token for lane 0, in slot 1 of its wave. -/
def card (st : TokenState) (work : Option TokenWork) (bound : Option Nat) : Card :=
  ⟨50, 50, ⟨1, 0⟩, 1, 0, 0, 0, 1, 2, 1, 3, none, 0, 1, [⟨0, [7], st, work, [], []⟩], bound, false, 0, false⟩
def posted (i : Instr) (k : Card) (fs : State → State := id) : Ctx :=
  rig i (fun w => { w with cards := w.cards.set 1 (some 50) }) graphed supplied fun s => fs { contexted s with cards := [k] }
/-- A live token parks its lane; a token that has left gives its result (R374); status and cancelling (R376, R377). -/
theorem test_jwait : let i : Instr := .jwait (lane2 0 0 0 0 0x7F 4 0)
    let c := posted i (card .waiting none none)
    let d := posted i (card .left (some ⟨[7], [], none⟩) (some 0))
    issuesB i c = true ∧ stAfter c i 0 = some (.parked (.card 1 1)) ∧ pcAfter c i 1 = some 8 ∧ vLane d i 0 = some 7 ∧
    (let j : Instr := .jstat (group 0x30 1 0); sAfter (posted j (card .waiting none none)) j 0x30 = some 0x80010001 ∧ sAfter (rig j) j 0x30 = some 0) ∧
    (let n : Instr := .jcancel (group 0 1 0)
     ((next? (exec n (posted n (card .waiting none none)).s)).map fun t => t.cards.map fun k => k.tokens.map fun t => t.state)
       = some [[.dropped]]) := by decide +kernel
theorem test_gload : let i : Instr := .gload (group 0x30 0x20 1)
    let put (s : State) : State := { writable s with dmem := Mem.write s.dmem 0x100040 (image.flatMap fun w => bytesOf w.toNat 4) }
    let c := rig i (withS [(0x20, 0x100040)]) id supplied put
    issuesB i c = true ∧ ((next? (exec i c.s)).bind fun t => (t.wg 1).map fun g => ((g.graph 1).isSome, t.reqs.length)) = some (true, 1) ∧
    causeAfter (rig i (withS [(0x20, 0x100020)]) id supplied put) i = some .graphImage ∧
    causeAfter (rig i (withS [(0x20, 0x100040)]) graphed supplied fun s => put (contexted s)) i = some .graphState ∧
    (let u : Instr := .gunload (group 0 0 1)
     ((next? (exec u (rig u id graphed supplied contexted).s)).bind fun t => (t.wg 1).map fun g => ((g.graph 1).isNone, (t.context 0 2).count)) = some (true, 0)) ∧
    (let s := { bench .nop with reqs := [⟨77, none, ⟨1, 0⟩, .x, 0, 0, 0, .gload 0x30 1⟩] }
     ((next? (exec (.gloadComplete 77) s)).bind fun t => (t.wave ⟨1, 0⟩).map fun w => w.sreg 0x30) = some 1) := by decide +kernel
/-- A card is bound and its context placed at the first core in fabric mode; the placement ends; a core enters fabric mode (R359, R371). -/
theorem test_placement : let fabric (s : State) : State := (s.updCore 1 fun c => { c with fabric := true }).updCluster 0 fun k => { k with ranges := [(0, 1, 2)] }
    let s := (posted .nop (card .waiting none none)).s
    ((next? (exec (.cardBind 50) s)).map fun t => (t.cards.map fun k => k.bound, (t.context 0 2).place)) = some ([none], none) ∧
    ((next? (exec (.cardBind 50) (fabric s))).map fun t => (t.cards.map fun k => k.bound, (t.context 0 2).place)) = some ([some 0], some 1) ∧
    ((next? (exec (.graphPlacement 0 2) (s.updContext 0 2 fun x => { x with placing := some 0 }))).map fun t => (t.context 0 2).placing) = some none ∧
    ((next? (exec (.fabricModeEntry 1) s)).map fun t => (t.core 1).fabric) = some true ∧ s.coreEmpty 1 = true := by decide +kernel
/-- A token of a bound card of a placed context may be admitted, one of an unbound card is not; a token in flight leaves
(R377, R379). -/
theorem test_tokens : let placed (s : State) : State := s.updContext 0 2 fun x => { x with place := some 0, owner := 0 }
    let s (k : Card) : State := (posted .nop k placed).s
    let ready := s (card .waiting none (some 0))
    (ready.cardOpen (card .waiting none (some 0)) && ready.released ⟨1, 0⟩ .x 50 && (ready.context 0 2).placing.isNone &&
      decide (0 < (ready.context 0 2).header.depth)) = true ∧
    ((next? (exec (.tokenAdmit 50) (s (card .waiting none none)))).map fun t => t.cards.map fun k => k.tokens.map fun t => t.state) = some [[.waiting]] ∧
    ((next? (exec (.tokenLeave 50 0) (s (card (.flight 0) (some ⟨[7], [], none⟩) (some 0))))).map fun t => t.cards.map fun k => k.tokens.map fun t => t.state) =
      some [[.left]] := by decide +kernel

/-! The command processor, the host's side and the device's own events (17 to 20). -/

/-- Interface 0 maps all of the first 32 GiB to device memory, by a root entry and one leaf (R448); the device runs, and slot 0
is enabled and mapped. -/
def tabled : State :=
  { State.reset with
    boot := { State.reset.boot with powered := true, status := 1 }
    dmem := Mem.write (Mem.write [] 0x1000 (bytesOf 0x2003 8)) 0x2000 (bytesOf 0x1D 8)
    ifaces := State.reset.ifaces.set 0 { State.reset.iface 0 with root := 0x1000, on := true } }
def served (ds : List Nat) : State := tabled.updSlot 0 fun q =>
  { q with enable := true, mapped := true, context := true, assigned := some 0, buf := ds.flatMap fun d => bytesOf d 8 }
/-- Slot 0 after an event. -/
def slotAfter (i : Instr) (s : State) : Option QSlot := (next? (exec i s)).map fun t => t.slot 0
def vecPending (s : State) (fn k : Nat) : Option Bool := (vecOf s fn k).map fun v => v.pending

theorem test_doorbell : (slotAfter (.doorbell 0 8) (served [])).map (fun q => q.tail) = some 8 ∧
    (slotAfter (.doorbell 0 4) (served [])).map (fun q => (q.stopped, q.error)) = some (true, 1) ∧
    (slotAfter (.doorbell 0 0x2000) (served [])).map (fun q => q.error) = some 1 := by decide +kernel
theorem test_ringByteCopy : let s := (served []).updSlot 0 fun q => { q with tail := 8, ringbase := 0x1000 }
    (slotAfter (.ringByteCopy 0) s).map (fun q => (q.head, q.buf)) = some (8, bytesOf 0x2003 8) ∧
    (slotAfter (.ringByteCopy 0) (s.updSlot 0 fun q => { q with ringbase := 0x1000000000 })).map (fun q => q.error) = some 4 := by
  decide +kernel
/-- A fresh context; a gang waits for its last member (R428). -/
theorem test_slotEnable : (slotAfter (.slotEnable 0) tabled).map (fun q => (q.enable, q.mapped, q.context)) = some (true, true, true) ∧
    (slotAfter (.slotEnable 0) State.reset).map (fun q => q.enable) = some false ∧
    (slotAfter (.slotEnable 0) ((tabled.updSlot 0 fun q => { q with gang := 1 }).updSlot 1 fun q => { q with gang := 1 })).map
      (fun q => (q.enable, q.mapped)) = some (true, false) := by decide +kernel
theorem test_slotDisable : (slotAfter (.slotDisable 0) (served [])).map (fun q => (q.enable, q.mapped)) = some (false, false) := by decide +kernel

/-- A type, a length and a reserved field that stop the slot; a packet that is not all there (R431). -/
theorem test_packetChecks : (slotAfter (.nopPacket 0) (served [0x09010000])).map (fun q => q.error) = some 2 ∧
    (slotAfter (.signal 0) (served [0x04020003])).map (fun q => q.error) = some 3 ∧
    (slotAfter (.nopPacket 0) (served [0x01010001])).map (fun q => q.error) = some 5 ∧
    ((served [0x04030003, 0x100]).slot 0).packet = none ∧
    (served [0x04020003]).serves 0 = true ∧ (served [0x04020003]).performSignal 0 = none := by decide +kernel
theorem test_nopPacket : (slotAfter (.nopPacket 0) (served [0x01020000, 9, 8])).map (fun q => q.buf) = some (bytesOf 8 8) := by decide +kernel
theorem test_wait : let s := served [0x03030000, 0x3000, 5]
    (slotAfter (.wait 0) s).map (fun q => (q.waiting, q.buf.length)) = some (some 4096, 24) ∧
    (slotAfter (.waitPoll 0) ({ s with dmem := Mem.write s.dmem 0x3000 [6] }.updSlot 0 fun q => { q with waiting := some 4096 })).map
      (fun q => (q.waiting, q.buf.length)) = some (none, 0) := by decide +kernel
/-- A SIGNAL is taken, waits for a launch before it, and performs its store and its notification (R437). -/
theorem test_signal : let p : PendingSignal := ⟨1, 3, true, 0x3000, 7⟩
    let s := (served []).updSlot 0 fun q => { q with signals := [p] }
    (slotAfter (.signal 0) (served [0x04030103, 0x3000, 7])).map (fun q => (q.buf.length, q.signals.length)) = some (0, 1) ∧
    ((next? (exec (.signal 0) s)).map fun t => (natOfBytes (Mem.read t.dmem 0x3000 8), vecPending t 0 0, (t.slot 0).signals.length)) =
      some (7, some true, 0) := by decide +kernel
theorem test_images : (slotAfter (.images 0) (served [0x05050000, 0, 0, 0, 0])).map (fun q => (q.buf.length, q.badImage)) = some (0, false) ∧
    (slotAfter (.images 0) (served [0x05050000, 0x4000, 0, 0, 0])).map (fun q => q.badImage) = some true := by decide +kernel
theorem test_moor : (slotAfter (.moor 0) (served [0x06020000, 0])).map (fun q => q.buf.length) = some 0 := by decide +kernel

/-- A kernel of the implicit role with 8 registers and no declarations (R95, R96), at 0x4000. -/
def descriptor : List Word := [0x01000080, 0, 0, 0, 0, 0, 0, 0, 0x00080000, 0, 0xFFFFFFFF, 0x20] ++ List.replicate 20 0
/-- A launch of two workgroups of 64 threads, sequence 3 (R432). -/
def launchPacket : List Nat := [0x02100060, 0x4000, 0, 0x100000002, 0x10040_00000001, 0x1, 3, 0] ++ List.replicate 8 0
theorem test_descriptor : descriptor.length = 32 ∧ (kernelOf (laneAt descriptor) [] 2).isSome = true ∧
    kernelOf (laneAt (descriptor.set 8 0x00070000)) [] 2 = none := by decide +kernel
def withKernel (ds : List Nat) : State :=
  let s := served ds
  { s with dmem := Mem.write s.dmem 0x4000 (descriptor.flatMap fun w => bytesOf w.toNat 4) }
theorem test_launch : ((next? (exec (.launch 0) (withKernel launchPacket))).map fun t =>
      (t.launches.map fun l => (l.count, l.kernel.waves, l.sequence, l.state), (t.slot 0).buf.length)) = some ([(2, 2, 3, .waiting)], 0) ∧
    (slotAfter (.launch 0) (served launchPacket)).map (fun q => (q.terminated, q.overflow)) = some (true, true) := by decide +kernel
/-- That launch, released, with its tickets at 0x8000. -/
def released (next_ : Nat) : State :=
  let s := (next? (execLaunch 0 (withKernel launchPacket))).getD State.reset
  { s with
    launches := s.launches.map fun l => { l with state := .released, ticketAddr := 0x8000, completion := 0x3000 }
    dmem := Mem.write (Mem.write s.dmem 0x8000 (bytesOf next_ 4)) 0x8004 (bytesOf 2 4) }
theorem test_launchStart : let s : State := { withKernel [] with launches := (released 0).launches.map fun l => { l with state := .waiting } }
    ((s.launch 0).map fun l => (s.mapped l.slot, s.running, l.state)) = some (true, true, .waiting) ∧
    ((next? (exec (.launchStart 0) s)).map fun t => t.launches.map fun l => l.state) = some [.waiting] ∧
    ({ s with savepages := 1, pins := s.pins.set 0 ⟨0, true, 0x100, 1⟩ } : State).pinnedPages = 0x100 := by decide +kernel
/-- Nothing completes before its tickets are claimed; then the sequence value is stored and `done` is written (R438). -/
theorem test_launchCompletion : ((next? (exec (.launchCompletion 0) (released 0))).map fun t => t.launches.length) = some 1 ∧
    ((next? (exec (.launchCompletion 0) (released 2))).map fun t => (t.launches.length, (t.slot 0).done, natOfBytes (Mem.read t.dmem 0x3000 8))) =
      some (0, 3, 3) := by decide +kernel
/-- Two ranges conflict when their spans meet and one is written (R435). -/
theorem test_conflicts : let l := ((released 0).launches.head?).map fun l => (fun rs => ({ l with ranges := rs } : Launch))
    (l.map fun f => ((f [⟨0, 1, true⟩]).conflicts (f [⟨0, 1, false⟩]), (f [⟨0, 1, false⟩]).conflicts (f [⟨0, 1, false⟩]),
      (f [⟨0, 1, true⟩]).conflicts (f [⟨0x200, 1, true⟩]), (f []).conflicts (f [⟨0x200, 1, false⟩]))) = some (true, false, false, true) := by decide +kernel
theorem test_release : (((released 0).launches.head?).bind fun l => (released 0).release l 1 9).map (fun t => t.wgs.map fun g =>
    (g.core, g.wgid, g.waves.map fun w => ((w.x.thread 0).pc, (w.a.thread 0).st))) = some [(9, [1, 0, 0], [(0x20, .exited), (0x20, .exited)])] := by decide +kernel
/-- A requeued workgroup is placed before the tickets; with none, the next ticket is claimed (R421, R443). -/
theorem test_place : let s (rq : List Nat) : State :=
      { released 0 with launches := (released 0).launches.map fun l => { l with requeued := rq } }
    let after (rq : List Nat) : Option (List Nat × Nat × List (List Nat)) := (next? (exec (.workgroupPlace 0 3) (s rq))).map fun t =>
      (t.wgs.map (fun g => g.flat), natOfBytes (Mem.read t.dmem 0x8000 4), t.launches.map fun l => l.requeued)
    after [1] = some ([1], 0, [[]]) ∧ after [] = some ([0], 1, [[]]) ∧
    ((next? (exec (.workgroupPlace 0 3) (released 2))).map fun t => t.wgs.length) = some 0 := by decide +kernel
/-- A workgroup of slot 1, at a lower level, in the way of work that fits nowhere (R440). -/
def crowded : State :=
  let s := (released 0).updSlot 0 fun q => { q with level := 5 }
  let s := (s.updSlot 1 fun q => { q with mapped := true }).updLaunch 0 fun l => { l with kernel := { l.kernel with roles := l.kernel.roles.map fun r => { r with vregs := 100000 } } }
  { s with
    launches := s.launches ++ s.launches.map fun l => { l with id := 7, slot := 1 }
    wgs := [{ loadGroup 0 0 false (loadWave .vector .x 0) with id := 40, launch := 7, flat := 1, request := none }] }
theorem test_preempt : ((next? (exec (.priorityPreempt 0) crowded)).map fun t => t.wgs.map fun g => g.request) = some [some false] ∧
    ((next? (exec (.priorityPreempt 1) crowded)).map fun t => t.wgs.map fun g => g.request) = some [none] := by decide +kernel
/-- A starved slot ages by one level after a period; priority 7 stays there (R441). -/
theorem test_ageing : let s (c p : Nat) : State := { (released 0).updSlot 0 fun q => { q with starved := some 0, priority := p, level := 2 } with clock := c }
    (slotAfter (.ageingPeriod 0) (s 4800000 2)).map (fun q => (q.level, q.starved)) = some (3, some 4800000) ∧
    (slotAfter (.ageingPeriod 0) (s 4799999 2)).map (fun q => q.level) = some 2 ∧
    (slotAfter (.ageingPeriod 0) (s 4800000 7)).map (fun q => q.level) = some 7 := by decide +kernel
/-- All of its live threads park at a barrier while another workgroup waits for a place (R444). -/
theorem test_exchange : let g : Workgroup := { loadGroup 0 0 false (parkedOn (.barrier 1) (loadWave .vector .x 0)) with id := 40, launch := 0, exchangeSince := some 0 }
    let s (c : Nat) : State := { released 1 with wgs := [g], clock := c }
    g.exchangeable = true ∧
    ((next? (exec (.exchangePeriod 40) (s (2 ^ 18)))).map fun t => t.wgs.map fun g => g.request) = some [some false] ∧
    ((next? (exec (.exchangePeriod 40) (s (2 ^ 18 - 1)))).map fun t => t.wgs.map fun g => g.request) = some [none] := by decide +kernel
/-- A halt that has reached its slices ends the context; a held one only its workgroup (R413, R417). -/
def halted (held : Bool) : State := { released 2 with
  wgs := [{ loadGroup 0 0 false (loadWave .vector .x 0) with
    id := 40, launch := 0, status := .halting ⟨.trap, 0, some .x, some 0, 8, 0, 0, 1, 0, 0, 0, 0, held, none, false, 0, true, [], [(0, .x), (0, .a)], []⟩ }] }
theorem test_haltComplete : ((next? (exec (.haltComplete 40) (halted false))).map fun t => (t.wgs.length, t.launches.length, (t.slot 0).terminated)) =
      some (0, 0, true) ∧
    ((halted true).wg 40).map (fun g => (halted true).drained g [(0, .x), (0, .a)] fun _ => false) = some true := by decide +kernel
/-- A cut by save, and one by discard, of a workgroup without anything in flight (R419 to R421). -/
theorem test_cuts : let g (st : RunStatus) (r : Option Bool) : Workgroup :=
      { loadGroup 0 0 false (loadWave .vector .x 0) with id := 40, launch := 0, status := st, request := r, saved := some ⟨[], [], [], [], 1, true⟩ }
    let s (st : RunStatus) (r : Option Bool) : State := { released 2 with
      wgs := [g st r], launches := (released 2).launches.map fun l => { l with kernel := { l.kernel with idem := true } } }
    let status (i : Instr) (st : RunStatus) (r : Option Bool) : Option (List RunStatus) := (next? (exec i (s st r))).map fun t => t.wgs.map fun g => g.status
    status (.saveAndRestore 40) .saving none = some [.saved] ∧ status (.discard 40) .resident (some true) = some [.discarding] ∧
    status (.discard 40) .resident (some false) = some [.resident] ∧ status (.discard 40) .discarding none = some [] ∧
    ((next? (exec (.discard 40) (s .discarding none))).map fun t => t.launches.map fun l => l.requeued) = some [[0]] ∧
    status (.resume 40 3) .saved none = some [.resident] ∧ startSave [] State.reset = some State.reset := by decide +kernel
/-- Pending shares take effect at a mooring point when they fit (R445). -/
theorem test_mooringPoint : let s := (served []).updSlot 0 fun q => { q with pendingShares := [(2, 3, 0)] }
    let full_ := s.updCluster 2 fun c => { c with ranges := [(5, 0, 6)] }
    ((next? (exec (.mooringPoint 0) s)).map fun t => ((t.slot 0).shares.drop 2 |>.head?, (t.cluster 2).ranges)) = some (some 3, [(0, 0, 3)]) ∧
    (slotAfter (.mooringPoint 0) full_).map (fun q => q.pendingShares) = some [(2, 3, 0)] := by decide +kernel
theorem test_clockMode : let s : State := { State.reset with ctl := { State.reset.ctl with mode := true } }
    (next? (exec .clockModeChange s)).map (fun t => (t.ctl.current, t.ctl.changing)) = some (true, some 48000) ∧
    (next? (exec .clockModeResume { s with ctl := { s.ctl with changing := some 48000 } })).map (fun t => (t.clock, t.ctl.moded, vecPending t 0 65)) =
      some (48000, true, some true) := by decide +kernel

/-- A host write in device bias is stored; one in host bias stays with the host until an uncached read (R460). -/
theorem test_hostAccess : let h (w : Option (List Byte)) (c : Bool) : HostAccess := ⟨0x100, 2, w, c, false⟩
    let biased : State := { State.reset with hostBias := [0], hcache := [(0x100, 9)] }
    ((next? (exec (.hostAccess (h (some [1, 2]) true)) State.reset)).map fun t => Mem.read t.dmem 0x100 2) = some [1, 2] ∧
    ((next? (exec (.hostAccess (h (some [1, 2]) true)) biased)).map fun t => (Mem.read t.dmem 0x100 2, t.hcache.lookup 0x101)) = some ([0, 0], some 2) ∧
    ((next? (exec (.hostAccess (h none false)) biased)).map fun t => (Mem.read t.dmem 0x100 2, t.hcache)) = some ([9, 0], []) ∧
    (match exec (.hostAccess ⟨2 ^ 36 - 1, 2, none, false, false⟩) State.reset with
      | .fault f => some f
      | _ => none) = some (.noDeviceMemory (2 ^ 36 - 1)) := by decide +kernel
theorem test_hostAtomic : let s : State := { State.reset with dmem := Mem.write [] 0x100 (bytesOf 5 8) }
    let after (op : AtomicOpKind) (n a b : Nat) : Option Nat := (next? (exec (.hostAtomicop ⟨op, 0x100, n, a, b, false⟩) s)).map fun t => natOfBytes (Mem.read t.dmem 0x100 n)
    after .fetchAdd 4 7 0 = some 12 ∧ after .swap 8 7 0 = some 7 ∧ after .cas 16 7 5 = some 7 ∧ after .cas 4 7 6 = some 5 ∧
    after .fetchAdd 16 7 0 = some 5 := by decide +kernel
theorem test_linkDown : let s : State := { bench .nop with
      linkUp := true
      reqs := [⟨77, none, ⟨1, 0⟩, .x, 0, 0, 0, .atomic (.rmw .add) ⟨2, 0x100⟩ 0x5000 4 4 [(2, [1])] none false⟩] }
    (next? (exec .linkDown s)).map (fun t => (t.linkUp, t.hmem)) = some (false, []) := by decide +kernel

theorem test_tableWalk : ((next? (exec (.tableWalk 0 3 0 0x1234) tabled)).map fun t => ((tlbFind (t.cluster 0).tlb 0 0x1234).map fun e => (e.size, e.place.pa),
      (tlbFind (t.core 3).tlb 0 0x1234).isSome)) = some (some (2 ^ 35, 0), true) ∧
    (match walk tabled 0 (2 ^ 44) with
      | .error c => some c
      | .ok _ => none) = some .pageAbsent := by decide +kernel
/-- An invalidation of one page drops the entry that maps it, and leaves another (R454). -/
theorem test_invalidate : let e (va : Nat) : Tlb := ⟨0, va, 4096, ⟨0, va⟩, true, true, true⟩
    let s := (State.reset.updCore 0 fun c => { c with tlb := [e 0x1000, e 0x3000] }).updIface 0 fun f => { f with invaddr := 0x1000, invpages := 1 }
    let t := (next? (exec (.invalidateStart 0) s)).getD s
    (t.core 0).tlb = [e 0x3000] ∧ (t.iface 0).busy = some (0, 0x1000, 4096) ∧
    ((next? (execInvalidateComplete 0 (State.reset.updIface 0 fun f => { f with busy := some (0, 0x1000, 4096) }))).map fun t => (t.iface 0).busy) = some none := by
  decide +kernel
theorem test_rootWrite : ((next? (exec (.rootWrite 0 0x1FFF) State.reset)).map fun t => (t.iface 0).root) = some 0x1000 ∧
    ((next? (exec (.rootWrite 0 0x5000) (served []))).map fun t => (t.iface 0).root) = some 0x1000 := by decide +kernel
/-- Writes through a view that owns the field, and through one that does not (R426, R482). -/
theorem test_registerWrite : (slotAfter (.registerWrite .physical (.slotRingbase 0) 0x5000) State.reset).map (fun q => q.ringbase) = some 0x5000 ∧
    (slotAfter (.registerWrite (.interface 1) (.slotRingbase 0) 0x5000) (tabled.updSlot 0 fun q => { q with assigned := some 1 })).map (fun q => q.ringbase) = some 0x5000 ∧
    (slotAfter (.registerWrite (.interface 1) (.slotRingbase 0) 0x5000) State.reset).map (fun q => q.ringbase) = some 0 ∧
    (slotAfter (.registerWrite .physical (.slotRinglog 0) 11) State.reset).map (fun q => q.ringlog) = some 12 ∧
    (slotAfter (.registerWrite .physical (.slotPriority 0) 4) State.reset).map (fun q => (q.priority, q.level)) = some (4, 4) ∧
    ((next? (exec (.registerWrite .physical (.viWays 3) 1) State.reset)).map fun t => (t.iface 3).ways) = some 1 ∧
    ((next? (exec (.registerWrite .physical .devWarn 59) State.reset)).map fun t => t.ctl.warn) = some 95 ∧
    ((next? (exec (.registerWrite .physical .devWarn 60) State.reset)).map fun t => t.ctl.warn) = some 60 := by decide +kernel
theorem test_vectorUnmask : let s := State.reset.signal 0 3
    vecPending s 0 3 = some true ∧ ((next? (exec (.vectorUnmask 0 3) s)).bind fun t => vecOf t 0 3) = some ⟨false, false, 1⟩ := by decide +kernel
theorem test_pins : let s : State := { State.reset with savebase := 0x10000, savepages := 16 }
    (State.reset.pins[1]?).isSome = true ∧
    ((next? (exec (.pinWrite 1 0x2000 5) s)).bind fun t => (t.pins[1]?).map fun p => p.status) = some 0 ∧
    ((next? (exec (.pinFillComplete 1) { s with pins := s.pins.set 1 ⟨0x2000, true, 5, 3⟩ })).bind fun t => (t.pins[1]?).map fun p => p.status) = some 1 := by
  decide +kernel
/-- A bundle is taken while bit 0 is 0; the keys derive at power-on; a request for a report is answered (R477, R478, R484). -/
theorem test_security : ((next? (exec .powerOn State.reset)).map fun t => (t.boot.keysDerived, t.linkUp)) = some (true, true) ∧
    ((next? (exec (.firmwareBundle 0x4000) { State.reset with boot := { State.reset.boot with powered := true } })).map fun t => t.boot.bundle) = some 0x4000 ∧
    ((next? (exec .attestationRequest State.reset)).map fun t => t.attest.busy) = some true ∧ State.reset.attest.nonce.length = 8 := by decide +kernel
/-- A gate bit gates an idle unit; a request wakes it; it gates again after 2^16 idle cycles; a cluster without work is gated
(R479 to R481). -/
theorem test_gating : let s (g : Gate → Gate) (c : Nat) : State := { State.reset.updCluster 0 fun k => { k with gate := g k.gate } with clock := c }
    let gate (i : Instr) (s : State) : Option Gate := (next? (exec i s)).map fun t => (t.cluster 0).gate
    (gate (.matrixGate 0 5) (s (fun g => { g with gated := [1, 2] }) 0)).map (fun g => (g.mgate, g.gated)) = some (5, [2]) ∧
    (gate (.gateTakeEffect (.matrix 0 0 2)) (s (fun g => { g with mgate := 4 }) 0)).map (fun g => g.gated) = some [2] ∧
    (gate (.unitWake (.matrix 0 0 2)) (s (fun g => { g with mgate := 4, gated := [2], wanted := [2] }) 9)).map (fun g => (g.gated, g.wanted, g.woken)) =
      some ([], [], [(2, 9)]) ∧
    (gate (.idleRegate (.matrix 0 0 2)) (s (fun g => { g with mgate := 4, woken := [(2, 9)] }) (9 + 2 ^ 16))).map (fun g => (g.gated, g.woken)) = some ([2], []) ∧
    (gate (.gateTakeEffect (.cluster 0)) (s (fun g => { g with cgate := true }) 0)).map (fun g => g.off) = some true := by decide +kernel
theorem test_temperature : ((next? (exec (.thermalWarning 1 95) State.reset)).map fun t => (t.ctl.thermal, t.ctl.armed, vecPending t 0 65)) =
      some (true, [true, false], some true) ∧
    ((next? (exec (.temperatureFallBelowWarn 1 90) { State.reset with ctl := { State.reset.ctl with armed := [true, false] } })).map fun t => t.ctl.armed) =
      some [true, true] ∧
    ((next? (exec (.shutdown 0 110) (served []))).map fun t => (t.ctl.stopped, (t.slot 0).context, t.dmem == (served []).dmem)) = some (true, false, true) := by
  decide +kernel
theorem test_corrected : let s := State.reset
    ((next? (exec (.correctedError 3) s)).map fun t => t.counters.counts[3]?) = some (some 1) := by decide +kernel
/-- A word that is lost reads as zero, with its notifications (R35, R469). -/
theorem test_lost : let r : WaveRef := ⟨40, 0⟩
    let s : State := { released 2 with wgs := [{ loadGroup 0 0 false (withV [(3, 9)] (withS [(0x30, 9)] (loadWave .vector .x 0))) with id := 40, launch := 0 }] }
    ((next? (exec (.uncorrectableError (.vReg r 3 2)) s)).bind fun t => (t.wave r).map fun w => (laneAt (w.vrow 3) 2, laneAt (w.vrow 3) 1, (t.slot 0).errsticky,
      vecPending t 0 64)) = some (0, 9, 1, some true) ∧
    ((next? (exec (.uncorrectableError (.sReg r 0x30)) s)).bind fun t => (t.wave r).map fun w => w.sreg 0x30) = some 0 := by decide +kernel
theorem test_deviceError : ((next? (exec (.deviceErrorStop true 0x40) State.reset)).map fun t => (t.ctl.stopped, t.counters.valid, t.counters.unit, vecPending t 0 65)) =
      some (true, true, 2, some true) ∧
    ((next? (exec (.uncorrectableError (.control 0)) (served []))).map fun t => ((t.slot 0).terminated, t.counters.counts[11]?)) = some (true, some 1) ∧
    ((next? (exec (.uncorrectableError (.configStore 0 2)) State.reset)).map fun t => (t.context 0 2).image) = some [] := by decide +kernel
theorem test_deviceReset : ((next? (exec .deviceReset ((served []).updSlot 0 fun q => { q with errsticky := 1, head := 8 }))).map fun t =>
    ((t.slot 0).errsticky, (t.slot 0).head, t.boot.status, t.dmem == (served []).dmem)) = some (1, 0, 0, true) := by decide +kernel
/-- An encoding that nothing assigns, and a fetch that fails, at the issue group's counter (R88, R180). -/
theorem test_earlyCauses : let c := rig .nop
    causeAfter c (.unassignedEncoding .unassignedOp) = some .unassignedOp ∧ causeAfter c (.instructionFetchFault .pageAbsent 0x40) = some .pageAbsent := by
  decide +kernel
/-! The machine as a whole, and for every constructor an issue that has no cause and nothing to wait for. -/

/-- A wave with addresses in v1 and an empty `staddr` queue, in the machine of `full`. -/
def ready (i : Instr) : Bool := issuesB i (full i) && flowsB i (full i)
theorem ready_of {i : Instr} (h : ready i = true) : Issues i (full i) ∧ Flows i (full i) := by
  simp only [ready, Bool.and_eq_true] at h
  exact ⟨issues_of h.1, flows_of h.2⟩

theorem ready_integers0 : ([
    .iadd (lane2 3 1 2 0 0x7F 0 0), .isub (lane2 3 1 2 0 0x7F 0 0), .imul (lane2 3 1 2 0 0x7F 0 0),
     .imulhi (lane2 3 1 2 0 0x7F 0 0), .imulhu (lane2 3 1 2 0 0x7F 0 0), .imad (lane2 3 1 2 0 0x7F 0 0),
     .and (lane2 3 1 2 0 0x7F 0 0), .or (lane2 3 1 2 0 0x7F 0 0), .xor (lane2 3 1 2 0 0x7F 0 0),
     .andn (lane2 3 1 2 0 0x7F 0 0), .shl (lane2 3 1 2 0 0x7F 0 0), .shr (lane2 3 1 2 0 0x7F 0 0),
     .sar (lane2 3 1 2 0 0x7F 0 0), .rotl (lane2 3 1 2 0 0x7F 0 0), .bfe (lane2 3 1 2 0 0x7F 0 0),
     .bfeu (lane2 3 1 2 0 0x7F 0 0), .bfi (lane2 3 1 2 0 0x7F 0 0), .imin (lane2 3 1 2 0 0x7F 0 0),
     .imax (lane2 3 1 2 0 0x7F 0 0), .uimin (lane2 3 1 2 0 0x7F 0 0), .uimax (lane2 3 1 2 0 0x7F 0 0),
     .prmt (lane2 3 1 2 0 0x7F 0 0), .lea (lane2 3 1 2 0 0x7F 0 0), .sad8 (lane2 3 1 2 0 0x7F 0 0),
     .idot4 (lane2 3 1 2 0 0x7F 0 0)] : List Instr).all ready = true := by decide +kernel
theorem ready_integers1 : ([
    .idot2 (lane2 3 1 2 0 0x7F 0 0), .not (lane2 3 1 0 0 0x7F 0 0), .bfrev (lane2 3 1 0 0 0x7F 0 0),
     .popc (lane2 3 1 0 0 0x7F 0 0), .clz (lane2 3 1 0 0 0x7F 0 0), .ctz (lane2 3 1 0 0 0x7F 0 0),
     .iabs (lane2 3 1 0 0 0x7F 0 0), .ineg (lane2 3 1 0 0 0x7F 0 0), .mov (lane2 3 1 0 0 0x7F 0 0),
     .sext (lane2 4 2 6 0 0x7F 0 0), .zext (lane2 4 2 6 0 0x7F 0 0), .icmp .eq (lane2 3 1 2 0 0x7F 0 0),
     .movs (lane2 3 0 0 0 0x7F 0 0), .sel (lane2 3 1 2 0x81 0x7F 0 0), .iadd64 (lane2 4 2 6 0 0x7F 0 0),
     .isub64 (lane2 4 2 6 0 0x7F 0 0), .imul64 (lane2 4 2 6 0 0x7F 0 0), .shl64 (lane2 4 2 6 0 0x7F 0 0),
     .shr64 (lane2 4 2 6 0 0x7F 0 0)] : List Instr).all ready = true := by decide +kernel
theorem ready_floats0 : ([
    .fadd (lane2 3 1 2 0 0x7F 0 0), .fsub (lane2 3 1 2 0 0x7F 0 0), .fmul (lane2 3 1 2 0 0x7F 0 0),
     .ffma (lane2 3 1 2 0 0x7F 0 0), .fmin (lane2 3 1 2 0 0x7F 0 0), .fmax (lane2 3 1 2 0 0x7F 0 0),
     .fminnum (lane2 3 1 2 0 0x7F 0 0), .fmaxnum (lane2 3 1 2 0 0x7F 0 0), .fclass (lane2 3 1 0 0 0x7F 0 0),
     .ffract (lane2 3 1 0 0 0x7F 0 0), .ffrexp (lane2 4 2 0 0 0x7F 0 0), .fldexp (lane2 3 1 2 0 0x7F 0 0),
     .fcmp .eq (lane2 3 1 2 0 0x7F 0 0), .fround .rn (lane2 3 1 0 0 0x7F 0 0), .frcp (lane2 3 1 0 0 0x7F 0 0),
     .frsq (lane2 3 1 0 0 0x7F 0 0), .fsqrt (lane2 3 1 0 0 0x7F 0 0), .fexp2 (lane2 3 1 0 0 0x7F 0 0),
     .flog2 (lane2 3 1 0 0 0x7F 0 0), .fsinpi (lane2 3 1 0 0 0x7F 0 0), .fcospi (lane2 3 1 0 0 0x7F 0 0),
     .ftanh (lane2 3 1 0 0 0x7F 0 0), .hadd2 (lane2 3 1 2 0 0x7F 0 0), .hsub2 (lane2 3 1 2 0 0x7F 0 0),
     .hmul2 (lane2 3 1 2 0 0x7F 0 0)] : List Instr).all ready = true := by decide +kernel
theorem ready_floats1 : ([
    .hfma2 (lane2 3 1 2 0 0x7F 0 0), .hmin2 (lane2 3 1 2 0 0x7F 0 0), .hmax2 (lane2 3 1 2 0 0x7F 0 0),
     .bfma2 (lane2 3 1 2 0 0x7F 0 0), .dadd (lane2 4 2 6 0 0x7F 0 0), .dmul (lane2 4 2 6 0 0x7F 0 0),
     .dfma (lane2 4 2 6 8 0x7F 0 0), .cvt .f32F64 (lane2 4 2 0 0 0x7F 0 0),
     .cvtFp8Fp4 .e4m3F32 (lane2 3 1 0 0 0x7F 0 0), .fdot16 .e4m3 (lane2 4 8 12 16 0x7F 0 0)] : List Instr).all ready = true := by decide +kernel
theorem ready_lanes : ([
    .shfl .idx (lane2 3 1 2 0 0x7F 0 0), .qswp .h (lane2 3 1 0 0 0x7F 0 0), .qbc (lane2 3 1 0 2 0x7F 0 0),
     .lred .add (lane2 0x30 1 0 0 0x7F 0 0), .lscan false .add (lane2 3 1 0 0 0x30 0 0),
     .lvoteAny (lane2 0x30 1 0 0 0x7F 0 0), .lvoteAll (lane2 0x30 1 0 0 0x7F 0 0),
     .lvoteBal (lane2 0x30 1 0 0 0x7F 0 0), .lfirst (lane2 0x30 1 0 0 0x7F 0 0), .lbc (lane2 3 1 0 0 0x7F 0 0)] : List Instr).all ready = true := by decide +kernel
theorem ready_control : ([
    .nop, .exit, .brk, .yield, .gbar, .tfence, .ifence, .pmask, .punmask, .jmp 0, .call 3 0, .bz 3 0, .bnz 3 0,
     .blt 3 0, .bge 3 0, .brx 3, .ret 3, .callx 3 4, .trap 0, .rfe] : List Instr).all ready = true := by decide +kernel
theorem ready_group0 : ([
    .sadd (group 0x30 0x32 0x34), .ssub (group 0x30 0x32 0x34), .smul (group 0x30 0x32 0x34),
     .smulhi (group 0x30 0x32 0x34), .smulhu (group 0x30 0x32 0x34), .sand (group 0x30 0x32 0x34),
     .sor (group 0x30 0x32 0x34), .sxor (group 0x30 0x32 0x34), .sandn (group 0x30 0x32 0x34),
     .sshl (group 0x30 0x32 0x34), .sshr (group 0x30 0x32 0x34), .ssar (group 0x30 0x32 0x34),
     .smin (group 0x30 0x32 0x34), .smax (group 0x30 0x32 0x34), .sminu (group 0x30 0x32 0x34),
     .smaxu (group 0x30 0x32 0x34), .ssel (group 0x30 0x32 0x34), .sbfe (group 0x30 0x32 0x34),
     .sbfi (group 0x30 0x32 0x34), .sadd64 (group 0x30 0x32 0x34), .ssub64 (group 0x30 0x32 0x34),
     .smul64 (group 0x30 0x32 0x34), .snot (group 0x30 0x31 0), .sabs (group 0x30 0x31 0), .sneg (group 0x30 0x31 0)] : List Instr).all ready = true := by decide +kernel
theorem ready_group1 : ([
    .smov (group 0x30 0x31 0), .spopc (group 0x30 0x31 0), .sclz (group 0x30 0x31 0), .sctz (group 0x30 0x31 0),
     .scmp .eq (group 0x30 0x31 0x32), .sli 0x30 5, .sldk (group 0x30 0 0), .sget (group 0x30 0x1B 0),
     .sset (group 0x1C 0x31 0), .sbr .z ⟨0, 0x30, 0, some 4⟩] : List Instr).all ready = true := by decide +kernel
theorem ready_masks : ([
    .mand (group 0x60 0x61 0x62), .mor (group 0x60 0x61 0x62), .mxor (group 0x60 0x61 0x62),
     .mandn (group 0x60 0x61 0x62), .mnot (group 0x60 0x61 0), .mmov (group 0x60 0x61 0), .mpopc (group 0x30 0x61 0),
     .mffs (group 0x30 0x61 0), .mtos (group 0x30 0x61 0), .stom (group 0x61 0x31 0), .mclr (group 0x60 0 0),
     .mset (group 0x61 0 0), .mlane (group 0x61 0x31 0x32), .join (group 0x61 0 0), .leave (group 0x61 0 0),
     .mwait (group 0 0x61 0), .loop ⟨0, 0x30, 0x32, some 0x10010⟩, .lbrk (group 0 0 0), .run (group 0 2 0)] : List Instr).all ready = true := by decide +kernel
theorem ready_system : ([
    .barSync (group 1 0 0), .barArr (group 1 0 0), .barWait (group 1 0 0), .barInit (group 1 0 0),
     .ringArr (group 0 0x30 0), .ringWait (group 0 0x30 0x31), .icinv (group 0 0x30 0), .lrec (group 0x10 0x20 0),
     .cpyStat (group 0x10 0x20 0), .jstat (group 0x30 1 0), .jcancel (group 0 1 0), .gload (group 0x30 0x30 1),
     .gunload (group 0 0 1), .sclk (group 0 0x30 0), .pmc (group 0x30 9 0), .ktk (group 0x10 0x14 8),
     .halt (group 0 0x30 0), .fence .acq (group 0 0 0), .aldu .w (group 4 0x30 0), .cpyTile .gs (group 0x10 0x20 0),
     .cpyLin .gs (group 0x10 0x30 0)] : List Instr).all ready = true := by decide +kernel
theorem ready_access : ([
    .ald .w (lane2 0xC8 1 0 0 0x30 0 0), .ast .w (lane2 0xCA 1 0 0 0x30 0 3), .apf (lane2 0 1 0 0 0x30 0 0),
     .aflush (lane2 0 1 0 0 0x30 0 3), .ainv (lane2 0 1 0 0 0x30 0 3), .lds .w (lane2 3 1 0 0 0x7F 0 0),
     .sts .w (lane2 4 1 0 0 0x7F 0 0), .qpush (lane2 0xC9 1 0 0 0x7F 0 0), .qpop (lane2 3 0xC8 0 0 0x7F 0 0),
     .qpeek (lane2 3 0xC8 0 0 0x7F 0 0), .qdrop (lane2 0 0xC8 0 0 0x7F 0 0), .qwait (lane2 0 0xC8 0 2 0x7F 0 0),
     .qstat (lane2 3 0xC8 0 0 0x7F 0 0), .qbind (lane2 0xCF 1 4 0 0x7F 0 0), .qunbind (lane2 0xCE 0 0 0 0x7F 0 0),
     .aatom .add (lane2 0xC8 2 0 4 0x7F 0 3), .ared .add (lane2 0 2 0 4 0x7F 0 3),
     .acas .w (lane2 0xC8 2 0 4 0x7F 0 3), .aenq (lane2 0xC8 2 0 4 0x7F 4 3), .adeq (lane2 0xC8 2 0 0 0x7F 4 3)] : List Instr).all ready = true := by decide +kernel
theorem ready_units : ([
    .aclr (lane2 0 0 0 0 0x7F 0 0), .amovVa (lane2 0 0 0 0 0x7F 0 0), .amovAv (lane2 0 0 0 0 0x7F 0 0),
     .mma .f16 (lane2 0 8 0 0 0x30 0 0), .mmasp .f16 (lane2 0 8 0 40 0x30 0 0), .ibox (lane2 0xCC 8 16 0 0x7F 0 0),
     .itri (lane2 0xCC 8 16 0 0x7F 0 0), .iprim (lane2 0xCC 8 16 0 0x7F 0 0), .tsmp (lane2 0xCD 8 0 0 0x30 0 0),
     .tgth (lane2 0xCD 8 0 0 0x30 0 0), .tfch (lane2 0xCD 8 0 0 0x30 0 0), .rtri (lane2 0 8 0 4 0x30 0 0),
     .bpx (lane2 0 8 0 0 0x30 0 0), .ist (lane2 0 8 0 0 0x30 0 0), .ilink (lane2 0xCE 0 0 0 0x7F 0 0),
     .cpyGth (lane2 0x30 2 0 0 0x30 2 2), .cpySct (lane2 0x30 2 0 0 0x30 2 2), .jpostR (lane2 3 8 0 0x12 0x7F 4 0),
     .jpostQ (lane2 0xCE 8 0 0x12 0x7F 5 0), .jwait (lane2 0 0 0 0 0x7F 4 0)] : List Instr).all ready = true := by decide +kernel
/-- The end of a run whose body has been issued (R202). -/
theorem ready_endrun : [Instr.endrun, .endrunHinted 0].all (fun i =>
    let c := rig i fun w => { w with run := some ⟨.x, BitVec.allOnes 32, 1, 1⟩ }
    issuesB i c && flowsB i c) = true := by decide +kernel
/-- Terms that the encoder covers, and words that no row assigns (R65, R86 to R88). -/
theorem test_roundTrip : ([.iadd (lane1 3 1 2), .fmul { lane1 6 2 0xFF with lit := some 5 }, .sadd (group 0x30 0x31 0x32), .sli 0x30 9, .jmp 7,
      .endrunHinted 0x00FF0D0C, .trap 5] : List Instr).all (fun i => i.wellFormed && !i.isEvent && decode (encode i ++ [9]) == .instr i &&
        decode ((encode i).take ((encode i).length - 1)) == .more) = true ∧
    decode [0x37000000] = .illegal .unassignedOp ∧ decode [0x40000000, 0x00001000] = .illegal .unassignedOp ∧
    decode [0x94000000, 0] = .illegal .unassignedOp ∧ decode [0x2E000003] = .illegal .unassignedOp ∧ (laneInstr 0 0 (lane1 3 1 2)).isSome = true := by
  decide +kernel
/-- The words of a loaded program are fetched and decoded to its instruction. -/
theorem test_fetch : let i : Instr := .fmul { lane1 6 2 0xFF with lit := some 5 }
    let c := rig i
    (c.s.fetchInstr c.g c.w c.sl 0).1 = .instr i ∧ (c.s.fetchWord c.g c.w c.sl 4).toOption.map Prod.fst = some 5 := by decide +kernel
/-- A keeper agent fetches at the untranslated address (R304). -/
theorem test_fetchKeeper : let c := rig (.ktk (group 0x10 0x14 8))
    c.g.keeper = true ∧ (c.s.fetchInstr c.g c.w c.sl c.pc).1 = .instr (.ktk (group 0x10 0x14 8)) := by decide +kernel
/-- The premises of the step, for the issue group that is set, an event that is due and the second half of a pair. -/
theorem test_stepPremises : let i : Instr := .iadd (lane1 3 1 2)
    let c := rig i
    let u : Issue := ⟨c.ref, c.sl, c.em, c.pc⟩
    let now : State := { (c.s.fetchInstr c.g c.w c.sl c.pc).2 with cur := some u }
    c.s.second = none ∧ c.s.agenda = [] ∧ c.s.cur = some u ∧ (c.s.wg u.w.wg).isSome = true ∧
    ((next? (exec i now)).map fun t => (t.stalled, raised c.s t u.w.wg)) = some (false, false) ∧
    (let d := rig (.trap 3)
     ((next? (exec (.trap 3) d.s)).map fun t => raised d.s t 1) = some true) ∧
    (let d := rig .nop id id id fun s => { s with agenda := [.linkDown] }
     (next? (exec .linkDown { d.s with agenda := [] })).isSome = true) ∧
    (let s : State := { c.s with cur := none, second := some u }
     (({ s with second := none } : State).fetchInstr c.g c.w u.sl u.pc).1 = .instr i) := by decide +kernel
/-- A word that cannot be fetched, and one that no row assigns, at the counter (R180). -/
theorem test_stepCauses : let c := rig .nop
    let at_ (pc : Word) : Ctx := { c with pc := pc, s := { c.s with cur := some ⟨c.ref, c.sl, c.em, pc⟩ } }
    c.g.status = .resident ∧ (match ((at_ 0x40000).s.fetchInstr c.g c.w c.sl 0x40000).1 with
      | .fault k _ => some k
      | _ => none) = some .pageWalk := by decide +kernel
/-- The lowest cause is raised before any effect; a pending result and a gated unit wait (R8, R51, R480). -/
theorem test_checks : let i : Instr := .iadd (lane1 0xC8 1 0xCF)
    staticCauses (rig i stock) i = [.queueUnbound, .queueDir] ∧ causeAfter (rig i stock) i = some .queueUnbound ∧
    (let j : Instr := .mma .f16 (lane2 0 8 0 0 0x30 0 0)
     let gatedM (s : State) : State := s.updCluster 0 fun k => { k with gate := { k.gate with mgate := 0xF, gated := [0, 1, 2, 3] } }
     let c := rig j stock ringed supplied gatedM
     staticCauses c j = [] ∧ c.pendingResult j = false ∧ (c.s.wakes c.g c.w j).isSome = true ∧ waits c j = true) := by decide +kernel
/-- A role, an allotment and an operand file that give their causes (R43, R46, R87). -/
theorem test_issueCauses : let i : Instr := .iadd (lane1 150 1 2)
    let c := rig i fun w => { w with allot := 144 }
    staticCauses c i = [.regRange] ∧
    (let j : Instr := .ktk (group 0x10 0x14 8)
     let d := rig j id fun g => { g with keeper := false }
     .sliceRole ∈ staticCauses d j) ∧
    (let k : Instr := .sadd (group 0x10 0x31 0x32)
     staticCauses { rig k with sl := .x } k = [.sregOwner]) := by decide +kernel
/-- The lowest counter issues first, with every thread there; the next one is the second (R53). -/
theorem test_vote : let c := rig .nop (slice .x (strays (fun l => 16 ≤ l) 0x40))
    (c.s.vote c.g c.w .x).map (fun p => (p.1.pc, p.1.em, p.2.map fun v => (v.pc, v.em))) = some (0, 0xFFFF, some (0x40, 0xFFFF0000)) ∧
    c.s.vote c.g (slice .x (strays (fun _ => true) 0) { c.w with x := { c.w.x with threads := List.replicate 32 ⟨0, .exited, 0⟩ } }) .a = none := by
  decide +kernel
theorem test_candidates : let s := bench .nop
    s.candidates.length = 1 ∧ ({ s with ctl := { s.ctl with stopped := true } } : State).candidates = [] := by decide +kernel
/-- The premises of the statements about memory. -/
theorem test_memory : let m := Mem.write [] 0x100 [1, 0, 3]
    m = [(0x100, 1), (0x102, 3)] ∧ Mem.wf m = true ∧ Mem.wf [(0x100, (0 : Byte))] = false ∧ Mem.write m 0x100 [0, 0, 0] = [] ∧
    memoriesCanonical State.reset = true := by decide +kernel
/-- The host's blocks after an instruction of a program. -/
theorem test_hostBlocks : let c := rig (.sadd (group 0x30 0x31 0x32))
    ((next? (exec (.sadd (group 0x30 0x31 0x32)) c.s)).map fun t => (t.ifaces == c.s.ifaces && t.pins == c.s.pins, t.ctl == c.s.ctl, t.clock)) =
      some (true, true, c.s.clock) := by decide +kernel

/-! Witnesses of the cases that statements tell apart. -/

/-- A run of the other slice keeps a `yield` waiting; its `endrun` then exchanges the wave (R188, R204). -/
theorem test_yieldInRun : let on (i : Instr) (f : Wave → Wave) : Ctx :=
      let c := twoWaves i
      let w := f c.w
      let g := { c.g with waves := [w] ++ c.g.waves.drop 1 }
      { c with w := w, g := g, s := { c.s with wgs := [g] } }
    let c := on .yield fun w => { w with run := some ⟨.a, 1, 0, 2⟩ }
    let d := on .endrun fun w => { w with run := some ⟨.x, BitVec.allOnes 32, 1, 1⟩, yielding := some 0 }
    issuesB .yield c = true ∧ c.s.earliest c.core c.w.quarter = some ⟨1, 4⟩ ∧
    (waveOf c .yield).map (fun w => (w.yielding, w.active)) = some (some 9, true) ∧
    issuesB .endrun d = true ∧ d.w.active = true ∧ d.s.earliest d.core d.w.quarter = some ⟨1, 4⟩ ∧
    (waveOf d .endrun).map (fun w => (w.yielding, w.active, w.run.isNone)) = some (none, false, true) := by decide +kernel
/-- The tickets that `ktk` claims of a released launch are the keeper's to place (R443). -/
theorem test_keeperClaims : let k : Instr := .ktk (group 0x10 0x14 1)
    let c := rig k (withS [(0x14, 0x8000)]) id id fun s => { s with
      dmem := (released 0).dmem ++ s.dmem, launches := s.launches ++ (released 0).launches.map fun l => { l with id := 50 } }
    Mem.wf c.s.dmem = true ∧ issuesB k c = true ∧ sAfter c k 0x10 = some 0 ∧
    ((next? (exec k c.s)).bind fun t => (t.launch 50).map fun l => l.claimed) = some [(c.core, 0)] := by decide +kernel
/-- The cause, the wave and the stopped slices of workgroup 40's halt. -/
def haltIn (t : State) : Option ((Cause × Option Nat) × List (Nat × Slice)) := (t.wg 40).bind fun g => match g.status with
  | .halting x => some ((x.cause, x.wave), x.stopped)
  | _ => none
/-- The halt of wave w. -/
def haltedBy (w : Nat) : State := { halted false with wgs := (halted false).wgs.map fun g => { g with status := match g.status with
  | .halting x => .halting { x with wave := some w, stopped := [(w, .x)] }
  | r => r } }
/-- Of two causes of one cycle that of the lower wave is recorded, of one wave that of the A-slice (R414). -/
theorem test_sameCycle : haltIn (takeCause (haltedBy 3) ⟨40, 0⟩ .x 1 4 .regRange noInfo) = some ((.regRange, some 0), [(0, .x), (3, .x)]) ∧
    haltIn (takeCause (haltedBy 0) ⟨40, 0⟩ .a 1 4 .regRange noInfo) = some ((.regRange, some 0), [(0, .a), (0, .x)]) ∧
    haltIn (takeCause (haltedBy 0) ⟨40, 1⟩ .x 1 4 .regRange noInfo) = some ((.trap, some 0), [(1, .x), (0, .x)]) := by decide +kernel
/-- A queue-bound wave and a watched object at their limits (R250, R299). -/
theorem test_limits : let c := rig .nop fun w => { stock w with qbound := some 0 }
    let s (n : Nat) : State := { c.s with clock := n, reqs := [] }
    c.s.fills c.ref c.w = false ∧ causeAfter { c with s := s (2 ^ 20) } (.queueDeadlock c.ref) = some .queueDeadlock := by decide +kernel
/-- Two lanes of one `ald`, at 0x100040 and 0x100044, with their slots pending. -/
def loading (va : DWord) : Ctx :=
  let c := rig .nop stock ringed supplied
  let q : Queue := ⟨.load, 8, (List.range 32).map fun l => [.pending (75 + l) 0], .none⟩
  let w := { c.w with queues := [some q] ++ c.w.queues.drop 1 }
  let r (l : Nat) : Req := ⟨75 + l, none, c.ref, .x, 0, 0, 0, .load 0 l (va + BitVec.ofNat 64 (4 * (l - 2))) .w 0 false true⟩
  { c with w := w, s := { c.s with
    dmem := Mem.write c.s.dmem 0x100040 [1, 2, 3, 4], hmem := Mem.write [] 0x40 [9, 0, 0, 0, 8], wgs := [{ c.g with waves := [w] }], reqs := [r 2, r 3] } }
/-- Lane l's slots after the completion of lane 2's load. -/
def loaded (s : State) (l : Nat) : Option (List QEntry) :=
  (next? (exec (.loadCompletion 77) s)).bind fun t => (t.wave ⟨1, 0⟩).bind fun w => (w.queue 0).map fun q => q.col l
/-- The page of the loaded program maps to host memory from 0 on. -/
def hosted (s : State) : State := s.updCore 0 fun c => { c with tlb := [{ reachable with place := ⟨2, 0⟩ }] }
/-- The page tables of `tabled`, with the line of the root owned by an engine. -/
def tableOwned (s : State) : State :=
  { (s.updCore 0 fun c => { c with tlb := [] }).updCluster 0 fun c => { c with tlb := [] } with
    dmem := tabled.dmem, ifaces := tabled.ifaces, walkCache := [], owned := [⟨0x1000, .blend 1⟩] }
/-- A load whose line, or whose table walk's line, is owned stays; one that fails leaves a token; one of host memory serves both
lanes of its line, unless the link is down (R239, R300, R464, R465). -/
theorem test_loadCases : let s := (loading 0x100040).s
    let own : State := { s with owned := [⟨0x100000, .blend 0⟩] }
    let down : State := { hosted s with linkUp := false }
    loaded s 2 = some [.ready 0x04030201] ∧ loaded own 2 = some [.pending 77 0] ∧
    (locate (tableOwned s) 0 (some 0) 0 0x100040 .load).2.delayed = true ∧
    loaded (loading 0x8000000000000).s 2 = some [.token ⟨.addrNoncanon, 0x8000000000000, 0, 0, 0⟩] ∧
    ((hosted s).hostMates ⟨77, none, ⟨1, 0⟩, .x, 0, 0, 0, .load 0 2 0x100040 .w 0 false true⟩ ⟨2, 0x40⟩).map (fun x => (x.1.id, x.2.pa)) = [(77, 0x40), (78, 0x44)] ∧
    loaded down 2 = some [.token ⟨.hostRead, 0x100040, 0, 0, 0⟩] ∧ loaded down 3 = some [.token ⟨.hostRead, 0x100044, 0, 0, 0⟩] := by decide +kernel
/-- `aldu` of host memory fails precisely when the link is down, loads 0 for helper lanes alone, and waits behind a store record
of its line; a store and a flush wait while a walk meets an owned line (R62, R242, R300, R467). -/
theorem test_hostAldu : let i : Instr := .aldu .w (group 4 0x30 0)
    let down (s : State) : State := { hosted s with linkUp := false }
    let at_ (fw : Wave → Wave) (fs : State → State) : Ctx := rig i (fun w => fw (withS [(0x30, 0x100040)] w)) id id fs
    let rec_ : StoreRec := ⟨0, false, 2, .w, 0, [⟨0, 0x100044, ⟨2, 0x44⟩⟩], [], none⟩
    causeAfter (at_ id down) i = some .hostRead ∧ issuesB i (at_ id down) = true ∧
    sAfter (at_ (fun w => { w with helper := BitVec.allOnes 32 }) down) i 4 = some 0 ∧
    waits (at_ (fun w => { w with recs := [rec_] }) (fun s => { hosted s with nextId := 9 })) i = true ∧
    (let j : Instr := .ast .w (lane2 0xCA 1 0 0 0x30 0 3)
     let f : Instr := .aflush (lane2 0 1 0 0 0x30 0 3)
     let p : Instr := .apf (lane2 0 1 0 0 0x30 0 0)
     let on (i : Instr) : Ctx := rig i lined ringed supplied tableOwned
     waits (on j) j = true ∧ waits (on f) f = true ∧ issuesB p (on p) = true ∧
     Mem.wf (aimed p).s.dmem = true ∧ Mem.wf (aimed p).s.hmem = true ∧ (aimed p).s.owned = []) := by decide +kernel
/-- Two lanes of one record store beside each other, into device memory and, while the link is up, into host memory; the columns
of both lose their data (R240, R467). -/
theorem test_lanesStored : let at_ (m : Nat) : Ctx := rig .nop fun w => { stock w with
      recs := [⟨5, false, 2, .w, 3, [⟨0, 0x100040, ⟨m, 0x100040⟩⟩, ⟨1, 0x100044, ⟨m, 0x100044⟩⟩], [], none⟩]
      queues := (stock w).queues.set 3 (some ⟨.stdata, 8, (List.range 32).map fun l => [.ready (BitVec.ofNat 32 (l + 1)), .ready 9], .none⟩) }
    let i (c : Ctx) : Instr := .storeRecordPerform c.ref
    let k (m : Nat) : StoreRec := ⟨5, false, 2, .w, 3, [⟨0, 0x100040, ⟨m, 0x100040⟩⟩, ⟨1, 0x100044, ⟨m, 0x100044⟩⟩], [], none⟩
    (at_ 0).w.recs = [k 0] ∧ recordReady (at_ 0).w (k 0) = true ∧ (at_ 0).s.storeWaits (at_ 0).ref 5 ⟨0, 0x100044⟩ 3 = false ∧
    storeData (at_ 0).w 2 1 1 = some [2] ∧ storedByte (k 0) (fun l => [BitVec.ofNat 32 (l + 1)]) false 0x100044 = some 2 ∧
    storedByte (k 0) (fun l => [BitVec.ofNat 32 (l + 1)]) true 0x100044 = none ∧ ((at_ 0).s.cluster 0).l1 = [] ∧
    ((next? (exec (i (at_ 0)) (at_ 0).s)).map fun t => Mem.read t.dmem 0x100040 8) = some [1, 0, 0, 0, 2, 0, 0, 0] ∧
    ((next? (exec (i (at_ 2)) (at_ 2).s)).map fun t => (t.hostRead 0x100040 8, t.hmem)) = some ([1, 0, 0, 0, 2, 0, 0, 0], []) ∧
    ((next? (exec (i (at_ 2)) { (at_ 2).s with linkUp := false })).map fun t => t.hostView) = some [] ∧
    colAfter (at_ 0) (i (at_ 0)) 3 1 = some [.ready 9] ∧ colAfter (at_ 0) (i (at_ 0)) 3 2 = some [.ready 3, .ready 9] := by decide +kernel
/-- An atomic waits while a walk meets an owned line; after instructions of two exponents the request for a ring block still ends
(R263, R300, R425); a host read past its time fails for both lanes (R465). -/
theorem test_atomicCases : let i : Instr := .aatom .add (lane2 0xC8 1 0 4 0x30 0 3)
    let c := rig i oneAddress ringed supplied tableOwned
    issuesB i c = true ∧ flowsB i c = true ∧ waits c i = true ∧
    (let s : State := { atomicAt (.enq 1) 4 [(0, [7])] 1 [0, 0, 0, 0, 1] with rings := [(⟨0, 0x200⟩, 3)] }
     let r : Req := ⟨77, none, ⟨1, 0⟩, .x, 0, 0, 0, .atomic (.enq 1) ⟨0, 0x200⟩ 0x200 3 4 [(0, [7])] (some 0) false⟩
     s.req 77 = some r ∧ s.atomWaits r ⟨0, 0x200⟩ 3 = false ∧ (s.rings.find? fun x => x.1 == (⟨0, 0x200⟩ : Place)) = some (⟨0, 0x200⟩, 3) ∧
     Mem.wf s.dmem = true ∧ Mem.wf s.hmem = true ∧ (s.cluster 0).l1 = []) ∧
    (let s := hosted (loading 0x100040).s
     let late : State := { s with clock := 10000 * 2400, reqs := s.reqs.map fun r => { r with sent := some 0 } }
     let col (l : Nat) : Option (List QEntry) := (next? (exec (.hostCompletionTimeout 77) late)).bind fun t =>
       (t.wave ⟨1, 0⟩).bind fun w => (w.queue 0).map fun q => q.col l
     (late.req 77).bind late.reqPlace = some (⟨2, 0x40⟩, 0) ∧
     col 2 = some [.token ⟨.hostRead, 0x100040, 0, 0, 0⟩] ∧ col 3 = some [.token ⟨.hostRead, 0x100044, 0, 0, 0⟩]) := by decide +kernel
/-- Between the texels 1 and 2 of both axes, halfway: four texels, which repeat at the edge (R342); a line of four equal texels. -/
theorem test_bilinear : let d (wrap : Nat) : TexDesc := ⟨0, 4, 4, wrap, true, 1, 0, 64⟩
    finite32 0x3F000000 = true ∧ (texPlan 3 0 (d 1) [0x3F000000, 0x3F000000, 0]).coords = [(1, 1, 0), (2, 1, 0), (1, 2, 0), (2, 2, 0)] ∧
    (texPlan 3 0 (d 1) [0, 0, 0]).coords = [(3, 3, 0), (0, 3, 0), (3, 0, 0), (0, 0, 0)] ∧
    (texPlan 4 0 (d 0) [0, 0, 0]).coords = [(0, 0, 0), (0, 0, 0), (0, 0, 0), (0, 0, 0)] ∧
    (texPlan 3 0 (d 1) [0x3F000000, 0x3F000000, 0]).combine (List.replicate 4 (List.replicate 4 (XVal.fin false 1 0))) = List.replicate 4 0x3F800000 := by decide +kernel
/-- A filter request waits while an earlier one of its slice has not been performed, and fails on a misaligned descriptor when none
is before it; a blend request waits behind a filter request (R301, R343). -/
theorem test_readOrder : let c := rig .nop fun w => { stock w with queues := [some ⟨.result, 8, List.replicate 32 [.pending 77 0], .island .filter⟩] ++ (stock w).queues.drop 1 }
    let r (id fn : Nat) (q : Option Nat) (obj : DWord) : Req := ⟨id, none, ⟨1, 0⟩, .x, 0, 0, 0, .island fn 0 35 [(2, [0, 0, 0])] [] obj q 1 true⟩
    let s (rs : List Req) : State := { c.s with reqs := rs }
    let after (rs : List Req) : Option (List QEntry) := (next? (exec (.islandRequestComplete 77) (s rs))).bind fun t =>
      (t.wave ⟨1, 0⟩).bind fun w => (w.queue 0).map fun q => q.col 2
    (s [r 77 5 (some 0) 4, r 60 4 (some 0) 0]).readsBefore ⟨1, 0⟩ 77 true = true ∧
    after [r 77 5 (some 0) 4, r 60 4 (some 0) 0] = some [.pending 77 0] ∧ (s [r 77 5 (some 0) 4]).readsBefore ⟨1, 0⟩ 77 true = false ∧
    after [r 77 5 (some 0) 4] = some [.token ⟨.pageWalk, 4, 0, 0, 1⟩] ∧
    ((next? (exec (.islandRequestComplete 77) (writable (s [r 77 5 (some 0) 0x100004])))).bind fun t =>
      (t.wave ⟨1, 0⟩).bind fun w => (w.queue 0).map fun q => q.col 2) = some [.token ⟨.islandDesc, 0x100004, 0, 0, 1⟩] ∧
    ((next? (exec (.blendApply 77) (s [r 77 9 none 0, r 60 4 (some 0) 0]))).map fun t => t.reqs.length) = some 2 := by decide +kernel
/-- A copy waits while its destination lies behind an owned table line; a tile with a bad record raises the lowest cause that
applies (R8, R300, R398). -/
theorem test_copyFaults : let i : Instr := .cpyLin .sg (group 0x10 0x30 0)
    let regs (w : Wave) : Wave := withS [(0x30, 64), (0x31, 0), (0x32, 0x100040), (0x33, 0), (0x34, 16), (0x35, 0), (0x36, 0), (0x37, 3)] w
    let c := rig i regs ringed supplied tableOwned
    issuesB i c = true ∧ lateDest c.s c.cluster c.vi ⟨.scratch 64, .global 0x100040, 16⟩ = true ∧ waits c i = true ∧
    (let tile (rows off : Word) : Option Cause :=
       let j : Instr := .cpyTile .gs (group 0x10 0x20 0)
       causeAfter (rig j (withS [(0x20, 0x100000), (0x24, rows), (0x25, off), (0x27, 3)]) ringed supplied fun s =>
         s.updCluster 0 fun k => { k with layouts := [⟨0, 0x100000, record.set 40 1⟩] }) j
     tile 0x00020002 64 = some .layoutBad ∧ tile 0x00020002 65 = some .misaligned ∧ tile 0x02000002 64 = some .copyForm) := by decide +kernel
/-- The moves of one word of scratch are read before any is written; the later one wins, and a failed one keeps them all (R399,
R402); one piece of memory. -/
theorem test_copyUnit : let c := rig .nop id ringed supplied fun s => { writable s with dmem := Mem.write s.dmem 0x100040 [1, 2, 3, 4] }
    let k (ms : List Move) : Command := ⟨9, ⟨1, 0⟩, 0, 0, 0, 0, 3, false, ms, none, 0, true, none, none, []⟩
    let m : Move := ⟨.global 0x100040, .scratch 8, 4⟩
    let n : Move := ⟨.fill 7, .scratch 9, 1⟩
    let x : Move := ⟨.global 0x8000000000000, .scratch 10, 1⟩
    let y : Move := ⟨.scratch 8, .global 0x100080, 4⟩
    let words (r : Except ReadStop State) : Option (List Byte) := match r with
      | .ok t => (t.wg 1).map fun g => g.scratch.read 8 4
      | _ => none
    ((k [m, n]).todo.filter fun z => c.s.copyUnit (k []) z.dst == c.s.copyUnit (k []) m.dst) = [m, n] ∧ words ((k [m, n]).perform m c.s) = some [1, 7, 3, 4] ∧
    landing [(m, [1, 2, 3, 4]), (n, [7])] 9 = some 7 ∧ words ((k [m, x]).perform m c.s) = none ∧
    c.s.copyUnit (k []) y.dst = some (0, 0x100080) ∧
    (match (k [y]).perform y c.s with
      | .ok t => Mem.read t.dmem 0x100080 4
      | _ => []) = c.g.scratch.read 8 4 ∧ Mem.wf c.s.dmem = true ∧ (c.s.cluster 0).l1 = [] := by decide +kernel
/-- A gated copy engine is asked for; the last word of a stream detaches its queue, and one before the last does not (R394, R480). -/
theorem test_streamEnd : let k (held : List (List Word)) : Command := ⟨9, ⟨1, 0⟩, 0, 0, 0, 0, 3, false, [], some ⟨0, 0, [[], []], 3, 3, held⟩, 0, true, none, none, []⟩
    let c := rig .nop (fun w => { w with queues := [some ⟨.result, 8, List.replicate 32 [], .copy 0⟩] ++ w.queues.drop 1 }) ringed supplied
    let after (held : List (List Word)) : Option (Attach × List QEntry) :=
      (next? (exec (.copyQueueWordPlace 9) { c.s with cmds := [k held] })).bind fun t => (t.wave ⟨1, 0⟩).bind fun w =>
        (w.queue 0).map fun q => (q.attach, q.col 1)
    after [[5, 6]] = some (.none, [.ready 6]) ∧ after [[5, 6], [7, 8]] = some (.copy 0, [.ready 6]) ∧
    (let g := c.s.updCluster 0 fun k => { k with gate := { k.gate with gated := [38], kgate := true } }
     let s : State := { g with
       cmds := [⟨9, ⟨1, 0⟩, 0, 0, 0, 0, 3, false, [⟨.fill 0, .scratch 8, 4⟩], none, 0, true, none, none, []⟩] }
     ((next? (exec (.copyEngineServe 0) s)).map fun t => ((t.cluster 0).gate.wanted, t.cmds.map fun k => k.todo.length)) = some ([38], [1])) ∧
    (let s : State := { c.s with
       nextId := 20
       owned := [⟨0x100080, .command 9⟩]
       reqs := [⟨5, none, ⟨1, 0⟩, .a, 0, 0, 0, .ack 3 ⟨0, 0x40⟩⟩]
       cmds := [⟨9, ⟨1, 0⟩, 0, 0, 0, 0, 3, false, [⟨.fill 0, .global 0x100080, 4⟩], none, 0, false, none, none, []⟩] }
     s.released ⟨1, 0⟩ .a 9 = false ∧ ((next? (exec (.directoryRecall 0 0x100080) (writable s))).map fun t => t.owned.length) = some 1) := by decide +kernel
/-- Room is short: an idle context is displaced, and stays so when room is short still (R371). -/
theorem test_displaced : let k := card .waiting none none
    let s (n : Nat) : State := (posted .nop k fun s => (s.updCluster 0 fun c => { c with ranges := [(0, 1, n)] }).updContext 0 3 fun x =>
      { x with place := some 1, owner := 0, image := image, idle := 4 }).s
    (s 0).freeRun 0 1 0 1 = none ∧ ((s 0).displace 0 0).isSome = true ∧
    (((s 0).displace 0 0).bind fun t => t.displace 0 0).isNone = true ∧
    ((next? (exec (.cardBind 50) (s 0))).map fun t => ((t.context 0 3).place, t.cards.map fun k => k.bound)) = some (none, [none]) := by decide +kernel
/-- The gated matrix engine of a matrix node is asked for before a token is admitted (R480); a token whose store fails is marked
with the store's node, and stays when the line is owned (R381). -/
theorem test_tokenStores : let placed (img : List Word) (s : State) : State :=
      (s.updContext 0 2 fun x => { x with place := some 0, owner := 0, image := img }).updCluster 0 fun k =>
        { k with gate := { k.gate with gated := [0] } }
    let g := (posted .nop (card .waiting none (some 0)) (placed (image.set 16 0x50000000))).s
    g.tokenUnits 0 2 = [0] ∧ ((next? (exec (.tokenAdmit 50) g)).map fun t => (t.cluster 0).gate.wanted) = some [0] ∧
    (let work (va : DWord) : TokenWork := ⟨[7], [(3, va, 4, 9, 3)], none⟩
     let s (va : DWord) : State := (posted .nop (card (.flight 0) (some (work va)) (some 0)) fun s => writable (placed image s)).s
     let after (s : State) : Option (List (List (TokenState × Option (Option Nat)))) := (next? (exec (.tokenLeave 50 0) s)).map fun t =>
       t.cards.map fun k => k.tokens.map fun t => (t.state, t.work.map fun w => w.mark.map fun m => m.node.toNat)
     after (s 0x8000000000000) = some [[(.flight 0, some (some 3))]] ∧
     ((next? (exec (.tokenLeave 50 0) (s 0x100040))).map fun t => Mem.read t.dmem 0x100040 2) = some [9, 0] ∧
     after { s 0x100040 with owned := [⟨0x100000, .blend 0⟩] } = some [[(.flight 0, some none)]]) := by decide +kernel
/-- A terminated member of a gang that another member's enabling maps again goes on behind what it had not executed; a disabled
slot loses its shares and its workgroups are saved; a SIGNAL of a stopped slot is performed (R428, R431, R445). -/
theorem test_slots : let s := (tabled.updSlot 0 fun q => { q with gang := 1, head := 8, tail := 8 }).updSlot 1 fun q =>
      { q with gang := 1, enable := true, context := true, terminated := true, head := 8, tail := 24 }
    s.slots.length = 64 ∧ ((next? (exec (.slotEnable 0) s)).map fun t => ((t.slot 1).mapped, (t.slot 1).terminated, (t.slot 1).head)) = some (true, false, 24) ∧
    (let d := ((released 2).updCluster 2 fun c => { c with ranges := [(0, 0, 3), (5, 4, 2)] })
     let d : State := { d with wgs := [{ loadGroup 0 0 false (loadWave .vector .x 0) with id := 40, launch := 0, request := some true }] }
     ((next? (exec (.slotDisable 0) d)).map fun t => ((t.cluster 2).ranges, t.wgs.map fun g => g.request)) = some ([(5, 4, 2)], [some false])) ∧
    (let t := (served []).updSlot 0 fun q => { q with stopped := true, signals := [⟨1, 3, true, 0x3000, 7⟩] }
     t.running = true ∧ t.mapped 0 = true ∧ ((next? (exec (.signal 0) t)).map fun u => natOfBytes (Mem.read u.dmem 0x3000 8)) = some 7) ∧
    ((next? (exec (.images 0) ((served [0x05050000, 0, 0, 0, 0]).updSlot 0 fun q => { q with badImage := true }))).map fun t => (t.slot 0).badImage) = some true := by
  decide +kernel
/-- The ticket that a core's keeper has claimed is placed on that core before another is claimed, and keeps its launch open; the
keeper agent of the core is given the new workgroup's slot (R412, R438, R443). -/
theorem test_claimed : let s : State := { released 2 with
      launches := (released 2).launches.map fun l => { l with claimed := [(3, 1)] }
      wgs := [{ loadGroup 0 0 true (loadWave .vector .x 0) with id := 60, core := 3 }] }
    ((next? (exec (.workgroupPlace 0 3) s)).map fun t => (t.wgs.map (fun g => (g.flat, g.keeper)), natOfBytes (Mem.read t.dmem 0x8000 4), t.launches.map fun l => l.claimed)) =
      some ([(0, true), (1, false)], 2, [[]]) ∧
    ((next? (exec (.workgroupPlace 0 3) s)).map fun t => t.wgs.map fun g => (g.slot, g.waves.map fun w => (w.sreg 0).toNat % 64)).map List.length = some 2 ∧
    ((next? (exec (.workgroupPlace 0 4) s)).map fun t => t.wgs.length) = some 1 ∧
    ((next? (exec (.launchCompletion 0) s)).map fun t => t.launches.length) = some 1 := by decide +kernel
/-- A halt waits for the workgroup's copies; of two halted workgroups the first leaves its record and ends, and the second ends the
context (R413, R415). -/
theorem test_haltOrder : let s := halted false
    let copy : Command := ⟨9, ⟨40, 0⟩, 0, 0, 0, 0, 3, false, [⟨.fill 0, .scratch 8, 4⟩], none, 0, true, none, none, []⟩
    let two : State := { s with wgs := s.wgs ++ s.wgs.map fun g => { g with id := 41 } }
    (s.wg 40).map (fun g => ({ s with cmds := [copy] } : State).copiesDone g) = some false ∧
    ((next? (exec (.haltComplete 40) { s with cmds := [copy] })).map fun t => t.wgs.length) = some 1 ∧
    ((next? (exec (.haltComplete 40) two)).map fun t => (t.wgs.map fun g => g.status == .ended, t.launches.length)) = some ([true, false], 1) ∧
    ((next? (exec (.haltComplete 40) two)).bind fun t => (next? (exec (.haltComplete 41) t)).map fun t => t.launches.length) = some 0 := by decide +kernel
/-- A discard that a `gbar` no longer permits becomes a save, an unpaired record is dropped first, and an atomic is performed first; a
saved workgroup that waits at a barrier, or whose slot is not of the highest level, is not resumed (R418, R421, R440, R444). -/
theorem test_cutCases : let work : SavedWork := ⟨[], [], [], [], 1, true⟩
    let g (st : RunStatus) (fw : Wave → Wave) : Workgroup :=
      { loadGroup 0 0 false (fw (loadWave .vector .x 0)) with id := 40, launch := 0, status := st, request := some true, saved := some work }
    let s (g : Workgroup) (rs : List Req) : State := { released 2 with
      wgs := [g], reqs := rs, launches := (released 2).launches.map fun l => { l with kernel := { l.kernel with idem := true } } }
    let rec_ : StoreRec := ⟨5, false, 2, .w, 3, [⟨0, 0x40, ⟨0, 0x40⟩⟩], [], none⟩
    let atom : Req := ⟨6, none, ⟨40, 0⟩, .x, 0, 0, 0, .atomic (.rmw .add) ⟨0, 0x40⟩ 0x40 3 4 [(0, [1])] none false⟩
    let after (i : Instr) (g : Workgroup) (rs : List Req) : Option (List (RunStatus × Option Bool × List Nat)) :=
      (next? (exec i (s g rs))).map fun t => t.wgs.map fun g => (g.status, g.request, g.waves.map fun w => w.recs.length)
    (after (.discard 40) { g .resident id with arrivedGrid := true } [] == some [(.resident, some false, [0])]) = true ∧
    (after (.discard 40) (g .discarding fun w => { w with recs := [rec_] }) [atom] == some [(.discarding, some true, [0])]) = true ∧
    (s (g .discarding id) [atom]).discardable (g .discarding id) = false ∧
    (g .saved id).couldRun = true ∧ (g .saved (parkedOn (.barrier 1))).couldRun = false ∧
    (after (.resume 40 3) (g .saved (parkedOn (.barrier 1))) [] == some [(.saved, some true, [0])]) = true ∧
    ((next? (exec (.resume 40 3) ((s (g .saved id) []).updSlot 1 fun q =>
      { q with mapped := true, level := 5 }))).map fun t => t.wgs.map fun g => g.status == .resident) = some [true] ∧
    (s (g .saved id) []).topLevel = (s (g .saved id) []).level 0 ∧ (s (g .saved id) []).running = true := by decide +kernel
/-- The host's own memory; a line that an engine owns delays the host; a write in host bias makes the line the host's, and a cached
read leaves it shared (R300, R303, R459). -/
theorem test_hostOwn : let h (w : Option (List Byte)) (c own : Bool) : HostAccess := ⟨0x100, 2, w, c, own⟩
    let owned : State := { State.reset with owned := [⟨0x100, .blend 0⟩] }
    let atom (own : Bool) : HostAtomic := ⟨.fetchAdd, 0x100, 4, 7, 0, own⟩
    ((next? (exec (.hostAccess (h (some [1, 2]) false true)) State.reset)).map fun t => (t.hmem, t.dmem)) = some ([(0x100, 1), (0x101, 2)], []) ∧
    ((next? (exec (.hostAccess (h (some [1, 2]) false false)) owned)).map fun t => (t.delayed, t.dmem)) = some (true, []) ∧
    ((next? (exec (.hostAtomicop (atom false)) owned)).map fun t => (t.delayed, t.dmem)) = some (true, []) ∧
    ((next? (exec (.hostAtomicop (atom true)) State.reset)).map fun t => Mem.read t.hmem 0x100 1) = some [7] ∧
    ((next? (exec (.hostAccess (h none true false)) { State.reset with hostBias := [0] })).map fun t => t.hshared) = some [0x100] := by decide +kernel
/-- A table walk over an owned entry is delayed (R300). -/
theorem test_walkOwned : let s : State := { tabled with owned := [⟨0x2000, .blend 1⟩] }
    walkOwned s 0 0x1234 = true ∧ canonical 0x1234 = true ∧ ((next? (exec (.tableWalk 0 3 0 0x1234) s)).map fun t => t.delayed) = some true := by
  decide +kernel
/-- A pin of no page is filled; one of 32 lines is refused where the Lantern cache puts them all in one set (R457). Writes of single
fields are pin writes, and the save region refuses the range that it no longer holds (R458). -/
theorem test_overfull (h : ∀ m, Config.lanternSet m = 0) : overfullSet [(0, 4096)] = true := by
  have e : (linesIn 0 4096).eraseDups = (List.range 32).map (128 * ·) := by decide +kernel
  simp only [overfullSet, List.flatMap_cons, List.flatMap_nil, List.append_nil, e, h, beq_self_eq_true]
  decide +kernel
theorem test_pinFields : let s : State := { State.reset with savebase := 0x10000, savepages := 16 }
    let status (k : Nat) (o : Host.Outcome State Fault Refusal) : Option Nat := (next? o).bind fun t => (t.pins[k]?).map fun p => p.status
    overfullSet ((0x2000, 4096 * 0) :: s.pinnedRanges 1) = false ∧ status 1 (exec (.pinWrite 1 0x2001 0) s) = some 3 ∧
    status 1 (exec (.registerWrite .physical (.pinBase 1) 0x2001) s) = some 3 ∧
    status 1 (exec (.registerWrite .physical (.pinPages 1) 0x10001) { s with pins := s.pins.set 1 ⟨0x2000, true, 5, 1⟩ }) = some 2 ∧
    status 0 (exec (.registerWrite .physical .savepages 4) { s with pins := s.pins.set 0 ⟨0x10000, true, 5, 1⟩ }) = some 2 ∧
    status 0 (exec (.registerWrite .physical .savepages 5) { s with pins := s.pins.set 0 ⟨0x10000, true, 5, 1⟩ }) = some 1 ∧
    ((next? (exec (.registerWrite .physical .savebase 0x20000) s)).map fun t => t.savebase) = some 0x20000 := by decide +kernel
/-- The event of a warning that finds 110 degrees shuts the device down, and leaves no line in a blend buffer (R28). -/
theorem test_hotWarning : let s := (served []).updCluster 0 fun k => { k with blend := [⟨0x80, List.replicate 128 7, [], []⟩] }
    ((next? (exec (.thermalWarning 0 110) s)).map fun t => (t.ctl.thermal, t.ctl.shutdown, t.ctl.stopped, (t.cluster 0).blend.length, t.dmem == s.dmem)) =
      some (true, true, true, 0, true) ∧
    ((next? (exec (.thermalWarning 0 110) { s with ctl := { s.ctl with shutaddr := 0x8000 } })).map fun t => natOfBytes (Mem.read t.dmem 0x8000 4)) =
      some (2 ^ 24 + Cause.shutdown.code * 2 ^ 16 + 8 * 2 ^ 12 + 3 * 2 ^ 10) := by decide +kernel
/-- A word that is lost in memory is the business of an interface that maps its page; lost in a dirty line it
is replaced there (R33, R35). -/
theorem test_lostWords : let l : L1Line := ⟨0x80, List.replicate 128 7, BitVec.allOnes 128, 2, 1, false, 0, 0⟩
    let s := State.reset.updCluster 0 fun k => { k with l1 := [l] }
    let b := State.reset.updCluster 1 fun k => { k with blend := [⟨0x80, List.replicate 128 7, [], []⟩] }
    s.dirtyCopies 0x80 = [.l1 0] ∧ (s.cluster 0).l1Line 0x80 = some l ∧
    (((s.zeroDirty 0 0x80).cluster 0).l1Line 0x80).map (fun m => (m.data.take 9, m.lost.toNat)) =
      some (List.replicate 8 0 ++ [7], 255) ∧
    b.dirtyCopies 0x80 = [.blend 1] ∧
    ((b.zeroBlend 1 0x80).cluster 1).blend.map (fun m => (m.data.take 9, m.lost)) = [(List.replicate 8 0 ++ [7], [0, 1, 2, 3, 4, 5, 6, 7])] ∧
    State.reset.pageOwners 0x5000 = [] ∧ tabled.pageOwners 0x5000 = [0] ∧ (State.reset.slot 3).context = false := by decide +kernel
/-- An error of a configuration store ends the context that names the image; its record waits for a line that an engine owns
(R35, R300). -/
theorem test_storeLost : let s (f : QSlot → QSlot) : State := { (contexted (released 2)).updSlot 0 f with
      wgs := [{ graphed (loadGroup 0 0 false (loadWave .vector .x 0)) with id := 40, launch := 0 }] }
    let late : State := { s (fun q => { q with faultbase := 0x400, faultcount := 16 }) with owned := [⟨0x400, .blend 0⟩] }
    (s id).namers 0 2 = [0] ∧ ((s id).ctxError 0).isSome = true ∧ late.namers 0 2 = [0] ∧ (late.ctxError 0).isNone = true ∧
    ((next? (exec (.uncorrectableError (.configStore 0 2)) (s id))).map fun t => ((t.context 0 2).image, (t.slot 0).terminated)) = some ([], true) ∧
    ((next? (exec (.uncorrectableError (.control 0)) late)).map fun t => (t.delayed, (t.slot 0).terminated)) = some (true, false) := by decide +kernel
/-- A fetch waits while its line is owned, and takes the words of a page in host memory, or fails with the link (R300, R464). -/
theorem test_fetchCases : let c := rig .nop
    let own (s : State) : State := { s with owned := [⟨0x100000, .blend 0⟩] }
    let bare (s : State) : State := s.updCore 0 fun k => { k with icache := [] }
    let got (s : State) : Option FetchStop := match s.fetchWord c.g c.w c.sl 0 with
      | .error e => some e
      | .ok _ => none
    (got (own (bare c.s)) == some .wait) = true ∧ (got { hosted (bare c.s) with linkUp := false } == some (.cause .hostRead 0x100000)) = true := by
  decide +kernel
/-- A host access of the agenda that meets an owned line is delayed; nothing periodic is due after reset, and the ageing of a
starved slot is, after its period (R300, R441). -/
theorem test_stepCases : let h : Instr := .hostAccess ⟨0x100, 2, some [1, 2], false, false⟩
    let s : State := { State.reset with agenda := [h] }
    let held : State := { s with owned := [⟨0x100, .blend 0⟩] }
    ((next? (exec h { held with agenda := [] })).map fun t => t.delayed) = some true ∧ isHostAccess h = true ∧
    State.reset.periods.length = 0 ∧
    (let aged : State := { (released 0).updSlot 0 (fun q => { q with starved := some 0 }) with clock := 4800000 }
     ({ aged with audited := 4800000 } : State).periods.length = 1 ∧ aged.ctl.changing = none ∧ aged.agenda = []) := by decide +kernel
/-- A keeper agent's address in the pinned save region stands for itself; one beside it goes through the tables, which are off
after reset (R447, R450, R451). -/
theorem test_keeper_save_region : let s : State := { State.reset with pins := [⟨0x1000#64, true, 1#32, 1⟩] }
    (locate s 0 none keeperVi 0x1804#64 .store).1.toOption = some ⟨0, 0x1804⟩ ∧
    (locate s 0 none keeperVi 0x804#64 .store).1.toOption = none := by decide
/-- The second of two arrivals at a barrier of a cluster group completes its phase (R289, R292). -/
theorem test_clusterPhase : let i : Instr := .barrierArrivalEffect ⟨1, 0⟩ 65
    let c (n : Nat) : Ctx := rig .nop (fun w => parkedOn (.barrier 65) { w with contribs := [⟨65, 0, 0, some 0, none⟩] }) ringed supplied fun s =>
      { s with groups := s.wgs.map fun g => ⟨g.launch, g.cg, [⟨3, true, true, 0, [], 0⟩, ⟨n, false, true, 1, [(1, 3)], 0⟩], 0⟩ }
    ((c 2).s.barrier (c 2).g 65).map (fun b => b.expected) = some 2 ∧ (c 2).s.arrivalReady (c 2).g (c 2).w 65 = true ∧
    ((next? (exec i (c 2).s)).bind fun t => (t.barrier (c 2).g 65).map fun b => (b.arrivals, b.phase)) = some (0, 1) ∧
    pcAfter (c 2) i 0 = some 4 ∧
    ((next? (exec i (c 3).s)).bind fun t => (t.barrier (c 3).g 65).map fun b => (b.arrivals, b.phase, b.arrived)) =
      some (2, 0, [(1, 3), (1, 0)]) ∧ stAfter (c 3) i 0 = some (.parked (.barrier 65)) := by decide +kernel
/-- A `.sys` store to a page in host bias takes the host's copy of the line back, and stores its bytes in device memory (R460). -/
theorem test_biasStore : let k : StoreRec := ⟨5, false, 2, .w, 4, [⟨0, 0x100040, ⟨0, 0x100040⟩⟩], [], none⟩
    let c := rig .nop (fun w => { stock w with
      recs := [k], queues := (stock w).queues.set 3 (some ⟨.stdata, 8, List.replicate 32 [.ready 0x04030201], .none⟩) }) id id fun s =>
      { s with hostBias := [0], hcache := [(0x100044, 9)] }
    c.s.storeWaits c.ref k.id ⟨0, 0x100040⟩ 4 = false ∧ c.s.inHostBias 0x100040 = true ∧
    ((next? (exec (.storeRecordPerform c.ref) c.s)).map fun t => (Mem.read t.dmem 0x100040 5, t.hcache)) = some ([1, 2, 3, 4, 9], []) := by
  decide +kernel
/-- A compare and swap on host memory stores when the words are equal, and gives the old value (R258, R261, R465). -/
theorem test_hostCas : let s (old : Nat) : State :=
      { atomicAt .cas 4 [] 1 [] with
        hmem := Mem.write [] 0x200 (bytesOf old 4)
        reqs := [⟨77, some 0, ⟨1, 0⟩, .x, 0, 0, 0, .atomic .cas ⟨2, 0x200⟩ 0x200 4 4 [(0, [5, 9])] (some 0) false⟩] }
    let after (old : Nat) : Option (Nat × List QEntry) := (next? (exec (.hostAtomicCompletion 77 true) (s old))).bind fun t =>
      (t.wave ⟨1, 0⟩).bind fun w => (w.queue 0).map fun q => (natOfBytes (t.hostRead 0x200 4), q.col 0)
    (s 5).linkUp = true ∧ after 5 = some (9, [.ready 5]) ∧ after 6 = some (6, [.ready 6]) := by decide +kernel
/-- `lds` and `mma` wait for the slice's own stores to the same lines of scratch (R248, R280). -/
theorem test_scratchWaits : let j : Instr := .lds .w (lane2 3 1 0 0 0x7F 0 0)
    let m : Instr := .mma .f16 (lane2 0 8 0 0 0x30 0 0)
    let late (s : State) : State := { s with lateScratch := [⟨5, ⟨1, 0⟩, .x, 64, [1, 2], 8, []⟩] }
    waits (rig j lined id supplied late) j = true ∧ waits (rig m id id supplied late) m = true ∧
    waits (rig j lined id supplied) j = false ∧ waits (rig m id id supplied) m = false := by decide +kernel
/-- A gated island wakes before it takes an image, and before it emits or places (R480); a stream after one that has ended waits
until nothing of it is left (log entry 48). -/
theorem test_gatedIslands : let gated (s : State) : State := s.updCluster 0 fun k => { k with gate := { k.gate with gated := [32, 35] } }
    let items : List RasterItem := [⟨5, corner, 0, 0x00100010, false, false⟩]
    let c (r : Raster) (fs : State → State) : State := (rig .nop rasterQueue (fun g => { g with raster := r }) id fs).s
    let wanted (i : Instr) (s : State) : Option (List Nat) := (next? (exec i s)).map fun t => (t.cluster 0).gate.wanted
    (gated State.reset).clusterBusy 0 = false ∧ wanted (.islandImageLoad 0 .filter 0) (gated State.reset) = some [35] ∧
    wanted (.rasterQuadEmit 1) (c ⟨items, false, [], [], [], 0, []⟩ gated) = some [32] ∧
    wanted (.rasterBatchPlace 1) (c ⟨[], true, [], [], [(0, 0)], 0, []⟩ gated) = some [32] ∧
    ((next? (exec (.rasterQuadEmit 1) (c ⟨items, true, [], [], [(0, 0)], 0, []⟩ id))).bind fun t => (t.wg 1).map fun g => g.raster.items.length) = some 1 ∧
    ((next? (exec (.rasterQuadEmit 1) (c ⟨items, true, [], [], [], 0, []⟩ id))).bind fun t => (t.wg 1).map fun g => (g.raster.items.length, g.raster.ended)) =
      some (0, false) := by decide +kernel
/-- A table of a colour target that adds, of one FP32 channel, at 0x100400, and of a depth target at 0x100800 that passes what is
less and stores it; each of 16 × 16 pixels in rows of 256 bytes (R349). -/
def targets : List Byte := [0x00100400, 0, 0x00230001, 0x00100010, 0x00100800, 0, 0x04850001, 0x00100010].flatMap (bytesOf · 4) ++
  List.replicate 96 0
/-- A compare of 5 in a colour entry is no fault, and is one in the depth entry; so are two depth entries (R350, log entry 176). -/
theorem test_targetTable : (targetTable targets).map (fun ts => ts.length) = some 8 ∧ (targetTable (targets.set 10 0xA3 |>.set 11 2)).isSome = true ∧
    targetTable (targets.set 26 0x85 |>.set 27 0x06) = none ∧ targetTable (targets.set 10 0x25) = none := by decide +kernel
/-- A `bpx` of lane 2 on pixel (1, 1), whose tag has a depth of 0.5, with 2.0 stored there and `depth` in the depth target. -/
def blending (imm : Nat) (depth : Nat) (tags : List PixelTag) (held : List (Nat × Nat)) : State :=
  let c := rig .nop (fun w => { w with tags := held }) (fun g => { g with raster := ⟨[], true, [], [], [], 8, tags⟩ }) supplied writable
  { c.s with
    dmem := Mem.write (Mem.write (Mem.write c.s.dmem 0x100100 targets) 0x100504 (bytesOf 0x40000000 4)) 0x100904 (bytesOf depth 4)
    reqs := [⟨77, none, ⟨1, 0⟩, .x, 0, 0, 0, .island 7 imm 96 [(2, [0x3F800000, 0, 0, 0])] [(2, 4)] 0x100100 none 0 true⟩] }
/-- The pixel and the depth, the tags' flags, and the requests that are left. -/
def blendedTo (s : State) : Option (List Byte × List Bool × Nat) := (next? (execBlendApply 77 s)).bind fun t =>
  (t.wg 1).map fun g => ((((heldLine t 0 0x100500).getD []).drop 4).take 4 ++ (((heldLine t 0 0x100900).getD []).drop 4).take 4,
    g.raster.tags.flatMap fun t => [t.tested, t.failed, t.final], t.reqs.length)
/-- 0.5 is less than 1: 2 + 1 is written, and 0.5 with the final `bpx`; not less than 0.25: nothing is (R350, R351). -/
theorem test_depth : let tag : PixelTag := ⟨4, 1, 1, 0x3F000000, false, false, false⟩
    blendedTo (blending 8 0x3F800000 [tag] []) = some (bytesOf 0x40400000 4 ++ bytesOf 0x3F000000 4, [true, false, true], 0) ∧
    blendedTo (blending 0 0x3F800000 [tag] []) = some (bytesOf 0x40400000 4 ++ bytesOf 0x3F800000 4, [true, false, false], 0) ∧
    blendedTo (blending 8 0x3E800000 [tag] []) = some (bytesOf 0x3E800000 4, [true, true, true], 0) ∧
    blendedTo (blending 8 0x3E800000 [{ tag with tested := true }] []) = some (bytesOf 0x40400000 4 ++ bytesOf 0x3F000000 4, [true, false, true], 0) ∧
    causeAfter { rig .nop with s := blending 1 0 [tag] [] } (.blendApply 77) = some .islandDesc := by decide +kernel
/-- An earlier tag at the pixel that a lane holds, without its final `bpx`, makes a `bpx` wait; a pixel beside it does not (R351). -/
theorem test_pixelOrder : let tag (p x : Nat) (final : Bool) : PixelTag := ⟨p, x, 1, 0x3F000000, false, false, final⟩
    let s (x : Nat) (final : Bool) : State := blending 8 0x3F800000 [tag 0 x final, tag 4 1 false] [(3, 0)]
    blendedTo (s 1 false) = some ([], [false, false, false, false, false, false], 1) ∧
    (blendedTo (s 1 true)).map (fun r => r.2.2) = some 0 ∧ (blendedTo (s 2 false)).map (fun r => r.2.2) = some 0 := by decide +kernel
/-- A record of format 5 whose scales lie behind its elements, and one whose scales begin inside them (R390). -/
theorem test_scaledRecord : let r (sbase : Nat) : List Byte := bytesOf 0x100000 8 ++ bytesOf sbase 8 ++
      [16, 4, 4, 16, 5].flatMap (bytesOf · 4) ++ List.replicate 28 0
    (r 0x100040).length = 64 ∧ (layoutOf (r 0x100040)).map (fun x => (x.sbase, x.spitch, x.format)) = some (0x100040, 4, 5) ∧
    layoutOf (r 0x100030) = none ∧ (layoutOf (r 0x100038)).isSome = true ∧
    (match (bench .nop).layoutAt 0 0 0x100020 with
      | (some (.error e), _) => some e
      | _ => none) = some (.pageWalk, [1, 2, 3, 4, 5, 6]) ∧
    (match (writable (bench .nop)).layoutAt 0 0 0x100020 with
      | (some (.error e), _) => some e
      | _ => none) = some (.layoutBad, [1, 2, 3, 4, 5, 6]) := by decide +kernel
/-- Two moves share a scratch word that a store changes between them: the second copies the word as the first has read it (R402). -/
theorem test_wordOnce : let c := rig .nop id ringed supplied fun s => writable s
    let m : Move := ⟨.scratch 8, .global 0x10007E, 2⟩
    let n : Move := ⟨.scratch 10, .global 0x100080, 2⟩
    let k : Command := ⟨9, ⟨1, 0⟩, 0, 0, 0, 0, 3, false, [m, n], none, 0, true, none, none, []⟩
    let s : State := { c.s.updWg 1 (fun g => { g with scratch := g.scratch.write 8 [1, 2, 3, 4] }) with cmds := [k] }
    let t := (next? (execCopyEngineServe 0 s)).map fun t => t.updWg 1 fun g => { g with scratch := g.scratch.write 8 [5, 6, 7, 8] }
    (t.map fun t => t.cmds.map fun k => (k.todo.length, k.words)) = some [(1, [(2, [1, 2, 3, 4])])] ∧
    ((t.bind fun t => next? (execCopyEngineServe 0 t)).map fun u => (Mem.read u.dmem 0x10007E 4, u.cmds.map fun k => k.words.length)) =
      some ([1, 2, 3, 4], [0]) := by decide +kernel
/-- The engine finishes the scratch line that it is writing for a workgroup that is saved, and begins no other (R404). -/
theorem test_midLine : let c := rig .nop id ringed supplied
    let k : Command := ⟨9, ⟨1, 0⟩, 0, 0, 0, 0, 3, false, [⟨.fill 1, .scratch 128, 16⟩, ⟨.fill 2, .scratch 16, 16⟩], none, 0, true, none, some 0, []⟩
    let s (k : Command) : State := { c.s.updWg 1 (fun g => { g with status := .saving }) with cmds := [k] }
    runs (s k) k = true ∧ nextOf (s k) k = some ⟨.fill 2, .scratch 16, 16⟩ ∧
    ((next? (exec (.copyEngineServe 0) (s k))).map fun t => t.cmds.map fun k => (k.todo.map (fun m => m.dst), k.line)) = some [([.scratch 128], none)] ∧
    ((next? (exec (.copyEngineServe 0) (s { k with line := none }))).map fun t => t.cmds.map fun k => k.todo.length) = some [2] := by
  decide +kernel
/-- A recall makes the engine write the line of a live command next, which it then owns no more (R300): of a started one, and of one
whose release waits for the line itself. -/
theorem test_recall : let c (recs : List StoreRec) : Ctx := rig .nop (fun w => { stock w with recs := recs }) ringed supplied writable
    let k (started : Bool) : Command := ⟨9, ⟨1, 0⟩, 0, 0, 0, 0, 3, false, [⟨.fill 1, .global 0x100100, 4⟩, ⟨.fill 7, .global 0x100080, 4⟩], none, 0, started, none, none, []⟩
    let s (started : Bool) (recs : List StoreRec) : State := { (c recs).s with
      nextId := 20, cmds := [k started], owned := [⟨0x100080, .command 9⟩, ⟨0x100100, .command 9⟩] }
    let after (s : State) : Option (List Byte × List Nat × List Nat) := (next? (exec (.directoryRecall 0 0x100080) s)).map fun t =>
      (Mem.read t.dmem 0x100080 4, t.owned.map (fun o => o.line), t.cmds.map fun k => k.todo.length)
    let rec_ (a : Nat) : StoreRec := ⟨5, false, 2, .w, 3, [⟨0, BitVec.ofNat 64 a, ⟨0, a⟩⟩], [], none⟩
    after (s true []) = some ([7, 7, 7, 7], [0x100100], [1]) ∧
    (s false [rec_ 0x100200]).circular (k false) = false ∧ after (s false [rec_ 0x100200]) = some ([0, 0, 0, 0], [0x100080, 0x100100], [2]) := by
  decide +kernel
/-- Two waves that have each stored to a line that the other's later command owns: the recall comes before the releases (R300, log
entry 169). -/
theorem test_circular : let rec_ (id a : Nat) : StoreRec := ⟨id, false, 2, .w, 3, [⟨0, BitVec.ofNat 64 a, ⟨0, a⟩⟩], [], none⟩
    let k (id w a : Nat) : Command := ⟨id, ⟨1, w⟩, 0, 0, 0, 0, 3, false, [⟨.fill 7, .global (BitVec.ofNat 64 a), 4⟩], none, 0, false, none, none, []⟩
    let c := rig .nop stock ringed supplied writable
    let g := { c.g with waves := [{ c.w with recs := [rec_ 5 0x100080] }, { c.w with id := 4, recs := [rec_ 6 0x100100] }] }
    let s : State := { c.s with
      wgs := [g], nextId := 20, cmds := [k 9 0 0x100100, k 10 4 0x100080], owned := [⟨0x100080, .command 10⟩, ⟨0x100100, .command 9⟩] }
    s.circular (k 9 0 0x100100) = true ∧ s.released ⟨1, 0⟩ .a 9 = false ∧ s.released ⟨1, 4⟩ .a 10 = false ∧
    ((next? (exec (.directoryRecall 0 0x100080) s)).map fun t => (Mem.read t.dmem 0x100080 4, t.owned.map (fun o => o.line), t.cmds.map fun k => k.id)) =
      some ([7, 7, 7, 7], [0x100100], [9, 10]) := by decide +kernel
/-- A misaligned image address has the lowest of its causes (R8, R367). -/
theorem test_gloadFaults : let i : Instr := .gload (group 0x30 0x20 1)
    let c (fs : State → State) : Ctx := rig i (withS [(0x20, 0x100020)]) id supplied fs
    issuesB i (c id) = true ∧ causeAfter (c id) i = some .pageWalk ∧ causeAfter (c writable) i = some .graphImage ∧
    waits (c tableOwned) i = true := by decide +kernel
/-- A context that reads memory binds none of its cards before an earlier card of the wave whose context does is bound (R371, log
entry 168). -/
theorem test_readsBehind : let k (n : Nat) (reads : Bool) (bound : Option Nat) : Card := { card .waiting none bound with id := n, arrival := n, reads := reads }
    let s (ks : List Card) : State := { (posted .nop (k 50 true none) fun s => s.updContext 0 2 fun x => { x with place := some 0, owner := 0 }).s with cards := ks }
    let bound (ks : List Card) : Option (List Bool) := (next? (exec (.cardBind 50) (s ks))).map fun t => t.cards.map fun k => k.bound.isSome
    bound [k 40 true none, k 50 true none] = some [false, false] ∧ bound [k 40 false none, k 50 true none] = some [false, true] ∧
    bound [k 40 true (some 0), k 50 true none] = some [true, true] := by decide +kernel
/-- Nodes of class 0 and 1 that add, fuse and select, and take a root (R364, R502). -/
theorem test_laneNodes : let n (cls op : Nat) : Node := ⟨cls, op, 0, 0, 0, 0, 1, 0, 0, 0, [0, 0, 0], 0, []⟩
    laneNode (n 0 0) [5, 7] = [12] ∧ laneNode (n 0 0x10) [0x3F800000, 0x40000000] = [0x40400000] ∧
    laneNode (n 0 0x13) [0x40000000, 0x40400000, 0x3F800000] = [0x40E00000] ∧
    laneNode (n 1 0x18) [0x40000000] = [0x3F000000] := by decide +kernel
/-- Nodes of the other classes: a load, a store, a misaligned address, an intersection without a ray, and a channel that was reset
(R364, R381). -/
theorem test_nodes : let n (cls op : Nat) : Node := ⟨cls, op, 0, 0, 0, 0, 1, 0, 3, 0, [0, 0, 0], 4, []⟩
    let s : State := { writable (bench .nop) with dmem := Mem.write [] 0x100044 [1, 2, 3, 4] }
    let e (cut : List Nat) : TokenEnv := ⟨image, graphHeader image, [5], 9, 0, cut⟩
    let rd : Reader := ⟨0, 0, 3, fun _ _ => false, none⟩
    let out (r : NodeOut) : Option (List Word × List Nat) := match r with
      | .ok x => some (x.1.1, x.1.2.flatMap fun y => [y.1.toNat, y.2.1, y.2.2.1.toNat, y.2.2.2])
      | .error _ => none
    let stop (r : NodeOut) : Option NodeStop := match r with
      | .error x => some x
      | .ok _ => none
    out (runNode rd (e []) (n 2 2) 1 [0x100040, 0] s) = some ([0x04030201], []) ∧
    out (runNode rd (e []) (n 3 1) 0 [0x100040, 0, 7] s) = some ([], [0x100044, 2, 7, 3]) ∧
    stop (runNode rd (e []) (n 2 3) 1 [0x100040, 0] s) = some (.mark .misaligned 0x100044) ∧
    stop (runNode rd (e []) (n 2 2) 1 [0x300000, 0] s) = some (.mark .pageWalk 0x300004) ∧
    out (runNode rd (e []) (n 4 0) 1 (List.replicate 14 0) s) = some ([0x7F800000], []) ∧
    out (runNode rd (e [0]) (n 4 0) 1 (List.replicate 14 0) s) = some ([0xFFC00001], []) ∧
    out (runNode rd (e []) (n 5 0) 1 (List.replicate 8 0x38383838 ++ [0x40000000]) s) = some ([0x41900000], []) := by decide +kernel
/-- The nodes of a token: one that adds the parameter to an input, a store of the sum, and the result; a mark leaves no store
(R363, R381). -/
theorem test_tokenNodes : let n (cls op : Nat) : Node := ⟨cls, op, 0, 0, 0, 0, 1, 0, 3, 0, [0, 0, 0], 0, []⟩
    let k (r : Nat) : NodeKind := ⟨2, r, 1, 1, 0, false⟩
    let e : TokenEnv := ⟨image, graphHeader image, [5, 0x100040, 0, 0x100041], 9, 0, []⟩
    let rd : Reader := ⟨0, 0, 3, fun _ _ => false, none⟩
    let nodes (a : Nat) : List (Option Placed) := [some ⟨{ n 0 0 with flags := 0 }, k 1, [.input 0, .param]⟩, none,
      some ⟨n 3 2, k 0, [.input a, .input 2, .node 0 0]⟩, some ⟨n 6 0, k 0, [.node 0 0]⟩]
    let run (a : Nat) : Option TokenWork := (runNodes rd e (fun c va i => ⟨c, va, 0, BitVec.ofNat 16 i, 1⟩) (nodes a) []
      ⟨[0], [], none⟩ (writable (bench .nop))).map Prod.fst
    run 1 = some ⟨[14], [(2, 0x100040, 4, 14, 3)], none⟩ ∧ run 3 = some ⟨[0], [], some ⟨.misaligned, 0x100041, 0, 2, 1⟩⟩ := by
  decide +kernel
/-- A card that delivers to queue 0: what its token pushes, what waits for room, and what a cut held, after which none of its tokens
is admitted before that is pushed (R379, R384). -/
theorem test_tokenPushes : let k (tokens : List CardToken) : Card := { card .waiting none (some 0) with q := some 0, tokens := tokens }
    let left (held : List QEntry) : CardToken := ⟨0, [7], .left, some ⟨[7], [], none⟩, held, []⟩
    let flying : CardToken := ⟨0, [7], .flight 0, some ⟨[7], [], none⟩, [], []⟩
    let s (tokens : List CardToken) (col : List QEntry) : State :=
      let c := posted .nop (k tokens) fun s => s.updContext 0 2 fun x => { x with place := some 0, owner := 0 }
      c.s.updWave ⟨1, 0⟩ fun w => { w with queues := [some ⟨.result, 2, List.replicate 32 col, .card 50⟩] ++ w.queues.drop 1 }
    let col (i : Instr) (s : State) : Option (List QEntry) := (next? (exec i s)).bind fun t =>
      (t.wave ⟨1, 0⟩).bind fun w => (w.queue 0).map fun q => q.col 0
    let tokens (i : Instr) (s : State) : Option (List (TokenState × Nat)) := (next? (exec i s)).map fun t =>
      t.cards.flatMap fun k => k.tokens.map fun t => (t.state, t.held.length)
    let two : List CardToken := [left [.ready 9], ⟨1, [7], .waiting, none, [], []⟩]
    let leave : Instr := .tokenLeave 50 0
    col leave (s [flying] []) = some [.ready 7] ∧
    col leave (s [flying] [.ready 1, .ready 2]) = some [.ready 1, .ready 2] ∧ tokens leave (s [flying] [.ready 1, .ready 2]) = some [(.flight 0, 0)] ∧
    col leave (s two []) = some [.ready 9] ∧ tokens leave (s two []) = some [(.left, 0), (.waiting, 0)] ∧
    col leave (s two [.ready 1, .ready 2]) = some [.ready 1, .ready 2] ∧ tokens leave (s two [.ready 1, .ready 2]) = some [(.left, 1), (.waiting, 0)] ∧
    tokens (.tokenAdmit 50) (s two []) = some [(.left, 1), (.waiting, 0)] := by
  decide +kernel
/-- A failed ring read stops the slot only behind the whole packets that are left (R429, R431). -/
theorem test_ringFailed : let s (ds : List Nat) (ringbase : DWord) : State := (served ds).updSlot 0 fun q => { q with tail := 8, ringbase := ringbase }
    (slotAfter (.ringByteCopy 0) (s [0x01010000] 0x1000000000)).map (fun q => (q.stopped, q.ringFailed)) = some (false, true) ∧
    (slotAfter (.ringByteCopy 0) ((s [0x01010000] 0x1000).updSlot 0 fun q => { q with ringFailed := true })).map (fun q => q.stopped) = some false ∧
    (slotAfter (.ringByteCopy 0) ((s [] 0x1000).updSlot 0 fun q => { q with ringFailed := true })).map (fun q => (q.stopped, q.error)) = some (true, 4) := by
  decide +kernel
/-- Reserved fields of each packet type but LAUNCH (R431). -/
theorem test_reserved : let error (ds : List Nat) : Option Nat := match ((served ds).slot 0).packet with
      | some (.error e) => some e
      | _ => none
    [[0x03030003, 0x3000, 5], [0x03030000, 0x3004, 5], [0x04030002, 0x3000, 5], [0x04030003, 0x3001, 5], [0x05050001, 0, 0, 0, 0],
      [0x106020000, 0]].map error = List.replicate 6 (some 5) ∧
    error [0x06020001, 0] = some 5 ∧ error [0x06020000, 0] = none ∧ error [0x03030002, 0x3000, 5] = none := by decide +kernel
/-- A launch that may start, but is not started, counts for the highest level; one behind a conflicting launch does not (R435, R440). -/
theorem test_topLevel : let s (o : LaunchState) : State :=
      let s := ((released 2).updSlot 0 fun q => { q with level := 5 })
      { s with launches := s.launches.flatMap fun l => [{ l with state := o }, { l with id := l.id + 7, state := .waiting }] }
    (s .waiting).topLevel = 5 ∧ (s .released).topLevel = 0 := by decide +kernel
/-- Beyond device memory there is nothing for the host; a misaligned AtomicOp changes nothing (log entry 102). -/
theorem test_hostAtomicEnds : let h (a : Nat) : HostAtomic := ⟨.fetchAdd, a, 4, 7, 0, false⟩
    namedAtomic (h 0x100) ∧ ¬namedAtomic (h 0x102) ∧ exec (.hostAtomicop (h 0x102)) State.reset = .next State.reset ∧
    exec (.hostAtomicop (h (2 ^ 36))) State.reset = .fault (.noDeviceMemory (2 ^ 36)) := by
  refine ⟨⟨.inl rfl, rfl⟩, fun h => by simp [namedAtomic] at h, rfl, rfl⟩
/-- Selections with X = 1, and functions of 0x22 and 0x23 at their ends (R81, R86, R172, R174; log entry 144). -/
theorem test_decode_selections : decode [0x6E000003, 0, 0] = .illegal .unassignedOp ∧ decode [0x6F000000, 0x00001000, 0] = .illegal .unassignedOp ∧
    decode [0x7F000001, 0, 0] = .illegal .reservedBits ∧
    decode [0x62030100, 0x00014000] = .illegal .unassignedOp ∧ decode [0x63030100, 0x00014000] = .illegal .unassignedOp ∧
    (∃ i f form, laneInstr 0x22 19 f = some i ∧ i.wellFormed = true ∧ i.layout = .lane 0x22 19 f form) ∧
    ∃ i f form, laneInstr 0x23 19 f = some i ∧ i.wellFormed = true ∧ i.layout = .lane 0x23 19 f form := by
  refine ⟨by decide +kernel, by decide +kernel, by decide +kernel, by decide +kernel, by decide +kernel, ?_, ?_⟩ <;>
    exact ⟨_, ⟨true, 4, 2, 0, 0, 0x7F, 0, 0, none⟩, _, rfl, by decide +kernel, rfl⟩
/-- An access of the host waits behind those of its accesses that are delayed (R300, log entry 161). -/
theorem test_deferred : let h (a : Nat) : Instr := .hostAccess ⟨a, 2, some [1, 2], false, false⟩
    let s : State := { State.reset with agenda := [h 0x200], deferred := [h 0x100], owned := [⟨0x100, .blend 0⟩], second := none }
    isHostAccess (h 0x200) = true ∧ (∃ d ∈ s.deferred, isHostAccess d = true) ∧ s.agenda = [h 0x200] ∧ s.cur = none := by
  refine ⟨by decide +kernel, ⟨_, List.mem_cons_self, by decide +kernel⟩, rfl, rfl⟩
/-- The instruction cache holds a line at an address with bit 51 set by its 52 bits, and `icinv` drops it (R305). -/
theorem test_upperCode : let fl (l : Launch) : Launch := { l with kernel := { l.kernel with codeBase := 0xFFF8000000000000 } }
    let c := rig .nop id id fl fun s => s.updCore 0 fun k => { k with icache := [⟨0, 0x8000000000000, [0x2F000000, 7], 0⟩] }
    let s : State := { c.s with reqs := [⟨5, none, ⟨1, 0⟩, .x, 0, 0, 0, .icinv 0xFFF8000000000000⟩] }
    ((next? (exec (.icinvComplete 5) s)).map fun u => (u.core 0).icache.length) = some 0 ∧
    (match c.s.fetchWord c.g c.w c.sl 4 with
      | .ok (w, _) => some w
      | .error _ => none) = some 7 := by decide +kernel

end Sys2Proof.Tests.Slice0
end

section
/-!
SUPPORT. The vote of a slice (R53): what the lowest counter of a lane set is, which lanes stand at a counter, and the two groups
that the vote gives when no thread is overdue.
-/
namespace Sys2Proof.Machine

open Sys2Proof

/-! The lowest counter of a lane set. -/

/-- The lower of two counters, the first of which may be missing: one step of `SliceSt.lowestOf`. -/
def lowerCounter : Option Word → Word → Option Word
  | none, pc => some pc
  | some b, pc => some (if pc < b then pc else b)

theorem lowestOf_eq_foldl (t : SliceSt) (m : Lanes) :
    t.lowestOf m = ((lanesOf m).map fun i => (t.thread i).pc).foldl lowerCounter none := by
  rw [List.foldl_map, SliceSt.lowestOf]
  congr 1
  funext best i
  cases best <;> rfl

/-- Folding the lower counter over a list, from a counter on, gives the least of all of them. -/
theorem foldl_lowerCounter (b : Word) (ps : List Word) :
    ∃ p, ps.foldl lowerCounter (some b) = some p ∧ p ∈ b :: ps ∧ ∀ q, q ∈ b :: ps → p ≤ q := by
  induction ps generalizing b with
  | nil =>
    refine ⟨b, rfl, List.mem_singleton_self b, fun q hq => ?_⟩
    rw [List.mem_singleton.1 hq]
    exact BitVec.le_refl b
  | cons c ps ih =>
    obtain ⟨p, hp, hmem, hle⟩ := ih (if c < b then c else b)
    refine ⟨p, hp, ?_, fun q hq => ?_⟩
    · obtain he | hps := List.mem_cons.1 hmem
      · split at he
        · exact List.mem_cons_of_mem _ (List.mem_cons.2 (.inl he))
        · exact List.mem_cons.2 (.inl he)
      · exact List.mem_cons_of_mem _ (List.mem_cons_of_mem _ hps)
    · have hbc : p ≤ b ∧ p ≤ c := by
        have hb := hle _ List.mem_cons_self
        split at hb <;> constructor <;> bv_omega
      obtain rfl | hq := List.mem_cons.1 hq
      · exact hbc.1
      obtain rfl | hq := List.mem_cons.1 hq
      · exact hbc.2
      · exact hle q (List.mem_cons_of_mem _ hq)

/-- A counter is the lowest among the threads of a lane set: a thread of the set stands at it, and none below it. -/
structure SliceSt.LowestIn (t : SliceSt) (m : Lanes) (p : Word) : Prop where
  reached : ∃ l, l < 32 ∧ m.getLsbD l = true ∧ (t.thread l).pc = p
  le : ∀ l, l < 32 → m.getLsbD l = true → p ≤ (t.thread l).pc

theorem lowestIn_of_lowestOf {t : SliceSt} {m : Lanes} {p : Word} (h : t.lowestOf m = some p) : t.LowestIn m p := by
  have hleast : p ∈ (lanesOf m).map (fun i => (t.thread i).pc) ∧
      ∀ q, q ∈ (lanesOf m).map (fun i => (t.thread i).pc) → p ≤ q := by
    rw [lowestOf_eq_foldl] at h
    generalize (lanesOf m).map (fun i => (t.thread i).pc) = ps at h ⊢
    cases ps with
    | nil => exact nomatch h
    | cons b ps =>
      obtain ⟨q, hq, hleast⟩ := foldl_lowerCounter b ps
      rw [List.foldl_cons, lowerCounter, hq, Option.some_inj] at h
      exact h ▸ hleast
  obtain ⟨l, hl, hlp⟩ := List.mem_map.1 hleast.1
  obtain ⟨hl, hlm⟩ := (mem_lanesOf m l).1 hl
  exact ⟨⟨l, hl, hlm, hlp⟩, fun k hk hkm => hleast.2 _ (List.mem_map.2 ⟨k, (mem_lanesOf m k).2 ⟨hk, hkm⟩, rfl⟩)⟩

theorem lowestOf_eq_none_iff (t : SliceSt) (m : Lanes) :
    t.lowestOf m = none ↔ ∀ l, l < 32 → ¬ m.getLsbD l = true := by
  have hnil : lanesOf m = [] ↔ ∀ l, l < 32 → ¬ m.getLsbD l = true := by
    rw [List.eq_nil_iff_forall_not_mem]
    exact forall_congr' fun l => (not_congr (mem_lanesOf m l)).trans not_and
  rw [← hnil, lowestOf_eq_foldl]
  cases lanesOf m with
  | nil => exact iff_of_true rfl rfl
  | cons l ls =>
    obtain ⟨p, hp, -⟩ := foldl_lowerCounter (t.thread l).pc (ls.map fun i => (t.thread i).pc)
    rw [List.map_cons, List.foldl_cons, lowerCounter, hp]
    exact iff_of_false (fun h => nomatch h) (fun h => nomatch h)

/-! The lanes of the sets that the vote names. -/

theorem getLsbD_votable (t : SliceSt) (l : Nat) (hl : l < 32) :
    t.votable.getLsbD l = true ↔ (t.thread l).st = .live := by
  rw [SliceSt.votable, getLsbD_lanesWhere _ l hl, beq_iff_eq]

theorem getLsbD_atCounter (t : SliceSt) (m : Lanes) (p : Word) (l : Nat) (hl : l < 32) :
    (t.atCounter m p).getLsbD l = true ↔ m.getLsbD l = true ∧ (t.thread l).pc = p := by
  rw [SliceSt.atCounter, getLsbD_lanesWhere _ l hl, Bool.and_eq_true, beq_iff_eq]

theorem getLsbD_off_atCounter (t : SliceSt) (m : Lanes) (p : Word) (l : Nat) (hl : l < 32) :
    (m &&& ~~~t.atCounter m p).getLsbD l = true ↔ m.getLsbD l = true ∧ (t.thread l).pc ≠ p := by
  have hat := getLsbD_atCounter t m p l hl
  rw [BitVec.getLsbD_and, BitVec.getLsbD_not, decide_eq_true hl, Bool.true_and, Bool.and_eq_true, Bool.not_eq_true',
    ← Bool.not_eq_true, hat]
  exact and_congr_right fun hm => not_congr (and_iff_right hm)

/-- A thread is at one counter (R53). -/
theorem atCounter_and_atCounter (t : SliceSt) (m : Lanes) {p q : Word} (h : p ≠ q) :
    t.atCounter m p &&& t.atCounter m q = 0 := by
  refine BitVec.eq_of_getLsbD_eq fun l hl => ?_
  have hno : ¬ (t.atCounter m p &&& t.atCounter m q).getLsbD l = true := by
    rw [BitVec.getLsbD_and, Bool.and_eq_true, getLsbD_atCounter t m p l hl, getLsbD_atCounter t m q l hl]
    rintro ⟨⟨-, hp⟩, -, hq⟩
    exact h (hp.symm.trans hq)
  rw [Bool.eq_false_iff.2 hno]
  exact BitVec.getLsbD_zero.symm

theorem voters_of_no_run {w : Wave} (h : w.run = none) (sl : Slice) : w.voters sl = (w.slice sl).votable := by
  simp only [Wave.voters, h]

/-! The groups of a vote. -/

/-- The issue group of the voters of a slice that stand at a counter. -/
def groupAt (g : Workgroup) (w : Wave) (sl : Slice) (p : Word) : Issue :=
  ⟨⟨g.id, w.id⟩, sl, (w.slice sl).atCounter (w.voters sl) p, p⟩

theorem vote_eq_none_iff (s : State) (g : Workgroup) (w : Wave) (sl : Slice) :
    s.vote g w sl = none ↔ (w.slice sl).lowestOf (w.voters sl) = none := by
  unfold State.vote
  cases h : (w.slice sl).lowestOf (w.voters sl) <;> simp only [h, reduceCtorEq]

/-- Without an overdue thread, the vote gives the group at the lowest counter, and with it at most the group at the lowest of
the other counters (R53, R54). -/
theorem vote_cases {s : State} {g : Workgroup} {w : Wave} {sl : Slice} {u : Issue} {second : Option Issue}
    (ho : (w.slice sl).overdue (w.voters sl) = 0) (h : s.vote g w sl = some (u, second)) :
    u = groupAt g w sl u.pc ∧ (w.slice sl).lowestOf (w.voters sl) = some u.pc ∧
    ∀ v, second = some v →
      v = groupAt g w sl v.pc ∧
      (w.slice sl).lowestOf (w.voters sl &&& ~~~(w.slice sl).atCounter (w.voters sl) u.pc) = some v.pc := by
  have hnone : (w.slice sl).lowestOf ((w.slice sl).overdue (w.voters sl)) = none := by
    rw [lowestOf_eq_none_iff, ho]
    exact fun l _ => Bool.eq_false_iff.1 BitVec.getLsbD_zero
  unfold State.vote at h
  simp only [hnone] at h
  cases hp : (w.slice sl).lowestOf (w.voters sl) with
  | none => simp only [hp, reduceCtorEq] at h
  | some p =>
    simp only [hp, Option.some_inj, Prod.mk.injEq] at h
    obtain ⟨rfl, rfl⟩ := h
    refine ⟨rfl, rfl, fun v hv => ?_⟩
    obtain ⟨q, hq, hv⟩ := Option.bind_eq_some_iff.mp hv
    obtain ⟨-, hv⟩ := Option.ite_none_right_eq_some.mp hv
    obtain rfl := Option.some_inj.mp hv
    exact ⟨rfl, hq⟩

end Sys2Proof.Machine

namespace Sys2Proof.Proofs

open Sys2Proof Sys2Proof.Machine

/-- Settles O50: the vote folds the lowest counter over the voters, and over those that the first group leaves. -/
theorem voteGroupsTheLowestCounters : Obligations.VoteGroupsTheLowestCounters := by
  intro s g w sl hrun ho t votes
  have hm : w.voters sl = t.votable := voters_of_no_run hrun sl
  have hvotes (l : Nat) : votes l ↔ l < 32 ∧ t.votable.getLsbD l = true :=
    and_congr_right fun hl => (getLsbD_votable t l hl).symm
  have hem (p : Word) (l : Nat) (hl : l < 32) :
      (t.atCounter t.votable p).getLsbD l = true ↔ votes l ∧ (t.thread l).pc = p := by
    rw [getLsbD_atCounter t _ p l hl, hvotes, and_iff_right hl]
  refine ⟨?_, fun u second h => ?_⟩
  · rw [vote_eq_none_iff, hm, lowestOf_eq_none_iff]
    exact forall_congr' fun l => (not_congr (hvotes l)).trans not_and |>.symm
  obtain ⟨hu, hp, hsecond⟩ := vote_cases (hm ▸ ho) h
  rw [hm] at hp
  obtain ⟨⟨l, hl, hlm, hlp⟩, hlow⟩ := lowestIn_of_lowestOf hp
  have huem : u.em = t.atCounter t.votable u.pc := hm ▸ congrArg Issue.em hu
  refine ⟨congrArg Issue.w hu, congrArg Issue.sl hu, ⟨l, (hvotes l).2 ⟨hl, hlm⟩, hlp⟩, fun k hk => ?_, fun k hk => ?_,
    fun v hv => ?_⟩
  · obtain ⟨hk, hkm⟩ := (hvotes k).1 hk
    exact hlow k hk hkm
  · rw [huem, hem u.pc k hk]
  obtain ⟨hv, hq⟩ := hsecond v hv
  rw [hm] at hq
  obtain ⟨⟨j, hj, hjm, hjq⟩, hnext⟩ := lowestIn_of_lowestOf hq
  obtain ⟨hjm, hjp⟩ := (getLsbD_off_atCounter t _ u.pc j hj).1 hjm
  have hvem : v.em = t.atCounter t.votable v.pc := hm ▸ congrArg Issue.em hv
  have hle : u.pc ≤ v.pc := hjq ▸ hlow j hj hjm
  have hne : u.pc ≠ v.pc := fun e => hjp (hjq.trans e.symm)
  refine ⟨(congrArg Issue.w hv).trans (congrArg Issue.w hu).symm, congrArg Issue.sl hv, ⟨j, (hvotes j).2 ⟨hj, hjm⟩, hjq⟩,
    by bv_omega, fun k hk hkp => ?_, fun k hk => ?_, ?_⟩
  · obtain ⟨hk, hkm⟩ := (hvotes k).1 hk
    exact hnext k hk ((getLsbD_off_atCounter t _ u.pc k hk).2 ⟨hkm, hkp⟩)
  · rw [hvem, hem v.pc k hk]
  · rw [huem, hvem]
    exact atCounter_and_atCounter t _ hne

end Sys2Proof.Proofs
end

section
/-!
SUPPORT. The AtomicOps of the host at the Lantern bank (R460, R466): the bytes of a number, the line that an aligned access lies
in, what taking back the host's copies leaves in device memory, and the parts of the state that an access at `.sys` changes.
-/
namespace Sys2Proof

/-! The bytes of a number, the lowest first (R3). -/

theorem length_bytesOf (x n : Nat) : (bytesOf x n).length = n := by
  induction n generalizing x with
  | zero => rfl
  | succ n ih => rw [bytesOf, List.length_cons, ih]

theorem ofBytes_lt (bs : List Byte) : ofBytes bs < 2 ^ (8 * bs.length) := by
  induction bs with
  | nil => exact Nat.one_pos
  | cons b bs ih =>
    have hb : b.toNat < 256 := b.isLt
    have hp : 2 ^ (8 * (b :: bs).length) = 256 * 2 ^ (8 * bs.length) := by
      rw [List.length_cons, Nat.mul_succ, Nat.pow_add, Nat.mul_comm]
    rw [ofBytes, hp]
    omega

theorem ofBytes_bytesOf {x n : Nat} (h : x < 2 ^ (8 * n)) : ofBytes (bytesOf x n) = x := by
  induction n generalizing x with
  | zero => exact (Nat.lt_one_iff.mp h).symm
  | succ n ih =>
    have hx : x / 256 < 2 ^ (8 * n) := Nat.div_lt_of_lt_mul (by rwa [Nat.mul_succ, Nat.pow_add, Nat.mul_comm] at h)
    rw [bytesOf, ofBytes, ih hx, BitVec.toNat_ofNat, Nat.mod_mod, Nat.mod_add_div]

end Sys2Proof

namespace Sys2Proof.Claims

/-- The value of bytes that the statements use is the model's own. -/
theorem natOfBytes_eq_ofBytes (bs : List Byte) : natOfBytes bs = ofBytes bs := by
  induction bs with
  | nil => rfl
  | cons b bs ih => rw [ofBytes, ← ih]; rfl

end Sys2Proof.Claims

namespace Sys2Proof.Machine

open Sys2Proof Sys2Proof.Claims

/-! A range within one line. -/

theorem linesIn_of_within_line {a n : Nat} (hn : 0 < n) (h : a % 128 + n ≤ 128) : linesIn a n = [lineOf a] := by
  have hfirst : lineOf a < a + n := by unfold lineOf; omega
  have hnext (k : Nat) : ¬ lineOf a + 128 * (k + 1) < a + n := by unfold lineOf; omega
  rw [linesIn, List.range_succ_eq_map]
  simp only [List.filterMap_cons, List.filterMap_map, Function.comp_def, Nat.mul_zero, Nat.add_zero, Nat.succ_eq_add_one,
    hfirst, hnext, if_true, if_false]
  exact congrArg (lineOf a :: ·) (List.filterMap_eq_nil_iff.mpr fun _ _ => rfl)

/-- The test of the model for the lines that an engine owns is the condition that the statements name (R300). -/
theorem ownedIn_iff_hostOwned {s : State} {a n : Nat} (hn : 0 < n) (h : a % 128 + n ≤ 128) :
    s.ownedIn a n = true ↔ HostOwned s a n := by
  simp only [State.ownedIn, linesIn_of_within_line hn h, List.any_cons, List.any_nil, Bool.or_false, List.any_eq_true,
    beq_iff_eq, HostOwned]
  refine exists_congr fun o => and_congr_right fun _ => ⟨fun e => ⟨a, Nat.le_refl a, by omega, e⟩, ?_⟩
  rintro ⟨b, hab, hb, e⟩
  rw [e, lineOf]
  omega

/-! The host's modified bytes as an association list. -/

theorem lookup_filter_fst {β : Type} (p : Nat → Bool) (l : List (Nat × β)) (a : Nat) :
    (l.filter fun c => p c.1).lookup a = if p a then l.lookup a else none := by
  induction l with
  | nil => simp
  | cons c l ih =>
    obtain ⟨k, b⟩ := c
    by_cases ha : a = k
    · subst ha
      cases hp : p a <;> simp [hp, ih]
    · have hne : (a == k) = false := beq_false_of_ne ha
      cases hp : p k <;> simp [List.lookup_cons, hp, hne, ih]

/-- Cells of distinct addresses written one after the other: a byte is the cell of its address, or as it was. -/
theorem get_foldl_set {m : List Host.Cell} (hm : Mem.wf m = true) {cs : List Host.Cell} (hd : (cs.map Prod.fst).Nodup) (a : Nat) :
    Mem.get (cs.foldl (fun m c => Mem.set m c.1 c.2) m) a = (cs.lookup a).getD (Mem.get m a) := by
  induction cs generalizing m with
  | nil => rfl
  | cons c cs ih =>
    obtain ⟨hc, hd⟩ := List.nodup_cons.mp hd
    rw [List.foldl_cons, ih (wf_set hm c.1 c.2) hd, get_set_mem hm, List.lookup_cons]
    by_cases ha : a = c.1
    · have hnone : cs.lookup a = none := List.lookup_eq_none_iff.mpr fun d hdm =>
        bne_iff_ne.mpr fun e => hc (ha ▸ e ▸ List.mem_map_of_mem hdm)
      simp [ha ▸ hnone, ha]
    · have hne : (a == c.1) = false := beq_false_of_ne ha
      simp [ha, hne]

/-! Taking back the host's copies of a line (R460). -/

theorem wf_recallHost {s : State} (hm : Mem.wf s.dmem = true) (pa : Nat) : Mem.wf (s.recallHost pa).dmem = true :=
  wf_foldl_set hm _

/-- Device memory takes the host's modified bytes of the line, and keeps every other byte. -/
theorem get_recallHost {s : State} (hm : Mem.wf s.dmem = true) (hd : (s.hcache.map Prod.fst).Nodup) (pa a : Nat) :
    Mem.get (s.recallHost pa).dmem a = (if lineOf a == lineOf pa then s.hcache.lookup a else none).getD (Mem.get s.dmem a) := by
  have hsub : ((s.hcache.filter fun c => lineOf c.1 == lineOf pa).map Prod.fst).Nodup :=
    hd.sublist (List.filter_sublist.map _)
  rw [State.recallHost, get_foldl_set hm hsub, lookup_filter_fst fun x => lineOf x == lineOf pa]

/-- Once its modified bytes are taken back, the host has none of the line to give. -/
theorem recallHost_dmem_of_recalled {s t : State} {pa : Nat} (h : t.hcache = (s.recallHost pa).hcache) :
    (t.recallHost pa).dmem = t.dmem := by
  have hnil : t.hcache.filter (fun c => lineOf c.1 == lineOf pa) = [] := by
    simp [h, State.recallHost, List.filter_filter]
  rw [State.recallHost, hnil]
  rfl

theorem recallHost_lineOf (s : State) (a : Nat) : s.recallHost (lineOf a) = s.recallHost a := by
  have e : lineOf (lineOf a) = lineOf a := by unfold lineOf; omega
  simp only [State.recallHost, e]

theorem inHostBias_lineOf (s : State) (a : Nat) : s.inHostBias (lineOf a) = s.inHostBias a := by
  have e : lineOf a / 2 ^ 21 = a / 2 ^ 21 := by unfold lineOf; omega
  rw [State.inHostBias, State.inHostBias, e]

theorem recallBiased_of_within_line {s : State} {a n : Nat} (hn : 0 < n) (h : a % 128 + n ≤ 128) :
    s.recallBiased a n = if s.inHostBias a then s.recallHost a else s := by
  rw [State.recallBiased, linesIn_of_within_line hn h, List.filter_cons, inHostBias_lineOf]
  split
  · exact recallHost_lineOf s a
  · rfl

/-- A byte of device memory after the host's copies of the line are taken back, as far as its region is in host bias. -/
theorem get_recallBiased {s : State} {a n : Nat} (hn : 0 < n) (h : a % 128 + n ≤ 128) (hm : Mem.wf s.dmem = true)
    (hd : (s.hcache.map Prod.fst).Nodup) (j : Nat) : Mem.get (s.recallBiased a n).dmem j =
      (if s.inHostBias a && lineOf j == lineOf a then s.hcache.lookup j else none).getD (Mem.get s.dmem j) := by
  rw [recallBiased_of_within_line hn h]
  cases s.inHostBias a with
  | true => exact get_recallHost hm hd a j
  | false => rfl

theorem wf_recallBiased {s : State} {a n : Nat} (hm : Mem.wf s.dmem = true) : Mem.wf (s.recallBiased a n).dmem = true := by
  unfold State.recallBiased
  generalize (linesIn a n).filter s.inHostBias = ls
  induction ls generalizing s with
  | nil => exact hm
  | cons l ls ih => exact ih (wf_recallHost hm l)

/-! What an access at `.sys` to device memory may change. -/

/-- Only device memory, its lost bytes, the host's copies and the reached lines differ. -/
def OnlyBank (s t : State) : Prop :=
  t = { s with dmem := t.dmem, zeroed := t.zeroed, hcache := t.hcache, hshared := t.hshared, reached := t.reached }

theorem OnlyBank.trans {s t u : State} (h : OnlyBank s t) (h' : OnlyBank t u) : OnlyBank s u := by
  rw [OnlyBank] at h h' ⊢
  rw [h] at h'
  exact h'

theorem onlyBank_recallBiased (s : State) (a n : Nat) : OnlyBank s (s.recallBiased a n) := by
  unfold State.recallBiased
  generalize (linesIn a n).filter s.inHostBias = ls
  induction ls generalizing s with
  | nil => rfl
  | cons l ls ih => exact OnlyBank.trans (t := s.recallHost l) rfl (ih _)

theorem onlyBank_sysBytes (s : State) (p : Place) (n : Nat) : OnlyBank s (s.sysBytes p n).2 :=
  (onlyBank_recallBiased s p.pa n).trans rfl

theorem onlyBank_baseStore (s : State) (a : Nat) (bs : List Byte) : OnlyBank s (s.baseStore 4 a bs) :=
  (onlyBank_recallBiased s a bs.length).trans rfl

theorem baseStore_dmem (s : State) (a : Nat) (bs : List Byte) :
    (s.baseStore 4 a bs).dmem = Mem.write (s.recallBiased a bs.length).dmem a bs := rfl

/-- A store after a read of the same bytes at `.sys` finds the memory that the read left. -/
theorem recallBiased_sysBytes_dmem {s : State} {a n : Nat} (hn : 0 < n) (h : a % 128 + n ≤ 128) :
    ((s.sysBytes ⟨0, a⟩ n).2.recallBiased a n).dmem = (s.recallBiased a n).dmem := by
  have hb : (s.sysBytes ⟨0, a⟩ n).2.inHostBias a = s.inHostBias a := by
    rw [State.inHostBias, State.inHostBias, onlyBank_sysBytes s ⟨0, a⟩ n]
  have hr : (s.sysBytes ⟨0, a⟩ n).2 = (s.recallBiased a n).reachRange a n false := rfl
  rw [recallBiased_of_within_line hn h, hb, hr, recallBiased_of_within_line hn h]
  split
  · exact recallHost_dmem_of_recalled rfl
  · rfl

/-! The AtomicOps that R466 names. -/

theorem hostOk_of_namedAtomic {h : HostAtomic} (hn : namedAtomic h) : hostOk h = true := by
  simpa [hostOk, namedAtomic, or_assoc] using hn

theorem namedAtomic_within_line {h : HostAtomic} (hn : namedAtomic h) : 0 < h.size ∧ h.addr % 128 + h.size ≤ 128 := by
  obtain ⟨hsize, halign⟩ := hn
  rcases hsize with e | e | ⟨e, -⟩ <;> rw [e] at halign ⊢ <;> omega

theorem hostNew_eq_atomicValue (h : HostAtomic) (old : Nat) : hostNew h old = atomicValue h old := by
  unfold hostNew atomicValue
  cases h.op <;> rfl

/-- The new value fits the width of the AtomicOp. -/
theorem atomicValue_lt (h : HostAtomic) {old : Nat} (ho : old < 2 ^ (8 * h.size)) : atomicValue h old < 2 ^ (8 * h.size) := by
  have hmod (x : Nat) : x % 2 ^ (8 * h.size) < 2 ^ (8 * h.size) := Nat.mod_lt _ (Nat.two_pow_pos _)
  unfold atomicValue
  cases h.op with
  | fetchAdd | swap => exact hmod _
  | cas =>
    dsimp only
    split
    · exact hmod _
    · exact ho

/-- A named AtomicOp to device memory that no engine delays is a read and a store at `.sys`. -/
theorem exec_hostAtomicop_at_bank {s : State} {h : HostAtomic} (hn : namedAtomic h) (hown : h.own = false)
    (hend : h.addr + h.size ≤ 2 ^ 36) (ho : ¬ HostOwned s h.addr h.size) :
    exec (.hostAtomicop h) s = .next ((s.sysBytes ⟨0, h.addr⟩ h.size).2.baseStore 4 h.addr
      (bytesOf (atomicValue h (ofBytes (s.sysBytes ⟨0, h.addr⟩ h.size).1)) h.size)) := by
  obtain ⟨hpos, hline⟩ := namedAtomic_within_line hn
  have hfree : s.ownedIn h.addr h.size = false := Bool.eq_false_iff.mpr (mt (ownedIn_iff_hostOwned hpos hline).mp ho)
  have hmem : ¬ deviceBytes < h.addr + h.size := Nat.not_lt.mpr hend
  change execHostAtomicop h s = _
  simp [execHostAtomicop, hown, hmem, hostOk_of_namedAtomic hn, hfree, hostNew_eq_atomicValue]

end Sys2Proof.Machine

namespace Sys2Proof.Proofs

open Sys2Proof Sys2Proof.Claims Sys2Proof.Machine

/-- Settles O48: the read takes the host's bytes of the line back, so the store that follows it finds the same memory and
replaces the bytes of the AtomicOp alone. -/
theorem hostAtomicsAtTheBank : Obligations.HostAtomicsAtTheBank := by
  intro s h hn hown hend ho hd hm held seen
  obtain ⟨hpos, hline⟩ := namedAtomic_within_line hn
  have hlen (x : Nat) : (bytesOf x h.size).length = h.size := length_bytesOf x h.size
  have hseen (a : Nat) : Mem.get (s.recallBiased h.addr h.size).dmem a = seen a := by
    have hl : (lineOf a == lineOf h.addr) = (a / 128 == h.addr / 128) := by
      rw [Bool.eq_iff_iff, beq_iff_eq, beq_iff_eq, lineOf, lineOf]
      omega
    rw [get_recallBiased hpos hline hm hd, hl]
    rfl
  have hold : (s.sysBytes ⟨0, h.addr⟩ h.size).1 = (List.range h.size).map fun j => seen (h.addr + j) :=
    List.map_congr_left fun j _ => hseen (h.addr + j)
  have hfit : ofBytes (s.sysBytes ⟨0, h.addr⟩ h.size).1 < 2 ^ (8 * h.size) := by
    simpa [hold] using ofBytes_lt (s.sysBytes ⟨0, h.addr⟩ h.size).1
  have hwf : Mem.wf (s.recallBiased h.addr h.size).dmem = true := wf_recallBiased hm
  refine ⟨_, exec_hostAtomicop_at_bank hn hown hend ho, (onlyBank_sysBytes s _ _).trans (onlyBank_baseStore _ _ _), ?_,
    fun a ha => ?_⟩
  · have hread := read_write_self hwf h.addr (bytesOf (atomicValue h (ofBytes (s.sysBytes ⟨0, h.addr⟩ h.size).1)) h.size)
    rw [hlen] at hread
    rw [baseStore_dmem, hlen, recallBiased_sysBytes_dmem hpos hline, hread, natOfBytes_eq_ofBytes,
      ofBytes_bytesOf (atomicValue_lt h hfit), natOfBytes_eq_ofBytes, hold]
  · rw [baseStore_dmem, hlen, recallBiased_sysBytes_dmem hpos hline, get_write_outside hwf (by rwa [hlen]), hseen]

end Sys2Proof.Proofs
end
